-- ==== Sys2Proof/Word.lean ====
section
/-! DEFINITION. The word types of the FSB: bytes, command and bus words, selector and counter widths
(spec/00_scope.md R6, R7). -/

namespace Sys2Proof

/-- One byte of a buffer, a file or a bus request (R6, R40). -/
abbrev Byte := BitVec 8

/-- A 16-bit value: a file identifier, a CPU address, the program-bank selector (R17, R60, R63). -/
abbrev Half := BitVec 16

/-- A 32-bit value: a command word, a bus word, `result`, one `XD` register, a record value (R12, R60, R63, R67). -/
abbrev Word := BitVec 32

/-- A 64-bit counter (R27, R29). -/
abbrev Dword := BitVec 64

end Sys2Proof
end

