-- ==== Sys2Proof/Syntax.lean ====
section
/-! DEFINITION. The operations of the FSB: one constructor per row of spec/opcode_table.json, eleven commands on the
HOST's command port (R61) and four bus requests on the interpreter's bus port (R64). -/

namespace Sys2Proof

/-- The two ports an operation word can stand on: the separation is wiring, not a mode (R190). -/
inductive Port where
  | command
  | bus
  deriving DecidableEq, Repr

/-- The operations. A bank number and a count are numbers (R60, `ARG`), a file identifier, an address and a selector
value are bit patterns (R17, R61, R63). -/
inductive Instr where
  /-- CART_LOAD id (R80). -/
  | cartLoad (id : Half)
  /-- CART_UNLOAD (R110). -/
  | cartUnload
  /-- BANK_LOAD n (R100). -/
  | bankLoad (n : Nat)
  /-- PRELOAD count (R111). -/
  | preload (count : Nat)
  /-- SRAM_SAVE id, quick (R120). -/
  | sramSave (id : Half) (quick : Bool)
  /-- SRAM_LOAD id (R127). -/
  | sramLoad (id : Half)
  /-- STATE_SAVE id (R140). -/
  | stateSave (id : Half)
  /-- STATE_LOAD id (R147). -/
  | stateLoad (id : Half)
  /-- FRAME draw (R160). -/
  | frame (draw : Bool)
  /-- RTC_GET (R134). -/
  | rtcGet
  /-- RTC_SET (R135). -/
  | rtcSet
  /-- RD addr (R108, R109, R116). -/
  | rd (addr : Half)
  /-- WR addr, data (R109, R115, R116). -/
  | wr (addr : Half) (data : Byte)
  /-- SELROM v (R112). -/
  | selrom (v : Half)
  /-- SELRAM v (R113). -/
  | selram (v : Byte)
  deriving DecidableEq, Repr

/-- The port each operation is presented on (R61, R64). -/
def Instr.port : Instr → Port
  | .cartLoad _ => .command
  | .cartUnload => .command
  | .bankLoad _ => .command
  | .preload _ => .command
  | .sramSave _ _ => .command
  | .sramLoad _ => .command
  | .stateSave _ => .command
  | .stateLoad _ => .command
  | .frame _ => .command
  | .rtcGet => .command
  | .rtcSet => .command
  | .rd _ => .bus
  | .wr _ _ => .bus
  | .selrom _ => .bus
  | .selram _ => .bus

/-! ### Pseudo-operations (R75): aliases with no semantics of their own -/

/-- SRAM_SAVE_FULL id (R75). -/
abbrev Instr.sramSaveFull (id : Half) : Instr := .sramSave id false
/-- SRAM_SAVE_QUICK id (R75). -/
abbrev Instr.sramSaveQuick (id : Half) : Instr := .sramSave id true
/-- FRAME_SKIP (R75). -/
abbrev Instr.frameSkip : Instr := .frame false
/-- FRAME_DRAW (R75). -/
abbrev Instr.frameDraw : Instr := .frame true
/-- RELEASE_ALL (R75). -/
abbrev Instr.releaseAll : Instr := .cartUnload

end Sys2Proof
end

