-- ==== Sys2Proof/WellFormed.lean ====
section
/-! DEFINITION. Which operations have a word: a bank number and a count fit the 16-bit ARG field (R60). Every other
operand is as wide as its field by its type. -/

namespace Sys2Proof

/-- A bank number and a count are 16-bit unsigned operands (R60, R61). -/
def Instr.wellFormed : Instr → Bool
  | .cartLoad _ => true
  | .cartUnload => true
  | .bankLoad n => decide (n < 65536)
  | .preload count => decide (count < 65536)
  | .sramSave _ _ => true
  | .sramLoad _ => true
  | .stateSave _ => true
  | .stateLoad _ => true
  | .frame _ => true
  | .rtcGet => true
  | .rtcSet => true
  | .rd _ => true
  | .wr _ _ => true
  | .selrom _ => true
  | .selram _ => true

end Sys2Proof
end

