-- ==== Sys2Proof/Decode.lean ====
section
/-! DEFINITION. The decoder of the two ports, total on any 32-bit word and rejecting by name (R60, R61, R63, R64, R71,
R72), and the encoder (R60 to R64, R74). -/

namespace Sys2Proof

/-- Why a word is reserved (R71 for the command port, R72 for the bus port). -/
inductive DecodeError where
  /-- OPC is 0x00 or above 0x0B (R71). -/
  | reservedOpcode
  /-- A bit of FLG[7:1] is set (R71). -/
  | reservedFlag
  /-- FLG[0] is set on a command that has no flag (R71). -/
  | flagNotAllowed
  /-- ARG is not zero on a command that has no operand (R71). -/
  | argNotAllowed
  /-- A bit of BW[31:27] is set (R72). -/
  | reservedBusBits
  /-- KIND is 4 to 7 (R72). -/
  | reservedKind
  /-- DATA is not zero on RD or SELROM (R72). -/
  | dataNotAllowed
  /-- ADDR is not zero on SELRAM (R72). -/
  | addrNotAllowed
  deriving DecidableEq, Repr

/-- The bit slice v[hi:lo] as an unsigned number (R6). -/
def bitSlice (v : Word) (hi lo : Nat) : Nat := v.toNat / 2 ^ lo % 2 ^ (hi + 1 - lo)

/-- OPC, FLG and ARG of a command word (R60). -/
def cmdOpc (w : Word) : Nat := bitSlice w 31 24
def cmdFlg (w : Word) : Nat := bitSlice w 23 16
def cmdArg (w : Word) : Nat := bitSlice w 15 0

/-- The zero field, KIND, ADDR and DATA of a bus word (R63). -/
def busZero (w : Word) : Nat := bitSlice w 31 27
def busKind (w : Word) : Nat := bitSlice w 26 24
def busAddr (w : Word) : Nat := bitSlice w 23 8
def busData (w : Word) : Nat := bitSlice w 7 0

/-- A command whose row says FLG[0] must be 0 (R61, R71). -/
def noFlag (flg : Nat) (i : Instr) : Except DecodeError Instr :=
  if flg = 0 then .ok i else .error .flagNotAllowed

/-- A command whose row says FLG[0] and ARG must both be 0 (R61, R71). -/
def noOperand (flg arg : Nat) (i : Instr) : Except DecodeError Instr :=
  if flg = 0 then (if arg = 0 then .ok i else .error .argNotAllowed) else .error .flagNotAllowed

/-- The command table of R61, with FLG and ARG already cut out and FLG[7:1] = 0. -/
def decodeOpc (opc flg arg : Nat) : Except DecodeError Instr :=
  match opc with
  | 0x01 => noFlag flg (.cartLoad (BitVec.ofNat 16 arg))
  | 0x02 => noOperand flg arg .cartUnload
  | 0x03 => noFlag flg (.bankLoad arg)
  | 0x04 => noFlag flg (.preload arg)
  | 0x05 => .ok (.sramSave (BitVec.ofNat 16 arg) (flg == 1))
  | 0x06 => noFlag flg (.sramLoad (BitVec.ofNat 16 arg))
  | 0x07 => noFlag flg (.stateSave (BitVec.ofNat 16 arg))
  | 0x08 => noFlag flg (.stateLoad (BitVec.ofNat 16 arg))
  | 0x09 => if arg = 0 then .ok (.frame (flg == 1)) else .error .argNotAllowed
  | 0x0A => noOperand flg arg .rtcGet
  | 0x0B => noOperand flg arg .rtcSet
  | _ => .error .reservedOpcode

/-- The decoder of the command port (R60, R61, R71). -/
def decodeCommand (w : Word) : Except DecodeError Instr :=
  if cmdFlg w < 2 then decodeOpc (cmdOpc w) (cmdFlg w) (cmdArg w) else .error .reservedFlag

/-- The bus table of R64, with the fields already cut out. -/
def decodeKind (kind addr data : Nat) : Except DecodeError Instr :=
  match kind with
  | 0 => if data = 0 then .ok (.rd (BitVec.ofNat 16 addr)) else .error .dataNotAllowed
  | 1 => .ok (.wr (BitVec.ofNat 16 addr) (BitVec.ofNat 8 data))
  | 2 => if data = 0 then .ok (.selrom (BitVec.ofNat 16 addr)) else .error .dataNotAllowed
  | 3 => if addr = 0 then .ok (.selram (BitVec.ofNat 8 data)) else .error .addrNotAllowed
  | _ => .error .reservedKind

/-- The decoder of the bus port (R63, R64, R72). -/
def decodeBus (w : Word) : Except DecodeError Instr :=
  if busZero w = 0 then decodeKind (busKind w) (busAddr w) (busData w) else .error .reservedBusBits

/-- The decoder: which table applies is the port's (R190). -/
def decode (p : Port) (w : Word) : Except DecodeError Instr :=
  match p with
  | .command => decodeCommand w
  | .bus => decodeBus w

/-! ### The encoder -/

/-- A command word from its three fields (R60). -/
def cmdWord (opc flg arg : Nat) : Word := BitVec.ofNat 32 (opc * 2 ^ 24 + flg * 2 ^ 16 + arg)

/-- A bus word from its fields (R63). -/
def busWord (kind addr data : Nat) : Word := BitVec.ofNat 32 (kind * 2 ^ 24 + addr * 2 ^ 8 + data)

/-- The word of an operation, the second column of R74's table; for a well-formed operation the port's decoder reads
it back. -/
def encode : Instr → Word
  | .cartLoad id => cmdWord 0x01 0 id.toNat
  | .cartUnload => cmdWord 0x02 0 0
  | .bankLoad n => cmdWord 0x03 0 n
  | .preload count => cmdWord 0x04 0 count
  | .sramSave id quick => cmdWord 0x05 quick.toNat id.toNat
  | .sramLoad id => cmdWord 0x06 0 id.toNat
  | .stateSave id => cmdWord 0x07 0 id.toNat
  | .stateLoad id => cmdWord 0x08 0 id.toNat
  | .frame draw => cmdWord 0x09 draw.toNat 0
  | .rtcGet => cmdWord 0x0A 0 0
  | .rtcSet => cmdWord 0x0B 0 0
  | .rd addr => busWord 0 addr.toNat 0
  | .wr addr data => busWord 1 addr.toNat data.toNat
  | .selrom v => busWord 2 v.toNat 0
  | .selram v => busWord 3 0 v.toNat

/-! ### One word without its port

The opcode table lists both ports' words in one numbering, and the two formats overlap: 0x01000000 is CART_LOAD 0 on
the command port and WR 0, 0 on the bus port. On the hardware the port decides. Where a word is given without one, the
row that fixes more bits of it decides (log entry 14). -/

/-- How many bits of the word an operation's row fixes: the set bits of its mask in spec/opcode_table.json. -/
def fixedBits : Instr → Nat
  | .cartLoad _ => 16
  | .cartUnload => 32
  | .bankLoad _ => 16
  | .preload _ => 16
  | .sramSave _ _ => 15
  | .sramLoad _ => 16
  | .stateSave _ => 16
  | .stateLoad _ => 16
  | .frame _ => 31
  | .rtcGet => 32
  | .rtcSet => 32
  | .rd _ => 16
  | .wr _ _ => 8
  | .selrom _ => 16
  | .selram _ => 24

/-- The port a word is taken to stand on when none is given: of the ports whose decoder accepts it, the one whose row
fixes more bits, the command port where neither decides. -/
def portOfWord (w : Word) : Port :=
  match decodeCommand w, decodeBus w with
  | .error _, .ok _ => .bus
  | .ok i, .ok j => if fixedBits i < fixedBits j then .bus else .command
  | _, _ => .command

/-- The instruction the decoder reads from a table word (host interface). -/
def decodeTableWord (_nbits w : Nat) : Option Instr :=
  if w < 2 ^ 32 then (decode (portOfWord (BitVec.ofNat 32 w)) (BitVec.ofNat 32 w)).toOption else none

end Sys2Proof
end

