-- ==== Sys2Proof/Config.lean ====
section
/-! DEFINITION. The parameters of spec/00_scope.md R4 (as plain data, quantified over in every claim), the constants
the source fixes, the names of the machine registers and regions the FSB copies (R31, R32), what the environment
and the host may do (R5, R163), and the free values: opaque constants that nothing can evaluate. -/

namespace Sys2Proof

/-! ### Constants the source fixes (R4, status "src" or decided) -/

/-- ROM_PAGE (R4). -/
abbrev romPage : Nat := 16384
/-- RAM_PAGE (R4). -/
abbrev ramPage : Nat := 8192
/-- UNIT and HDR_SIZE: one save-state unit (R4). -/
abbrev unitSize : Nat := 4096
/-- HDR_MIN: bytes of cartridge file the header parser needs (R4, R81). -/
abbrev hdrMin : Nat := 512
/-- Number of entries of the bank table: `slot[0..511]` (R18). -/
abbrev slotCount : Nat := 512
/-- MAX_RECORDS: record slots below the first embedded region (R4, R67). -/
abbrev maxRecords : Nat := 414
/-- RTC_REC_SIZE (R4, R70). -/
abbrev rtcRecSize : Nat := 48
/-- PRELOAD_MAX (R4, R90). -/
abbrev preloadMax : Nat := 64
/-- PRELOAD_KEEP (R4, R90). -/
abbrev preloadKeep : Nat := 40
/-- VIS_LO (R4, R162). -/
abbrev visLo : Nat := 1
/-- VIS_END (R4, R162). -/
abbrev visEnd : Nat := 144

/-- The four ASCII bytes of a record tag, first character first: a byte string, not a number (R47, R67). -/
structure Tag where
  b0 : Byte
  b1 : Byte
  b2 : Byte
  b3 : Byte
  deriving DecidableEq, Repr

/-- The zero tag that ends a record list (R68). -/
def Tag.zero : Tag := ⟨0, 0, 0, 0⟩

/-- The identifiers a REG_TABLE entry may name (R31). `rambank` and `bootromOff` are the two the spec fixes
(ID_RAMBANK, ID_BOOTROM_OFF); `rombank`, the clock fields and the tick accumulator are FSB registers that "any other
register" of R31 and R156 admit, the 64-bit accumulator as its two 32-bit halves, since no entry is wider than 4 bytes
(log entry 21); `ioreg k` is a destination that is also byte `k` of IOREGS (R150); `other n` is a machine register of
the collaborators. -/
inductive RegId where
  | rambank
  | bootromOff
  | rombank
  | rtcSec
  | rtcMin
  | rtcHour
  | rtcDay
  | rtcLatch
  | rtcSel
  | rtcFlags
  | rtcReg (j : Fin 5)
  | rtcTicksLow
  | rtcTicksHigh
  | ioreg (k : Nat)
  | other (n : Nat)
  deriving DecidableEq, Repr

/-- One (tag, width, source) triple of REG_TABLE (R4, R142); `width` is in bytes. -/
structure RegEntry where
  tag   : Tag
  width : Nat
  id    : RegId
  deriving DecidableEq, Repr

/-- One range of type bytes with its controller family (R87). -/
structure FamilyRange where
  lo     : Byte
  hi     : Byte
  family : BitVec 4
  deriving DecidableEq, Repr

/-- TYPE_MAP (R87): an ascending list of ranges for the family, the first match winning, and for each feature flag
the type bytes that have it. -/
structure TypeMap where
  families : List FamilyRange
  battery  : List Byte
  rtc      : List Byte
  rumble   : List Byte
  motion   : List Byte
  deriving DecidableEq, Repr

/-- The contents of COLORIZE's tables (R88), all OPEN: how many bits of the title sum count, the checksum table, the
disambiguation table (index above 0x40, fourth title character, palette index), and the index an unmatched
disambiguation falls through to. -/
structure ColorTables where
  sumBits : Nat
  sums    : List Nat
  letters : List (Nat × Byte × Byte)
  through : List (Nat × Byte)
  deriving DecidableEq, Repr

/-- COLORIZE (R88, 92_eei_decisions.md D23: any total function of the title): the source's two-stage lookup over tables,
or the function's own graph, a title it does not list having the index 0 (log entry 19). -/
inductive ColorMap where
  | tables (t : ColorTables)
  | graph (g : List (List Byte × Byte))
  deriving DecidableEq, Repr

/-- The parameters of the step relation (R4, R35), fixed for the machine: every claim quantifies over them, since it
quantifies over the state that carries them and no step changes them. -/
structure Config where
  qHead         : Nat
  qSkip         : Nat
  poolSize      : Nat
  ramCap        : Nat
  ticksPerSec   : Nat
  rtcEpoch      : Dword
  formatVersion : Word
  versionTag    : Tag
  regTable      : List RegEntry
  preloadTitles : List (List Byte)
  typeMap       : TypeMap
  color         : ColorMap
  /-- STORAGE's own naming (R46, R51): the file an identifier names, where it is not the identifier's own number. No
  relation between identifiers is assumed (91_not_in_source.md N22), so two of them may name one file. -/
  fileNames     : List (Nat × Nat)
  deriving DecidableEq, Repr

/-- The configuration of 95_test_vectors.md section 0, which State.reset carries: the defaults of R4 and, for the
parameters without one, the vectors' made-up values. Marked DESIGN CHOICE, log entry 2: no claim rests on it. -/
def Config.reference : Config where
  qHead := 2280
  qSkip := 32832
  poolSize := 64
  ramCap := 16
  ticksPerSec := 2097152
  rtcEpoch := 0
  formatVersion := 0x00000107
  versionTag := ⟨0x56, 0x45, 0x52, 0x53⟩
  regTable :=
    [⟨⟨0x72, 0x62, 0x6E, 0x6B⟩, 1, .rambank⟩,
     ⟨⟨0x62, 0x6F, 0x6F, 0x74⟩, 1, .bootromOff⟩,
     ⟨⟨0x70, 0x63, 0x20, 0x20⟩, 2, .other 0⟩]
  preloadTitles := []
  typeMap :=
    { families := [⟨0x03, 0x03, 1⟩, ⟨0x10, 0x10, 2⟩]
      battery := [0x03, 0x10], rtc := [0x10], rumble := [], motion := [] }
  color := .graph []
  fileNames := []

/-! ### What the agents outside the block may do (R5) -/

/-- The machine memory regions owned by the collaborators (R32). -/
inductive Region where
  | wram
  | vram
  | wave
  | ioregs
  | pal
  | oam
  deriving DecidableEq, Repr

/-- The clock registers that R24 says the excluded memory-controller logic writes: the latch, the select, and the five
shadow registers. -/
inductive ControllerReg where
  | latch
  | sel
  | shadow (j : Fin 5)
  deriving DecidableEq, Repr

/-- One action while a quantum runs. Of ENV (R163): a bus request, a write of a shared input, of a machine register or
of a machine memory byte, the acknowledgement that ends the quantum. Not of ENV: a write by the excluded
memory-controller logic, which R24 names as a writer of three kinds of clock register and which acts while the
interpreter runs; and the reset input, which may be asserted at any moment (R200). -/
inductive EnvAct where
  | bus (bw : Word)
  | setLy (v : Byte)
  | setLineCycles (v : Half)
  | setLcdOn (b : Bool)
  | setReg (id : RegId) (v : Word)
  | poke (r : Region) (off : Nat) (b : Byte)
  | done
  | controller (r : ControllerReg) (v : Byte)
  | reset
  deriving DecidableEq, Repr, Inhabited

/-- One action of the HOST (R5, R12, R62): present a command word, write one `XD` register; or the reset input (R200):
asserted on the block when it is idle, halted or hung; while the command just presented is in flight, after `k` storage
primitives; inside a FRAME between two quanta, after `k` more decisions of the scheduler. -/
inductive HostAct where
  | command (cw : Word)
  | setXD (i : Fin 10) (v : Word)
  | reset
  | commandReset (cw : Word) (k : Nat)
  | resetAfter (k : Nat)
  deriving DecidableEq, Repr

/-- What STORAGE does with a primitive (R52, R210): it lets it succeed, it answers `fail`, or it never answers. -/
inductive Answer where
  | ok
  | fail
  | never
  deriving DecidableEq, Repr, Inhabited

/-! ### Free values: what the spec leaves to an oracle or calls unspecified

Each is applied to the plain counter `freeCount` of State. They have no body: nothing can be proved about a value. -/

/-- What STORAGE does with the k-th storage primitive beyond the given answers (R52, R210). -/
opaque Config.freeAnswer : Nat → Answer
/-- The k-th unspecified bit (R201). -/
opaque Config.freeBool : Nat → Bool
/-- The k-th free choice beyond the given choices: a donor bank (R104) or a FREE frame (R103). -/
opaque Config.freeChoice : Nat → Nat
/-- The k-th action of ENV beyond the given script (R163). -/
opaque Config.freeEnv : Nat → EnvAct
/-- Byte i of the k-th block of unspecified bytes (R50, R107, R149, R201). -/
opaque Config.freeByte : Nat → Nat → Byte
/-- The k-th unspecified count: how far a failing write moved (R50). -/
opaque Config.freeNat : Nat → Nat

end Sys2Proof
end

