-- ==== Sys2Proof/Machine/State.lean ====
section
/-! DEFINITION. The state of the FSB as plain data (spec/10_state.md R10 to R36), with the plain data of the agents
around it: STORAGE's files and open handles (R51), and what STORAGE, the donor chooser, ENV and the HOST do next (R5). -/

namespace Sys2Proof.Machine

/-- A byte memory: (address, byte) pairs, addresses strictly rising, no byte zero. An unlisted address reads as zero. -/
abbrev Memory := List Host.Cell

/-- A sparse table: (key, value) pairs, keys strictly rising. An unlisted key is absent. -/
abbrev Tab (α : Type) := List (Nat × α)

/-- The hardware families of `cart.hwfamily` (R11, R86). -/
inductive HwFamily where
  | legacy
  | color
  | legacyColorFeat
  deriving DecidableEq, Repr

/-- The cartridge record (R11). -/
structure Cart where
  loaded     : Bool
  title      : List Byte
  mbc        : BitVec 4
  hwfamily   : HwFamily
  romsize    : Nat
  ramsize    : Nat
  hasBattery : Bool
  hasRtc     : Bool
  hasRumble  : Bool
  hasMotion  : Bool
  colorkey   : Byte
  cksum      : Half
  deriving DecidableEq, Repr

/-- Every cart field 0 (R11, R110): no cartridge. -/
def Cart.empty : Cart where
  loaded := false
  title := List.replicate 16 0
  mbc := 0
  hwfamily := .legacy
  romsize := 0
  ramsize := 0
  hasBattery := false
  hasRtc := false
  hasRumble := false
  hasMotion := false
  colorkey := 0
  cksum := 0

/-- The clock record (R24). -/
structure Rtc where
  sec   : Byte
  min   : Byte
  hour  : Byte
  day   : Half
  latch : Byte
  sel   : Byte
  flags : Byte
  regs  : Vector Byte 5
  deriving DecidableEq, Repr

/-- Every clock field 0 (R24, R89). -/
def Rtc.zero : Rtc where
  sec := 0
  min := 0
  hour := 0
  day := 0
  latch := 0
  sel := 0
  flags := 0
  regs := #v[0, 0, 0, 0, 0]

/-- The values of the `phase` register (R13); the two reserved codes are never taken. -/
inductive Phase where
  | idle
  | p1
  | p2
  | p3
  | p4s
  | p4l
  deriving DecidableEq, Repr

/-- The halt causes of `hcause` (R14, R181). -/
inductive Cause where
  | none
  | storage
  | alloc
  | range
  deriving DecidableEq, Repr

/-- The kind a quantum carries (R163). -/
inductive QKind where
  | head
  | line
  | skip
  deriving DecidableEq, Repr

/-- The quantum in flight: its cycle count and kind (R163). -/
structure Quantum where
  cycles : Nat
  kind   : QKind
  deriving DecidableEq, Repr

/-- The two warnings (R14, R185). -/
inductive Warning where
  | version
  | ramsize
  deriving DecidableEq, Repr

/-- The open modes of R51. -/
inductive Mode where
  | read
  | writeNew
  | writeUpdate
  deriving DecidableEq, Repr

/-- The handles the block can hold at once (R53, R214): the cartridge file's and the one of the operation in flight. -/
inductive HandleName where
  | cart
  | op
  deriving DecidableEq, Repr

/-- An open handle, as STORAGE keeps it (R51): the identifier and mode it was opened with, and its position. -/
structure Handle where
  id   : Half
  mode : Mode
  pos  : Nat
  deriving DecidableEq, Repr

/-- A file of STORAGE: its length in bytes and its bytes. -/
structure File where
  len  : Nat
  data : Memory
  deriving DecidableEq, Repr

/-- One entry of the event trace (R34): an event output (R186) or a storage primitive issued (R51). -/
inductive Event where
  | run (cycles : Nat) (kind : QKind)
  | vblank
  | palRebuild
  | sndDirty
  | memRemap
  | warn (w : Warning)
  | stOpen (h : HandleName) (id : Half) (mode : Mode)
  | stSeek (h : HandleName) (off : Nat)
  | stRead (h : HandleName) (n : Nat)
  | stWrite (h : HandleName) (n : Nat) (bytes : Memory)
  | stClose (h : HandleName)
  deriving DecidableEq, Repr

/-- The machine state. -/
structure State where
  /-- The parameters of R4; no step changes them (R35, log entry 2). -/
  cfg : Config
  /-- The cartridge record (R11). -/
  cart : Cart
  /-- The command word latched last (R12, R62). -/
  cw : Word
  /-- The result register, signed (R12, R181). -/
  result : Word
  /-- The data window XD[0..9] (R12). -/
  xd : Vector Word 10
  /-- The read-data output of the last bus request, `none` where it drove nothing (R12, R108, R116). -/
  rdata : Option Byte
  /-- The phase register (R13). -/
  phase : Phase
  /-- The quantum in which ENV has control, if one is in flight (R163). -/
  run : Option Quantum
  /-- An operation is in flight (R14). -/
  busy : Bool
  /-- The block has halted (R14, R184). -/
  halted : Bool
  /-- Why it halted (R14, R181). -/
  hcause : Cause
  /-- A storage primitive of the operation in flight never answers: the block hangs (R210; log entry 37). -/
  stalled : Bool
  /-- The sticky warning bits: bit 0 W_VERSION, bit 1 W_RAMSIZE (R14, R185). -/
  warn : BitVec 2
  /-- One bit per RAM bank: modified since the last save (R15). -/
  sramDirty : Word
  /-- One bit per RAM bank: ever written to, or read from, a backing file (R15). -/
  sramSaved : Word
  /-- The draw flag (R16). -/
  renderEnable : Bool
  /-- The program-bank selector (R17). -/
  rombank : Half
  /-- The RAM-bank selector (R17). -/
  rambank : Byte
  /-- The tag array: bank number to frame number; an unlisted bank is ABSENT (R18). -/
  slot : Tab Nat
  /-- Which bank a frame holds: frame number to bank number; an unlisted frame is FREE (R19). -/
  ftag : Tab Nat
  /-- The frame pool: byte `off` of frame `f` is at `f * 16384 + off` (R19, R40 POOL). -/
  pool : Memory
  /-- How many battery-RAM buffers exist (R22); 0: the array does not exist. -/
  ramPages : Nat
  /-- The battery-RAM array: byte `off` of bank `i` is at `i * 8192 + off` (R22, R40 SRAM). -/
  sram : Memory
  /-- The cartridge file is open (R23). -/
  cartFileOpen : Bool
  /-- The identifier CART_LOAD was given (R23). -/
  cartFileId : Half
  /-- The clock record (R24). -/
  rtc : Rtc
  /-- The tick accumulator (R27). -/
  rtcTicks : Dword
  /-- Cycles requested in the current or last FRAME (R28). -/
  frameCycles : Word
  /-- Cycles requested since reset (R29). -/
  totalCycles : Dword
  /-- Shared input: the scan-line counter (R30). -/
  ly : Byte
  /-- Shared input: the cycle budget of the current scan line (R30). -/
  lineCycles : Half
  /-- Shared input: the display-enable bit (R30). -/
  lcdOn : Bool
  /-- The machine registers of the collaborators, by number; an unlisted one holds 0 (R31). -/
  mreg : Tab Word
  /-- The "disable boot ROM" flag (R31). -/
  bootromDisable : Bool
  /-- Working RAM (R32). -/
  wram : Memory
  /-- Video RAM (R32). -/
  vram : Memory
  /-- The audio waveform table (R32). -/
  wave : Memory
  /-- The I/O register bank (R32). -/
  ioregs : Memory
  /-- Palette memory (R32). -/
  pal : Memory
  /-- Object-attribute memory (R32). -/
  oam : Memory
  /-- The header scratch buffer (R33). -/
  hdr : Memory
  /-- The version the last STATE_LOAD found (R33). -/
  loadedVersion : Word
  /-- The event trace, oldest first (R34). -/
  trace : List Event
  /-- STORAGE: its files (R35, R40). -/
  files : Tab File
  /-- STORAGE: the cartridge handle `cart_h`, if open (R23, R51). -/
  cartHandle : Option Handle
  /-- STORAGE: the handle of the operation in flight, if open (R51, R214). -/
  opHandle : Option Handle
  /-- STORAGE's oracle: what becomes of each primitive to come; free values beyond the list (R52, R210). -/
  answers : List Answer
  /-- The donor and frame choices to come; free values beyond the list (R103, R104). -/
  choices : List Nat
  /-- What ENV does when it has control; free values beyond the list (R163). -/
  env : List EnvAct
  /-- What the HOST does when the block is idle; beyond the list, nothing (R5). -/
  host : List HostAct
  /-- How many free values have been taken: the model's own counter, whose value no claim rests on. -/
  freeCount : Nat
  deriving DecidableEq, Repr

/-- Why the machine stops. -/
inductive Fault where
  /-- Raised by `step` on a halted block that reset does not release (R184: a fault state with no successor but
  reset). Safe. -/
  | halted (cause : Cause)
  /-- Raised by `step` where `busy` is set and no operation is in flight: no run from reset reaches it (log entry 27).
  Safe. -/
  | noOperation
  deriving DecidableEq, Repr

/-- Why the machine gives a step no meaning. -/
inductive Refusal where
  /-- Raised by an arm of `exec` whose instruction has no meaning yet. Safe. -/
  | notModelled (mnemonic : String)
  /-- Raised by `exec` of a command while `busy` or `halted` is set, or the block hangs (R62, R189, R210: the model
  refuses the step). Safe. -/
  | notAccepted
  /-- Raised by `exec` of a bus request outside a quantum, or on a halted or hanging block (R63, R173, R184, R210).
  Safe. -/
  | notInQuantum
  /-- Raised by `step` where ENV's next action is one R163 says ENV cannot do. Safe. -/
  | envForbidden
  deriving DecidableEq, Repr

/-- The machine after reset with the parameters `c` (R36, R201). The spec gives every value but those of the shared
inputs, the machine registers and the memory regions (log entry 8), of STORAGE and the agents' lists (log entry 6), and
of the model's own fields `rdata`, `run`, `stalled`, `freeCount` (log entries 17, 1, 37, 3). -/
def State.resetWith (c : Config) : State where
  cfg := c
  cart := Cart.empty
  cw := 0
  result := 0
  xd := #v[0, 0, 0, 0, 0, 0, 0, 0, 0, 0]
  rdata := none
  phase := .idle
  run := none
  busy := false
  halted := false
  hcause := .none
  stalled := false
  warn := 0
  sramDirty := 0
  sramSaved := 0
  renderEnable := false
  rombank := 1
  rambank := 0
  slot := []
  ftag := []
  pool := []
  ramPages := 0
  sram := []
  cartFileOpen := false
  cartFileId := 0
  rtc := Rtc.zero
  rtcTicks := 0
  frameCycles := 0
  totalCycles := 0
  ly := 0
  lineCycles := 0
  lcdOn := false
  mreg := []
  bootromDisable := false
  wram := []
  vram := []
  wave := []
  ioregs := []
  pal := []
  oam := []
  hdr := []
  loadedVersion := 0
  trace := []
  files := []
  cartHandle := none
  opHandle := none
  answers := []
  choices := []
  env := []
  host := []
  freeCount := 0

/-- The machine right after reset, with the reference parameters (log entry 2). -/
def State.reset : State := State.resetWith Config.reference

end Sys2Proof.Machine
end

