-- ==== Sys2Proof/Machine/Memory.lean ====
section
/-! DEFINITION. The operations on the two sparse containers, byte memories and tables, and the byte-order helpers
(spec/00_scope.md R6, R7, spec/20_memory.md R47). Every operation keeps the canonical form (Laws/Memory.lean). -/

namespace Sys2Proof.Machine

/-! ### Byte memories -/

/-- The canonical form: addresses strictly rising, no listed byte zero. -/
abbrev Memory.wf (m : Memory) : Prop := m.Pairwise (fun x y => x.1 < y.1) ∧ ∀ c ∈ m, c.2 ≠ 0

/-- The byte at an address; an unlisted address reads as zero (log entry 22). -/
def Memory.read : Memory → Nat → Byte
  | [], _ => 0
  | (k, v) :: m, a => if a = k then v else Memory.read m a

/-- `x[a] <- b`. -/
def Memory.write : Memory → Nat → Byte → Memory
  | [], a, b => if b = 0 then [] else [(a, b)]
  | (k, v) :: m, a, b =>
    if a < k then (if b = 0 then (k, v) :: m else (a, b) :: (k, v) :: m)
    else if a = k then (if b = 0 then m else (a, b) :: m)
    else (k, v) :: Memory.write m a b

/-- The cells at addresses below `n`. -/
def Memory.below (m : Memory) (n : Nat) : Memory := m.filter (fun c => decide (c.1 < n))

/-- The cells at addresses `n` and above. -/
def Memory.from (m : Memory) (n : Nat) : Memory := m.filter (fun c => decide (n ≤ c.1))

/-- Every address raised by `d`. -/
def Memory.raise (m : Memory) (d : Nat) : Memory := m.map (fun c => (c.1 + d, c.2))

/-- Every address lowered by `d`; applied only where all are at least `d`. -/
def Memory.lower (m : Memory) (d : Nat) : Memory := m.map (fun c => (c.1 - d, c.2))

/-- `m[off +: n]` as a buffer of its own, whose byte 0 is `m[off]` (R6). -/
def Memory.slice (m : Memory) (off n : Nat) : Memory := ((m.from off).below (off + n)).lower off

/-- `m[off +: n] <- src[0 +: n]` (R6). -/
def Memory.splice (m : Memory) (off n : Nat) (src : Memory) : Memory :=
  m.below off ++ ((src.below n).raise off ++ m.from (off + n))

/-- `m[off +: n] <- 0`. -/
def Memory.clear (m : Memory) (off n : Nat) : Memory := m.splice off n []

/-- The buffer that holds the listed bytes from address `a` on. -/
def Memory.ofBytesAt : Nat → List Byte → Memory
  | _, [] => []
  | a, b :: bs => if b = 0 then Memory.ofBytesAt (a + 1) bs else (a, b) :: Memory.ofBytesAt (a + 1) bs

/-- The buffer that holds the listed bytes. -/
def Memory.ofBytes (bs : List Byte) : Memory := Memory.ofBytesAt 0 bs

/-- The `n` bytes from `off` on, as a list. -/
def Memory.bytes (m : Memory) (off n : Nat) : List Byte := (List.range n).map (fun i => m.read (off + i))

/-- `n` unspecified bytes, the free value numbered `stamp`. -/
def freeBytes (stamp n : Nat) : Memory := Memory.ofBytes ((List.range n).map (Config.freeByte stamp))

/-! ### Tables -/

/-- The canonical form: keys strictly rising. -/
abbrev Tab.wf {α : Type} (t : Tab α) : Prop := t.Pairwise (fun x y => x.1 < y.1)

/-- The entry of a key, `none` where it is absent. -/
def Tab.get? {α : Type} : Tab α → Nat → Option α
  | [], _ => none
  | (k, v) :: t, a => if a = k then some v else Tab.get? t a

/-- Make `v` the entry of a key. -/
def Tab.set {α : Type} : Tab α → Nat → α → Tab α
  | [], a, v => [(a, v)]
  | (k, w) :: t, a, v =>
    if a < k then (a, v) :: (k, w) :: t
    else if a = k then (a, v) :: t
    else (k, w) :: Tab.set t a v

/-- Make a key absent. -/
def Tab.erase {α : Type} (t : Tab α) (a : Nat) : Tab α := t.filter (fun e => decide (e.1 ≠ a))

/-- Make `v` the entry of a key, or the key absent. -/
def Tab.put {α : Type} (t : Tab α) (a : Nat) : Option α → Tab α
  | some v => t.set a v
  | none => t.erase a

/-! ### Byte order (R7, R47) -/

/-- `LE_N(v)`: the N-byte little-endian encoding, byte j holding `v[8j+7 : 8j]`. -/
def leBytes : Nat → Nat → List Byte
  | 0, _ => []
  | n + 1, v => BitVec.ofNat 8 v :: leBytes n (v / 256)

/-- `unLE(bytes)`. -/
def unLE : List Byte → Nat
  | [] => 0
  | b :: bs => b.toNat + 256 * unLE bs

/-- `unLE(m[off +: n])`. -/
def Memory.readLE (m : Memory) (off n : Nat) : Nat := unLE (m.bytes off n)

end Sys2Proof.Machine
end

