-- ==== Sys2Proof/Machine/Storage.lean ====
section
/-! DEFINITION. The storage port (spec/20_memory.md R51 to R53): the five primitives over STORAGE's files, whose
failures are an oracle (R52), and the donor chooser's oracle. -/

namespace Sys2Proof.Machine

/-- Append one entry to the event trace (R34, R186). -/
def emit (e : Event) (s : State) : State := { s with trace := s.trace ++ [e] }

/-- What becomes of the next storage primitive: the oracle's next answer, a free value beyond the given ones (R52). -/
def nextAnswer (s : State) : Answer :=
  match s.answers with
  | a :: _ => a
  | [] => Config.freeAnswer s.freeCount

/-- Whether the next storage primitive does not succeed: it fails, or it never answers (R52, R210). -/
def nextFails (s : State) : Bool := decide (nextAnswer s ≠ .ok)

/-- The oracle after one primitive; one that never answers hangs the block (R210). -/
def answerTaken (s : State) : State :=
  match s.answers with
  | a :: rest => { s with answers := rest, stalled := s.stalled || decide (a = .never) }
  | [] =>
    { s with
      freeCount := s.freeCount + 1
      stalled := s.stalled || decide (Config.freeAnswer s.freeCount = .never) }

/-- What an operation does after a primitive that did not succeed: nothing, where it never answered (R210). -/
def unlessStalled (f : State → State) (s : State) : State := if s.stalled then s else f s

/-- `choose x in S` (R8): the next choice, any member of the list, a free value beyond the given choices. The second
component is the oracle after the choice. -/
def chooseFrom (d : Nat) (xs : List Nat) (s : State) : Nat × State :=
  match s.choices with
  | c :: rest => (xs.getD (c % xs.length) d, { s with choices := rest })
  | [] => (xs.getD (Config.freeChoice s.freeCount % xs.length) d, { s with freeCount := s.freeCount + 1 })

/-- The file an identifier names (R46, R51). -/
def fileKey (s : State) (id : Half) : Nat := (Tab.get? s.cfg.fileNames id.toNat).getD id.toNat

/-- The handle behind a name, if open. -/
def getHandle (h : HandleName) (s : State) : Option Handle :=
  match h with
  | .cart => s.cartHandle
  | .op => s.opHandle

/-- Open, move or close the handle behind a name. -/
def setHandle (h : HandleName) (v : Option Handle) (s : State) : State :=
  match h with
  | .cart => { s with cartHandle := v }
  | .op => { s with opHandle := v }

/-- The file a handle is open on. -/
def fileOf (hd : Handle) (s : State) : File := (Tab.get? s.files (fileKey s hd.id)).getD ⟨0, []⟩

/-- A file's content replaced. -/
def setFile (id : Half) (f : File) (s : State) : State := { s with files := Tab.set s.files (fileKey s id) f }

/-- What a successful open leaves of the files (R51): WRITE_NEW creates or truncates, WRITE_UPDATE creates if
missing. -/
def openedFiles (id : Half) (mode : Mode) (s : State) : State :=
  match mode with
  | .read => s
  | .writeNew => setFile id ⟨0, []⟩ s
  | .writeUpdate => if (Tab.get? s.files (fileKey s id)).isSome then s else setFile id ⟨0, []⟩ s

/-- Whether an open in this mode needs a file that is not there (R51). -/
def missing (id : Half) (mode : Mode) (s : State) : Bool :=
  match mode with
  | .read => (Tab.get? s.files (fileKey s id)).isNone
  | .writeNew => false
  | .writeUpdate => false

/-- `StOpen(id, mode)` (R51): `true` where it answers `ok`. An open that fails or never answers changes no file (log
entry 10). -/
def stOpen (h : HandleName) (id : Half) (mode : Mode) (s : State) : Bool × State :=
  if (missing id mode s || nextFails s) = true then (false, answerTaken (emit (.stOpen h id mode) s))
  else (true, setHandle h (some ⟨id, mode, 0⟩) (openedFiles id mode (answerTaken (emit (.stOpen h id mode) s))))

/-- `StSeek(h, off)` (R51): may lie at or beyond the end of the file. On a handle that is not open it fails. DESIGN
CHOICE: a seek that does not succeed leaves the position where it was; the spec does not say where it then stands, and
no operation uses it before a new seek or the close (log entry 11). -/
def stSeek (h : HandleName) (off : Nat) (s : State) : Bool × State :=
  match getHandle h s with
  | none => (false, emit (.stSeek h off) s)
  | some hd =>
    if nextFails s = true then (false, answerTaken (emit (.stSeek h off) s))
    else (true, setHandle h (some { hd with pos := off }) (answerTaken (emit (.stSeek h off) s)))

/-- The answers of `StRead` (R51); a buffer's bytes beyond its length are zero. -/
inductive ReadAnswer where
  | full (bytes : Memory)
  | eof (k : Nat) (bytes : Memory)
  | fail
  deriving DecidableEq, Repr

/-- The bytes a file gives from a position on: all `n`, or the `k < n` left before its end. -/
def readAt (f : File) (pos n : Nat) : ReadAnswer :=
  if pos + n ≤ f.len then .full (f.data.slice pos n) else .eof (f.len - pos) (f.data.slice pos (f.len - pos))

/-- How many bytes an answer moved. -/
def ReadAnswer.moved (n : Nat) : ReadAnswer → Nat
  | .full _ => n
  | .eof k _ => k
  | .fail => 0

/-- `StRead(h, n)` (R51). On a handle that is not open it fails. DESIGN CHOICE: a read that does not succeed leaves the
position where it was; the spec does not say where it then stands, and no operation uses it before a new seek or the
close (log entry 11). -/
def stRead (h : HandleName) (n : Nat) (s : State) : ReadAnswer × State :=
  match getHandle h s with
  | none => (.fail, emit (.stRead h n) s)
  | some hd =>
    if nextFails s = true then (.fail, answerTaken (emit (.stRead h n) s))
    else
      (readAt (fileOf hd s) hd.pos n,
       setHandle h (some { hd with pos := hd.pos + (readAt (fileOf hd s) hd.pos n).moved n })
         (answerTaken (emit (.stRead h n) s)))

/-- A file after `n` bytes are written at a position (R51): extended if needed, a gap before them reading as zero. -/
def File.written (f : File) (pos n : Nat) (bytes : Memory) : File :=
  ⟨max f.len (pos + n), f.data.splice pos n bytes⟩

/-- A file after a write of `n` bytes at a position failed (R50): the bytes of the target range are unspecified, and so
is how many of them were moved. -/
def File.torn (f : File) (pos n stamp : Nat) : File :=
  ⟨if Config.freeNat stamp % (n + 1) = 0 then f.len else max f.len (pos + Config.freeNat stamp % (n + 1)),
   (f.data.splice pos n (freeBytes stamp n)).below
     (if Config.freeNat stamp % (n + 1) = 0 then f.len else max f.len (pos + Config.freeNat stamp % (n + 1)))⟩

/-- `StWrite(h, bytes)` with `n` bytes (R51): `true` where it answers `ok`. On a handle that is not open it fails and
writes nothing. -/
def stWrite (h : HandleName) (n : Nat) (bytes : Memory) (s : State) : Bool × State :=
  match getHandle h s with
  | none => (false, emit (.stWrite h n bytes) s)
  | some hd =>
    if nextFails s = true then
      (false,
       { setHandle h (some { hd with pos := hd.pos + Config.freeNat s.freeCount % (n + 1) })
          (setFile hd.id ((fileOf hd s).torn hd.pos n s.freeCount) (answerTaken (emit (.stWrite h n bytes) s)))
         with freeCount := s.freeCount + 2 })
    else
      (true,
       setHandle h (some { hd with pos := hd.pos + n })
         (setFile hd.id ((fileOf hd s).written hd.pos n bytes) (answerTaken (emit (.stWrite h n bytes) s))))

/-- `StClose(h)` (R51): it answers nothing and cannot fail, so an oracle that says `fail` closes the handle too. DEDUCED:
as one of the five blocking primitives it may never answer, and then hangs the block with the handle open (R210; log
entry 37). -/
def stClose (h : HandleName) (s : State) : State :=
  if nextAnswer s = .never then answerTaken (emit (.stClose h) s)
  else setHandle h none (answerTaken (emit (.stClose h) s))

/-- A handle closed, then the rest of the operation, unless the close never answers (R51, R210). -/
def closeThen (h : HandleName) (f : State → State) (s : State) : State := unlessStalled f (stClose h s)

end Sys2Proof.Machine
end

