-- ==== Sys2Proof/Machine/Flags.lean ====
section
/-! DEFINITION. The flags: the dirty and saved bitmasks (spec/10_state.md R15), the sticky warning bits (R14, R185), the
clock's flag bits (R25). No operation of the FSB computes an arithmetic flag. -/

namespace Sys2Proof.Machine

/-- The mask of bit `i` of a per-bank register (R15). -/
def bankBit (i : Nat) : Word := 1#32 <<< i

/-- Bit `i` of a per-bank register. -/
def bitOf (w : Word) (i : Nat) : Bool := w.getLsbD i

/-- `w[i] <- 1`. -/
def setBit (w : Word) (i : Nat) : Word := w ||| bankBit i

/-- `w[i] <- 0`. -/
def clearBit (w : Word) (i : Nat) : Word := w &&& ~~~ bankBit i

/-- `ALL = (1 << ramsize) - 1` (R120). -/
def allBanks (ramsize : Nat) : Word := BitVec.ofNat 32 (2 ^ ramsize - 1)

/-- A bank SRAM_SAVE writes: never saved, or dirty (R123). -/
def needsSave (s : State) (i : Nat) : Bool := !bitOf s.sramSaved i || bitOf s.sramDirty i

/-- `sram_dirty[i] <- 1` (R109). -/
def markDirty (i : Nat) (s : State) : State := { s with sramDirty := setBit s.sramDirty i }

/-- `sram_dirty[i] <- 0; sram_saved[i] <- 1` (R123). -/
def markWritten (i : Nat) (s : State) : State :=
  { s with sramDirty := clearBit s.sramDirty i, sramSaved := setBit s.sramSaved i }

/-- `sram_saved[i] <- 1` (R129). -/
def markRestored (i : Nat) (s : State) : State := { s with sramSaved := setBit s.sramSaved i }

/-- The bit of a warning in `warn` (R14). -/
def warnBit : Warning → BitVec 2
  | .version => 1
  | .ramsize => 2

/-- A warning (R185): set the sticky bit, emit the event, go on. -/
def raiseWarning (w : Warning) (s : State) : State := emit (.warn w) { s with warn := s.warn ||| warnBit w }

/-- The halt bit of the clock flags, bit 6 (R25). -/
def rtcHalted (r : Rtc) : Bool := r.flags.getLsbD 6

/-- `rtc.flags[7] <- 1`, the carry (R25, R133). -/
def setCarry (r : Rtc) : Rtc := { r with flags := r.flags ||| 0x80 }

end Sys2Proof.Machine
end

