-- ==== Sys2Proof/Machine/Operands.lean ====
section
/-! DEFINITION. Operand assembly and addressing: file offsets (spec/30_encoding.md R66), the bank-select decoder
(spec/41_bank_manager.md R114), the places of records and regions in the header block (R67, R76), and the parameters
that are functions of an operand (TYPE_MAP R87, COLORIZE R88). -/

namespace Sys2Proof.Machine

/-! ### File offsets and on-block addresses (R41 to R44, R66) -/

/-- Where program bank `n` lies in the cartridge file: `n * 16384`. -/
def romOffset (n : Nat) : Nat := n * romPage

/-- Where RAM bank `i` lies in the battery-RAM file, and in the battery-RAM array: `i * 8192`. -/
def ramOffset (i : Nat) : Nat := i * ramPage

/-- Where frame `f` lies in the pool: `f * 16384`. -/
def frameOffset (f : Nat) : Nat := f * romPage

/-- Where unit `u` of a memory block lies: `4096 * u`. -/
def unitOffset (u : Nat) : Nat := u * unitSize

/-- `rambank_mem[i]` as a buffer of its own (R22). -/
def ramBank (s : State) (i : Nat) : Memory := s.sram.slice (ramOffset i) ramPage

/-! ### The bank-select address decoder (R65, R114) -/

/-- What a bus address selects: a program bank, a battery-RAM bank, or nothing of the FSB's. -/
inductive Window where
  | rom (n off : Nat)
  | ram (i off : Nat)
  | outside
  deriving DecidableEq, Repr

/-- `decode(a)` of R114: ROM0, ROMX, XRAM or nothing, by the top address bits. -/
def window (rombank : Half) (rambank : Byte) (a : Half) : Window :=
  if a.toNat / 2 ^ 14 = 0 then .rom 0 (a.toNat % 2 ^ 14)
  else if a.toNat / 2 ^ 14 = 1 then .rom rombank.toNat (a.toNat % 2 ^ 14)
  else if a.toNat / 2 ^ 13 = 5 then .ram rambank.toNat (a.toNat % 2 ^ 13)
  else .outside

/-- The window a bus address selects in a state: the selectors are read at each request (R114, R216). -/
def windowOf (s : State) (a : Half) : Window := window s.rombank s.rambank a

/-! ### The header block (R67, R76) -/

/-- Where record slot `k` lies: byte `8 * k`. -/
def recordOffset (k : Nat) : Nat := 8 * k

/-- The tag of record slot `k`. -/
def recordTag (hdr : Memory) (k : Nat) : Tag :=
  ⟨hdr.read (recordOffset k), hdr.read (recordOffset k + 1), hdr.read (recordOffset k + 2), hdr.read (recordOffset k + 3)⟩

/-- The value of record slot `k`: `unLE(hdr[8k+4 +: 4])`. -/
def recordValue (hdr : Memory) (k : Nat) : Word := BitVec.ofNat 32 (hdr.readLE (recordOffset k + 4) 4)

/-- The four bytes of a tag, in text order. -/
def tagBytes (t : Tag) : List Byte := [t.b0, t.b1, t.b2, t.b3]

/-- OFF_WAVE, OFF_IO, OFF_PAL, OFF_OAM (R4, R76). -/
def offWave : Nat := 0x0CF0
def offIo : Nat := 0x0D00
def offPal : Nat := 0x0E00
def offOam : Nat := 0x0F00

/-- LEN_WAVE, LEN_IO, LEN_PAL, LEN_OAM (R4, R32). -/
def lenWave : Nat := 16
def lenIo : Nat := 256
def lenPal : Nat := 128
def lenOam : Nat := 160

/-- WRAM_UNITS by hardware family (R4, R144). -/
def wramUnits : HwFamily → Nat
  | .legacy => 2
  | .color => 8
  | .legacyColorFeat => 2

/-- VRAM_UNITS by hardware family (R4, R144). -/
def vramUnits : HwFamily → Nat
  | .legacy => 2
  | .color => 4
  | .legacyColorFeat => 2

/-- The size of a machine memory region (R32). -/
def regionSize (f : HwFamily) : Region → Nat
  | .wram => unitOffset (wramUnits f)
  | .vram => unitOffset (vramUnits f)
  | .wave => lenWave
  | .ioregs => lenIo
  | .pal => lenPal
  | .oam => lenOam

/-! ### Widening and narrowing (R7, R69) -/

/-- `trunc_{8w}(v)`: the low `w` bytes of a record value. -/
def narrow (w : Nat) (v : Word) : Word := BitVec.ofNat 32 (v.toNat % 2 ^ (8 * w))

/-! ### Parameters that are functions of an operand -/

/-- What TYPE_MAP gives for a type byte (R87). -/
structure TypeInfo where
  family  : BitVec 4
  battery : Bool
  rtc     : Bool
  rumble  : Bool
  motion  : Bool
  deriving DecidableEq, Repr

/-- The family of a type byte: the first range in the list that holds it, else NONE = 0 (R87). -/
def familyOf (m : TypeMap) (t : Byte) : BitVec 4 :=
  match m.families.find? (fun r => decide (r.lo.toNat ≤ t.toNat) && decide (t.toNat ≤ r.hi.toNat)) with
  | some r => r.family
  | none => 0

/-- TYPE_MAP(type) (R87). -/
def typeInfo (m : TypeMap) (t : Byte) : TypeInfo :=
  ⟨familyOf m t, m.battery.contains t, m.rtc.contains t, m.rumble.contains t, m.motion.contains t⟩

/-- The title sum (R88), of the width the tables give. -/
def titleSum (t : ColorTables) (title : List Byte) : Nat := (title.map (·.toNat)).sum % 2 ^ t.sumBits

/-- The palette index of a checksum-table index above 0x40 (R88): the entry with the matching fourth title character,
else the index it falls through to. -/
def disambiguate (t : ColorTables) (i : Nat) (fourth : Byte) : Byte :=
  match t.letters.find? (fun e => e.1 == i && e.2.1 == fourth) with
  | some e => e.2.2
  | none =>
    match t.through.find? (fun e => e.1 == i) with
    | some e => e.2
    | none => 0

/-- The two-stage lookup (R88), over contents that are parameters. -/
def colorLookup (t : ColorTables) (title : List Byte) : Byte :=
  match t.sums.idxOf? (titleSum t title) with
  | none => 0
  | some i => if i ≤ 0x40 then BitVec.ofNat 8 i else disambiguate t i (title.getD 3 0)

/-- COLORIZE(title) (R88): any total function of the title (log entry 19). -/
def colorize (m : ColorMap) (title : List Byte) : Byte :=
  match m with
  | .tables t => colorLookup t title
  | .graph g =>
    match g.find? (fun e => e.1 == title) with
    | some e => e.2
    | none => 0

end Sys2Proof.Machine
end

