-- ==== Sys2Proof/Machine/Ops.lean ====
section
/-! DEFINITION. Shared operations: accepting a command (spec/30_encoding.md R62), taking an error (spec/60_exceptions.md
R183, R184) and completing (R9), the battery RAM and machine registers, and the reset input
(spec/70_reset_and_hazards.md R200). -/

namespace Sys2Proof.Machine

/-! ### Result codes (R181) -/

/-- The recoverable errors. E_RAMSIZE is reserved and never raised (R181, 90_conflicts.md C4). -/
inductive ErrorCode where
  | inval
  | storage
  | romsize
  | ramsize
  | alloc
  deriving DecidableEq, Repr

/-- The negative code of an error (R181). -/
def ErrorCode.code : ErrorCode → Word
  | .inval => 0xFFFFFFFF
  | .storage => 0xFFFFFFFE
  | .romsize => 0xFFFFFFFD
  | .ramsize => 0xFFFFFFFC
  | .alloc => 0xFFFFFFFB

/-! ### How an operation ends (R9) -/

/-- `raise E_x` (R183): the code in `result`, `busy` clear; nothing else. The handle is closed by its own statement. -/
def raiseError (e : ErrorCode) (s : State) : State := { s with result := e.code, busy := false }

/-- `raise F_x` (R184): `halted` and `hcause` set; nothing else. -/
def raiseFatal (c : Cause) (s : State) : State := { s with halted := true, hcause := c }

/-- `result <- 0`, `busy <- 0` (R9). -/
def complete (s : State) : State := { s with result := 0, busy := false }

/-- The operation in flight goes no further: a fatal error stopped it (R184), or a primitive never answers (R210). -/
def stopped (s : State) : Bool := s.halted || s.stalled

/-- The end of an operation whose body may have stopped (R184, R210: nothing else is written). -/
def completeUnlessStopped (s : State) : State := if stopped s then s else complete s

/-! ### Acceptance (R62, R63, R189) -/

/-- A command presented: not accepted while `busy` or `halted` (R189), nor on a hanging block (R210); else `busy <- 1`
and the operation runs. -/
def acceptCommand (op : State → State) (s : State) : Host.Outcome State Fault Refusal :=
  if s.busy || stopped s then .refused .notAccepted else .next (op { s with busy := true })

/-- A bus request presented: only inside a quantum of a block that is not halted and does not hang (R63, R173, R184,
R210). Its read-data output drives nothing until the request drives it (R12). -/
def acceptBus (op : State → State) (s : State) : Host.Outcome State Fault Refusal :=
  if stopped s || s.run.isNone then .refused .notInQuantum else .next (op { s with rdata := none })

/-! ### Battery RAM (R22, R44) -/

/-- `rambank_mem[i][off]`. -/
def readRam (s : State) (i off : Nat) : Byte := s.sram.read (ramOffset i + off)

/-- `rambank_mem[i][off] <- b`. -/
def writeRam (i off : Nat) (b : Byte) (s : State) : State := { s with sram := s.sram.write (ramOffset i + off) b }

/-! ### The machine registers MREG (R31) -/

/-- `MREG[id]`, zero-extended to 32 bits; one half of the 64-bit tick accumulator. -/
def readReg (s : State) : RegId → Word
  | .rambank => s.rambank.setWidth 32
  | .bootromOff => (BitVec.ofBool s.bootromDisable).setWidth 32
  | .rombank => s.rombank.setWidth 32
  | .rtcSec => s.rtc.sec.setWidth 32
  | .rtcMin => s.rtc.min.setWidth 32
  | .rtcHour => s.rtc.hour.setWidth 32
  | .rtcDay => s.rtc.day.setWidth 32
  | .rtcLatch => s.rtc.latch.setWidth 32
  | .rtcSel => s.rtc.sel.setWidth 32
  | .rtcFlags => s.rtc.flags.setWidth 32
  | .rtcReg j => s.rtc.regs[j].setWidth 32
  | .rtcTicksLow => s.rtcTicks.setWidth 32
  | .rtcTicksHigh => s.rtcTicks.extractLsb' 32 32
  | .ioreg k => (s.ioregs.read k).setWidth 32
  | .other n => (Tab.get? s.mreg n).getD 0

/-- `MREG[id] <- v`, truncated to the register's width; a half of the tick accumulator leaves the other half (log
entry 21). A byte of IOREGS beyond the bank does not exist and takes nothing. -/
def writeReg (id : RegId) (v : Word) (s : State) : State :=
  match id with
  | .rambank => { s with rambank := v.setWidth 8 }
  | .bootromOff => { s with bootromDisable := v.getLsbD 0 }
  | .rombank => { s with rombank := v.setWidth 16 }
  | .rtcSec => { s with rtc := { s.rtc with sec := v.setWidth 8 } }
  | .rtcMin => { s with rtc := { s.rtc with min := v.setWidth 8 } }
  | .rtcHour => { s with rtc := { s.rtc with hour := v.setWidth 8 } }
  | .rtcDay => { s with rtc := { s.rtc with day := v.setWidth 16 } }
  | .rtcLatch => { s with rtc := { s.rtc with latch := v.setWidth 8 } }
  | .rtcSel => { s with rtc := { s.rtc with sel := v.setWidth 8 } }
  | .rtcFlags => { s with rtc := { s.rtc with flags := v.setWidth 8 } }
  | .rtcReg j => { s with rtc := { s.rtc with regs := s.rtc.regs.set j (v.setWidth 8) } }
  | .rtcTicksLow => { s with rtcTicks := s.rtcTicks.extractLsb' 32 32 ++ v }
  | .rtcTicksHigh => { s with rtcTicks := v ++ s.rtcTicks.setWidth 32 }
  | .ioreg k => if k < lenIo then { s with ioregs := s.ioregs.write k (v.setWidth 8) } else s
  | .other n => { s with mreg := if v = 0 then Tab.erase s.mreg n else Tab.set s.mreg n v }

/-- The width REG_TABLE gives a register, if it names it (R31). -/
def tableWidth (c : Config) (id : RegId) : Option Nat := (c.regTable.find? (fun e => decide (e.id = id))).map (·.width)

/-! ### The machine memory regions (R32) -/

/-- The contents of a region. -/
def getRegion (s : State) : Region → Memory
  | .wram => s.wram
  | .vram => s.vram
  | .wave => s.wave
  | .ioregs => s.ioregs
  | .pal => s.pal
  | .oam => s.oam

/-- One byte of a region written. -/
def pokeRegion (r : Region) (off : Nat) (b : Byte) (s : State) : State :=
  match r with
  | .wram => { s with wram := s.wram.write off b }
  | .vram => { s with vram := s.vram.write off b }
  | .wave => { s with wave := s.wave.write off b }
  | .ioregs => { s with ioregs := s.ioregs.write off b }
  | .pal => { s with pal := s.pal.write off b }
  | .oam => { s with oam := s.oam.write off b }

/-! ### The address spaces (R8, R40) -/

/-- The spaces of R40 that hold bytes: a file by its identifier (CARTF, SRAMF and STATEF are the files of three
commands' identifiers), the frame pool, the battery RAM, a machine region. BUS holds none: it is the windows of R114. -/
inductive Space where
  | file (id : Half)
  | pool
  | sram
  | mach (r : Region)
  deriving DecidableEq, Repr

/-- The file an identifier names; one that is not there has no byte. -/
def fileNamed (s : State) (id : Half) : File := (Tab.get? s.files (fileKey s id)).getD ⟨0, []⟩

/-- `MemRead(space, addr, 1)` (R8): one byte of a space. -/
def memByte (s : State) (sp : Space) (a : Nat) : Byte :=
  match sp with
  | .file id => (fileNamed s id).data.read a
  | .pool => s.pool.read a
  | .sram => s.sram.read a
  | .mach r => (getRegion s r).read a

/-! ### The reset input (R200, R201, R203) -/

/-- The collaborators' registers after reset: unspecified, of the widths REG_TABLE gives (R36, R201). -/
def freeRegisters (stamp : Nat) : List RegEntry → Tab Word → Tab Word
  | [], t => t
  | e :: es, t =>
    match e.id with
    | .other n =>
      freeRegisters (stamp + 1) es
        (if narrow e.width (BitVec.ofNat 32 (Config.freeNat stamp)) = 0 then Tab.erase t n
         else Tab.set t n (narrow e.width (BitVec.ofNat 32 (Config.freeNat stamp))))
    | _ => freeRegisters (stamp + 1) es t

/-- Reset asserted: every register takes its reset value, every handle is released, nothing is emitted; the files and
the agents' own lists stay; what the block does not own is unspecified afterwards (R200, R201, R203). -/
def resetInput (s : State) : State :=
  { State.resetWith s.cfg with
    files := s.files
    answers := s.answers
    choices := s.choices
    env := s.env
    host := s.host
    pool := freeBytes (s.freeCount + 7) (frameOffset s.cfg.poolSize)
    ly := Config.freeByte s.freeCount 0
    lineCycles := BitVec.ofNat 16 (Config.freeNat s.freeCount)
    lcdOn := Config.freeBool s.freeCount
    mreg := freeRegisters (s.freeCount + 1) s.cfg.regTable []
    wram := freeBytes (s.freeCount + 1) 32768
    vram := freeBytes (s.freeCount + 2) 16384
    wave := freeBytes (s.freeCount + 3) lenWave
    ioregs := freeBytes (s.freeCount + 4) lenIo
    pal := freeBytes (s.freeCount + 5) lenPal
    oam := freeBytes (s.freeCount + 6) lenOam
    freeCount := s.freeCount + 8 + s.cfg.regTable.length }

end Sys2Proof.Machine
end

