-- ==== Sys2Proof/Machine/Bank.lean ====
section
/-! DEFINITION. The bank manager (spec/41_bank_manager.md): the internal procedure LOAD_BANK (R102 to R107), PRELOAD's
body (R111), and the commands BANK_LOAD, PRELOAD and CART_UNLOAD. -/

namespace Sys2Proof.Machine

/-- `slot[n]`: the frame a bank is resident in, or ABSENT (R18). -/
def slotOf (s : State) (n : Nat) : Option Nat := Tab.get? s.slot n

/-- `ftag[f]`: the bank a frame holds, or FREE (R19). -/
def ftagOf (s : State) (f : Nat) : Option Nat := Tab.get? s.ftag f

/-- `frame[f][off]` (R19). -/
def readFrame (s : State) (f off : Nat) : Byte := s.pool.read (frameOffset f + off)

/-- The FREE frames, lowest first (R103). -/
def freeFrames (s : State) : List Nat := (List.range s.cfg.poolSize).filter (fun f => (ftagOf s f).isNone)

/-- The resident banks: the possible donors of R104. -/
def residents (s : State) : List Nat := s.slot.map (·.1)

/-- `ftag[f] <- n; slot[n] <- f` (R103). -/
def assign (n f : Nat) (s : State) : State := { s with slot := Tab.set s.slot n f, ftag := Tab.set s.ftag f n }

/-- `slot[d] <- ABSENT` (R104). -/
def vacate (d : Nat) (s : State) : State := { s with slot := Tab.erase s.slot d }

/-- `frame[f][0 .. 16383] <- 0x00` (R105). -/
def clearFrame (f : Nat) (s : State) : State := { s with pool := s.pool.clear (frameOffset f) romPage }

/-- `frame[f][0 .. 16383] <- b` (R105); for a short buffer the rest is zero (R106). -/
def setFrame (f : Nat) (b : Memory) (s : State) : State := { s with pool := s.pool.splice (frameOffset f) romPage b }

/-- What a fatal storage failure while filling frame `f` leaves (R107): its contents are unspecified. The tag array keeps
what it held (R184; log entry 12). -/
def spoilFrame (f : Nat) (s : State) : State :=
  { s with
    pool := s.pool.splice (frameOffset f) romPage (freeBytes s.freeCount romPage)
    freeCount := s.freeCount + 1 }

/-- A seek or read that failed in a fill halts the block (R107); one that never answers hangs it (R210). -/
def fillFailed (f : Nat) (s : State) : State := unlessStalled (fun t => raiseFatal .storage (spoilFrame f t)) s

/-- The end of a fill: the frame takes what the read delivered; a failure that is not end of file is fatal (R105 to
R107). -/
def fillRead (f : Nat) : ReadAnswer × State → State
  | (.full b, s) => setFrame f b s
  | (.eof _ b, s) => setFrame f b s
  | (.fail, s) => fillFailed f s

/-- The fill after its seek (R105). -/
def fillSought (f : Nat) : Bool × State → State
  | (true, s) => fillRead f (stRead .cart romPage s)
  | (false, s) => fillFailed f s

/-- The fill of frame `f` with bank `n` (R105): clear, seek, read. -/
def fill (n f : Nat) (s : State) : State :=
  fillSought f (stSeek .cart (romOffset n) (clearFrame f s))

/-- A miss with a FREE frame (R103): any one of them. -/
def loadFresh (n : Nat) (s : State) : State :=
  fill n (chooseFrom 0 (freeFrames s) s).1
    (assign n (chooseFrom 0 (freeFrames s) s).1 (chooseFrom 0 (freeFrames s) s).2)

/-- Take the donor's frame for bank `n` and fill it (R104). -/
def transplant (n d : Nat) (s : State) : State :=
  match slotOf s d with
  | some f => fill n f (assign n f (vacate d s))
  | none => raiseFatal .alloc s

/-- A miss with the pool exhausted (R104): any resident bank is the donor. -/
def loadEvicting (n : Nat) (s : State) : State :=
  transplant n (chooseFrom 0 (residents s) s).1 (chooseFrom 0 (residents s) s).2

/-- LOAD_BANK(n) (R102 to R107): a hit changes nothing; a miss takes a FREE frame, else a resident bank's; with neither
the block halts with F_ALLOC (R104). -/
def loadBank (n : Nat) (s : State) : State :=
  if (slotOf s n).isSome then s
  else if (freeFrames s) ≠ [] then loadFresh n s
  else if (residents s) ≠ [] then loadEvicting n s
  else raiseFatal .alloc s

/-- PRELOAD_BODY from bank `n` on, `count` banks (R111); a halt or a hang stops it (R184, R210). -/
def preloadFrom : Nat → Nat → State → State
  | _, 0, s => s
  | n, count + 1, s => if stopped s then s else preloadFrom (n + 1) count (loadBank n s)

/-- PRELOAD_BODY(count) (R111). -/
def preloadBody (count : Nat) (s : State) : State := preloadFrom 0 count s

/-- BANK_LOAD's operation (R100, R101). -/
def bankLoadOp (n : Nat) (s : State) : State :=
  if s.cart.loaded = false then raiseError .inval s
  else if s.cart.romsize ≤ n then raiseError .inval s
  else completeUnlessStopped (loadBank n s)

/-- PRELOAD's operation (R111). -/
def preloadOp (count : Nat) (s : State) : State :=
  if s.cart.loaded = false ∨ s.cart.romsize < count then raiseError .inval s
  else completeUnlessStopped (preloadBody count s)

/-- The record, the bookkeeping and the warnings cleared; CART_UNLOAD completes (R110). -/
def cartForgotten (s : State) : State :=
  complete { s with cart := Cart.empty, sramDirty := 0, sramSaved := 0, warn := 0 }

/-- What follows the close of the cartridge file (R110). -/
def cartFileClosed (s : State) : State := cartForgotten { s with cartFileOpen := false, cartFileId := 0 }

/-- CART_UNLOAD's operation (R110): banks and RAM freed, the cartridge file closed if it is open, the rest cleared unless
the close never answers (R210). -/
def cartUnloadOp (s : State) : State :=
  if s.cartFileOpen then closeThen .cart cartFileClosed { s with slot := [], ftag := [], ramPages := 0, sram := [] }
  else cartForgotten { s with slot := [], ftag := [], ramPages := 0, sram := [] }

/-- BANK_LOAD n (R100). -/
def execBankLoad (n : Nat) (s : State) : Host.Outcome State Fault Refusal := acceptCommand (bankLoadOp n) s

/-- PRELOAD count (R111). -/
def execPreload (count : Nat) (s : State) : Host.Outcome State Fault Refusal := acceptCommand (preloadOp count) s

/-- CART_UNLOAD (R110). -/
def execCartUnload (s : State) : Host.Outcome State Fault Refusal := acceptCommand cartUnloadOp s

end Sys2Proof.Machine
end

