-- ==== Sys2Proof/Machine/Bus.lean ====
section
/-! DEFINITION. The bus requests RD, WR, SELROM and SELRAM (spec/41_bank_manager.md R108, R109, R112 to R116). -/

namespace Sys2Proof.Machine

/-- The byte a resident bank gives: `rdata <- frame[slot[n]][off]` (R108). -/
def driveRom (n off : Nat) (s : State) : State :=
  match slotOf s n with
  | some f => { s with rdata := some (readFrame s f off) }
  | none => s

/-- RD in a ROM window (R101, R108): the range check, LOAD_BANK, the byte; a halt or a hang in the fill ends
the request. -/
def readRom (n off : Nat) (s : State) : State :=
  if s.cart.romsize ≤ n then raiseFatal .range s
  else if stopped (loadBank n s) then loadBank n s
  else driveRom n off (loadBank n s)

/-- RD in the RAM window (R109). -/
def readXram (i off : Nat) (s : State) : State :=
  if s.cart.ramsize ≤ i then raiseFatal .range s else { s with rdata := some (readRam s i off) }

/-- WR in the RAM window (R109): the byte, and the bank's dirty bit on every write. -/
def writeXram (i off : Nat) (b : Byte) (s : State) : State :=
  if s.cart.ramsize ≤ i then raiseFatal .range s else markDirty i (writeRam i off b s)

/-- RD's operation (R108, R109, R116). -/
def rdOp (addr : Half) (s : State) : State :=
  match windowOf s addr with
  | .rom n off => readRom n off s
  | .ram i off => readXram i off s
  | .outside => s

/-- WR's operation (R109, R115, R116). -/
def wrOp (addr : Half) (data : Byte) (s : State) : State :=
  match windowOf s addr with
  | .rom _ _ => s
  | .ram i off => writeXram i off data s
  | .outside => s

/-- RD addr. -/
def execRd (addr : Half) (s : State) : Host.Outcome State Fault Refusal := acceptBus (rdOp addr) s

/-- WR addr, data. -/
def execWr (addr : Half) (data : Byte) (s : State) : Host.Outcome State Fault Refusal := acceptBus (wrOp addr data) s

/-- SELROM v (R112): stored raw. -/
def execSelrom (v : Half) (s : State) : Host.Outcome State Fault Refusal := acceptBus (fun t => { t with rombank := v }) s

/-- SELRAM v (R113): stored raw. -/
def execSelram (v : Byte) (s : State) : Host.Outcome State Fault Refusal := acceptBus (fun t => { t with rambank := v }) s

end Sys2Proof.Machine
end

