-- ==== Sys2Proof/Machine/CartHeader.lean ====
section
/-! DEFINITION. CART_LOAD (spec/40_cart_header.md R80 to R93): the header parser, the classification, the commit and the
preload. -/

namespace Sys2Proof.Machine

/-- The header fields (R82). -/
structure Header where
  title   : List Byte
  color   : Byte
  adapt   : Byte
  type    : Byte
  romcode : Byte
  ramcode : Byte
  cksum   : Half
  deriving DecidableEq, Repr

/-- `fields(b)`: the fixed offsets of R82. -/
def headerFields (b : Memory) : Header where
  title := b.bytes 0x0134 16
  color := b.read 0x0143
  adapt := b.read 0x0146
  type := b.read 0x0147
  romcode := b.read 0x0148
  ramcode := b.read 0x0149
  cksum := BitVec.ofNat 16 (b.readLE 0x014E 2)

/-- ROMSIZE(code), `none` where invalid (R84). -/
def romSize (code : Byte) : Option Nat :=
  if code.toNat ≤ 8 then some (2 * 2 ^ code.toNat)
  else if 0x52 ≤ code.toNat ∧ code.toNat ≤ 0x54 then some 128
  else none

/-- RAMSIZE(code): the page count, and whether the code was clamped with a warning (R85). -/
def ramSize (code : Byte) : Nat × Bool :=
  match code.toNat with
  | 0 => (1, false)
  | 1 => (1, false)
  | 2 => (1, false)
  | 3 => (4, false)
  | 4 => (16, false)
  | 5 => (8, false)
  | _ => (1, true)

/-- HWFAMILY(colorbyte, adaptbyte), by priority (R86). -/
def hwFamily (color adapt : Byte) : HwFamily :=
  if color = 0x80 ∨ color = 0xC0 then .color
  else if adapt = 0x03 then .legacyColorFeat
  else .legacy

/-- The colorization key of a cartridge: 0 for a color-capable one, else COLORIZE (R88). -/
def colorKey (c : Config) (h : Header) : Byte :=
  if hwFamily h.color h.adapt = .color then 0 else colorize c.color h.title

/-- preload_count(romsize, title) (R90). -/
def preloadCount (c : Config) (romsize : Nat) (title : List Byte) : Nat :=
  if preloadMax < romsize ∧ title ∈ c.preloadTitles then romsize - preloadKeep else min romsize preloadMax

/-- The cartridge record a header gives (R84 to R89). -/
def cartOf (c : Config) (h : Header) (romsize : Nat) : Cart where
  loaded := true
  title := h.title
  mbc := (typeInfo c.typeMap h.type).family
  hwfamily := hwFamily h.color h.adapt
  romsize := romsize
  ramsize := (ramSize h.ramcode).1
  hasBattery := (typeInfo c.typeMap h.type).battery
  hasRtc := (typeInfo c.typeMap h.type).rtc
  hasRumble := (typeInfo c.typeMap h.type).rumble
  hasMotion := (typeInfo c.typeMap h.type).motion
  colorkey := colorKey c h
  cksum := h.cksum

/-- The commit, in one step (R89). -/
def commitCart (id : Half) (h : Header) (romsize : Nat) (s : State) : State :=
  { s with
    cart := cartOf s.cfg h romsize
    cartFileOpen := true
    cartFileId := id
    ramPages := (ramSize h.ramcode).1
    sram := []
    sramDirty := 0
    sramSaved := 0
    rombank := 1
    rambank := 0
    rtc := Rtc.zero
    rtcTicks := 0 }

/-- The warning of a clamped RAM-size code, after the commit (R85). -/
def warnRamsize (h : Header) (s : State) : State := if (ramSize h.ramcode).2 then raiseWarning .ramsize s else s

/-- The palette notification of a cartridge that is not color-capable (R88). -/
def notifyPalette (h : Header) (s : State) : State :=
  if hwFamily h.color h.adapt = .color then s else emit .palRebuild s

/-- CART_LOAD after every check has passed: commit, warn, notify, preload (R85, R88, R89, R90). -/
def cartCommitted (id : Half) (h : Header) (romsize : Nat) (s : State) : State :=
  completeUnlessStopped
    (preloadBody (preloadCount s.cfg romsize h.title) (notifyPalette h (warnRamsize h (commitCart id h romsize s))))

/-- The checks on the header, in order: the ROM size, then the RAM array's allocation (R84, R89, R187). -/
def cartClassify (id : Half) (h : Header) (s : State) : State :=
  match romSize h.romcode with
  | none => closeThen .cart (raiseError .romsize) s
  | some romsize =>
    if s.cfg.ramCap < (ramSize h.ramcode).1 then closeThen .cart (raiseError .alloc) s
    else cartCommitted id h romsize s

/-- CART_LOAD after the header read (R81): anything but a full read fails. -/
def cartHeaderRead (id : Half) : ReadAnswer × State → State
  | (.full b, s) => cartClassify id (headerFields b) s
  | (.eof _ _, s) => closeThen .cart (raiseError .storage) s
  | (.fail, s) => unlessStalled (closeThen .cart (raiseError .storage)) s

/-- CART_LOAD after the open (R81). -/
def cartOpened (id : Half) : Bool × State → State
  | (false, s) => unlessStalled (raiseError .storage) s
  | (true, s) => cartHeaderRead id (stRead .cart hdrMin s)

/-- CART_LOAD's operation (R80, R81). -/
def cartLoadOp (id : Half) (s : State) : State :=
  if s.cart.loaded then raiseError .inval s else cartOpened id (stOpen .cart id .read s)

/-- CART_LOAD id (R80). -/
def execCartLoad (id : Half) (s : State) : Host.Outcome State Fault Refusal := acceptCommand (cartLoadOp id) s

end Sys2Proof.Machine
end

