-- ==== Sys2Proof/Machine/Clock.lean ====
section
/-! DEFINITION. The clock (spec/42_sram_persistence.md R125, R130, R133 to R135): RTC_ADVANCE, the 48-byte record, and
the commands RTC_GET and RTC_SET. -/

namespace Sys2Proof.Machine

/-- The day counter after a day has passed, with carry when it leaves 365 (R133). -/
def nextDay (r : Rtc) : Rtc := if 365 ≤ r.day.toNat then setCarry { r with day := 0 } else { r with day := r.day + 1 }

/-- The hour counter after an hour has passed (R133). -/
def nextHour (r : Rtc) : Rtc :=
  if 24 ≤ (r.hour + 1).toNat then nextDay { r with hour := 0 } else { r with hour := r.hour + 1 }

/-- The minute counter after a minute has passed (R133). -/
def nextMinute (r : Rtc) : Rtc :=
  if 60 ≤ (r.min + 1).toNat then nextHour { r with min := 0 } else { r with min := r.min + 1 }

/-- One second of the cascade (R133). -/
def nextSecond (r : Rtc) : Rtc :=
  if 60 ≤ (r.sec + 1).toNat then nextMinute { r with sec := 0 } else { r with sec := r.sec + 1 }

/-- `repeat s times` (R133). -/
def seconds : Nat → Rtc → Rtc
  | 0, r => r
  | k + 1, r => seconds k (nextSecond r)

/-- The seconds that fall due when the accumulator grows from `old` by `n` (R133), on integers. -/
def secondsDue (ticksPerSec old n : Nat) : Nat := (old + n) / ticksPerSec - old / ticksPerSec

/-- RTC_ADVANCE(old, n) (R133): dropped on a cartridge without a clock and while the halt flag is set. -/
def rtcAdvance (old n : Nat) (s : State) : State :=
  if s.cart.hasRtc && !rtcHalted s.rtc then { s with rtc := seconds (secondsDue s.cfg.ticksPerSec old n) s.rtc } else s

/-- ABS_SECONDS (R125). -/
def absSeconds (epoch : Dword) (r : Rtc) : Nat :=
  (epoch.toNat + r.day.toNat * 86400 + r.hour.toNat * 3600 + r.min.toNat * 60 + r.sec.toNat) % 2 ^ 64

/-- RTC_RECORD(): the 48 bytes of R70, from the live clock and R125. -/
def rtcRecord (epoch : Dword) (r : Rtc) : List Byte :=
  leBytes 4 r.sec.toNat ++ leBytes 4 r.min.toNat ++ leBytes 4 r.hour.toNat ++ leBytes 4 r.day.toNat ++
  leBytes 4 r.flags.toNat ++ leBytes 4 r.regs[0].toNat ++ leBytes 4 r.regs[1].toNat ++ leBytes 4 r.regs[2].toNat ++
  leBytes 4 r.regs[3].toNat ++ leBytes 4 r.regs[4].toNat ++ leBytes 8 (absSeconds epoch r)

/-- RTC_UNPACK(r) (R130): the low bits of each field; bytes 40 to 47 are ignored (R131); latch and select stay. -/
def rtcUnpack (b : Memory) (r : Rtc) : Rtc where
  sec := BitVec.ofNat 8 (b.readLE 0 4)
  min := BitVec.ofNat 8 (b.readLE 4 4)
  hour := BitVec.ofNat 8 (b.readLE 8 4)
  day := BitVec.ofNat 16 (b.readLE 12 4)
  latch := r.latch
  sel := r.sel
  flags := BitVec.ofNat 8 (b.readLE 16 4)
  regs := #v[BitVec.ofNat 8 (b.readLE 20 4), BitVec.ofNat 8 (b.readLE 24 4), BitVec.ofNat 8 (b.readLE 28 4),
             BitVec.ofNat 8 (b.readLE 32 4), BitVec.ofNat 8 (b.readLE 36 4)]

/-- The clock in the data window, in record order (R134). -/
def rtcWindow (r : Rtc) : Vector Word 10 :=
  #v[r.sec.setWidth 32, r.min.setWidth 32, r.hour.setWidth 32, r.day.setWidth 32, r.flags.setWidth 32,
     r.regs[0].setWidth 32, r.regs[1].setWidth 32, r.regs[2].setWidth 32, r.regs[3].setWidth 32, r.regs[4].setWidth 32]

/-- The clock taken from the data window (R135): no range check; latch and select stay. -/
def rtcFromWindow (xd : Vector Word 10) (r : Rtc) : Rtc where
  sec := xd[0].setWidth 8
  min := xd[1].setWidth 8
  hour := xd[2].setWidth 8
  day := xd[3].setWidth 16
  latch := r.latch
  sel := r.sel
  flags := xd[4].setWidth 8
  regs := #v[xd[5].setWidth 8, xd[6].setWidth 8, xd[7].setWidth 8, xd[8].setWidth 8, xd[9].setWidth 8]

/-- RTC_GET's operation (R134). -/
def rtcGetOp (s : State) : State := complete { s with xd := rtcWindow s.rtc }

/-- RTC_SET's operation (R135). -/
def rtcSetOp (s : State) : State := complete { s with rtc := rtcFromWindow s.xd s.rtc }

/-- RTC_GET (R134). -/
def execRtcGet (s : State) : Host.Outcome State Fault Refusal := acceptCommand rtcGetOp s

/-- RTC_SET (R135). -/
def execRtcSet (s : State) : Host.Outcome State Fault Refusal := acceptCommand rtcSetOp s

end Sys2Proof.Machine
end

