-- ==== Sys2Proof/Machine/Frame.lean ====
section
/-! DEFINITION. The frame scheduler (spec/44_frame_scheduler.md): the quantum request (R163, R164), FRAME's start (R160,
R161), and what the scheduler does each time it has control (R165 to R168). -/

namespace Sys2Proof.Machine

/-- VISIBLE(ly) (R162). -/
def visible (ly : Byte) : Bool := decide (visLo ≤ ly.toNat) && decide (ly.toNat < visEnd)

/-- INVBLANK(ly) (R162). -/
def inVblank (ly : Byte) : Bool := decide (visEnd ≤ ly.toNat)

/-- ACCOUNT(n) (R164). -/
def account (n : Nat) (s : State) : State :=
  rtcAdvance s.rtcTicks.toNat n
    { s with
      frameCycles := s.frameCycles + BitVec.ofNat 32 n
      totalCycles := s.totalCycles + BitVec.ofNat 64 n
      rtcTicks := s.rtcTicks + BitVec.ofNat 64 n }

/-- The FSB's half of `Run(n, kind)` (R163): request, account, and control passes to ENV. -/
def requestQuantum (n : Nat) (kind : QKind) (s : State) : State :=
  account n (emit (.run n kind) { s with run := some ⟨n, kind⟩ })

/-- FRAME's operation up to the first hand-over to ENV (R160, R161). -/
def frameOp (draw : Bool) (s : State) : State :=
  if s.cart.loaded = false then raiseError .inval s
  else requestQuantum s.cfg.qHead .head { s with renderEnable := draw, frameCycles := 0, phase := .p1 }

/-- FRAME draw (R160). -/
def execFrame (draw : Bool) (s : State) : Host.Outcome State Fault Refusal := acceptCommand (frameOp draw) s

/-- One scan-line quantum, of the budget sampled now (R165). -/
def lineQuantum (s : State) : State := requestQuantum s.lineCycles.toNat .line s

/-- The end of the invocation (R168). -/
def frameDone (s : State) : State := complete { s with phase := .idle }

/-- Phase 3: the end-of-visible-frame hook (R166). -/
def vblankHook (s : State) : State := emit .vblank { s with phase := .p3 }

/-- The scheduler in control between quanta: the next statement of R160's pseudocode (R165 to R168). -/
def schedule (s : State) : Host.Outcome State Fault Refusal :=
  match s.phase with
  | .idle => .fault .noOperation
  | .p1 => .next { s with phase := .p2 }
  | .p2 => if visible s.ly then .next (lineQuantum s) else .next (vblankHook s)
  | .p3 =>
    if s.lcdOn then .next { s with phase := .p4l }
    else .next (requestQuantum s.cfg.qSkip .skip { s with phase := .p4s })
  | .p4s => .next (frameDone s)
  | .p4l => if inVblank s.ly then .next (lineQuantum s) else .next (frameDone s)

end Sys2Proof.Machine
end

