-- ==== Sys2Proof/Machine/SramPersist.lean ====
section
/-! DEFINITION. Battery-RAM persistence (spec/42_sram_persistence.md R120 to R132): SRAM_SAVE and SRAM_LOAD. -/

namespace Sys2Proof.Machine

/-! ### SRAM_SAVE -/

/-- Seek, then write, in this order; `true` where both answered `ok`. -/
def seekWrite (off n : Nat) (bytes : Memory) (s : State) : Bool × State :=
  if (stSeek .op off s).1 then stWrite .op n bytes (stSeek .op off s).2 else (false, (stSeek .op off s).2)

/-- The bytes of a skipped bank's region in the file, unspecified after its seek or its write failed (R123, R50). -/
def spoilRegion (i : Nat) (s : State) : State :=
  match s.opHandle with
  | none => s
  | some hd =>
    { setFile hd.id ((fileOf hd s).torn (ramOffset i) ramPage s.freeCount) s with freeCount := s.freeCount + 1 }

/-- The end of one bank's write: its bits change only on success, and a bank that failed is skipped (R123). -/
def bankWritten (i : Nat) : Bool × State → State
  | (true, s) => markWritten i s
  | (false, s) => unlessStalled (spoilRegion i) s

/-- One bank of the save loop (R123). -/
def saveBank (i : Nat) (s : State) : State :=
  if needsSave s i then bankWritten i (seekWrite (ramOffset i) ramPage (ramBank s i) s) else s

/-- The save loop from bank `i` on, `k` banks, ascending (R123); a hang stops it (R210). -/
def saveBanks : Nat → Nat → State → State
  | _, 0, s => s
  | i, k + 1, s => if s.stalled then s else saveBanks (i + 1) k (saveBank i s)

/-- A full save marks every bank dirty and unsaved first (R121). -/
def markAll (quick : Bool) (s : State) : State :=
  if quick then s else { s with sramDirty := allBanks s.cart.ramsize, sramSaved := 0 }

/-- The open mode of a save (R53, R122). -/
def saveMode (quick : Bool) : Mode := if quick then .writeUpdate else .writeNew

/-- The clock record's write, where the cartridge has a clock (R124); `true` where it did not fail. -/
def saveClock (s : State) : Bool × State :=
  if s.stalled then (false, s)
  else if s.cart.hasRtc then
    seekWrite (ramOffset s.cart.ramsize) rtcRecSize (Memory.ofBytes (rtcRecord s.cfg.rtcEpoch s.rtc)) s
  else (true, s)

/-- The result of a save (R126). -/
def saveResult (rtcOk : Bool) (s : State) : State :=
  if s.sramDirty ≠ 0 ∨ rtcOk = false then raiseError .storage s else complete s

/-- The close and the result, unless a primitive never answered (R126, R210). -/
def saveEnded : Bool × State → State
  | (rtcOk, s) => unlessStalled (closeThen .op (saveResult rtcOk)) s

/-- The save after the open (R122 to R126). -/
def saveOpened : Bool × State → State
  | (false, s) => unlessStalled (raiseError .storage) s
  | (true, s) => saveEnded (saveClock (saveBanks 0 s.cart.ramsize s))

/-- SRAM_SAVE's operation (R120). -/
def sramSaveOp (id : Half) (quick : Bool) (s : State) : State :=
  if s.cart.loaded = false ∨ s.cart.hasBattery = false then raiseError .inval s
  else saveOpened (stOpen .op id (saveMode quick) (markAll quick s))

/-- SRAM_SAVE id, quick (R120). -/
def execSramSave (id : Half) (quick : Bool) (s : State) : Host.Outcome State Fault Refusal :=
  acceptCommand (sramSaveOp id quick) s

/-! ### SRAM_LOAD -/

/-- Seek, then read, in this order; a failed seek counts as a failed read. -/
def seekRead (off n : Nat) (s : State) : ReadAnswer × State :=
  if (stSeek .op off s).1 then stRead .op n (stSeek .op off s).2 else (.fail, (stSeek .op off s).2)

/-- `rambank_mem[i][0 .. 8191] <- b` (R129). -/
def setRamBank (i : Nat) (b : Memory) (s : State) : State := { s with sram := s.sram.splice (ramOffset i) ramPage b }

/-- The end of one bank's read: only a full read changes the bank and its saved bit (R129). -/
def bankRead (i : Nat) : ReadAnswer × State → State
  | (.full b, s) => markRestored i (setRamBank i b s)
  | (.eof _ _, s) => s
  | (.fail, s) => s

/-- One bank of the load loop (R129). -/
def loadRamBank (i : Nat) (s : State) : State := bankRead i (seekRead (ramOffset i) ramPage s)

/-- The load loop from bank `i` on, `k` banks, ascending (R129); a hang stops it (R210). -/
def loadRamBanks : Nat → Nat → State → State
  | _, 0, s => s
  | i, k + 1, s => if s.stalled then s else loadRamBanks (i + 1) k (loadRamBank i s)

/-- The end of the clock record's read (R130). -/
def clockRead : ReadAnswer × State → State
  | (.full b, s) => { s with rtc := rtcUnpack b s.rtc }
  | (.eof _ _, s) => s
  | (.fail, s) => s

/-- The clock record on load, where the cartridge has a clock (R130). -/
def loadClock (s : State) : State :=
  if s.stalled then s
  else if s.cart.hasRtc then clockRead (seekRead (ramOffset s.cart.ramsize) rtcRecSize s) else s

/-- The result of a load: failure where no bank was restored (R132). The saved bits were all cleared first, so a bank
was restored exactly where one is set. -/
def loadResult (s : State) : State := if s.sramSaved = 0 then raiseError .storage s else complete s

/-- The close and the result, unless a primitive never answered (R132, R210). -/
def loadEnded (s : State) : State := unlessStalled (closeThen .op loadResult) s

/-- The load after the open (R129 to R132). -/
def loadOpened : Bool × State → State
  | (false, s) => unlessStalled (raiseError .storage) s
  | (true, s) => loadEnded (loadClock (loadRamBanks 0 s.cart.ramsize s))

/-- SRAM_LOAD's operation (R127, R128). -/
def sramLoadOp (id : Half) (s : State) : State :=
  if s.cart.loaded = false ∨ s.cart.hasBattery = false then raiseError .inval s
  else loadOpened (stOpen .op id .read { s with sramDirty := 0, sramSaved := 0 })

/-- SRAM_LOAD id (R127). -/
def execSramLoad (id : Half) (s : State) : Host.Outcome State Fault Refusal := acceptCommand (sramLoadOp id) s

end Sys2Proof.Machine
end

