-- ==== Sys2Proof/Machine/StatePersist.lean ====
section
/-! DEFINITION. Save-state persistence (spec/43_state_persistence.md R140 to R159): STATE_SAVE and STATE_LOAD. -/

namespace Sys2Proof.Machine

/-! ### The header block (R141 to R143) -/

/-- PUT(k, tag, v): record slot `k` written (R140). -/
def putRecord (k : Nat) (t : Tag) (v : Word) (hdr : Memory) : Memory :=
  hdr.splice (recordOffset k) 8 (Memory.ofBytes (tagBytes t ++ leBytes 4 v.toNat))

/-- The records of REG_TABLE from slot `k` on, in table order (R142). -/
def putRegisters (s : State) : Nat → List RegEntry → Memory → Memory
  | _, [], hdr => hdr
  | k, e :: es, hdr => putRegisters s (k + 1) es (putRecord k e.tag (narrow e.width (readReg s e.id)) hdr)

/-- The four embedded regions at their offsets (R143). -/
def putRegions (s : State) (hdr : Memory) : Memory :=
  (((hdr.splice offWave lenWave s.wave).splice offIo lenIo s.ioregs).splice offPal lenPal s.pal).splice offOam lenOam
    s.oam

/-- The header block, built fresh from zeros: the version record, the registers, the regions (R141 to R143). -/
def buildHeader (s : State) : Memory :=
  putRegions s (putRegisters s 1 s.cfg.regTable (putRecord 0 s.cfg.versionTag s.cfg.formatVersion []))

/-! ### STATE_SAVE -/

/-- The units `0 .. k-1` of a memory block, in order (R144). -/
def units (m : Memory) (k : Nat) : List Memory := (List.range k).map (fun u => m.slice (unitOffset u) unitSize)

/-- Every unit of the file, in the write order of R144. -/
def stateUnits (s : State) : List Memory :=
  s.hdr :: (units s.wram (wramUnits s.cart.hwfamily) ++ units s.vram (vramUnits s.cart.hwfamily) ++
    units s.sram (2 * s.cart.ramsize))

/-- W1 over the units in order: the first failing write ends it (R145). `true` where all were written. -/
def writeUnits : List Memory → State → Bool × State
  | [], s => (true, s)
  | u :: us, s =>
    if (stWrite .op unitSize u s).1 then writeUnits us (stWrite .op unitSize u s).2
    else (false, (stWrite .op unitSize u s).2)

/-- The end of the save: the handle closed on every path (R145), unless a primitive never answers (R210). -/
def saveStateWritten : Bool × State → State
  | (true, s) => closeThen .op complete s
  | (false, s) => unlessStalled (closeThen .op (raiseError .storage)) s

/-- The save after the open (R144). -/
def saveStateOpened : Bool × State → State
  | (false, s) => unlessStalled (raiseError .storage) s
  | (true, s) => saveStateWritten (writeUnits (stateUnits s) s)

/-- STATE_SAVE's operation (R140). -/
def stateSaveOp (id : Half) (s : State) : State :=
  if s.cart.loaded = false then raiseError .inval s
  else saveStateOpened (stOpen .op id .writeNew { s with hdr := buildHeader s })

/-- STATE_SAVE id (R140). -/
def execStateSave (id : Half) (s : State) : Host.Outcome State Fault Refusal := acceptCommand (stateSaveOp id) s

/-! ### STATE_LOAD -/

/-- R1 repeated `k` times: the units in order, or `none` at the first one that is not read in full (R148, R149). -/
def readUnits : Nat → State → Option (List Memory) × State
  | 0, s => (some [], s)
  | k + 1, s =>
    match stRead .op unitSize s with
    | (.full b, s') => (((readUnits k s').1).map (b :: ·), (readUnits k s').2)
    | (.eof _ _, s') => (none, s')
    | (.fail, s') => (none, s')

/-- Units stored one after another from unit `u` of a memory block on (R147). -/
def storeUnits : Nat → List Memory → Memory → Memory
  | _, [], m => m
  | u, b :: bs, m => storeUnits (u + 1) bs (m.splice (unitOffset u) unitSize b)

/-- FIND from slot `k` on, `n` slots: the first match's value; 0 at the zero tag or at the end (R151). -/
def findFrom (hdr : Memory) (t : Tag) : Nat → Nat → Word
  | _, 0 => 0
  | k, n + 1 =>
    if recordTag hdr k = Tag.zero then 0
    else if recordTag hdr k = t then recordValue hdr k
    else findFrom hdr t (k + 1) n

/-- FIND(tag) (R147, R151). -/
def findRecord (hdr : Memory) (t : Tag) : Word := findFrom hdr t 0 maxRecords

/-- The embedded regions copied out of the header block (R150). -/
def takeRegions (s : State) : State :=
  { s with
    wave := s.hdr.slice offWave lenWave
    ioregs := s.hdr.slice offIo lenIo
    pal := s.hdr.slice offPal lenPal
    oam := s.hdr.slice offOam lenOam }

/-- The register walk over REG_TABLE (R151). -/
def walkRegisters : List RegEntry → State → State
  | [], s => s
  | e :: es, s => walkRegisters es (writeReg e.id (narrow e.width (findRecord s.hdr e.tag)) s)

/-- The version check: a warning, never a failure (R152). -/
def checkVersion (s : State) : State := if s.loadedVersion ≠ s.cfg.formatVersion then raiseWarning .version s else s

/-- The post-load mask of the RAM-bank selector (R153). -/
def maskRambank (s : State) : State := { s with rambank := s.rambank &&& BitVec.ofNat 8 (s.cart.ramsize - 1) }

/-- The three notifications, in order (R155). -/
def notifyLoaded (s : State) : State := emit .memRemap (emit .sndDirty (emit .palRebuild s))

/-- Everything after the last read (R150 to R155), the header block being in `hdr`. -/
def stateRestored (s : State) : State :=
  complete (notifyLoaded { maskRambank (checkVersion (walkRegisters s.cfg.regTable
    { takeRegions s with loadedVersion := findRecord s.hdr s.cfg.versionTag })) with bootromDisable := true })

/-- The memory blocks from the units read after the header, by the current cartridge's counts (R148). -/
def storeBlocks (us : List Memory) (s : State) : State :=
  { s with
    wram := storeUnits 0 (us.take (wramUnits s.cart.hwfamily)) s.wram
    vram := storeUnits 0 ((us.drop (wramUnits s.cart.hwfamily)).take (vramUnits s.cart.hwfamily)) s.vram
    sram := storeUnits 0 (us.drop (wramUnits s.cart.hwfamily + vramUnits s.cart.hwfamily)) s.sram }

/-- What a failed read leaves (R149): working, video and battery RAM unspecified, the header consumed. DESIGN CHOICE:
the spec gives no value to the bytes of WRAM and VRAM above the legacy size, which a color cartridge loaded later has;
they are unspecified too (log entry 13). -/
def spoilBlocks (s : State) : State :=
  { s with
    wram := freeBytes s.freeCount (unitOffset (wramUnits .color))
    vram := freeBytes (s.freeCount + 1) (unitOffset (vramUnits .color))
    sram := freeBytes (s.freeCount + 2) (ramOffset s.cart.ramsize)
    freeCount := s.freeCount + 3 }

/-- How many units STATE_LOAD reads (R148). -/
def unitCount (c : Cart) : Nat := 1 + wramUnits c.hwfamily + vramUnits c.hwfamily + 2 * c.ramsize

/-- The load after the reads (R148, R149). The units are stored before the close; those of a load that hangs in a read
may have been stored too (R210). -/
def loadStateRead : Option (List Memory) × State → State
  | (some (hdr :: us), s) => closeThen .op stateRestored (storeBlocks us { s with hdr := hdr })
  | (some [], s) => spoilBlocks (closeThen .op (raiseError .storage) s)
  | (none, s) => spoilBlocks (unlessStalled (closeThen .op (raiseError .storage)) s)

/-- The load after the open. -/
def loadStateOpened : Bool × State → State
  | (false, s) => unlessStalled (raiseError .storage) s
  | (true, s) => loadStateRead (readUnits (unitCount s.cart) s)

/-- STATE_LOAD's operation (R147). -/
def stateLoadOp (id : Half) (s : State) : State :=
  if s.cart.loaded = false then raiseError .inval s else loadStateOpened (stOpen .op id .read s)

/-- STATE_LOAD id (R147). -/
def execStateLoad (id : Half) (s : State) : Host.Outcome State Fault Refusal := acceptCommand (stateLoadOp id) s

end Sys2Proof.Machine
end

