-- ==== Sys2Proof/Machine/Dispatch.lean ====
section
/-! DEFINITION. The dispatch: one arm per operation. -/

namespace Sys2Proof.Machine

def exec (i : Instr) (s : State) : Host.Outcome State Fault Refusal :=
  match i with
  | .cartLoad id => Sys2Proof.Machine.execCartLoad id s
  | .cartUnload => Sys2Proof.Machine.execCartUnload s
  | .bankLoad n => Sys2Proof.Machine.execBankLoad n s
  | .preload count => Sys2Proof.Machine.execPreload count s
  | .sramSave id quick => Sys2Proof.Machine.execSramSave id quick s
  | .sramLoad id => Sys2Proof.Machine.execSramLoad id s
  | .stateSave id => Sys2Proof.Machine.execStateSave id s
  | .stateLoad id => Sys2Proof.Machine.execStateLoad id s
  | .frame draw => Sys2Proof.Machine.execFrame draw s
  | .rtcGet => Sys2Proof.Machine.execRtcGet s
  | .rtcSet => Sys2Proof.Machine.execRtcSet s
  | .rd addr => Sys2Proof.Machine.execRd addr s
  | .wr addr data => Sys2Proof.Machine.execWr addr data s
  | .selrom v => Sys2Proof.Machine.execSelrom v s
  | .selram v => Sys2Proof.Machine.execSelram v s

end Sys2Proof.Machine
end

