-- ==== Sys2Proof/Machine/Agents.lean ====
section
/-! DEFINITION. The turns of the three agents that share the one thread of control (spec/00_scope.md R5): the HOST on an
idle block (R62, R71), ENV inside a quantum (R163, R72, R173), and the reset input (R200). -/

namespace Sys2Proof.Machine

/-! ### The HOST's turn -/

/-- A command word presented to an idle block (R62): latched in `CW`, decoded, and run; a reserved word ends in E_INVAL
with no other change (R71). -/
def present (w : Word) (s : State) : Host.Outcome State Fault Refusal :=
  match decode .command w with
  | .ok i => exec i { s with cw := w }
  | .error _ => acceptCommand (raiseError .inval) { s with cw := w }

/-- The storage oracle of an operation that reset abandons after `k` primitives (R200): beyond the `k` answers it was
to get, a primitive never answers, so that the operation goes no further; a write in progress leaves an unspecified tail
(R209). -/
def cutAnswers (k : Nat) (s : State) : List Answer :=
  (List.range k).map (fun j => s.answers.getD j (Config.freeAnswer (s.freeCount + j))) ++ [.never]

/-- Reset asserted while the command just presented is in flight, after `k` storage primitives (R200, R203, R209): what
it had written to STORAGE stays. -/
def presentReset (w : Word) (k : Nat) (s : State) : Host.Outcome State Fault Refusal :=
  match present w { s with answers := cutAnswers k s } with
  | .next t => .next (resetInput { t with answers := s.answers.drop k, freeCount := t.freeCount + k })
  | .fault r => .fault r
  | .refused r => .refused r

/-- The HOST's next action on an idle block; with none, the block stays idle (R196). -/
def hostTurn (s : State) : Host.Outcome State Fault Refusal :=
  match s.host with
  | [] => .next s
  | .command w :: rest => present w { s with host := rest }
  | .setXD i v :: rest => .next { s with host := rest, xd := s.xd.set i v }
  | .reset :: rest => .next (resetInput { s with host := rest })
  | .commandReset w k :: rest => presentReset w k { s with host := rest }
  | .resetAfter _ :: rest => .next (resetInput { s with host := rest })

/-- Whether the HOST's next action asserts reset, and what follows it. -/
def resetNext : List HostAct → Option (List HostAct)
  | .reset :: rest => some rest
  | .resetAfter _ :: rest => some rest
  | _ => none

/-- A halted block: only reset leaves the state (R184). -/
def haltedTurn (s : State) : Host.Outcome State Fault Refusal :=
  match resetNext s.host with
  | some rest => .next (resetInput { s with host := rest })
  | none => .fault (.halted s.hcause)

/-- A block that hangs on a primitive: only reset leaves the state, and without it the execution goes on for ever (R9,
R210). -/
def stalledTurn (s : State) : Host.Outcome State Fault Refusal :=
  match resetNext s.host with
  | some rest => .next (resetInput { s with host := rest })
  | none => .next s

/-! ### ENV's turn -/

/-- The next action of ENV: the script's, a free value beyond it. -/
def nextEnv (s : State) : EnvAct :=
  match s.env with
  | a :: _ => a
  | [] => Config.freeEnv s.freeCount

/-- The script after one action. -/
def envTaken (s : State) : State :=
  match s.env with
  | _ :: rest => { s with env := rest }
  | [] => { s with freeCount := s.freeCount + 1 }

/-- A bus word presented inside a quantum: a reserved one halts with F_RANGE (R72). -/
def presentBus (w : Word) (s : State) : Host.Outcome State Fault Refusal :=
  match decode .bus w with
  | .ok i => exec i s
  | .error _ => acceptBus (raiseFatal .range) s

/-- A write of a machine register by ENV (R163), at the width REG_TABLE gives it (R31): a register REG_TABLE names, or
one of the two the spec fixes; ENV cannot write any other (log entry 21). -/
def envSetReg (id : RegId) (v : Word) (s : State) : Host.Outcome State Fault Refusal :=
  match tableWidth s.cfg id with
  | some w => .next (writeReg id (narrow w v) s)
  | none =>
    match id with
    | .rambank => .next (writeReg id v s)
    | .bootromOff => .next (writeReg id v s)
    | _ => .refused .envForbidden

/-- A byte of a machine memory region written by ENV (R163); a byte outside the region does not exist. -/
def envPoke (r : Region) (off : Nat) (b : Byte) (s : State) : Host.Outcome State Fault Refusal :=
  if off < regionSize s.cart.hwfamily r then .next (pokeRegion r off b s) else .refused .envForbidden

/-- A write by the excluded memory-controller logic (R24). -/
def controllerWrite (r : ControllerReg) (v : Byte) (s : State) : State :=
  match r with
  | .latch => { s with rtc := { s.rtc with latch := v } }
  | .sel => { s with rtc := { s.rtc with sel := v } }
  | .shadow j => { s with rtc := { s.rtc with regs := s.rtc.regs.set j v } }

/-- One action inside a quantum: ENV's (R163), the memory-controller logic's (R24), or reset (R200). -/
def envAct (a : EnvAct) (s : State) : Host.Outcome State Fault Refusal :=
  match a with
  | .bus w => presentBus w s
  | .setLy v => .next { s with ly := v }
  | .setLineCycles v => .next { s with lineCycles := v }
  | .setLcdOn b => .next { s with lcdOn := b }
  | .setReg id v => envSetReg id v s
  | .poke r off b => envPoke r off b s
  | .done => .next { s with run := none }
  | .controller r v => .next (controllerWrite r v s)
  | .reset => .next (resetInput s)

/-- ENV's next action. -/
def envTurn (s : State) : Host.Outcome State Fault Refusal := envAct (nextEnv s) (envTaken s)

/-! ### Whose turn it is -/

/-- The scheduler between two quanta, unless reset is asserted there (R200). -/
def schedulerTurn (s : State) : Host.Outcome State Fault Refusal :=
  match s.host with
  | .resetAfter 0 :: rest => .next (resetInput { s with host := rest })
  | .resetAfter (k + 1) :: rest => schedule { s with host := .resetAfter k :: rest }
  | _ => schedule s

/-- The agent that has control acts (R5): nobody but reset on a halted block or a hanging one, the HOST on an idle one,
ENV inside a quantum, the scheduler between quanta. -/
def turn (s : State) : Host.Outcome State Fault Refusal :=
  if s.halted then haltedTurn s
  else if s.stalled then stalledTurn s
  else if s.busy = false then hostTurn s
  else if s.run.isSome then envTurn s
  else schedulerTurn s

/-- A word placed where the next turn takes it: on the command port of an idle block, or as ENV's next bus request
inside a quantum (log entries 14, 15). -/
def placeWord (p : Port) (w : Word) (s : State) : State :=
  match p with
  | .command =>
    { s with
      halted := false, stalled := false, busy := false, run := none, phase := .idle, host := .command w :: s.host }
  | .bus =>
    { s with
      halted := false, stalled := false, busy := true, run := some ⟨s.cfg.qHead, .head⟩, phase := .p1,
      env := .bus w :: s.env }

end Sys2Proof.Machine
end

