-- ==== Sys2Proof/Machine/Step.lean ====
section
/-! DEFINITION. One step of the machine, and the host's way to place the word the next step runs. -/

namespace Sys2Proof.Machine

/-- One step: one action of the agent that has control (spec/00_scope.md R5). -/
def step (s : State) : Host.Outcome State Fault Refusal := turn s

/-- The state with the word of a table row placed where the next step takes its word. -/
def State.withFetchWord (s : State) (_nbits w : Nat) : State :=
  placeWord (portOfWord (BitVec.ofNat 32 w)) (BitVec.ofNat 32 w) s

end Sys2Proof.Machine
end

