-- ==== Sys2Proof/Safety.lean ====
section
/-! DEFINITION. The terms claims are stated in: the constraints on the parameters, when an operation can be presented,
what a safe run is, and the invariants of the machine. -/

namespace Sys2Proof

/-- The width in bytes of a register whose width the spec fixes (R11, R17, R24, R31); any for the collaborators' own. -/
def RegId.widthOk (id : RegId) (w : Nat) : Bool :=
  match id with
  | .rambank => w == 1
  | .bootromOff => w == 1
  | .rombank => w == 2
  | .rtcSec => w == 1
  | .rtcMin => w == 1
  | .rtcHour => w == 1
  | .rtcDay => w == 2
  | .rtcLatch => w == 1
  | .rtcSel => w == 1
  | .rtcFlags => w == 1
  | .rtcReg _ => w == 1
  | .rtcTicksLow => w == 4
  | .rtcTicksHigh => w == 4
  | .ioreg k => w == 1 && decide (k < 256)
  | .other _ => w == 1 || w == 2 || w == 4

/-- How many entries the checksum table has (R88). -/
def ColorMap.sumCount : ColorMap → Nat
  | .tables t => t.sums.length
  | .graph _ => 0

/-- The palette indices the map lists. -/
def ColorMap.listed : ColorMap → List Byte
  | .tables t => t.letters.map (·.2.2) ++ t.through.map (·.2)
  | .graph g => g.map (·.2)

/-- The length of COLORIZE's first table, and its range, 0 to 93 (R88). -/
abbrev ColorMap.ok (m : ColorMap) : Prop := m.sumCount ≤ 79 ∧ ∀ b ∈ m.listed, b.toNat < 94

/-- The constraints R4, R11, R31, R87, R88 and R142 put on the parameters. A claim that needs one takes it as a
premise. -/
abbrev Config.wf (c : Config) : Prop :=
  1 ≤ c.poolSize ∧ c.ramCap ≤ 32 ∧ 1 ≤ c.ticksPerSec ∧ c.formatVersion ≠ 0 ∧ c.versionTag ≠ Tag.zero ∧
  c.regTable.length ≤ 412 ∧
  (∀ e ∈ c.regTable, e.tag ≠ Tag.zero ∧ e.tag ≠ c.versionTag ∧ e.id.widthOk e.width = true) ∧
  (c.regTable.map (·.tag)).Nodup ∧
  (∀ e ∈ c.regTable, ∀ e' ∈ c.regTable, e.id = e'.id → e.width = e'.width) ∧
  c.preloadTitles.length ≤ 2 ∧ (∀ t ∈ c.preloadTitles, t.length = 16) ∧
  Machine.familyOf c.typeMap 3 = 1 ∧ (3 : Byte) ∈ c.typeMap.battery ∧
  (∀ r ∈ c.typeMap.families, r.family.toNat ≤ 8) ∧ c.color.ok

end Sys2Proof

namespace Sys2Proof.Machine

/-! ### When an operation can be presented -/

/-- The block is idle, not halted, and does not hang: the HOST may present a command (R62). -/
abbrev State.ready (s : State) : Prop := s.busy = false ∧ s.halted = false ∧ s.stalled = false

/-- A quantum is in progress and the block is not halted and does not hang: ENV may present a bus request (R63). -/
abbrev State.inQuantum (s : State) : Prop := s.halted = false ∧ s.stalled = false ∧ s.run.isSome = true

/-- The next `k` storage primitives succeed (R52). -/
abbrev State.storageOk (s : State) (k : Nat) : Prop := s.answers.take k = List.replicate k .ok

/-! ### Safe runs -/

/-- A state the spec calls no fault (R184): not halted. -/
abbrev State.safe (s : State) : Prop := s.halted = false

/-- `k` steps from a state end in a state that is not halted, with no fault and no refusal on the way. -/
def SafeRun (k : Nat) (s : State) : Prop := ∃ t, Sys2Proof.core.run k s = .next t ∧ State.safe t

/-! ### Invariants -/

/-- A file in canonical form, with no byte beyond its length. -/
abbrev File.wf (f : File) : Prop := f.data.wf ∧ ∀ c ∈ f.data, c.1 < f.len

/-- Every memory and table of the state is in its canonical form. -/
structure MemoriesCanonical (s : State) : Prop where
  pool : Memory.wf s.pool
  sram : Memory.wf s.sram
  wram : Memory.wf s.wram
  vram : Memory.wf s.vram
  wave : Memory.wf s.wave
  ioregs : Memory.wf s.ioregs
  pal : Memory.wf s.pal
  oam : Memory.wf s.oam
  hdr : Memory.wf s.hdr
  slot : Tab.wf s.slot
  ftag : Tab.wf s.ftag
  mreg : Tab.wf s.mreg
  files : Tab.wf s.files
  eachFile : ∀ e ∈ s.files, File.wf e.2

/-- The tag-array invariant of R20, with the bounds of R18 and R19. -/
structure TagsAgree (s : State) : Prop where
  iff : ∀ n f, slotOf s n = some f ↔ ftagOf s f = some n
  bound : ∀ n f, slotOf s n = some f → n < s.cart.romsize ∧ f < s.cfg.poolSize

/-- The cartridge record has legal values (R11): empty with no cartridge, else sizes of the fixed enumerations, one of
the controller families, and a colorization key below 94; and there are as many RAM buffers as it says (R22), except in a
CART_UNLOAD that hangs in its close, which has discarded them (R110, R210). -/
def CartLegal (s : State) : Prop :=
  (s.cart.loaded = false → s.cart = Cart.empty) ∧
  (s.cart.loaded = true →
    s.cart.title.length = 16 ∧
    (s.cart.romsize = 2 ∨ s.cart.romsize = 4 ∨ s.cart.romsize = 8 ∨ s.cart.romsize = 16 ∨ s.cart.romsize = 32 ∨
      s.cart.romsize = 64 ∨ s.cart.romsize = 128 ∨ s.cart.romsize = 256 ∨ s.cart.romsize = 512) ∧
    (s.cart.ramsize = 1 ∨ s.cart.ramsize = 4 ∨ s.cart.ramsize = 8 ∨ s.cart.ramsize = 16) ∧
    s.cart.mbc.toNat ≤ 8 ∧ s.cart.colorkey.toNat < 94 ∧ (s.cart.hwfamily = .color → s.cart.colorkey = 0)) ∧
  (s.stalled = false → s.ramPages = s.cart.ramsize)

/-- Bookkeeping bits at and above `cart.ramsize` are 0 (R15). -/
def MasksInRange (s : State) : Prop :=
  ∀ i, s.cart.ramsize ≤ i → bitOf s.sramDirty i = false ∧ bitOf s.sramSaved i = false

/-- The cartridge handle is open on the cartridge file (R23). -/
abbrev CartHandleOpen (s : State) : Prop := s.cartHandle.map (·.id) = some s.cartFileId

/-- Handle discipline (R214), at every point where no operation is running and the block has not halted: nor hangs
inside one (R210). -/
def HandlesDisciplined (s : State) : Prop :=
  s.halted = false → s.stalled = false →
    s.opHandle = none ∧ s.cartFileOpen = s.cart.loaded ∧ (s.cart.loaded = true → CartHandleOpen s) ∧
    (s.cart.loaded = false → s.cartHandle = none ∧ s.slot = [] ∧ s.ftag = [])

/-- The scheduler's registers are consistent (R13, R14, R163, R184, R210). That a busy block that neither halts nor
hangs is inside a FRAME rests on the size of a step (log entries 1 and 27). -/
def SchedulerConsistent (s : State) : Prop :=
  (s.busy = false → s.halted = false ∧ s.stalled = false ∧ s.phase = .idle ∧ s.run = none) ∧
  (s.run.isSome = true → s.busy = true ∧ s.phase ≠ .idle ∧ s.phase ≠ .p3) ∧
  (s.halted = false → s.stalled = false → s.busy = true → s.phase ≠ .idle ∧ s.cart.loaded = true) ∧
  (s.halted = false ↔ s.hcause = .none)

/-- Every register of REG_TABLE holds a value of the width the table gives it (R31). -/
def RegistersFit (s : State) : Prop := ∀ e ∈ s.cfg.regTable, narrow e.width (readReg s e.id) = readReg s e.id

/-- The invariants of the block together, with the constraints on its parameters. -/
structure BlockInvariant (s : State) : Prop where
  config : Config.wf s.cfg
  cart : CartLegal s
  masks : MasksInRange s
  handles : HandlesDisciplined s
  scheduler : SchedulerConsistent s
  tags : TagsAgree s
  registers : RegistersFit s

/-- Byte `off` of program bank `n` as the cartridge file holds it, zero beyond the file's end (R41, R106). -/
def romByte (s : State) (n off : Nat) : Byte := memByte s (.file s.cartFileId) (n * 16384 + off)

/-- What the tag array promises of the frames (R56, R108): every resident frame holds its bank's bytes of the open
cartridge file, and zeros beyond the file's end. It holds as long as the file does not change while open (R56, R208). -/
def FramesCoherent (s : State) : Prop :=
  ∀ n f off, slotOf s n = some f → off < 16384 → readFrame s f off = romByte s n off

/-- The registers the spec gives a reset value hold it (R201), and the event trace is empty. -/
structure ResetValues (t : State) : Prop where
  cart : t.cart = Cart.empty
  cw : t.cw = 0
  result : t.result = 0
  xd : t.xd = #v[0, 0, 0, 0, 0, 0, 0, 0, 0, 0]
  phase : t.phase = .idle
  busy : t.busy = false
  halted : t.halted = false
  hcause : t.hcause = .none
  stalled : t.stalled = false
  warn : t.warn = 0
  sramDirty : t.sramDirty = 0
  sramSaved : t.sramSaved = 0
  renderEnable : t.renderEnable = false
  rombank : t.rombank = 1
  rambank : t.rambank = 0
  slot : ∀ n, slotOf t n = none
  ftag : ∀ f, ftagOf t f = none
  ramPages : t.ramPages = 0
  cartFileOpen : t.cartFileOpen = false
  cartFileId : t.cartFileId = 0
  rtc : t.rtc = Rtc.zero
  rtcTicks : t.rtcTicks = 0
  frameCycles : t.frameCycles = 0
  totalCycles : t.totalCycles = 0
  bootromDisable : t.bootromDisable = false
  loadedVersion : t.loadedVersion = 0
  trace : t.trace = []
  cartHandle : t.cartHandle = none
  opHandle : t.opHandle = none

/-! ### Traces -/

/-- A storage primitive, as against an event output (R34). -/
def Event.isStorage : Event → Bool
  | .run _ _ => false
  | .vblank => false
  | .palRebuild => false
  | .sndDirty => false
  | .memRemap => false
  | .warn _ => false
  | .stOpen _ _ _ => true
  | .stSeek _ _ => true
  | .stRead _ _ => true
  | .stWrite _ _ _ => true
  | .stClose _ => true

/-- The trace of `t` is that of `s` and storage primitives after it: no event output. -/
def OnlyStorageSince (s t : State) : Prop := ∃ es, t.trace = s.trace ++ es ∧ ∀ e ∈ es, e.isStorage = true

/-- The cycles of a request (R186). -/
def Event.cycles : Event → Nat
  | .run n _ => n
  | _ => 0

/-- The cycles requested in a trace. -/
def requestedCycles (tr : List Event) : Nat := (tr.map Event.cycles).sum

/-- Whether an event starts the quanta of a FRAME invocation: its HEAD quantum (R161). -/
def Event.isHead : Event → Bool
  | .run _ .head => true
  | _ => false

/-- The cycles requested since the last HEAD quantum of a trace, that one included. -/
def cyclesSinceHead (tr : List Event) : Nat :=
  tr.foldl (fun acc e => if e.isHead then e.cycles else acc + e.cycles) 0

/-! ### Records and files -/

/-- What FIND answers (R151): the value of the first slot below 414 with the tag, where no slot before it ends the list;
else 0. -/
def FoundRecord (hdr : Memory) (t : Tag) (v : Word) : Prop :=
  (∃ k, k < 414 ∧ recordTag hdr k = t ∧ v = recordValue hdr k ∧
    ∀ j, j < k → recordTag hdr j ≠ t ∧ recordTag hdr j ≠ Tag.zero) ∨
  (v = 0 ∧ ∀ k, k < 414 → recordTag hdr k = t → ∃ j, j < k ∧ recordTag hdr j = Tag.zero)

/-- The 48 bytes at an offset are the clock record of `r` (R70, R125). -/
def ClockRecordAt (m : Memory) (off : Nat) (epoch : Dword) (r : Rtc) : Prop :=
  m.readLE off 4 = r.sec.toNat ∧ m.readLE (off + 4) 4 = r.min.toNat ∧ m.readLE (off + 8) 4 = r.hour.toNat ∧
  m.readLE (off + 12) 4 = r.day.toNat ∧ m.readLE (off + 16) 4 = r.flags.toNat ∧
  (∀ j : Fin 5, m.readLE (off + 20 + 4 * j) 4 = r.regs[j].toNat) ∧
  m.readLE (off + 40) 8 =
    (epoch.toNat + r.day.toNat * 86400 + r.hour.toNat * 3600 + r.min.toNat * 60 + r.sec.toNat) % 2 ^ 64

/-- The clock `r` was loaded from the record at an offset, over the clock `old` (R130). -/
def ClockLoadedFrom (m : Memory) (off : Nat) (old r : Rtc) : Prop :=
  r.sec.toNat = m.readLE off 4 % 256 ∧ r.min.toNat = m.readLE (off + 4) 4 % 256 ∧
  r.hour.toNat = m.readLE (off + 8) 4 % 256 ∧ r.day.toNat = m.readLE (off + 12) 4 % 65536 ∧
  r.flags.toNat = m.readLE (off + 16) 4 % 256 ∧
  (∀ j : Fin 5, r.regs[j].toNat = m.readLE (off + 20 + 4 * j) 4 % 256) ∧ r.latch = old.latch ∧ r.sel = old.sel

/-- How a persistence command ends (R9, R183, R210): with 0 or E_STORAGE and `busy` clear, or it hangs, `busy` set and
`result` as it was; it never halts. -/
def EndsOrHangs (s t : State) : Prop :=
  t.halted = false ∧
  (t.stalled = false ∧ t.busy = false ∧ (t.result = 0 ∨ t.result = 0xFFFFFFFE) ∨
    t.stalled = true ∧ t.busy = true ∧ t.result = s.result)

/-- Every file but the one an identifier names is as before. -/
def OtherFilesKept (id : Half) (s t : State) : Prop :=
  ∀ id', fileKey s id' ≠ fileKey s id → fileNamed t id' = fileNamed s id'

/-- The seconds a clock in range shows, in a calendar of 366 days (R24, R133). -/
def clockSeconds (r : Rtc) : Nat := ((r.day.toNat * 24 + r.hour.toNat) * 60 + r.min.toNat) * 60 + r.sec.toNat

/-- Every clock field is in the range the record gives it (R24). -/
def ClockInRange (r : Rtc) : Prop := r.sec.toNat < 60 ∧ r.min.toNat < 60 ∧ r.hour.toNat < 24 ∧ r.day.toNat ≤ 365

/-! ### Two runs that differ in the draw flag -/

/-- Equal but for the draw flag, and for the command word that carried it (R169). -/
def SameButDraw (s t : State) : Prop := t = { s with renderEnable := t.renderEnable, cw := t.cw }

/-! ### Words that are reserved, as the spec lists them -/

/-- The reserved command words of R71. -/
def reservedCommand (w : Word) : Prop :=
  (cmdOpc w = 0 ∨ 0x0C ≤ cmdOpc w) ∨ bitSlice w 23 17 ≠ 0 ∨
  (bitSlice w 16 16 = 1 ∧ cmdOpc w ≠ 0x05 ∧ cmdOpc w ≠ 0x09) ∨
  (cmdArg w ≠ 0 ∧ (cmdOpc w = 0x02 ∨ cmdOpc w = 0x09 ∨ cmdOpc w = 0x0A ∨ cmdOpc w = 0x0B))

/-- The reserved bus words of R72. -/
def reservedBus (w : Word) : Prop :=
  4 ≤ busKind w ∨ busZero w ≠ 0 ∨ (busData w ≠ 0 ∧ (busKind w = 0 ∨ busKind w = 2)) ∨ (busAddr w ≠ 0 ∧ busKind w = 3)

end Sys2Proof.Machine
end

