-- ==== Sys2Proof/Certificates/Slice0/Obligations.lean ====
section
/-! DEFINITION. The statements for the provers, taken from the spec's numbered rules. -/

open Sys2Proof Sys2Proof.Machine

/-! ### Encoding -/

/-- Every well-formed operation is read back from its word by its port's decoder (R60 to R64, R74). -/
def Obligations.DecodeReadsEncodedOperation : Prop :=
  ∀ i : Instr, i.wellFormed = true → decode i.port (encode i) = .ok i

/-- A word the decoder accepts is the word of what it reads: each word has one meaning (R60 to R64). -/
def Obligations.EncodeGivesBackDecodedWord : Prop :=
  ∀ (p : Port) (w : Word) (i : Instr), decode p w = .ok i → i.wellFormed = true ∧ i.port = p ∧ encode i = w

/-- R71: exactly the reserved command words are rejected, and presenting one ends in E_INVAL with no other change but,
at most, the latched command word (R62; the spec leaves the latching of a rejected word open, so both outcomes are
admitted here, log entry 16). -/
def Obligations.ReservedCommandWordRefused : Prop :=
  ∀ w : Word,
    ((∃ e, decode .command w = .error e) ↔ reservedCommand w) ∧
    ∀ (s : State) (rest : List HostAct), s.ready → reservedCommand w → s.host = .command w :: rest →
      ∃ c, (c = w ∨ c = s.cw) ∧ step s = .next { s with result := 0xFFFFFFFF, cw := c, host := rest }

/-- R72: exactly the reserved bus words are rejected, and presenting one halts the block with cause F_RANGE. -/
def Obligations.ReservedBusWordHalts : Prop :=
  ∀ w : Word,
    ((∃ e, decode .bus w = .error e) ↔ reservedBus w) ∧
    ∀ (s : State) (rest : List EnvAct), s.inQuantum → s.busy = true → reservedBus w → s.env = .bus w :: rest →
      ∃ r, step s = .next { s with halted := true, hcause := .range, rdata := r, env := rest }

/-- Words written out from the tables of R61, R64 and R74 decode to the operations they stand for. -/
def Obligations.WrittenWordsDecode : Prop :=
  decode .command 0x01000001 = .ok (.cartLoad 1) ∧ decode .command 0x03000005 = .ok (.bankLoad 5) ∧
  decode .command 0x05010007 = .ok (.sramSave 7 true) ∧ decode .command 0x07000009 = .ok (.stateSave 9) ∧
  decode .command 0x09010000 = .ok (.frame true) ∧ decode .command 0x0A000000 = .ok .rtcGet ∧
  decode .bus 0x00014700 = .ok (.rd 0x0147) ∧ decode .bus 0x01A0105A = .ok (.wr 0xA010 0x5A) ∧
  decode .bus 0x02000700 = .ok (.selrom 7) ∧ decode .bus 0x03000003 = .ok (.selram 3)

/-! ### Presenting operations -/

/-- A step runs the operation that the presented word decodes to: a command on an idle block, which latches the word
(R62), or ENV's next bus request inside a quantum (R63). -/
def Obligations.StepRunsTheDecodedOperation : Prop :=
  (∀ (s : State) (w : Word) (rest : List HostAct) (i : Instr), s.ready → s.host = .command w :: rest →
    decode .command w = .ok i → step s = exec i { s with cw := w, host := rest }) ∧
  (∀ (s : State) (w : Word) (i : Instr), s.inQuantum → s.busy = true → nextEnv s = .bus w →
    decode .bus w = .ok i → step s = exec i (envTaken s))

/-- A command presented while `busy` or `halted` is set, or on a block that hangs, is not accepted (R62, R189, R210),
and neither is a bus request outside a quantum or on a block that has halted or hangs (R63, R173, R184): the model
refuses the step, so no state changes. That a bus request outside a quantum is a refusal is the model's inference (log
entry 36). -/
def Obligations.OperationsNotAccepted : Prop :=
  ∀ (i : Instr) (s : State),
    (i.port = .command → s.busy = true ∨ s.halted = true ∨ s.stalled = true → exec i s = .refused .notAccepted) ∧
    (i.port = .bus → s.run = none ∨ s.halted = true ∨ s.stalled = true → exec i s = .refused .notInQuantum)

/-- R182's recoverable refusals for the state of the block: without a cartridge every command but CART_LOAD,
CART_UNLOAD, RTC_GET and RTC_SET, with one CART_LOAD, a bank or a count beyond the cartridge's size, and battery-RAM
commands without a battery, end in E_INVAL and change nothing but `result`. -/
def Obligations.CommandsRefusedInPresentState : Prop :=
  ∀ s : State, s.ready →
    (s.cart.loaded = false →
      (∀ n, exec (.bankLoad n) s = .next { s with result := 0xFFFFFFFF }) ∧
      (∀ c, exec (.preload c) s = .next { s with result := 0xFFFFFFFF }) ∧
      (∀ id q, exec (.sramSave id q) s = .next { s with result := 0xFFFFFFFF }) ∧
      (∀ id, exec (.sramLoad id) s = .next { s with result := 0xFFFFFFFF }) ∧
      (∀ id, exec (.stateSave id) s = .next { s with result := 0xFFFFFFFF }) ∧
      (∀ id, exec (.stateLoad id) s = .next { s with result := 0xFFFFFFFF }) ∧
      (∀ d, exec (.frame d) s = .next { s with result := 0xFFFFFFFF })) ∧
    (s.cart.loaded = true →
      (∀ id, exec (.cartLoad id) s = .next { s with result := 0xFFFFFFFF }) ∧
      (∀ n, s.cart.romsize ≤ n → exec (.bankLoad n) s = .next { s with result := 0xFFFFFFFF }) ∧
      (∀ c, s.cart.romsize < c → exec (.preload c) s = .next { s with result := 0xFFFFFFFF }) ∧
      (s.cart.hasBattery = false →
        (∀ id q, exec (.sramSave id q) s = .next { s with result := 0xFFFFFFFF }) ∧
        (∀ id, exec (.sramLoad id) s = .next { s with result := 0xFFFFFFFF })))

/-! ### Halts and reset -/

/-- A halted block has no successor but reset (R184), and a block that hangs on a storage primitive that never answers
stays as it is for ever, `busy` with the rest, until reset (R9, R210; that this holds for every operation and not for
FRAME only is log entry 37). -/
def Obligations.HaltedBlockLeavesOnlyByReset : Prop :=
  ∀ s : State,
    (s.halted = true ∨ s.stalled = true →
      ∀ rest, s.host = .reset :: rest ∨ (∃ k, s.host = .resetAfter k :: rest) →
        ∃ t, step s = .next t ∧ ResetValues t ∧ t.files = s.files ∧ t.cfg = s.cfg ∧ t.host = rest) ∧
    ((∀ rest, s.host ≠ .reset :: rest) → (∀ k rest, s.host ≠ .resetAfter k :: rest) →
      (s.halted = true → step s = .fault (.halted s.hcause)) ∧
      (s.halted = false → s.stalled = true → step s = .next s))

/-- What a fatal error writes is `halted` and `hcause` (R184): `busy` stays 1; `result`, `phase`, the counters, the draw
flag, the selectors, the bookkeeping, the data window, the clock, the regions and the files keep what they held, but for
what CART_LOAD had committed before the error; the tag array and the pool are those of the fill that failed (R107; log
entry 12). No event is emitted by the halt: the trace has storage primitives only, and CART_LOAD's two events. -/
def Obligations.FatalErrorWritesOnlyTheHalt : Prop :=
  ∀ (i : Instr) (s t : State), exec i s = .next t → t.halted = true →
    t.hcause ≠ .none ∧
    (((∃ n, i = .bankLoad n) ∨ (∃ c, i = .preload c)) ∧ OnlyStorageSince s t ∧
        t = { s with
          busy := true, halted := true, hcause := t.hcause, slot := t.slot, ftag := t.ftag, pool := t.pool,
          cartHandle := t.cartHandle, trace := t.trace, answers := t.answers, choices := t.choices,
          freeCount := t.freeCount } ∨
      (∃ id, i = .cartLoad id) ∧
        (∃ es, t.trace = s.trace ++ es ∧
          ∀ e ∈ es, e.isStorage = true ∨ e = .warn .ramsize ∨ e = .palRebuild) ∧
        t = { s with
          busy := true, halted := true, hcause := t.hcause, cart := t.cart, cartFileOpen := true,
          cartFileId := t.cartFileId, ramPages := t.ramPages, sram := [], sramDirty := 0, sramSaved := 0, rombank := 1,
          rambank := 0, rtc := Rtc.zero, rtcTicks := 0, warn := t.warn, slot := t.slot, ftag := t.ftag,
          pool := t.pool, cartHandle := t.cartHandle, trace := t.trace, answers := t.answers, choices := t.choices,
          freeCount := t.freeCount } ∨
      i.port = .bus ∧ OnlyStorageSince s t ∧
        t = { s with
          halted := true, hcause := t.hcause, rdata := t.rdata, slot := t.slot, ftag := t.ftag, pool := t.pool,
          cartHandle := t.cartHandle, trace := t.trace, answers := t.answers, choices := t.choices,
          freeCount := t.freeCount })

/-- R201: the reset values of the block, for every setting of the parameters. -/
def Obligations.StateAfterReset : Prop :=
  (∀ c : Config, ResetValues (State.resetWith c)) ∧ ∀ s : State, ResetValues (resetInput s)

/-- Reset asserted on an idle block, on one that has halted or hangs, inside a quantum, between two quanta of a FRAME,
and while a command is in flight (where it can land is log entry 9) gives every register its reset value, releases the
handles and emits nothing; STORAGE's files keep what had been written to them, and the parameters stay (R200, R203). A
reset that is to come after more of the scheduler's decisions changes none of them. -/
def Obligations.ResetInputResetsTheBlock : Prop :=
  ∀ s : State,
    (s.busy = false ∨ s.halted = true ∨ s.stalled = true →
      ∀ rest, s.host = .reset :: rest ∨ (∃ k, s.host = .resetAfter k :: rest) →
        ∃ t, step s = .next t ∧ ResetValues t ∧ t.files = s.files ∧ t.cfg = s.cfg) ∧
    (s.inQuantum → s.busy = true → nextEnv s = .reset →
      ∃ t, step s = .next t ∧ ResetValues t ∧ t.files = s.files ∧ t.cfg = s.cfg) ∧
    (s.halted = false → s.stalled = false → s.busy = true → s.run = none →
      (∀ rest, s.host = .resetAfter 0 :: rest →
        ∃ t, step s = .next t ∧ ResetValues t ∧ t.files = s.files ∧ t.cfg = s.cfg) ∧
      ∀ k rest u, s.host = .resetAfter (k + 1) :: rest → step { s with host := [] } = .next u →
        step s = .next { u with host := .resetAfter k :: rest }) ∧
    (s.ready → ∀ w k rest, s.host = .commandReset w k :: rest →
      ∃ t u, present w { s with host := rest, answers := cutAnswers k s } = .next u ∧ step s = .next t ∧
        ResetValues t ∧ t.files = u.files ∧ t.cfg = s.cfg)

/-! ### The clock and the data window -/

/-- RTC_GET (R134): accepted in every idle state; the data window takes the ten clock fields in record order,
zero-extended, and nothing else changes. -/
def Obligations.RtcGetFillsTheWindow : Prop :=
  ∀ s : State, s.ready →
    ∃ t, exec .rtcGet s = .next t ∧ t = { s with result := 0, xd := t.xd } ∧
      t.xd[0] = s.rtc.sec.setWidth 32 ∧ t.xd[1] = s.rtc.min.setWidth 32 ∧ t.xd[2] = s.rtc.hour.setWidth 32 ∧
      t.xd[3] = s.rtc.day.setWidth 32 ∧ t.xd[4] = s.rtc.flags.setWidth 32 ∧
      ∀ j : Fin 5, t.xd[5 + j.val]'(by omega) = s.rtc.regs[j].setWidth 32

/-- RTC_SET (R135): accepted in every idle state; the clock takes the low bits of the data window, with no range check;
latch, select and the tick accumulator are unchanged, and so is everything else. -/
def Obligations.RtcSetTakesTheWindow : Prop :=
  ∀ s : State, s.ready →
    ∃ t, exec .rtcSet s = .next t ∧ t = { s with result := 0, rtc := t.rtc } ∧
      t.rtc.sec = s.xd[0].setWidth 8 ∧ t.rtc.min = s.xd[1].setWidth 8 ∧ t.rtc.hour = s.xd[2].setWidth 8 ∧
      t.rtc.day = s.xd[3].setWidth 16 ∧ t.rtc.flags = s.xd[4].setWidth 8 ∧
      (∀ j : Fin 5, t.rtc.regs[j] = (s.xd[5 + j.val]'(by omega)).setWidth 8) ∧
      t.rtc.latch = s.rtc.latch ∧ t.rtc.sel = s.rtc.sel

/-- RTC_ADVANCE (R133) on a clock in range: the calendar of 366 days moves on by the seconds that fall due, the carry
bit is set exactly when the day counter leaves 365 (or was set already), the other bits and fields stay, and the clock
is still in range. -/
def Obligations.ClockCountsTheSecondsDue : Prop :=
  ∀ (s : State) (old n : Nat), s.cart.hasRtc = true → s.rtc.flags.getLsbD 6 = false → ClockInRange s.rtc →
    let due := (old + n) / s.cfg.ticksPerSec - old / s.cfg.ticksPerSec
    let r := (rtcAdvance old n s).rtc
    rtcAdvance old n s = { s with rtc := r } ∧ ClockInRange r ∧
    clockSeconds r = (clockSeconds s.rtc + due) % 31622400 ∧
    r.flags = (if 31622400 ≤ clockSeconds s.rtc + due then s.rtc.flags ||| 0x80 else s.rtc.flags) ∧
    r.latch = s.rtc.latch ∧ r.sel = s.rtc.sel ∧ r.regs = s.rtc.regs

/-- RTC_ADVANCE drops the seconds due on a cartridge without a clock and while the halt flag is set, else takes one
step of the cascade for each; and one step on fields of any value, in range or not, is that of R133's `>=` tests
(93_implementation_defined.md U22): a field at or above its last value is zeroed and carries into the next, one at 255
wraps to 0 without a carry, and the day counter at or above 365 is zeroed with the carry bit set. -/
def Obligations.ClockDropsSecondsAndClampsFields : Prop :=
  (∀ (s : State) (old n : Nat), s.cart.hasRtc = false ∨ s.rtc.flags.getLsbD 6 = true → rtcAdvance old n s = s) ∧
  (∀ (s : State) (old n : Nat), s.cart.hasRtc = true → s.rtc.flags.getLsbD 6 = false →
    rtcAdvance old n s =
      { s with rtc := nextSecond^[(old + n) / s.cfg.ticksPerSec - old / s.cfg.ticksPerSec] s.rtc }) ∧
  ∀ r : Rtc,
    (r.sec.toNat < 59 ∨ r.sec.toNat = 255 → nextSecond r = { r with sec := r.sec + 1 }) ∧
    (59 ≤ r.sec.toNat → r.sec.toNat ≤ 254 →
      (r.min.toNat < 59 ∨ r.min.toNat = 255 → nextSecond r = { r with sec := 0, min := r.min + 1 }) ∧
      (59 ≤ r.min.toNat → r.min.toNat ≤ 254 →
        (r.hour.toNat < 23 ∨ r.hour.toNat = 255 →
          nextSecond r = { r with sec := 0, min := 0, hour := r.hour + 1 }) ∧
        (23 ≤ r.hour.toNat → r.hour.toNat ≤ 254 →
          (r.day.toNat < 365 → nextSecond r = { r with sec := 0, min := 0, hour := 0, day := r.day + 1 }) ∧
          (365 ≤ r.day.toNat →
            nextSecond r = { r with sec := 0, min := 0, hour := 0, day := 0, flags := r.flags ||| 0x80 }))))

/-! ### The bus -/

/-- SELROM (R112) and SELRAM (R113): the selector is stored raw, neither masked nor checked, and nothing else of the
block changes. -/
def Obligations.SelectorsAreStoredRaw : Prop :=
  ∀ s : State, s.inQuantum →
    (∀ v : Half, ∃ r, exec (.selrom v) s = .next { s with rombank := v, rdata := r }) ∧
    (∀ v : Byte, ∃ r, exec (.selram v) s = .next { s with rambank := v, rdata := r })

/-- R115 and R116: a write in a ROM window, and a read or write outside the three windows, change nothing in the block,
and one outside the windows drives no data. -/
def Obligations.RequestsOutsideTheBlockChangeNothing : Prop :=
  ∀ (s : State) (addr : Half) (d : Byte), s.inQuantum →
    (addr.toNat < 0x8000 → ∃ r, exec (.wr addr d) s = .next { s with rdata := r }) ∧
    (0x8000 ≤ addr.toNat ∧ addr.toNat < 0xA000 ∨ 0xC000 ≤ addr.toNat →
      exec (.wr addr d) s = .next { s with rdata := none } ∧ exec (.rd addr) s = .next { s with rdata := none })

/-- R109: a read in the RAM window drives the byte of the selected bank and changes nothing; a write stores the byte,
sets the bank's dirty bit on every write, and changes no other byte; with the selector beyond the cartridge's RAM both
halt with F_RANGE and change no byte. -/
def Obligations.BatteryRamWindow : Prop :=
  ∀ (s : State) (addr : Half) (d : Byte), s.inQuantum → MemoriesCanonical s →
    0xA000 ≤ addr.toNat → addr.toNat < 0xC000 →
    (s.rambank.toNat < s.cart.ramsize →
      exec (.rd addr) s =
        .next { s with rdata := some (memByte s .sram (s.rambank.toNat * 8192 + (addr.toNat - 0xA000))) } ∧
      ∃ t, exec (.wr addr d) s = .next t ∧
        t = { s with sram := t.sram, sramDirty := s.sramDirty ||| (1#32 <<< s.rambank.toNat), rdata := t.rdata } ∧
        memByte t .sram (s.rambank.toNat * 8192 + (addr.toNat - 0xA000)) = d ∧
        ∀ a, a ≠ s.rambank.toNat * 8192 + (addr.toNat - 0xA000) → memByte t .sram a = memByte s .sram a) ∧
    (s.cart.ramsize ≤ s.rambank.toNat →
      (∃ r, exec (.rd addr) s = .next { s with halted := true, hcause := .range, rdata := r }) ∧
      (∃ r, exec (.wr addr d) s = .next { s with halted := true, hcause := .range, rdata := r }))

/-- A read in a ROM window (R108, R114): a resident bank gives its frame's byte and nothing else changes; a bank beyond
the cartridge's size halts with F_RANGE (R101). ROM0 selects bank 0, ROMX the bank `rombank` holds. -/
def Obligations.RomWindowHitAndRange : Prop :=
  ∀ (s : State) (addr : Half) (n : Nat), s.inQuantum →
    (addr.toNat < 0x4000 ∧ n = 0 ∨ 0x4000 ≤ addr.toNat ∧ addr.toNat < 0x8000 ∧ n = s.rombank.toNat) →
    (∀ f, n < s.cart.romsize → slotOf s n = some f →
      exec (.rd addr) s = .next { s with rdata := some (memByte s .pool (f * 16384 + addr.toNat % 16384)) }) ∧
    (s.cart.romsize ≤ n → ∃ r, exec (.rd addr) s = .next { s with halted := true, hcause := .range, rdata := r })

/-- R108's derived property: a read in a ROM window whose fill does not fail gives the byte of the cartridge file, or
zero beyond its end, whatever is resident and whichever donor or frame is chosen; it keeps the tag array and the frames
coherent and changes nothing but them. -/
def Obligations.RomReadGivesTheFileByte : Prop :=
  ∀ (s : State) (addr : Half) (n : Nat), s.inQuantum → MemoriesCanonical s → TagsAgree s → FramesCoherent s →
    CartHandleOpen s → 1 ≤ s.cfg.poolSize → s.storageOk 2 →
    (addr.toNat < 0x4000 ∧ n = 0 ∨ 0x4000 ≤ addr.toNat ∧ addr.toNat < 0x8000 ∧ n = s.rombank.toNat) →
    n < s.cart.romsize →
    ∃ t, exec (.rd addr) s = .next t ∧ t.rdata = some (romByte s n (addr.toNat % 16384)) ∧
      (slotOf t n).isSome = true ∧ TagsAgree t ∧ FramesCoherent t ∧ CartHandleOpen t ∧ OnlyStorageSince s t ∧
      t = { s with
        rdata := t.rdata, slot := t.slot, ftag := t.ftag, pool := t.pool, cartHandle := t.cartHandle,
        trace := t.trace, answers := t.answers, choices := t.choices, freeCount := t.freeCount }

/-! ### The bank manager -/

/-- R102: BANK_LOAD of a resident bank changes nothing and issues no storage primitive. -/
def Obligations.BankLoadHitChangesNothing : Prop :=
  ∀ (s : State) (n : Nat), s.ready → s.cart.loaded = true → n < s.cart.romsize → (slotOf s n).isSome = true →
    exec (.bankLoad n) s = .next { s with result := 0 }

/-- R103 and R106: BANK_LOAD of an absent bank while a frame is free takes one such frame and fills it with the bank's
bytes of the file, zeros beyond its end, with one seek and one read; no other frame, no other bank and no other
register changes. -/
def Obligations.BankLoadFillsAFreeFrame : Prop :=
  ∀ (s : State) (n : Nat), s.ready → s.cart.loaded = true → n < s.cart.romsize → MemoriesCanonical s →
    CartHandleOpen s → s.storageOk 2 → slotOf s n = none →
    (∃ g, g < s.cfg.poolSize ∧ ftagOf s g = none) →
    ∃ f t, exec (.bankLoad n) s = .next t ∧ f < s.cfg.poolSize ∧ ftagOf s f = none ∧
      t = { s with
        result := 0, slot := t.slot, ftag := t.ftag, pool := t.pool, cartHandle := t.cartHandle,
        trace := s.trace ++ [.stSeek .cart (n * 16384), .stRead .cart 16384], answers := s.answers.drop 2,
        choices := t.choices, freeCount := t.freeCount } ∧
      CartHandleOpen t ∧
      (∀ m, slotOf t m = if m = n then some f else slotOf s m) ∧
      (∀ g, ftagOf t g = if g = f then some n else ftagOf s g) ∧
      (∀ g off, off < 16384 → readFrame t g off = if g = f then romByte s n off else readFrame s g off)

/-- R104: BANK_LOAD of an absent bank with the pool exhausted takes the frame of one resident bank, which becomes
absent, and fills it; any resident bank can be the donor; nothing else changes. -/
def Obligations.BankLoadEvictsOneResident : Prop :=
  ∀ (s : State) (n : Nat), s.ready → s.cart.loaded = true → n < s.cart.romsize → MemoriesCanonical s → TagsAgree s →
    CartHandleOpen s → s.storageOk 2 → slotOf s n = none → 1 ≤ s.cfg.poolSize →
    (∀ g, g < s.cfg.poolSize → ftagOf s g ≠ none) →
    (∃ d f t, exec (.bankLoad n) s = .next t ∧ slotOf s d = some f ∧ d ≠ n ∧
      t = { s with
        result := 0, slot := t.slot, ftag := t.ftag, pool := t.pool, cartHandle := t.cartHandle,
        trace := s.trace ++ [.stSeek .cart (n * 16384), .stRead .cart 16384], answers := s.answers.drop 2,
        choices := t.choices, freeCount := t.freeCount } ∧
      CartHandleOpen t ∧
      (∀ m, slotOf t m = if m = n then some f else if m = d then none else slotOf s m) ∧
      (∀ g, ftagOf t g = if g = f then some n else ftagOf s g) ∧
      (∀ g off, off < 16384 → readFrame t g off = if g = f then romByte s n off else readFrame s g off)) ∧
    (∀ d f, slotOf s d = some f →
      ∃ c t, exec (.bankLoad n) { s with choices := [c] } = .next t ∧ slotOf t d = none ∧ slotOf t n = some f)

/-- R107: a seek that fails, or a read that fails and is not end of file, while BANK_LOAD, PRELOAD or RD fills a bank
halts the block with F_STORAGE; one that never answers hangs it (R210). The contents of the frame being filled are then
unspecified; the tag array keeps what R103 or R104 had made of it (R184; log entry 12), and every other frame and
register is unchanged. -/
def Obligations.FillFailureHalts : Prop :=
  ∀ (s : State) (n : Nat) (a : Answer) (rest : List Answer), n < s.cart.romsize → s.cartHandle.isSome = true →
    slotOf s n = none → ((∃ g, g < s.cfg.poolSize ∧ ftagOf s g = none) ∨ ∃ d, (slotOf s d).isSome = true) →
    a ≠ .ok → (s.answers = a :: rest ∨ s.answers = .ok :: a :: rest) →
    let left (t : State) : Prop :=
      t.cartHandle.isSome = true ∧ OnlyStorageSince s t ∧
      ∃ f, (ftagOf s f = none ∧ (∀ m, slotOf t m = if m = n then some f else slotOf s m) ∨
          ∃ d, slotOf s d = some f ∧ ∀ m, slotOf t m = if m = n then some f else if m = d then none else slotOf s m) ∧
        (∀ g, ftagOf t g = if g = f then some n else ftagOf s g) ∧
        ∀ g off, g ≠ f → off < 16384 → readFrame t g off = readFrame s g off
    (∀ i, i = .bankLoad n ∨
        (∃ c, i = .preload c ∧ n < c ∧ c ≤ s.cart.romsize ∧ ∀ m, m < n → (slotOf s m).isSome = true) →
      s.ready → s.cart.loaded = true →
      ∃ t, exec i s = .next t ∧
        t = { s with
          busy := true, halted := decide (a = .fail), hcause := (if a = .fail then .storage else s.hcause),
          stalled := decide (a = .never), slot := t.slot, ftag := t.ftag, pool := t.pool, cartHandle := t.cartHandle,
          trace := t.trace, answers := rest, choices := t.choices, freeCount := t.freeCount } ∧ left t) ∧
    (∀ addr : Half, s.inQuantum →
      (addr.toNat < 0x4000 ∧ n = 0 ∨ 0x4000 ≤ addr.toNat ∧ addr.toNat < 0x8000 ∧ n = s.rombank.toNat) →
      ∃ t, exec (.rd addr) s = .next t ∧
        t = { s with
          rdata := none, halted := decide (a = .fail), hcause := (if a = .fail then .storage else s.hcause),
          stalled := decide (a = .never), slot := t.slot, ftag := t.ftag, pool := t.pool, cartHandle := t.cartHandle,
          trace := t.trace, answers := rest, choices := t.choices, freeCount := t.freeCount } ∧ left t)

/-- R111: PRELOAD without a storage failure leaves bank count-1 resident and at most POOL_SIZE banks resident; where
count is at most the number of free frames it evicts nothing and banks 0 to count-1 are all resident; count 0 does
nothing. -/
def Obligations.PreloadMakesBanksResident : Prop :=
  ∀ (s : State) (count : Nat), s.ready → s.cart.loaded = true → count ≤ s.cart.romsize → MemoriesCanonical s →
    TagsAgree s → FramesCoherent s → CartHandleOpen s → 1 ≤ s.cfg.poolSize → s.storageOk (2 * count) →
    ∃ t, exec (.preload count) s = .next t ∧
      t = { s with
        result := 0, slot := t.slot, ftag := t.ftag, pool := t.pool, cartHandle := t.cartHandle, trace := t.trace,
        answers := t.answers, choices := t.choices, freeCount := t.freeCount } ∧
      (1 ≤ count → (slotOf t (count - 1)).isSome = true) ∧ (residents t).length ≤ s.cfg.poolSize ∧
      (count ≤ (freeFrames s).length →
        (∀ n, n < count → (slotOf t n).isSome = true) ∧
        ∀ m, (slotOf s m).isSome = true → slotOf t m = slotOf s m) ∧
      (count = 0 → t = { s with result := 0 }) ∧ TagsAgree t ∧ FramesCoherent t ∧ CartHandleOpen t ∧
      OnlyStorageSince s t

/-- R110: CART_UNLOAD frees every bank and the RAM array, closes the cartridge file if it is open, clears the cartridge
record, the bookkeeping and the warnings, and leaves every other register, the clock and the selectors among them. Where
the close never answers the block hangs there (R210; that a close may is log entry 37), with the banks and the array
freed and nothing else written. -/
def Obligations.CartUnloadFreesEverything : Prop :=
  ∀ s : State, s.ready →
    (s.cartFileOpen = true → nextAnswer s ≠ .never →
      ∃ t, exec .cartUnload s = .next t ∧
        t = { s with
          result := 0, cart := Cart.empty, slot := [], ftag := [], ramPages := 0, sram := [], sramDirty := 0,
          sramSaved := 0, warn := 0, cartFileOpen := false, cartFileId := 0, cartHandle := none,
          trace := s.trace ++ [.stClose .cart], answers := s.answers.tail, freeCount := t.freeCount }) ∧
    (s.cartFileOpen = true → nextAnswer s = .never →
      ∃ t, exec .cartUnload s = .next t ∧
        t = { s with
          busy := true, stalled := true, slot := [], ftag := [], ramPages := 0, sram := [],
          trace := s.trace ++ [.stClose .cart], answers := s.answers.tail, freeCount := t.freeCount }) ∧
    (s.cartFileOpen = false →
      exec .cartUnload s = .next { s with
        result := 0, cart := Cart.empty, slot := [], ftag := [], ramPages := 0, sram := [], sramDirty := 0,
        sramSaved := 0, warn := 0 })

/-- R20's consequences: no two banks share a frame, and the resident banks are never more than POOL_SIZE. -/
def Obligations.PoolIsNeverOverfull : Prop :=
  ∀ s : State, MemoriesCanonical s → TagsAgree s →
    (residents s).Nodup ∧ (residents s).length ≤ s.cfg.poolSize ∧
    ∀ m n f, slotOf s m = some f → slotOf s n = some f → m = n

/-! ### CART_LOAD -/

/-- The size tables and the family's priority (R84, R85, R86): the ROM codes 0 to 8, 0x52 to 0x54 and no other are
valid; every RAM code has a page count, with a warning beyond 5; color-capable wins over the adapter byte. TYPE_MAP
(R87): the first range that holds the type byte, else NONE, and type 3 is MBC1 with a battery for every legal setting.
COLORIZE's two-stage lookup (R88): no match gives 0; a match at index i up to 0x40 gives i; one above it the entry for
the fourth title character, else the index it falls through to (that the function can also be given by its graph is log
entry 19). -/
def Obligations.ClassificationTables : Prop :=
  (∀ code : Byte,
    romSize code =
      if code.toNat ≤ 8 then some (2 <<< code.toNat)
      else if code = 0x52 ∨ code = 0x53 ∨ code = 0x54 then some 128 else none) ∧
  (∀ code : Byte,
    ramSize code =
      if code.toNat ≤ 5 then ([1, 1, 1, 4, 16, 8].getD code.toNat 0, false) else (1, true)) ∧
  (∀ colorbyte adaptbyte : Byte,
    hwFamily colorbyte adaptbyte =
      if colorbyte = 0x80 ∨ colorbyte = 0xC0 then .color
      else if adaptbyte = 0x03 then .legacyColorFeat else .legacy) ∧
  (∀ (m : TypeMap) (ty : Byte),
    (typeInfo m ty).battery = decide (ty ∈ m.battery) ∧ (typeInfo m ty).rtc = decide (ty ∈ m.rtc) ∧
    (typeInfo m ty).rumble = decide (ty ∈ m.rumble) ∧ (typeInfo m ty).motion = decide (ty ∈ m.motion) ∧
    (∀ pre e post, m.families = pre ++ e :: post →
      (∀ e' ∈ pre, ¬(e'.lo.toNat ≤ ty.toNat ∧ ty.toNat ≤ e'.hi.toNat)) →
      e.lo.toNat ≤ ty.toNat → ty.toNat ≤ e.hi.toNat → (typeInfo m ty).family = e.family) ∧
    ((∀ e ∈ m.families, ¬(e.lo.toNat ≤ ty.toNat ∧ ty.toNat ≤ e.hi.toNat)) → (typeInfo m ty).family = 0)) ∧
  (∀ c : Config, Config.wf c → (typeInfo c.typeMap 3).family = 1 ∧ (typeInfo c.typeMap 3).battery = true) ∧
  ∀ (ct : ColorTables) (title : List Byte),
    (titleSum ct title ∉ ct.sums → colorize (.tables ct) title = 0) ∧
    ∀ pre post, ct.sums = pre ++ titleSum ct title :: post → titleSum ct title ∉ pre →
      (pre.length ≤ 0x40 → colorize (.tables ct) title = BitVec.ofNat 8 pre.length) ∧
      (0x40 < pre.length →
        (∀ pre' post' k, ct.letters = pre' ++ (pre.length, title.getD 3 0, k) :: post' →
          (∀ x ∈ pre', ¬(x.1 = pre.length ∧ x.2.1 = title.getD 3 0)) → colorize (.tables ct) title = k) ∧
        ((∀ x ∈ ct.letters, ¬(x.1 = pre.length ∧ x.2.1 = title.getD 3 0)) →
          ∀ pre' post' k, ct.through = pre' ++ (pre.length, k) :: post' → (∀ x ∈ pre', x.1 ≠ pre.length) →
            colorize (.tables ct) title = k))

/-- CART_LOAD of a file with a valid header, without a storage failure (R80 to R90): the cartridge record, the RAM array
of zeros, the bookkeeping, the selectors and the clock are as the header and R89 give them, the warning and the palette
event come in their places, and the first banks are preloaded and hold the file's bytes; every other register is
unchanged. -/
def Obligations.CartLoadClassifiesAndPreloads : Prop :=
  ∀ (s : State) (id : Half) (f : File) (rom k : Nat), s.ready → s.cart.loaded = false → MemoriesCanonical s →
    HandlesDisciplined s → 1 ≤ s.cfg.poolSize → Tab.get? s.files (fileKey s id) = some f → 512 ≤ f.len →
    romSize (memByte s (.file id) 0x0148) = some rom →
    (ramSize (memByte s (.file id) 0x0149)).1 ≤ s.cfg.ramCap →
    k = (if 64 < rom ∧ (f.data.bytes 0x0134 16) ∈ s.cfg.preloadTitles then rom - 40 else min rom 64) →
    s.storageOk (2 + 2 * k) →
    let b := memByte s (.file id)
    let fam := hwFamily (b 0x0143) (b 0x0146)
    let info := typeInfo s.cfg.typeMap (b 0x0147)
    ∃ t es, exec (.cartLoad id) s = .next t ∧
      t.cart =
        { loaded := true, title := f.data.bytes 0x0134 16, mbc := info.family, hwfamily := fam, romsize := rom,
          ramsize := (ramSize (b 0x0149)).1, hasBattery := info.battery, hasRtc := info.rtc,
          hasRumble := info.rumble, hasMotion := info.motion,
          colorkey := if fam = .color then 0 else colorize s.cfg.color (f.data.bytes 0x0134 16),
          cksum := BitVec.ofNat 16 ((b 0x014E).toNat + 256 * (b 0x014F).toNat) } ∧
      t = { s with
        result := 0, cart := t.cart, cartFileOpen := true, cartFileId := id,
        ramPages := (ramSize (b 0x0149)).1, sram := [], sramDirty := 0, sramSaved := 0, rombank := 1, rambank := 0,
        rtc := Rtc.zero, rtcTicks := 0, warn := s.warn ||| (if (b 0x0149).toNat ≤ 5 then 0 else 2),
        slot := t.slot, ftag := t.ftag, pool := t.pool, cartHandle := t.cartHandle, trace := t.trace,
        answers := t.answers, choices := t.choices, freeCount := t.freeCount } ∧
      t.trace = s.trace ++ [.stOpen .cart id .read, .stRead .cart 512] ++
        (if (b 0x0149).toNat ≤ 5 then [] else [.warn .ramsize]) ++ (if fam = .color then [] else [.palRebuild]) ++ es ∧
      (∀ e ∈ es, e.isStorage = true) ∧ CartHandleOpen t ∧ TagsAgree t ∧ FramesCoherent t ∧
      (slotOf t (k - 1)).isSome = true ∧ (k ≤ s.cfg.poolSize → ∀ n, n < k → (slotOf t n).isSome = true)

/-- R91: a CART_LOAD that fails recoverably, for want of the file, of 512 bytes, of a valid ROM-size code or of room for
the RAM array, closes the handle and leaves every register as it was but `result`; the checks come in R187's order. Where
that close never answers the block hangs instead (R210; log entry 37). That a missing file takes one answer of the
oracle, which may also be that the open never answers, is the model's choice (log entry 10). -/
def Obligations.CartLoadFailsCleanly : Prop :=
  ∀ (s : State) (id : Half), s.ready → s.cart.loaded = false → s.cartHandle = none →
    (∀ a rest, s.answers = a :: rest → a ≠ .never → Tab.get? s.files (fileKey s id) = none ∨ a = .fail →
      exec (.cartLoad id) s =
        .next { s with result := 0xFFFFFFFE, trace := s.trace ++ [.stOpen .cart id .read], answers := rest }) ∧
    ∀ (f : File) (b a : Answer) (rest : List Answer), Tab.get? s.files (fileKey s id) = some f →
      s.answers = .ok :: b :: a :: rest →
      let tr := s.trace ++ [.stOpen .cart id .read, .stRead .cart 512, .stClose .cart]
      let ends (code : Word) : Prop :=
        (a ≠ .never → exec (.cartLoad id) s = .next { s with result := code, trace := tr, answers := rest }) ∧
        (a = .never → ∃ h, exec (.cartLoad id) s =
          .next { s with busy := true, stalled := true, cartHandle := some h, trace := tr, answers := rest })
      (b = .fail ∨ b = .ok ∧ f.len < 512 → ends 0xFFFFFFFE) ∧
      (b = .ok → 512 ≤ f.len → romSize (f.data.read 0x0148) = none → ends 0xFFFFFFFD) ∧
      (b = .ok → 512 ≤ f.len → (romSize (f.data.read 0x0148)).isSome = true →
        s.cfg.ramCap < (ramSize (f.data.read 0x0149)).1 → ends 0xFFFFFFFB)

/-- A storage failure in CART_LOAD's preload, at any of its primitives, halts the block with F_STORAGE although it
happens at load time (R90): the cartridge is committed, `result` is not written and `busy` stays 1. -/
def Obligations.CartLoadPreloadFailureHalts : Prop :=
  ∀ (s : State) (id : Half) (f : File) (rom k j : Nat) (rest : List Answer), s.ready → s.cart.loaded = false →
    HandlesDisciplined s → 1 ≤ s.cfg.poolSize → Tab.get? s.files (fileKey s id) = some f → 512 ≤ f.len →
    romSize (f.data.read 0x0148) = some rom → (ramSize (f.data.read 0x0149)).1 ≤ s.cfg.ramCap →
    k = (if 64 < rom ∧ (f.data.bytes 0x0134 16) ∈ s.cfg.preloadTitles then rom - 40 else min rom 64) →
    j < 2 * k → s.answers = List.replicate (2 + j) .ok ++ .fail :: rest →
    ∃ t, exec (.cartLoad id) s = .next t ∧ t.halted = true ∧ t.hcause = .storage ∧ t.busy = true ∧
      t.result = s.result ∧ t.cart.loaded = true ∧ t.cart.romsize = rom ∧ t.cartFileOpen = true ∧ t.cartFileId = id ∧
      t.cartHandle.isSome = true ∧ t.answers = rest

/-! ### Battery RAM -/

/-- A full SRAM_SAVE without a storage failure (R120 to R126): opened WRITE_NEW, every bank written in ascending order
at its offset, then the clock record where the cartridge has a clock, then the close; the file holds exactly that,
every dirty bit is clear, every bank's saved bit is set, and nothing else changes. -/
def Obligations.FullSaveWritesEveryBank : Prop :=
  ∀ (s : State) (id : Half), s.ready → s.cart.loaded = true → s.cart.hasBattery = true → s.cart.ramsize ≤ 32 →
    MemoriesCanonical s → s.storageOk (2 + 2 * s.cart.ramsize + (if s.cart.hasRtc then 2 else 0)) →
    ∃ t rec, exec (.sramSave id false) s = .next t ∧
      t = { s with
        result := 0, sramDirty := 0, sramSaved := t.sramSaved, files := t.files, trace := t.trace,
        answers := t.answers, opHandle := none } ∧
      (∀ i, bitOf t.sramSaved i = decide (i < s.cart.ramsize)) ∧
      (fileNamed t id).len = s.cart.ramsize * 8192 + (if s.cart.hasRtc then 48 else 0) ∧
      (∀ a, a < s.cart.ramsize * 8192 → memByte t (.file id) a = memByte s .sram a) ∧
      (s.cart.hasRtc = true → ClockRecordAt (fileNamed t id).data (s.cart.ramsize * 8192) s.cfg.rtcEpoch s.rtc) ∧
      OtherFilesKept id s t ∧
      t.trace = s.trace ++ [.stOpen .op id .writeNew] ++
        ((List.range s.cart.ramsize).flatMap (fun i =>
          [.stSeek .op (i * 8192), .stWrite .op 8192 (s.sram.slice (i * 8192) 8192)])) ++
        (if s.cart.hasRtc then [.stSeek .op (s.cart.ramsize * 8192), .stWrite .op 48 rec] else []) ++ [.stClose .op]

/-- SRAM_SAVE, full or quick, whatever storage answers (R53, R121 to R126, R210): it ends with 0 or E_STORAGE, or
hangs, and never halts; each bank that was dirty or unsaved is either written, its bytes in the file at its place,
its dirty bit clear and its saved bit set, or keeps both bits as the marking left them; a bank that was neither keeps
its bits and its region of the file; 0 is answered only with no bank dirty and the clock record in the file, and on a
cartridge without a clock whose file opens exactly when no bank is dirty; without a failure every bank ends saved and
clean. A failed open leaves the marks and writes no bank; that it changes no file is the model's choice (log entry
10). -/
def Obligations.SaveResultFollowsTheDirtyBits : Prop :=
  ∀ (s : State) (id : Half) (quick : Bool), s.ready → s.cart.loaded = true → s.cart.hasBattery = true →
    s.cart.ramsize ≤ 32 → MemoriesCanonical s →
    let dirty := if quick then s.sramDirty else BitVec.ofNat 32 (2 ^ s.cart.ramsize - 1)
    let saved := if quick then s.sramSaved else 0
    ∃ t, exec (.sramSave id quick) s = .next t ∧
      t = { s with
        result := t.result, busy := t.busy, stalled := t.stalled, sramDirty := t.sramDirty, sramSaved := t.sramSaved,
        files := t.files, trace := t.trace, answers := t.answers, opHandle := t.opHandle, freeCount := t.freeCount } ∧
      EndsOrHangs s t ∧
      (∀ i, i < s.cart.ramsize ∧ (bitOf saved i = false ∨ bitOf dirty i = true) ∧
          bitOf t.sramDirty i = false ∧ bitOf t.sramSaved i = true ∧
          (∀ off, off < 8192 → memByte t (.file id) (i * 8192 + off) = memByte s .sram (i * 8192 + off)) ∨
        bitOf t.sramDirty i = bitOf dirty i ∧ bitOf t.sramSaved i = bitOf saved i) ∧
      (∀ i, i < s.cart.ramsize → bitOf saved i = true → bitOf dirty i = false →
        bitOf t.sramDirty i = false ∧ bitOf t.sramSaved i = true ∧
        ∀ off, off < 8192 → memByte t (.file id) (i * 8192 + off) = memByte s (.file id) (i * 8192 + off)) ∧
      (t.stalled = false → t.result = 0 → t.sramDirty = 0) ∧
      (t.stalled = false → t.result = 0 → s.cart.hasRtc = true →
        ClockRecordAt (fileNamed t id).data (s.cart.ramsize * 8192) s.cfg.rtcEpoch s.rtc) ∧
      (t.stalled = false → s.cart.hasRtc = false → (∃ rest, s.answers = .ok :: rest) →
        (t.result = 0 ↔ t.sramDirty = 0)) ∧
      (MasksInRange s → s.storageOk (2 + 2 * s.cart.ramsize + (if s.cart.hasRtc then 2 else 0)) →
        t.stalled = false ∧ t.result = 0 ∧ t.sramDirty = 0 ∧ ∀ i, i < s.cart.ramsize → bitOf t.sramSaved i = true) ∧
      (∀ rest, s.answers = .fail :: rest →
        t = { s with
          result := 0xFFFFFFFE, sramDirty := dirty, sramSaved := saved, answers := rest,
          trace := s.trace ++ [.stOpen .op id (if quick then .writeUpdate else .writeNew)] }) ∧
      (s.opHandle = none → t.stalled = false → t.opHandle = none) ∧ OtherFilesKept id s t ∧ OnlyStorageSince s t

/-- A quick save with no bank dirty or unsaved writes no bank (R123, R126 (a)): it opens the file, writes the clock
record where there is one, closes, and succeeds. -/
def Obligations.QuickSaveWithNothingToWrite : Prop :=
  ∀ (s : State) (id : Half), s.ready → s.cart.loaded = true → s.cart.hasBattery = true → s.sramDirty = 0 →
    (∀ i, i < s.cart.ramsize → bitOf s.sramSaved i = true) → s.storageOk 4 →
    ∃ t rec, exec (.sramSave id true) s = .next t ∧
      t = { s with
        result := 0, files := t.files, trace := t.trace, answers := t.answers, opHandle := none } ∧
      t.trace = s.trace ++ [.stOpen .op id .writeUpdate] ++
        (if s.cart.hasRtc then [.stSeek .op (s.cart.ramsize * 8192), .stWrite .op 48 rec] else []) ++ [.stClose .op] ∧
      (∀ a, a < s.cart.ramsize * 8192 → memByte t (.file id) a = memByte s (.file id) a)

/-- SRAM_LOAD of a file that is there, without a storage failure (R128 to R132): the dirty bits are cleared, exactly the
banks the file holds in full take its bytes and are marked saved, the clock takes the record where the file holds it in
full, and the load fails exactly when no bank was restored; nothing else changes. -/
def Obligations.SramLoadRestoresTheBanksOfTheFile : Prop :=
  ∀ (s : State) (id : Half) (f : File), s.ready → s.cart.loaded = true → s.cart.hasBattery = true →
    1 ≤ s.cart.ramsize → s.cart.ramsize ≤ 32 → MemoriesCanonical s → Tab.get? s.files (fileKey s id) = some f →
    s.storageOk (2 + 2 * s.cart.ramsize + (if s.cart.hasRtc then 2 else 0)) →
    ∃ t, exec (.sramLoad id) s = .next t ∧
      t = { s with
        result := (if 8192 ≤ f.len then 0 else 0xFFFFFFFE), sramDirty := 0, sramSaved := t.sramSaved, sram := t.sram,
        rtc := t.rtc, trace := t.trace, answers := t.answers, opHandle := none } ∧
      (∀ i, bitOf t.sramSaved i = decide (i < s.cart.ramsize ∧ (i + 1) * 8192 ≤ f.len)) ∧
      (∀ i off, off < 8192 →
        memByte t .sram (i * 8192 + off) =
          if i < s.cart.ramsize ∧ (i + 1) * 8192 ≤ f.len then f.data.read (i * 8192 + off)
          else memByte s .sram (i * 8192 + off)) ∧
      (if s.cart.hasRtc = true ∧ s.cart.ramsize * 8192 + 48 ≤ f.len
        then ClockLoadedFrom f.data (s.cart.ramsize * 8192) s.rtc t.rtc else t.rtc = s.rtc) ∧
      OnlyStorageSince s t

/-- SRAM_LOAD whatever storage answers (R128, R129, R132, R210): it ends with 0 or E_STORAGE, or hangs, and never
halts; the dirty bits are cleared; a bank is marked saved only where the file holds it in full and its bytes were
taken, and any other bank keeps its bytes; the result is 0 exactly when a bank was restored; an open that does not
succeed leaves everything else alone. -/
def Obligations.SramLoadKeepsBanksItCannotRead : Prop :=
  ∀ (s : State) (id : Half), s.ready → s.cart.loaded = true → s.cart.hasBattery = true → s.cart.ramsize ≤ 32 →
    MemoriesCanonical s →
    ∃ t, exec (.sramLoad id) s = .next t ∧
      t = { s with
        result := t.result, busy := t.busy, stalled := t.stalled, sramDirty := 0, sramSaved := t.sramSaved,
        sram := t.sram, rtc := t.rtc, trace := t.trace, answers := t.answers, opHandle := t.opHandle,
        freeCount := t.freeCount } ∧
      EndsOrHangs s t ∧ (t.stalled = false → (t.result = 0 ↔ ∃ i, bitOf t.sramSaved i = true)) ∧
      (∀ i, bitOf t.sramSaved i = true → i < s.cart.ramsize ∧ (i + 1) * 8192 ≤ (fileNamed s id).len) ∧
      (∀ i off, off < 8192 →
        memByte t .sram (i * 8192 + off) =
          if bitOf t.sramSaved i = true then memByte s (.file id) (i * 8192 + off)
          else memByte s .sram (i * 8192 + off)) ∧
      (t.rtc = s.rtc ∨ s.cart.hasRtc = true ∧
        ClockLoadedFrom (fileNamed s id).data (s.cart.ramsize * 8192) s.rtc t.rtc) ∧
      (Tab.get? s.files (fileKey s id) = none ∨ (∃ a rest, s.answers = a :: rest ∧ a ≠ .ok) →
        t.sramSaved = 0 ∧ t.sram = s.sram ∧ t.rtc = s.rtc ∧ t.trace = s.trace ++ [.stOpen .op id .read]) ∧
      (s.opHandle = none → t.stalled = false → t.opHandle = none) ∧ OnlyStorageSince s t

/-- R136 (a) and (c): a full save, whatever storage answers, then a load of the same file without a failure, on a block
whose battery RAM and clock may have changed in between, restores every bank the save marked saved, byte for byte, and,
where the save succeeded on a cartridge with a clock, the ten clock fields, but not latch and select. -/
def Obligations.SramRoundTrip : Prop :=
  ∀ (s t u v : State) (id : Half), exec (.sramSave id false) s = .next t → MemoriesCanonical s →
    s.cart.loaded = true → s.cart.hasBattery = true → 1 ≤ s.cart.ramsize → s.cart.ramsize ≤ 32 →
    u.ready → MemoriesCanonical u → u.cfg = t.cfg → u.cart = t.cart → u.files = t.files →
    u.storageOk (2 + 2 * u.cart.ramsize + (if u.cart.hasRtc then 2 else 0)) →
    exec (.sramLoad id) u = .next v →
    (∀ i off, bitOf t.sramSaved i = true → off < 8192 →
      bitOf v.sramSaved i = true ∧ memByte v .sram (i * 8192 + off) = memByte s .sram (i * 8192 + off)) ∧
    (s.cart.hasRtc = true → t.stalled = false → t.result = 0 →
      v.rtc = { s.rtc with latch := u.rtc.latch, sel := u.rtc.sel })

/-! ### Save states -/

/-- STATE_SAVE without a storage failure (R140 to R146): the file is the header block, with the version record, the
registers of REG_TABLE in table order and the four regions at their offsets and zeros elsewhere, then working RAM,
video RAM and battery RAM; its length is 4096 * (1 + W + V + 2 * ramsize); every register but `result` and the scratch
`hdr` is unchanged. -/
def Obligations.StateSaveWritesTheSnapshot : Prop :=
  ∀ (s : State) (id : Half), s.ready → s.cart.loaded = true → Config.wf s.cfg → MemoriesCanonical s →
    s.storageOk (3 + wramUnits s.cart.hwfamily + vramUnits s.cart.hwfamily + 2 * s.cart.ramsize) →
    let w := wramUnits s.cart.hwfamily
    let v := vramUnits s.cart.hwfamily
    ∃ t, exec (.stateSave id) s = .next t ∧
      t = { s with
        result := 0, hdr := t.hdr, files := t.files, trace := t.trace, answers := t.answers, opHandle := none } ∧
      OtherFilesKept id s t ∧ OnlyStorageSince s t ∧
      (fileNamed t id).len = 4096 * (1 + w + v + 2 * s.cart.ramsize) ∧
      (w = if s.cart.hwfamily = .color then 8 else 2) ∧ (v = if s.cart.hwfamily = .color then 4 else 2) ∧
      recordTag (fileNamed t id).data 0 = s.cfg.versionTag ∧
      recordValue (fileNamed t id).data 0 = s.cfg.formatVersion ∧
      (∀ j e, s.cfg.regTable[j]? = some e →
        recordTag (fileNamed t id).data (1 + j) = e.tag ∧
        recordValue (fileNamed t id).data (1 + j) = narrow e.width (readReg s e.id)) ∧
      (∀ a, 8 * (1 + s.cfg.regTable.length) ≤ a → a < 0x0CF0 → memByte t (.file id) a = 0) ∧
      (∀ a, a < 16 → memByte t (.file id) (0x0CF0 + a) = memByte s (.mach .wave) a) ∧
      (∀ a, a < 256 → memByte t (.file id) (0x0D00 + a) = memByte s (.mach .ioregs) a) ∧
      (∀ a, a < 256 → memByte t (.file id) (0x0E00 + a) = if a < 128 then memByte s (.mach .pal) a else 0) ∧
      (∀ a, a < 256 → memByte t (.file id) (0x0F00 + a) = if a < 160 then memByte s (.mach .oam) a else 0) ∧
      (∀ a, a < 4096 * w → memByte t (.file id) (4096 + a) = memByte s (.mach .wram) a) ∧
      (∀ a, a < 4096 * v → memByte t (.file id) (4096 * (1 + w) + a) = memByte s (.mach .vram) a) ∧
      (∀ a, a < 8192 * s.cart.ramsize → memByte t (.file id) (4096 * (1 + w + v) + a) = memByte s .sram a)

/-- R145: at the first storage primitive that fails, the open or the k-th write, STATE_SAVE closes the handle it has and
ends with E_STORAGE, or hangs in that close (R210; log entry 37); no further unit is written, and the units before hold
what a save that succeeds writes there. That a failed open changes no file is the model's choice (log entry 10). -/
def Obligations.StateSaveStopsAtTheFirstFailure : Prop :=
  ∀ (s : State) (id : Half) (k : Nat) (a : Answer) (rest : List Answer), s.ready → s.cart.loaded = true →
    MemoriesCanonical s → k ≤ 1 + wramUnits s.cart.hwfamily + vramUnits s.cart.hwfamily + 2 * s.cart.ramsize →
    s.answers = List.replicate k .ok ++ .fail :: a :: rest →
    let hangs := decide (1 ≤ k ∧ a = .never)
    ∃ t, exec (.stateSave id) s = .next t ∧
      t = { s with
        result := if hangs then s.result else 0xFFFFFFFE, busy := hangs, stalled := hangs, hdr := t.hdr,
        files := t.files, trace := t.trace, answers := t.answers, opHandle := t.opHandle, freeCount := t.freeCount } ∧
      OtherFilesKept id s t ∧ OnlyStorageSince s t ∧
      (k = 0 → t.files = s.files ∧ t.answers = a :: rest ∧ t.trace = s.trace ++ [.stOpen .op id .writeNew]) ∧
      (1 ≤ k → (a ≠ .never → t.opHandle = none) ∧ t.answers = rest ∧ t.trace.length = s.trace.length + k + 2 ∧
        t.trace.getLast? = some (.stClose .op) ∧
        ∀ t', exec (.stateSave id)
            { s with answers := List.replicate (3 + wramUnits s.cart.hwfamily + vramUnits s.cart.hwfamily +
                2 * s.cart.ramsize) .ok } = .next t' →
          ∀ a, a < 4096 * (k - 1) → memByte t (.file id) a = memByte t' (.file id) a)

/-- R151's FIND: the value of the first slot with the tag, 0 where the zero tag comes first or no slot below 414 has
it. -/
def Obligations.FindAnswersTheFirstMatch : Prop :=
  ∀ (hdr : Memory) (t : Tag), t ≠ Tag.zero → FoundRecord hdr t (findRecord hdr t)

/-- STATE_LOAD whatever storage answers (R149, R210): it ends with 0 or E_STORAGE, or hangs, and never halts; where it
does not succeed, everything but the three bulk memories and the scratch `hdr` is unchanged and no event is emitted;
the handle is closed where it ends; a file shorter than the current cartridge's snapshot does not load. -/
def Obligations.StateLoadFailureLeavesTheRegisters : Prop :=
  ∀ (s : State) (id : Half), s.ready → s.cart.loaded = true →
    ∃ t, exec (.stateLoad id) s = .next t ∧ EndsOrHangs s t ∧
      (s.opHandle = none → t.stalled = false → t.opHandle = none) ∧ t.files = s.files ∧
      t.cartHandle = s.cartHandle ∧
      (t.stalled = true ∨ t.result = 0xFFFFFFFE →
        t = { s with
          result := t.result, busy := t.busy, stalled := t.stalled, wram := t.wram, vram := t.vram, sram := t.sram,
          hdr := t.hdr, trace := t.trace, answers := t.answers, opHandle := t.opHandle, freeCount := t.freeCount } ∧
        OnlyStorageSince s t) ∧
      ((fileNamed s id).len <
          4096 * (1 + wramUnits s.cart.hwfamily + vramUnits s.cart.hwfamily + 2 * s.cart.ramsize) →
        t.stalled = true ∨ t.result = 0xFFFFFFFE) ∧
      (∀ a rest, s.answers = a :: rest →
        (a = .fail → t.stalled = false ∧ t.result = 0xFFFFFFFE) ∧ (a = .never → t.stalled = true))

/-- STATE_LOAD of a file long enough, without a storage failure (R147 to R156): the three blocks and the four regions
take the file's bytes, every register of REG_TABLE takes what FIND gives for its tag at its width (the last entry for
it, where the table names it twice), the RAM-bank selector is then masked and the boot-ROM flag forced, the version
mismatch only warns, the three notifications follow, and everything else is unchanged. -/
def Obligations.StateLoadRestoresTheMachine : Prop :=
  ∀ (s : State) (id : Half) (f : File), s.ready → s.cart.loaded = true → Config.wf s.cfg → MemoriesCanonical s →
    Tab.get? s.files (fileKey s id) = some f →
    4096 * (1 + wramUnits s.cart.hwfamily + vramUnits s.cart.hwfamily + 2 * s.cart.ramsize) ≤ f.len →
    s.storageOk (3 + wramUnits s.cart.hwfamily + vramUnits s.cart.hwfamily + 2 * s.cart.ramsize) →
    let w := wramUnits s.cart.hwfamily
    let v := vramUnits s.cart.hwfamily
    let mismatch := decide (findRecord f.data s.cfg.versionTag ≠ s.cfg.formatVersion)
    ∃ t es, exec (.stateLoad id) s = .next t ∧
      t = { s with
        result := 0, wram := t.wram, vram := t.vram, sram := t.sram, wave := t.wave, ioregs := t.ioregs,
        pal := t.pal, oam := t.oam, hdr := t.hdr, loadedVersion := findRecord f.data s.cfg.versionTag,
        rambank := t.rambank, rombank := t.rombank, rtc := t.rtc, rtcTicks := t.rtcTicks, mreg := t.mreg,
        bootromDisable := true,
        warn := (if mismatch then s.warn ||| 1 else s.warn), trace := t.trace, answers := t.answers,
        opHandle := none } ∧
      (∀ a, a < 4096 * w → memByte t (.mach .wram) a = f.data.read (4096 + a)) ∧
      (∀ a, a < 4096 * v → memByte t (.mach .vram) a = f.data.read (4096 * (1 + w) + a)) ∧
      (∀ a, a < 8192 * s.cart.ramsize → memByte t .sram a = f.data.read (4096 * (1 + w + v) + a)) ∧
      (∀ a, a < 16 → memByte t (.mach .wave) a = f.data.read (0x0CF0 + a)) ∧
      (∀ a, a < 128 → memByte t (.mach .pal) a = f.data.read (0x0E00 + a)) ∧
      (∀ a, a < 160 → memByte t (.mach .oam) a = f.data.read (0x0F00 + a)) ∧
      (∀ a, a < 256 → (∀ e ∈ s.cfg.regTable, e.id ≠ .ioreg a) →
        memByte t (.mach .ioregs) a = f.data.read (0x0D00 + a)) ∧
      (∀ pre e post, s.cfg.regTable = pre ++ e :: post → (∀ e' ∈ post, e'.id ≠ e.id) →
        e.id ≠ .rambank → e.id ≠ .bootromOff → readReg t e.id = narrow e.width (findRecord f.data e.tag)) ∧
      (∀ pre e post, s.cfg.regTable = pre ++ e :: post → (∀ e' ∈ post, e'.id ≠ .rambank) → e.id = .rambank →
        t.rambank = (findRecord f.data e.tag).setWidth 8 &&& BitVec.ofNat 8 (s.cart.ramsize - 1)) ∧
      ((∀ e ∈ s.cfg.regTable, e.id ≠ .rambank) → t.rambank = s.rambank &&& BitVec.ofNat 8 (s.cart.ramsize - 1)) ∧
      (∀ id', id' ≠ .rambank → id' ≠ .bootromOff → (∀ k, id' ≠ .ioreg k) → (∀ e ∈ s.cfg.regTable, e.id ≠ id') →
        readReg t id' = readReg s id') ∧
      t.trace = s.trace ++ es ++ (if mismatch then [.warn .version] else []) ++ [.palRebuild, .sndDirty, .memRemap] ∧
      ∀ e ∈ es, e.isStorage = true

/-- R158: STATE_SAVE, then STATE_LOAD of the same file with the same cartridge, on a block whose state may have changed
in between, gives back every register of REG_TABLE, the four regions and the three memory blocks as they were at the
save, with no version warning; the exceptions are the boot-ROM flag, forced on, and the masked RAM-bank selector. -/
def Obligations.StateRoundTrip : Prop :=
  ∀ (s t u : State) (id : Half), s.ready → s.cart.loaded = true → Config.wf s.cfg → MemoriesCanonical s →
    RegistersFit s →
    s.storageOk (3 + wramUnits s.cart.hwfamily + vramUnits s.cart.hwfamily + 2 * s.cart.ramsize) →
    exec (.stateSave id) s = .next t →
    u.ready → u.cart = t.cart → u.cfg = t.cfg → u.files = t.files → MemoriesCanonical u →
    u.storageOk (3 + wramUnits s.cart.hwfamily + vramUnits s.cart.hwfamily + 2 * s.cart.ramsize) →
    ∃ v, exec (.stateLoad id) u = .next v ∧ v.result = 0 ∧ v.warn = u.warn ∧
      v.loadedVersion = s.cfg.formatVersion ∧ v.bootromDisable = true ∧
      (∀ e ∈ s.cfg.regTable, e.id ≠ .bootromOff → e.id ≠ .rambank → readReg v e.id = readReg s e.id) ∧
      (∀ e ∈ s.cfg.regTable, e.id = .rambank →
        v.rambank = s.rambank &&& BitVec.ofNat 8 (s.cart.ramsize - 1)) ∧
      (∀ a, a < 4096 * wramUnits s.cart.hwfamily → memByte v (.mach .wram) a = memByte s (.mach .wram) a) ∧
      (∀ a, a < 4096 * vramUnits s.cart.hwfamily → memByte v (.mach .vram) a = memByte s (.mach .vram) a) ∧
      (∀ a, a < 8192 * s.cart.ramsize → memByte v .sram a = memByte s .sram a) ∧
      (∀ a, a < 16 → memByte v (.mach .wave) a = memByte s (.mach .wave) a) ∧
      (∀ a, a < 256 → memByte v (.mach .ioregs) a = memByte s (.mach .ioregs) a) ∧
      (∀ a, a < 128 → memByte v (.mach .pal) a = memByte s (.mach .pal) a) ∧
      (∀ a, a < 160 → memByte v (.mach .oam) a = memByte s (.mach .oam) a)

/-! ### The frame scheduler -/

/-- FRAME's start (R160, R161, R163, R164): the draw flag, the cleared frame counter, phase P1, and the first quantum
requested and accounted; the block is then busy with ENV in control, and nothing else has changed but the clock. That
FRAME's first step ends there is the model's choice (log entry 1). -/
def Obligations.FrameStartsWithTheHeadQuantum : Prop :=
  ∀ (s : State) (draw : Bool), s.ready → s.cart.loaded = true →
    ∃ t, exec (.frame draw) s = .next t ∧
      t = { s with
        busy := true, renderEnable := draw, phase := .p1, run := some ⟨s.cfg.qHead, .head⟩,
        frameCycles := BitVec.ofNat 32 s.cfg.qHead, totalCycles := s.totalCycles + BitVec.ofNat 64 s.cfg.qHead,
        rtcTicks := s.rtcTicks + BitVec.ofNat 64 s.cfg.qHead,
        rtc := (rtcAdvance s.rtcTicks.toNat s.cfg.qHead s).rtc,
        trace := s.trace ++ [.run s.cfg.qHead .head] }

/-- What the scheduler does when ENV has returned control (R165 to R168, with R162's ranges): lines 1 to 143 run another
LINE quantum of the budget sampled now, any other line ends phase 2; phase 3 emits `ev_vblank` once; the display-enable
bit is looked at only then; phase 4 runs one SKIP quantum, or LINE quanta while the line is 144 or more; then the
invocation ends with result 0. What counts as one step is the model's choice (log entry 1). (With a reset to come,
ResetInputResetsTheBlock.) -/
def Obligations.SchedulerFollowsThePhases : Prop :=
  ∀ s : State, s.halted = false → s.stalled = false → s.busy = true → s.run = none →
    (∀ k rest, s.host ≠ .resetAfter k :: rest) →
    let request (n : Nat) (k : QKind) (p : Phase) : State :=
      { s with
        phase := p, run := some ⟨n, k⟩, frameCycles := s.frameCycles + BitVec.ofNat 32 n,
        totalCycles := s.totalCycles + BitVec.ofNat 64 n, rtcTicks := s.rtcTicks + BitVec.ofNat 64 n,
        rtc := (rtcAdvance s.rtcTicks.toNat n s).rtc, trace := s.trace ++ [.run n k] }
    (s.phase = .p1 → step s = .next { s with phase := .p2 }) ∧
    (s.phase = .p2 → 1 ≤ s.ly.toNat → s.ly.toNat < 144 →
      step s = .next (request s.lineCycles.toNat .line .p2)) ∧
    (s.phase = .p2 → s.ly.toNat = 0 ∨ 144 ≤ s.ly.toNat →
      step s = .next { s with phase := .p3, trace := s.trace ++ [.vblank] }) ∧
    (s.phase = .p3 → s.lcdOn = false → step s = .next (request s.cfg.qSkip .skip .p4s)) ∧
    (s.phase = .p3 → s.lcdOn = true → step s = .next { s with phase := .p4l }) ∧
    (s.phase = .p4s → step s = .next { s with phase := .idle, result := 0, busy := false }) ∧
    (s.phase = .p4l → 144 ≤ s.ly.toNat → step s = .next (request s.lineCycles.toNat .line .p4l)) ∧
    (s.phase = .p4l → s.ly.toNat < 144 → step s = .next { s with phase := .idle, result := 0, busy := false })

/-- R13: the phase advances 0, 1, 2, 3, then 4 or 5, then 0, and never otherwise; only reset takes it back to IDLE from
elsewhere. -/
def Obligations.PhaseNeverSkips : Prop :=
  ∀ s t : State, SchedulerConsistent s → step s = .next t →
    t.phase = s.phase ∨ (s.phase = .idle ∧ t.phase = .p1) ∨ (s.phase = .p1 ∧ t.phase = .p2) ∨
    (s.phase = .p2 ∧ t.phase = .p3) ∨ (s.phase = .p3 ∧ (t.phase = .p4s ∨ t.phase = .p4l)) ∨
    ((s.phase = .p4s ∨ s.phase = .p4l) ∧ t.phase = .idle) ∨ ResetValues t

/-- What ENV may write inside a quantum and nothing else (R163): its own inputs, machine registers and memory regions;
an FSB register only where REG_TABLE names it (which registers those are is log entry 21), or `rambank`, which R31
makes a machine register. The clock's latch, select and shadow registers have a second writer, the excluded
memory-controller logic (R24), which writes nothing else. The quantum goes on until ENV returns. -/
def Obligations.EnvWritesOnlyWhatItMay : Prop :=
  ∀ s t : State, s.inQuantum → s.busy = true → (∀ w, nextEnv s ≠ .bus w) → nextEnv s ≠ .reset → step s = .next t →
    t = { s with
      ly := t.ly, lineCycles := t.lineCycles, lcdOn := t.lcdOn, mreg := t.mreg, bootromDisable := t.bootromDisable,
      rambank := t.rambank, rombank := t.rombank, rtc := t.rtc, rtcTicks := t.rtcTicks, wram := t.wram, vram := t.vram,
      wave := t.wave, ioregs := t.ioregs, pal := t.pal, oam := t.oam, run := t.run, env := t.env,
      freeCount := t.freeCount } ∧
    (nextEnv s = .done ↔ t.run ≠ s.run) ∧ (nextEnv s = .done → t.run = none) ∧
    (∀ id, id ≠ .rambank → id ≠ .bootromOff → (∀ k, id ≠ .ioreg k) → (∀ k, id ≠ .other k) →
      (∀ e ∈ s.cfg.regTable, e.id ≠ id) → (∀ r v, nextEnv s ≠ .controller r v) → readReg t id = readReg s id) ∧
    (∀ r v, nextEnv s = .controller r v →
      ∃ latch sel regs, (envTaken s).rtc = s.rtc ∧
        t = { envTaken s with rtc := { s.rtc with latch := latch, sel := sel, regs := regs } })

/-- R170 (a): a FRAME with the display disabled and the line counter out of the visible range, whose ENV only returns,
requests exactly the HEAD and the SKIP quantum with one `ev_vblank` between them; at its end `frame_cycles` is Q_HEAD +
Q_SKIP and the tick accumulator and the free-running counter have advanced by the same amount. The number of steps,
seven, is the model's (log entry 1). -/
def Obligations.DisplayOffFrameIsOneFrameOfCycles : Prop :=
  ∀ (s : State) (draw : Bool) (hs : List HostAct) (es : List EnvAct), s.ready → s.cart.loaded = true →
    s.run = none → s.lcdOn = false → (s.ly.toNat = 0 ∨ 144 ≤ s.ly.toNat) →
    (∀ k rest, hs ≠ .resetAfter k :: rest) →
    s.host = .command (encode (.frame draw)) :: hs → s.env = .done :: .done :: es →
    ∃ t, core.run 7 s = .next t ∧
      t = { s with
        cw := encode (.frame draw), host := hs, env := es, result := 0, phase := .idle, renderEnable := draw,
        frameCycles := BitVec.ofNat 32 (s.cfg.qHead + s.cfg.qSkip),
        totalCycles := s.totalCycles + BitVec.ofNat 64 (s.cfg.qHead + s.cfg.qSkip),
        rtcTicks := s.rtcTicks + BitVec.ofNat 64 (s.cfg.qHead + s.cfg.qSkip), rtc := t.rtc,
        trace := s.trace ++ [.run s.cfg.qHead .head, .vblank, .run s.cfg.qSkip .skip] }

/-- R164, R192: the counters count requested cycles and nothing else. In every state that meets it and after every step,
`frame_cycles` is the sum of the quanta since the last HEAD quantum of the trace, that one included (R170 (b)), and
`total_cycles` is the sum of all quanta of the trace. -/
def Obligations.CountersCountTheRequestedCycles : Prop :=
  ∀ s t : State, step s = .next t →
    (s.frameCycles = BitVec.ofNat 32 (cyclesSinceHead s.trace) ∧
      s.totalCycles = BitVec.ofNat 64 (requestedCycles s.trace)) →
    t.frameCycles = BitVec.ofNat 32 (cyclesSinceHead t.trace) ∧
      t.totalCycles = BitVec.ofNat 64 (requestedCycles t.trace)

/-- The tick accumulator (R27): a step adds to it exactly the cycles it requests, modulo 2^64, but for reset and
CART_LOAD's commit, which clear it, and, only where REG_TABLE names it (R31, R156; as which registers is log entry 21),
a STATE_LOAD and a write by ENV. -/
def Obligations.TicksAdvanceWithTheQuanta : Prop :=
  ∀ s t : State, step s = .next t →
    (∃ es, t.trace = s.trace ++ es ∧ t.rtcTicks = s.rtcTicks + BitVec.ofNat 64 (requestedCycles es)) ∨
    (t.rtcTicks = 0 ∧ (ResetValues t ∨ s.cart.loaded = false ∧ t.cart.loaded = true)) ∨
    (∃ e ∈ s.cfg.regTable, (e.id = .rtcTicksLow ∨ e.id = .rtcTicksHigh) ∧
      ((∃ w rest id, s.host = .command w :: rest ∧ decode .command w = .ok (.stateLoad id)) ∨
        ∃ v, nextEnv s = .setReg e.id v))

/-- R169: FRAME 0 and FRAME 1 from the same state, with the same ENV, give the same steps, the same trace and the same
end state but for the draw flag (and the command word that carried it): every step keeps two states so related. -/
def Obligations.DrawFlagIsInert : Prop :=
  (∀ s t s' : State, SameButDraw s t → step s = .next s' → ∃ t', step t = .next t' ∧ SameButDraw s' t') ∧
  ∀ (s : State) (hs : List HostAct) (k : Nat) (t : State), s.ready → 1 ≤ k →
    core.run k { s with host := .command (encode .frameSkip) :: hs } = .next t →
    ∃ u, core.run k { s with host := .command (encode .frameDraw) :: hs } = .next u ∧ SameButDraw t u

/-! ### Frames of the operations that can end in several ways -/

/-- What the persistence commands leave unchanged, however they end (R53, R120 to R132, R140 to R156), also by
hanging (R210): SRAM_SAVE and STATE_SAVE change no memory of the block and no file but their own; SRAM_LOAD and
STATE_LOAD change no file; none of them touches the cartridge record, the tag array, the pool, the counters (but what
REG_TABLE names), the selectors (STATE_LOAD apart) or the cartridge's handle; `busy` stays set exactly where the
command hangs. -/
def Obligations.PersistenceCommandsKeepTheRest : Prop :=
  ∀ (s t : State) (id : Half),
    (∀ q, exec (.sramSave id q) s = .next t →
      t = { s with
        result := t.result, busy := t.stalled, stalled := t.stalled, sramDirty := t.sramDirty,
        sramSaved := t.sramSaved, files := t.files, trace := t.trace, answers := t.answers, opHandle := t.opHandle,
        freeCount := t.freeCount } ∧
      OtherFilesKept id s t ∧ OnlyStorageSince s t) ∧
    (exec (.sramLoad id) s = .next t →
      t = { s with
        result := t.result, busy := t.stalled, stalled := t.stalled, sramDirty := t.sramDirty,
        sramSaved := t.sramSaved, sram := t.sram, rtc := t.rtc, trace := t.trace, answers := t.answers,
        opHandle := t.opHandle, freeCount := t.freeCount } ∧
      OnlyStorageSince s t) ∧
    (exec (.stateSave id) s = .next t →
      t = { s with
        result := t.result, busy := t.stalled, stalled := t.stalled, hdr := t.hdr, files := t.files, trace := t.trace,
        answers := t.answers, opHandle := t.opHandle, freeCount := t.freeCount } ∧
      OtherFilesKept id s t ∧ OnlyStorageSince s t) ∧
    (exec (.stateLoad id) s = .next t →
      t = { s with
        result := t.result, busy := t.stalled, stalled := t.stalled, wram := t.wram, vram := t.vram, sram := t.sram,
        wave := t.wave, ioregs := t.ioregs, pal := t.pal, oam := t.oam, hdr := t.hdr,
        loadedVersion := t.loadedVersion, rambank := t.rambank, rombank := t.rombank, rtc := t.rtc,
        rtcTicks := t.rtcTicks, mreg := t.mreg, bootromDisable := t.bootromDisable, warn := t.warn, trace := t.trace,
        answers := t.answers, opHandle := t.opHandle, freeCount := t.freeCount })

/-- What the bank manager's operations leave unchanged, however they end (R80 to R111): BANK_LOAD, PRELOAD and RD write
no byte but the pool's, no file and no register but those named; WR writes no byte but the one it addresses in the
selected bank; CART_LOAD writes no file, no memory region of the collaborators, and no register but those R89 names,
the warning, the tag array and the pool. -/
def Obligations.BankOperationsKeepTheRest : Prop :=
  ∀ s t : State,
    (∀ i, (∃ n, i = .bankLoad n) ∨ (∃ c, i = .preload c) → exec i s = .next t →
      t = { s with
        result := t.result, busy := (t.halted || t.stalled), halted := t.halted, hcause := t.hcause,
        stalled := t.stalled, slot := t.slot, ftag := t.ftag, pool := t.pool, cartHandle := t.cartHandle,
        trace := t.trace, answers := t.answers, choices := t.choices, freeCount := t.freeCount } ∧
      t.cartHandle.map (·.id) = s.cartHandle.map (·.id) ∧ OnlyStorageSince s t) ∧
    (∀ a, exec (.rd a) s = .next t →
      t = { s with
        rdata := t.rdata, halted := t.halted, hcause := t.hcause, stalled := t.stalled, slot := t.slot,
        ftag := t.ftag, pool := t.pool, cartHandle := t.cartHandle, trace := t.trace, answers := t.answers,
        choices := t.choices, freeCount := t.freeCount } ∧
      t.cartHandle.map (·.id) = s.cartHandle.map (·.id) ∧ OnlyStorageSince s t ∧
      (0x8000 ≤ a.toNat → t.pool = s.pool ∧ t.slot = s.slot ∧ t.ftag = s.ftag ∧ t.trace = s.trace)) ∧
    (∀ a d, exec (.wr a d) s = .next t →
      t = { s with
        rdata := t.rdata, halted := t.halted, hcause := t.hcause, sram := t.sram, sramDirty := t.sramDirty } ∧
      ∀ x, x ≠ s.rambank.toNat * 8192 + (a.toNat - 0xA000) → memByte t .sram x = memByte s .sram x) ∧
    (∀ id, exec (.cartLoad id) s = .next t →
      t = { s with
        result := t.result, busy := (t.halted || t.stalled), halted := t.halted, hcause := t.hcause,
        stalled := t.stalled, cart := t.cart, cartFileOpen := t.cartFileOpen, cartFileId := t.cartFileId,
        ramPages := t.ramPages, sram := t.sram, sramDirty := t.sramDirty, sramSaved := t.sramSaved,
        rombank := t.rombank, rambank := t.rambank, rtc := t.rtc, rtcTicks := t.rtcTicks, warn := t.warn,
        slot := t.slot, ftag := t.ftag, pool := t.pool, cartHandle := t.cartHandle, trace := t.trace,
        answers := t.answers, choices := t.choices, freeCount := t.freeCount })

/-! ### Rules over the whole machine -/

/-- R11: the cartridge record changes only by CART_LOAD, by CART_UNLOAD and by reset. -/
def Obligations.CartridgeRecordIsImmutable : Prop :=
  ∀ s t : State, step s = .next t → t.cart ≠ s.cart →
    (∃ w rest id, s.host = .command w :: rest ∧ decode .command w = .ok (.cartLoad id)) ∨
    (∃ w rest, s.host = .command w :: rest ∧ decode .command w = .ok .cartUnload) ∨ ResetValues t

/-- The draw flag is written by FRAME and reset only (R16), the dirty bits by WR, SRAM_SAVE, SRAM_LOAD, CART_LOAD,
CART_UNLOAD and reset only (R15), and of the warning bits W_VERSION is set by STATE_LOAD only, W_RAMSIZE by CART_LOAD
only, and each cleared by CART_UNLOAD and reset only (R14, R185). -/
def Obligations.FlagsHaveTheirWriters : Prop :=
  ∀ s t : State, step s = .next t → ¬ ResetValues t →
    (t.renderEnable ≠ s.renderEnable →
      ∃ w rest d, s.host = .command w :: rest ∧ decode .command w = .ok (.frame d) ∧ t.renderEnable = d) ∧
    (t.sramDirty ≠ s.sramDirty →
      (∃ w rest i, s.host = .command w :: rest ∧ decode .command w = .ok i ∧
        ((∃ id q, i = .sramSave id q) ∨ (∃ id, i = .sramLoad id) ∨ (∃ id, i = .cartLoad id) ∨ i = .cartUnload)) ∨
      ∃ w a d, nextEnv s = .bus w ∧ decode .bus w = .ok (.wr a d)) ∧
    (t.warn.getLsbD 0 = true → s.warn.getLsbD 0 = false →
      ∃ w rest id, s.host = .command w :: rest ∧ decode .command w = .ok (.stateLoad id)) ∧
    (t.warn.getLsbD 1 = true → s.warn.getLsbD 1 = false →
      ∃ w rest id, s.host = .command w :: rest ∧ decode .command w = .ok (.cartLoad id)) ∧
    (s.warn &&& ~~~ t.warn ≠ 0 →
      ∃ w rest, s.host = .command w :: rest ∧ decode .command w = .ok .cartUnload)

/-! ### Invariants -/

/-- Every step keeps the canonical form of every memory, table and file (the form is the model's own way to hold them,
not the spec's: log entry 22). -/
def Obligations.MemoriesStayCanonical : Prop :=
  ∀ s t : State, MemoriesCanonical s → step s = .next t → MemoriesCanonical t

/-- Every step keeps the block's invariants: the parameters are never changed (R35), the cartridge record is legal
(R11), no bookkeeping bit stands at or above `ramsize` (R15), the handles are disciplined (R214), the scheduler's
registers are consistent (R13, R14), the tag array agrees with the frames (R20), and every machine register keeps its
width (R31). That the tag array still agrees in a block a failed fill has halted, where R107 calls its entries
unspecified and R184 says it keeps what it held, is the model's choice of R184 (log entry 12). That a busy block which
neither halts nor hangs is inside a FRAME rests on the size of a step, which is the model's choice too (log entries 1
and 27). -/
def Obligations.BlockInvariantIsKept : Prop :=
  ∀ s t : State, BlockInvariant s → step s = .next t → BlockInvariant t ∧ t.cfg = s.cfg

/-- The coherence of the frames with the cartridge file (R56) is kept by every step that writes no file and after which
the block neither has halted nor hangs. -/
def Obligations.FramesStayCoherent : Prop :=
  ∀ s t : State, BlockInvariant s → MemoriesCanonical s → FramesCoherent s → step s = .next t → t.files = s.files →
    t.halted = false → t.stalled = false → FramesCoherent t

/-- The state after reset meets every invariant, for every legal setting of the parameters, and so does `State.reset`,
whose parameters are the reference ones (log entry 2). That its memories are canonical rests on what an unlisted byte
reads as and on the zeros of what the spec leaves unspecified after reset (log entries 22 and 8). -/
def Obligations.InvariantsHoldAtReset : Prop :=
  (∀ c : Config, Config.wf c → BlockInvariant (State.resetWith c)) ∧ BlockInvariant State.reset ∧
  ∀ c : Config, MemoriesCanonical (State.resetWith c) ∧ FramesCoherent (State.resetWith c) ∧
    (State.resetWith c).frameCycles = BitVec.ofNat 32 (cyclesSinceHead (State.resetWith c).trace) ∧
    (State.resetWith c).totalCycles = BitVec.ofNat 64 (requestedCycles (State.resetWith c).trace)
end

