-- ==== Sys2Proof/Laws/Memory.lean ====
section
/-! SUPPORT. The laws of the sparse containers: what a read gives after each operation, and that each operation keeps the
canonical form. -/

namespace Sys2Proof.Machine

/-! ### Byte memories: reads -/

@[simp] theorem Memory.read_nil (a : Nat) : Memory.read [] a = 0 := rfl

theorem Memory.read_cons (k : Nat) (v : Byte) (m : Memory) (a : Nat) :
    Memory.read ((k, v) :: m) a = if a = k then v else Memory.read m a := rfl

/-- An address no cell lists reads as zero. -/
theorem Memory.read_unlisted {m : Memory} {a : Nat} (h : ∀ c ∈ m, c.1 ≠ a) : Memory.read m a = 0 := by
  induction m with
  | nil => rfl
  | cons c m ih =>
    obtain ⟨k, v⟩ := c
    rw [Memory.read_cons, if_neg (fun e => h (k, v) (by simp) e.symm)]
    exact ih (fun c hc => h c (by simp [hc]))

theorem Memory.read_append (m₁ m₂ : Memory) (a : Nat) :
    Memory.read (m₁ ++ m₂) a = if ∃ c ∈ m₁, c.1 = a then Memory.read m₁ a else Memory.read m₂ a := by
  induction m₁ with
  | nil => simp
  | cons c m ih =>
    obtain ⟨k, v⟩ := c
    rw [List.cons_append, Memory.read_cons, Memory.read_cons, ih]
    by_cases hk : a = k
    · subst hk; simp
    · have : ¬ k = a := fun e => hk e.symm
      simp [hk, this]

theorem Memory.read_filter (m : Memory) (p : Nat → Bool) (a : Nat) :
    Memory.read (m.filter (fun c => p c.1)) a = if p a then Memory.read m a else 0 := by
  induction m with
  | nil => simp
  | cons c m ih =>
    obtain ⟨k, v⟩ := c
    by_cases hp : p k = true
    · rw [List.filter_cons_of_pos (by simpa using hp), Memory.read_cons, Memory.read_cons, ih]
      by_cases hk : a = k
      · subst hk; simp [hp]
      · simp [hk]
    · rw [List.filter_cons_of_neg (by simpa using hp), ih, Memory.read_cons]
      by_cases hk : a = k
      · subst hk; simp [hp]
      · simp [hk]

@[simp] theorem Memory.read_below (m : Memory) (n a : Nat) :
    Memory.read (m.below n) a = if a < n then m.read a else 0 := by
  simpa [Memory.below] using Memory.read_filter m (fun k => decide (k < n)) a

@[simp] theorem Memory.read_from (m : Memory) (n a : Nat) :
    Memory.read (m.from n) a = if n ≤ a then m.read a else 0 := by
  simpa [Memory.from] using Memory.read_filter m (fun k => decide (n ≤ k)) a

@[simp] theorem Memory.read_raise (m : Memory) (d a : Nat) :
    Memory.read (m.raise d) a = if d ≤ a then m.read (a - d) else 0 := by
  induction m with
  | nil => simp [Memory.raise]
  | cons c m ih =>
    obtain ⟨k, v⟩ := c
    have e : Memory.raise ((k, v) :: m) d = (k + d, v) :: Memory.raise m d := rfl
    rw [e, Memory.read_cons, ih, Memory.read_cons]
    by_cases hd : d ≤ a
    · by_cases hk : a - d = k
      · have : a = k + d := by omega
        simp [this]
      · have : ¬ a = k + d := by omega
        simp [hd, hk, this]
    · have : ¬ a = k + d := by omega
      simp [hd, this]

theorem Memory.read_lower {m : Memory} {d : Nat} (h : ∀ c ∈ m, d ≤ c.1) (a : Nat) :
    Memory.read (m.lower d) a = m.read (a + d) := by
  induction m with
  | nil => simp [Memory.lower]
  | cons c m ih =>
    obtain ⟨k, v⟩ := c
    have hk : d ≤ k := h (k, v) (by simp)
    have e : Memory.lower ((k, v) :: m) d = (k - d, v) :: Memory.lower m d := rfl
    rw [e, Memory.read_cons, ih (fun c hc => h c (by simp [hc])), Memory.read_cons]
    by_cases ha : a = k - d
    · have : a + d = k := by omega
      simp [ha, show k - d + d = k by omega]
    · have : ¬ a + d = k := by omega
      simp [ha, this]

/-- Byte `a` of `m[off +: n]` (R6). -/
@[simp] theorem Memory.read_slice (m : Memory) (off n a : Nat) :
    Memory.read (m.slice off n) a = if a < n then m.read (off + a) else 0 := by
  unfold Memory.slice
  rw [Memory.read_lower]
  · by_cases ha : a < n
    · simp [ha, show a + off = off + a by omega]
    · simp [ha, show ¬ a + off < off + n by omega]
  · intro c hc
    simp only [Memory.below, Memory.from, List.mem_filter, decide_eq_true_eq] at hc
    exact hc.1.2

theorem Memory.read_eq_zero_of_lt {m : Memory} {n a : Nat} (h : ∀ c ∈ m, c.1 < n) (ha : n ≤ a) : m.read a = 0 :=
  Memory.read_unlisted (fun c hc e => by have := h c hc; omega)

/-- A byte after `m[off +: n] <- src` (R6). -/
@[simp] theorem Memory.read_splice (m : Memory) (off n : Nat) (src : Memory) (a : Nat) :
    Memory.read (m.splice off n src) a = if off ≤ a ∧ a < off + n then src.read (a - off) else m.read a := by
  unfold Memory.splice
  rw [Memory.read_append, Memory.read_append]
  have hb : ¬ (∃ c ∈ m.below off, c.1 = a) → a < off → Memory.read m a = 0 := by
    intro hn h1
    have hz := Memory.read_unlisted (m := m.below off) (a := a) (fun c hc e => hn ⟨c, hc, e⟩)
    rwa [Memory.read_below, if_pos h1] at hz
  have hr : ¬ (∃ c ∈ Memory.raise (src.below n) off, c.1 = a) → off ≤ a → a < off + n → src.read (a - off) = 0 := by
    intro hn h1 h2
    have hz := Memory.read_unlisted (m := Memory.raise (src.below n) off) (a := a) (fun c hc e => hn ⟨c, hc, e⟩)
    rwa [Memory.read_raise, if_pos h1, Memory.read_below, if_pos (by omega)] at hz
  have nb : off ≤ a → ¬ (∃ c ∈ m.below off, c.1 = a) := by
    rintro h1 ⟨c, hc, e⟩
    simp only [Memory.below, List.mem_filter, decide_eq_true_eq] at hc
    omega
  have nr : ¬ (off ≤ a ∧ a < off + n) → ¬ (∃ c ∈ Memory.raise (src.below n) off, c.1 = a) := by
    rintro h1 ⟨c, hc, e⟩
    simp only [Memory.raise, Memory.below, List.mem_map, List.mem_filter, decide_eq_true_eq] at hc
    obtain ⟨x, hx, rfl⟩ := hc
    simp at e
    omega
  rw [Memory.read_below, Memory.read_raise, Memory.read_below, Memory.read_from]
  by_cases h1 : a < off
  · have h0 : ¬ (off ≤ a ∧ a < off + n) := by omega
    have h3 : ¬ off + n ≤ a := by omega
    rw [if_neg (nr h0), if_neg h0, if_pos h1, if_neg h3]
    split
    · rfl
    · rename_i hn; exact (hb hn h1).symm
  · have h1' : off ≤ a := by omega
    rw [if_neg (nb h1')]
    by_cases h2 : a < off + n
    · have h3 : ¬ off + n ≤ a := by omega
      have h4 : a - off < n := by omega
      rw [if_pos (⟨h1', h2⟩ : off ≤ a ∧ a < off + n), if_neg h3, if_pos h1', if_pos h4]
      split
      · rfl
      · rename_i hn; exact (hr hn h1' h2).symm
    · have h0 : ¬ (off ≤ a ∧ a < off + n) := by omega
      have h3 : off + n ≤ a := by omega
      rw [if_neg (nr h0), if_pos h3, if_neg h0]

@[simp] theorem Memory.read_clear (m : Memory) (off n a : Nat) :
    Memory.read (m.clear off n) a = if off ≤ a ∧ a < off + n then 0 else m.read a := by
  simp [Memory.clear]

/-- A write leaves every other byte alone. -/
theorem Memory.read_write_ne (m : Memory) {a b : Nat} (v : Byte) (h : b ≠ a) :
    Memory.read (m.write a v) b = m.read b := by
  induction m with
  | nil =>
    unfold Memory.write
    split
    · rfl
    · simp [Memory.read_cons, h]
  | cons c m ih =>
    obtain ⟨k, w⟩ := c
    unfold Memory.write
    split_ifs with h1 h2 h3 h4
    · rfl
    · simp [Memory.read_cons, h]
    · subst h3; simp [Memory.read_cons, h]
    · subst h3; simp [Memory.read_cons, h]
    · rw [Memory.read_cons, Memory.read_cons, ih]

/-- A read gives the byte last written there. -/
theorem Memory.read_write_same {m : Memory} (hm : m.wf) (a : Nat) (v : Byte) : Memory.read (m.write a v) a = v := by
  induction m with
  | nil =>
    unfold Memory.write
    split
    · rename_i h; simp [h]
    · simp [Memory.read_cons]
  | cons c m ih =>
    obtain ⟨k, w⟩ := c
    have hp := List.pairwise_cons.1 hm.1
    unfold Memory.write
    split_ifs with h1 h2 h3 h4
    · rw [h2, Memory.read_cons, if_neg (by omega)]
      exact Memory.read_unlisted (fun c hc e => by have := hp.1 c hc; simp at this; omega)
    · simp [Memory.read_cons]
    · rw [h4]
      exact Memory.read_unlisted (fun c hc e => by have := hp.1 c hc; simp at this; omega)
    · simp [Memory.read_cons]
    · rw [Memory.read_cons, if_neg h3]
      exact ih ⟨hp.2, fun c hc => hm.2 c (by simp [hc])⟩

theorem Memory.read_ofBytesAt (bs : List Byte) (o a : Nat) :
    Memory.read (Memory.ofBytesAt o bs) a = if o ≤ a then bs.getD (a - o) 0 else 0 := by
  induction bs generalizing o with
  | nil => simp [Memory.ofBytesAt]
  | cons b bs ih =>
    have key : Memory.read (Memory.ofBytesAt o (b :: bs)) a
        = if a = o then b else Memory.read (Memory.ofBytesAt (o + 1) bs) a := by
      rw [Memory.ofBytesAt.eq_2]
      split
      · rename_i hb
        by_cases ha : a = o
        · rw [ih, if_pos ha, if_neg (by omega), hb]
        · rw [if_neg ha]
      · rw [Memory.read_cons]
    rw [key, ih]
    by_cases ha : a = o
    · simp [ha]
    · by_cases hlt : o ≤ a
      · rw [if_neg ha, if_pos (by omega), if_pos hlt, show a - o = (a - (o + 1)) + 1 by omega]
        simp
      · rw [if_neg ha, if_neg (by omega), if_neg hlt]

@[simp] theorem Memory.read_ofBytes (bs : List Byte) (a : Nat) : Memory.read (Memory.ofBytes bs) a = bs.getD a 0 := by
  rw [Memory.ofBytes, Memory.read_ofBytesAt, if_pos (Nat.zero_le a), Nat.sub_zero]

/-! ### Byte memories: the canonical form -/

theorem Memory.wf_nil : Memory.wf [] := by decide

theorem Memory.wf_filter {m : Memory} (hm : m.wf) (p : Host.Cell → Bool) : Memory.wf (m.filter p) :=
  ⟨hm.1.filter _, fun c hc => hm.2 c (List.mem_of_mem_filter hc)⟩

theorem Memory.wf_below {m : Memory} (hm : m.wf) (n : Nat) : (m.below n).wf := Memory.wf_filter hm _

theorem Memory.wf_from {m : Memory} (hm : m.wf) (n : Nat) : (m.from n).wf := Memory.wf_filter hm _

theorem Memory.wf_raise {m : Memory} (hm : m.wf) (d : Nat) : (m.raise d).wf := by
  constructor
  · simp only [Memory.raise, List.pairwise_map]
    exact hm.1.imp (fun h => by simpa using h)
  · intro c hc
    simp only [Memory.raise, List.mem_map] at hc
    obtain ⟨x, hx, rfl⟩ := hc
    exact hm.2 x hx

theorem Memory.wf_lower {m : Memory} (hm : m.wf) {d : Nat} (h : ∀ c ∈ m, d ≤ c.1) : (m.lower d).wf := by
  constructor
  · simp only [Memory.lower, List.pairwise_map]
    exact hm.1.imp_of_mem (fun {x y} hx hy hxy => by have := h x hx; have := h y hy; simp; omega)
  · intro c hc
    simp only [Memory.lower, List.mem_map] at hc
    obtain ⟨x, hx, rfl⟩ := hc
    exact hm.2 x hx

theorem Memory.wf_slice {m : Memory} (hm : m.wf) (off n : Nat) : (m.slice off n).wf := by
  apply Memory.wf_lower (Memory.wf_below (Memory.wf_from hm _) _)
  intro c hc
  simp only [Memory.below, Memory.from, List.mem_filter, decide_eq_true_eq] at hc
  exact hc.1.2

theorem Memory.wf_append {m₁ m₂ : Memory} (h₁ : m₁.wf) (h₂ : m₂.wf) (h : ∀ x ∈ m₁, ∀ y ∈ m₂, x.1 < y.1) :
    Memory.wf (m₁ ++ m₂) := by
  refine ⟨List.pairwise_append.2 ⟨h₁.1, h₂.1, h⟩, ?_⟩
  intro c hc
  rcases List.mem_append.1 hc with hc | hc
  · exact h₁.2 c hc
  · exact h₂.2 c hc

theorem Memory.mem_below {m : Memory} {n : Nat} {c : Host.Cell} : c ∈ m.below n ↔ c ∈ m ∧ c.1 < n := by
  simp [Memory.below]

theorem Memory.mem_from {m : Memory} {n : Nat} {c : Host.Cell} : c ∈ m.from n ↔ c ∈ m ∧ n ≤ c.1 := by
  simp [Memory.from]

theorem Memory.mem_raise {m : Memory} {d : Nat} {c : Host.Cell} :
    c ∈ m.raise d ↔ ∃ x ∈ m, (x.1 + d, x.2) = c := by
  simp only [Memory.raise, List.mem_map]

/-- Splicing in a canonical buffer keeps the canonical form. -/
theorem Memory.wf_splice {m src : Memory} (hm : m.wf) (hs : src.wf) (off n : Nat) : (m.splice off n src).wf := by
  apply Memory.wf_append (Memory.wf_below hm _)
  · apply Memory.wf_append (Memory.wf_raise (Memory.wf_below hs _) _) (Memory.wf_from hm _)
    intro x hx y hy
    obtain ⟨z, hz, rfl⟩ := Memory.mem_raise.1 hx
    have h1 := (Memory.mem_below.1 hz).2
    have h2 := (Memory.mem_from.1 hy).2
    simp only; omega
  · intro x hx y hy
    have h1 := (Memory.mem_below.1 hx).2
    rcases List.mem_append.1 hy with hy | hy
    · obtain ⟨z, hz, rfl⟩ := Memory.mem_raise.1 hy
      simp only; omega
    · have h2 := (Memory.mem_from.1 hy).2
      omega

theorem Memory.wf_clear {m : Memory} (hm : m.wf) (off n : Nat) : (m.clear off n).wf :=
  Memory.wf_splice hm Memory.wf_nil off n

/-- Where the cells of a spliced memory come from. -/
theorem Memory.mem_splice_lt {m src : Memory} {off n b : Nat} (hm : ∀ c ∈ m, c.1 < b) (hb : off + n ≤ b) :
    ∀ c ∈ m.splice off n src, c.1 < b := by
  intro c hc
  rcases List.mem_append.1 hc with hc | hc
  · exact hm c (Memory.mem_below.1 hc).1
  rcases List.mem_append.1 hc with hc | hc
  · obtain ⟨z, hz, rfl⟩ := Memory.mem_raise.1 hc
    have := (Memory.mem_below.1 hz).2
    simp only; omega
  · exact hm c (Memory.mem_from.1 hc).1

theorem Memory.mem_write {m : Memory} {a : Nat} {v : Byte} {c : Host.Cell} (h : c ∈ m.write a v) :
    c ∈ m ∨ (c = (a, v) ∧ v ≠ 0) := by
  induction m with
  | nil =>
    unfold Memory.write at h
    split at h
    · simp at h
    · rename_i hv; right; exact ⟨by simpa using h, hv⟩
  | cons d m ih =>
    obtain ⟨k, w⟩ := d
    unfold Memory.write at h
    split_ifs at h with h1 h2 h3 h4
    · left; exact h
    · rcases List.mem_cons.1 h with h | h
      · right; exact ⟨h, h2⟩
      · left; exact h
    · left; simp [h]
    · rcases List.mem_cons.1 h with h | h
      · right; exact ⟨h, h4⟩
      · left; simp [h]
    · rcases List.mem_cons.1 h with h | h
      · left; simp [h]
      · rcases ih h with h | h
        · left; simp [h]
        · right; exact h

/-- Writing a byte keeps the canonical form. -/
theorem Memory.wf_write {m : Memory} (hm : m.wf) (a : Nat) (v : Byte) : (m.write a v).wf := by
  refine ⟨?_, ?_⟩
  · induction m with
    | nil =>
      unfold Memory.write
      split <;> simp
    | cons d m ih =>
      obtain ⟨k, w⟩ := d
      have hp := List.pairwise_cons.1 hm.1
      unfold Memory.write
      split_ifs with h1 h2 h3 h4
      · exact hm.1
      · refine List.pairwise_cons.2 ⟨?_, hm.1⟩
        intro c hc
        rcases List.mem_cons.1 hc with rfl | hc
        · exact h1
        · have := hp.1 c hc; simp at this ⊢; omega
      · exact hp.2
      · subst h3; exact List.pairwise_cons.2 ⟨hp.1, hp.2⟩
      · refine List.pairwise_cons.2 ⟨?_, ih ⟨hp.2, fun c hc => hm.2 c (by simp [hc])⟩⟩
        intro c hc
        rcases Memory.mem_write hc with hc | ⟨rfl, -⟩
        · exact hp.1 c hc
        · simp; omega
  · intro c hc
    rcases Memory.mem_write hc with hc | ⟨rfl, hv⟩
    · exact hm.2 c hc
    · exact hv

theorem Memory.mem_ofBytesAt {bs : List Byte} {o : Nat} {c : Host.Cell} (h : c ∈ Memory.ofBytesAt o bs) :
    o ≤ c.1 ∧ c.1 < o + bs.length ∧ c.2 ≠ 0 := by
  induction bs generalizing o with
  | nil => simp [Memory.ofBytesAt] at h
  | cons b bs ih =>
    unfold Memory.ofBytesAt at h
    split at h
    · obtain ⟨h1, h2, h3⟩ := ih h
      simp; exact ⟨by omega, by omega, h3⟩
    · rename_i hb
      rcases List.mem_cons.1 h with rfl | h
      · exact ⟨Nat.le_refl _, by simp, hb⟩
      · obtain ⟨h1, h2, h3⟩ := ih h
        simp; exact ⟨by omega, by omega, h3⟩

theorem Memory.wf_ofBytesAt (bs : List Byte) (o : Nat) : Memory.wf (Memory.ofBytesAt o bs) := by
  refine ⟨?_, fun c hc => (Memory.mem_ofBytesAt hc).2.2⟩
  induction bs generalizing o with
  | nil => simp [Memory.ofBytesAt]
  | cons b bs ih =>
    unfold Memory.ofBytesAt
    split
    · exact ih _
    · refine List.pairwise_cons.2 ⟨fun c hc => ?_, ih _⟩
      have := (Memory.mem_ofBytesAt hc).1
      simp; omega

theorem Memory.wf_ofBytes (bs : List Byte) : Memory.wf (Memory.ofBytes bs) := Memory.wf_ofBytesAt bs 0

theorem wf_freeBytes (stamp n : Nat) : Memory.wf (freeBytes stamp n) := Memory.wf_ofBytes _

/-- A canonical memory is determined by what it reads as. -/
theorem Memory.ext_of_read {m₁ m₂ : Memory} (h₁ : m₁.wf) (h₂ : m₂.wf) (h : ∀ a, m₁.read a = m₂.read a) : m₁ = m₂ := by
  induction m₁ generalizing m₂ with
  | nil =>
    cases m₂ with
    | nil => rfl
    | cons c m =>
      obtain ⟨k, v⟩ := c
      have := h k
      rw [Memory.read_cons, if_pos rfl, Memory.read_nil] at this
      exact absurd this.symm (h₂.2 (k, v) (by simp))
  | cons c m ih =>
    obtain ⟨k, v⟩ := c
    have hp := List.pairwise_cons.1 h₁.1
    have hv : v ≠ 0 := h₁.2 (k, v) (by simp)
    cases m₂ with
    | nil =>
      have := h k
      rw [Memory.read_cons, if_pos rfl, Memory.read_nil] at this
      exact absurd this hv
    | cons d m' =>
      obtain ⟨k', v'⟩ := d
      have hp' := List.pairwise_cons.1 h₂.1
      have hv' : v' ≠ 0 := h₂.2 (k', v') (by simp)
      have hz : ∀ a, a ≤ k → Memory.read m a = 0 := fun a ha =>
        Memory.read_unlisted (fun c hc e => by have := hp.1 c hc; simp at this; omega)
      have hz' : ∀ a, a ≤ k' → Memory.read m' a = 0 := fun a ha =>
        Memory.read_unlisted (fun c hc e => by have := hp'.1 c hc; simp at this; omega)
      have hkk : k = k' := by
        rcases Nat.lt_trichotomy k k' with hlt | heq | hgt
        · have := h k
          rw [Memory.read_cons, if_pos rfl, Memory.read_cons, if_neg (by omega), hz' k (by omega)] at this
          exact absurd this hv
        · exact heq
        · have := h k'
          rw [Memory.read_cons, if_neg (by omega), Memory.read_cons, if_pos rfl, hz k' (by omega)] at this
          exact absurd this.symm hv'
      subst hkk
      have hvv : v = v' := by
        have := h k
        rwa [Memory.read_cons, if_pos rfl, Memory.read_cons, if_pos rfl] at this
      subst hvv
      congr 1
      apply ih ⟨hp.2, fun c hc => h₁.2 c (by simp [hc])⟩ ⟨hp'.2, fun c hc => h₂.2 c (by simp [hc])⟩
      intro a
      by_cases ha : a = k
      · rw [ha, hz k (Nat.le_refl _), hz' k (Nat.le_refl _)]
      · have := h a
        rwa [Memory.read_cons, if_neg ha, Memory.read_cons, if_neg ha] at this

/-! ### Tables -/

@[simp] theorem Tab.get?_nil {α : Type} (a : Nat) : Tab.get? ([] : Tab α) a = none := rfl

theorem Tab.get?_cons {α : Type} (k : Nat) (v : α) (t : Tab α) (a : Nat) :
    Tab.get? ((k, v) :: t) a = if a = k then some v else Tab.get? t a := rfl

@[simp] theorem Tab.get?_set {α : Type} (t : Tab α) (a : Nat) (v : α) (b : Nat) :
    Tab.get? (Tab.set t a v) b = if b = a then some v else Tab.get? t b := by
  induction t with
  | nil => simp [Tab.set, Tab.get?_cons]
  | cons c t ih =>
    obtain ⟨k, w⟩ := c
    unfold Tab.set
    split_ifs with h1 h2 h3 h4 h5
    · simp [Tab.get?_cons, h2]
    · simp [Tab.get?_cons, h2]
    · simp [Tab.get?_cons, h4]
    · subst h3; simp [Tab.get?_cons, h4]
    · rw [Tab.get?_cons, ih, if_pos h5, if_neg (by omega)]
    · rw [Tab.get?_cons, ih, if_neg h5, Tab.get?_cons]

@[simp] theorem Tab.get?_erase {α : Type} (t : Tab α) (a b : Nat) :
    Tab.get? (Tab.erase t a) b = if b = a then none else Tab.get? t b := by
  induction t with
  | nil => simp [Tab.erase]
  | cons c t ih =>
    obtain ⟨k, w⟩ := c
    by_cases hk : k = a
    · have : Tab.erase ((k, w) :: t) a = Tab.erase t a := by simp [Tab.erase, hk]
      rw [this, ih, Tab.get?_cons]
      by_cases hb : b = a <;> simp [hb, hk]
    · have : Tab.erase ((k, w) :: t) a = (k, w) :: Tab.erase t a := by simp [Tab.erase, hk]
      rw [this, Tab.get?_cons, ih, Tab.get?_cons]
      by_cases hb : b = k
      · simp [hb, hk]
      · simp [hb]

@[simp] theorem Tab.get?_put {α : Type} (t : Tab α) (a : Nat) (v : Option α) (b : Nat) :
    Tab.get? (Tab.put t a v) b = if b = a then v else Tab.get? t b := by
  cases v <;> simp [Tab.put]

theorem Tab.mem_of_get? {α : Type} {t : Tab α} {a : Nat} {v : α} (h : Tab.get? t a = some v) : (a, v) ∈ t := by
  induction t with
  | nil => simp at h
  | cons c t ih =>
    obtain ⟨k, w⟩ := c
    rw [Tab.get?_cons] at h
    split at h
    · rename_i e; simp at h; simp [e, h]
    · exact List.mem_cons_of_mem _ (ih h)

theorem Tab.get?_isSome_of_mem {α : Type} {t : Tab α} {a : Nat} {v : α} (h : (a, v) ∈ t) :
    (Tab.get? t a).isSome = true := by
  induction t with
  | nil => simp at h
  | cons c t ih =>
    obtain ⟨k, w⟩ := c
    rw [Tab.get?_cons]
    split
    · rfl
    · rename_i e
      rcases List.mem_cons.1 h with h | h
      · exact absurd (Prod.mk.inj h).1 e
      · exact ih h

theorem Tab.mem_set {α : Type} {t : Tab α} {a : Nat} {v : α} {c : Nat × α} (h : c ∈ Tab.set t a v) :
    c = (a, v) ∨ c ∈ t := by
  induction t with
  | nil => simpa [Tab.set] using h
  | cons d t ih =>
    obtain ⟨k, w⟩ := d
    unfold Tab.set at h
    split_ifs at h with h1 h2
    · rcases List.mem_cons.1 h with h | h
      · left; exact h
      · right; exact h
    · rcases List.mem_cons.1 h with h | h
      · left; exact h
      · right; simp [h]
    · rcases List.mem_cons.1 h with h | h
      · right; simp [h]
      · rcases ih h with h | h
        · left; exact h
        · right; simp [h]

theorem Tab.wf_nil {α : Type} : Tab.wf ([] : Tab α) := List.Pairwise.nil

theorem Tab.wf_set {α : Type} {t : Tab α} (ht : t.wf) (a : Nat) (v : α) : (Tab.set t a v).wf := by
  induction t with
  | nil => simp [Tab.set]
  | cons d t ih =>
    obtain ⟨k, w⟩ := d
    have hp := List.pairwise_cons.1 ht
    unfold Tab.set
    split_ifs with h1 h2
    · refine List.pairwise_cons.2 ⟨?_, ht⟩
      intro c hc
      rcases List.mem_cons.1 hc with rfl | hc
      · exact h1
      · have := hp.1 c hc; simp at this ⊢; omega
    · subst h2; exact List.pairwise_cons.2 ⟨hp.1, hp.2⟩
    · refine List.pairwise_cons.2 ⟨?_, ih hp.2⟩
      intro c hc
      rcases Tab.mem_set hc with rfl | hc
      · simp; omega
      · exact hp.1 c hc

theorem Tab.wf_erase {α : Type} {t : Tab α} (ht : t.wf) (a : Nat) : (Tab.erase t a).wf := List.Pairwise.filter _ ht

theorem Tab.wf_put {α : Type} {t : Tab α} (ht : t.wf) (a : Nat) (v : Option α) : (Tab.put t a v).wf := by
  cases v
  · exact Tab.wf_erase ht a
  · exact Tab.wf_set ht a _

/-! ### Byte order -/

@[simp] theorem leBytes_length (n v : Nat) : (leBytes n v).length = n := by
  induction n generalizing v with
  | zero => rfl
  | succ n ih => simp [leBytes, ih]

/-- `unLE` is the inverse of `LE_N` on N-byte values (R7). -/
theorem unLE_leBytes (n v : Nat) : unLE (leBytes n v) = v % 256 ^ n := by
  induction n generalizing v with
  | zero => simp [leBytes, unLE, Nat.mod_one]
  | succ n ih =>
    rw [leBytes, unLE, ih, BitVec.toNat_ofNat, show 2 ^ 8 = 256 from rfl, Nat.pow_succ', Nat.mod_mul]

theorem unLE_lt (bs : List Byte) : unLE bs < 256 ^ bs.length := by
  induction bs with
  | nil => simp [unLE]
  | cons b bs ih =>
    have := b.isLt
    simp only [unLE, List.length_cons, Nat.pow_succ]
    omega

@[simp] theorem Memory.bytes_length (m : Memory) (off n : Nat) : (m.bytes off n).length = n := by simp [Memory.bytes]

/-- Bytes that read as a list are that list. -/
theorem Memory.bytes_eq {m : Memory} {off : Nat} {bs : List Byte}
    (h : ∀ i, i < bs.length → m.read (off + i) = bs.getD i 0) : m.bytes off bs.length = bs := by
  apply List.ext_getElem
  · simp
  · intro i h1 h2
    have := h i h2
    simp [Memory.bytes, this, List.getD_eq_getElem?_getD, List.getElem?_eq_getElem h2]

end Sys2Proof.Machine
end

