-- ==== Sys2Proof/Laws/State.lean ====
section
/-! SUPPORT. The small lemmas of the named updates of State: what each gives for each field, true by definition. -/

namespace Sys2Proof.Machine

variable (s : State)

/-! ### emit -/

@[simp] theorem emit_cfg (e : Event) : (emit e s).cfg = s.cfg := rfl
@[simp] theorem emit_cart (e : Event) : (emit e s).cart = s.cart := rfl
@[simp] theorem emit_cw (e : Event) : (emit e s).cw = s.cw := rfl
@[simp] theorem emit_result (e : Event) : (emit e s).result = s.result := rfl
@[simp] theorem emit_xd (e : Event) : (emit e s).xd = s.xd := rfl
@[simp] theorem emit_rdata (e : Event) : (emit e s).rdata = s.rdata := rfl
@[simp] theorem emit_phase (e : Event) : (emit e s).phase = s.phase := rfl
@[simp] theorem emit_run (e : Event) : (emit e s).run = s.run := rfl
@[simp] theorem emit_busy (e : Event) : (emit e s).busy = s.busy := rfl
@[simp] theorem emit_halted (e : Event) : (emit e s).halted = s.halted := rfl
@[simp] theorem emit_hcause (e : Event) : (emit e s).hcause = s.hcause := rfl
@[simp] theorem emit_stalled (e : Event) : (emit e s).stalled = s.stalled := rfl
@[simp] theorem emit_warn (e : Event) : (emit e s).warn = s.warn := rfl
@[simp] theorem emit_sramDirty (e : Event) : (emit e s).sramDirty = s.sramDirty := rfl
@[simp] theorem emit_sramSaved (e : Event) : (emit e s).sramSaved = s.sramSaved := rfl
@[simp] theorem emit_renderEnable (e : Event) : (emit e s).renderEnable = s.renderEnable := rfl
@[simp] theorem emit_rombank (e : Event) : (emit e s).rombank = s.rombank := rfl
@[simp] theorem emit_rambank (e : Event) : (emit e s).rambank = s.rambank := rfl
@[simp] theorem emit_slot (e : Event) : (emit e s).slot = s.slot := rfl
@[simp] theorem emit_ftag (e : Event) : (emit e s).ftag = s.ftag := rfl
@[simp] theorem emit_pool (e : Event) : (emit e s).pool = s.pool := rfl
@[simp] theorem emit_ramPages (e : Event) : (emit e s).ramPages = s.ramPages := rfl
@[simp] theorem emit_sram (e : Event) : (emit e s).sram = s.sram := rfl
@[simp] theorem emit_cartFileOpen (e : Event) : (emit e s).cartFileOpen = s.cartFileOpen := rfl
@[simp] theorem emit_cartFileId (e : Event) : (emit e s).cartFileId = s.cartFileId := rfl
@[simp] theorem emit_rtc (e : Event) : (emit e s).rtc = s.rtc := rfl
@[simp] theorem emit_rtcTicks (e : Event) : (emit e s).rtcTicks = s.rtcTicks := rfl
@[simp] theorem emit_frameCycles (e : Event) : (emit e s).frameCycles = s.frameCycles := rfl
@[simp] theorem emit_totalCycles (e : Event) : (emit e s).totalCycles = s.totalCycles := rfl
@[simp] theorem emit_ly (e : Event) : (emit e s).ly = s.ly := rfl
@[simp] theorem emit_lineCycles (e : Event) : (emit e s).lineCycles = s.lineCycles := rfl
@[simp] theorem emit_lcdOn (e : Event) : (emit e s).lcdOn = s.lcdOn := rfl
@[simp] theorem emit_mreg (e : Event) : (emit e s).mreg = s.mreg := rfl
@[simp] theorem emit_bootromDisable (e : Event) : (emit e s).bootromDisable = s.bootromDisable := rfl
@[simp] theorem emit_wram (e : Event) : (emit e s).wram = s.wram := rfl
@[simp] theorem emit_vram (e : Event) : (emit e s).vram = s.vram := rfl
@[simp] theorem emit_wave (e : Event) : (emit e s).wave = s.wave := rfl
@[simp] theorem emit_ioregs (e : Event) : (emit e s).ioregs = s.ioregs := rfl
@[simp] theorem emit_pal (e : Event) : (emit e s).pal = s.pal := rfl
@[simp] theorem emit_oam (e : Event) : (emit e s).oam = s.oam := rfl
@[simp] theorem emit_hdr (e : Event) : (emit e s).hdr = s.hdr := rfl
@[simp] theorem emit_loadedVersion (e : Event) : (emit e s).loadedVersion = s.loadedVersion := rfl
@[simp] theorem emit_trace (e : Event) : (emit e s).trace = s.trace ++ [e] := rfl
@[simp] theorem emit_files (e : Event) : (emit e s).files = s.files := rfl
@[simp] theorem emit_cartHandle (e : Event) : (emit e s).cartHandle = s.cartHandle := rfl
@[simp] theorem emit_opHandle (e : Event) : (emit e s).opHandle = s.opHandle := rfl
@[simp] theorem emit_answers (e : Event) : (emit e s).answers = s.answers := rfl
@[simp] theorem emit_choices (e : Event) : (emit e s).choices = s.choices := rfl
@[simp] theorem emit_env (e : Event) : (emit e s).env = s.env := rfl
@[simp] theorem emit_host (e : Event) : (emit e s).host = s.host := rfl
@[simp] theorem emit_freeCount (e : Event) : (emit e s).freeCount = s.freeCount := rfl

/-! ### raiseError -/

@[simp] theorem raiseError_cfg (e : ErrorCode) : (raiseError e s).cfg = s.cfg := rfl
@[simp] theorem raiseError_cart (e : ErrorCode) : (raiseError e s).cart = s.cart := rfl
@[simp] theorem raiseError_cw (e : ErrorCode) : (raiseError e s).cw = s.cw := rfl
@[simp] theorem raiseError_result (e : ErrorCode) : (raiseError e s).result = e.code := rfl
@[simp] theorem raiseError_xd (e : ErrorCode) : (raiseError e s).xd = s.xd := rfl
@[simp] theorem raiseError_rdata (e : ErrorCode) : (raiseError e s).rdata = s.rdata := rfl
@[simp] theorem raiseError_phase (e : ErrorCode) : (raiseError e s).phase = s.phase := rfl
@[simp] theorem raiseError_run (e : ErrorCode) : (raiseError e s).run = s.run := rfl
@[simp] theorem raiseError_busy (e : ErrorCode) : (raiseError e s).busy = false := rfl
@[simp] theorem raiseError_halted (e : ErrorCode) : (raiseError e s).halted = s.halted := rfl
@[simp] theorem raiseError_hcause (e : ErrorCode) : (raiseError e s).hcause = s.hcause := rfl
@[simp] theorem raiseError_stalled (e : ErrorCode) : (raiseError e s).stalled = s.stalled := rfl
@[simp] theorem raiseError_warn (e : ErrorCode) : (raiseError e s).warn = s.warn := rfl
@[simp] theorem raiseError_sramDirty (e : ErrorCode) : (raiseError e s).sramDirty = s.sramDirty := rfl
@[simp] theorem raiseError_sramSaved (e : ErrorCode) : (raiseError e s).sramSaved = s.sramSaved := rfl
@[simp] theorem raiseError_renderEnable (e : ErrorCode) : (raiseError e s).renderEnable = s.renderEnable := rfl
@[simp] theorem raiseError_rombank (e : ErrorCode) : (raiseError e s).rombank = s.rombank := rfl
@[simp] theorem raiseError_rambank (e : ErrorCode) : (raiseError e s).rambank = s.rambank := rfl
@[simp] theorem raiseError_slot (e : ErrorCode) : (raiseError e s).slot = s.slot := rfl
@[simp] theorem raiseError_ftag (e : ErrorCode) : (raiseError e s).ftag = s.ftag := rfl
@[simp] theorem raiseError_pool (e : ErrorCode) : (raiseError e s).pool = s.pool := rfl
@[simp] theorem raiseError_ramPages (e : ErrorCode) : (raiseError e s).ramPages = s.ramPages := rfl
@[simp] theorem raiseError_sram (e : ErrorCode) : (raiseError e s).sram = s.sram := rfl
@[simp] theorem raiseError_cartFileOpen (e : ErrorCode) : (raiseError e s).cartFileOpen = s.cartFileOpen := rfl
@[simp] theorem raiseError_cartFileId (e : ErrorCode) : (raiseError e s).cartFileId = s.cartFileId := rfl
@[simp] theorem raiseError_rtc (e : ErrorCode) : (raiseError e s).rtc = s.rtc := rfl
@[simp] theorem raiseError_rtcTicks (e : ErrorCode) : (raiseError e s).rtcTicks = s.rtcTicks := rfl
@[simp] theorem raiseError_frameCycles (e : ErrorCode) : (raiseError e s).frameCycles = s.frameCycles := rfl
@[simp] theorem raiseError_totalCycles (e : ErrorCode) : (raiseError e s).totalCycles = s.totalCycles := rfl
@[simp] theorem raiseError_ly (e : ErrorCode) : (raiseError e s).ly = s.ly := rfl
@[simp] theorem raiseError_lineCycles (e : ErrorCode) : (raiseError e s).lineCycles = s.lineCycles := rfl
@[simp] theorem raiseError_lcdOn (e : ErrorCode) : (raiseError e s).lcdOn = s.lcdOn := rfl
@[simp] theorem raiseError_mreg (e : ErrorCode) : (raiseError e s).mreg = s.mreg := rfl
@[simp] theorem raiseError_bootromDisable (e : ErrorCode) : (raiseError e s).bootromDisable = s.bootromDisable := rfl
@[simp] theorem raiseError_wram (e : ErrorCode) : (raiseError e s).wram = s.wram := rfl
@[simp] theorem raiseError_vram (e : ErrorCode) : (raiseError e s).vram = s.vram := rfl
@[simp] theorem raiseError_wave (e : ErrorCode) : (raiseError e s).wave = s.wave := rfl
@[simp] theorem raiseError_ioregs (e : ErrorCode) : (raiseError e s).ioregs = s.ioregs := rfl
@[simp] theorem raiseError_pal (e : ErrorCode) : (raiseError e s).pal = s.pal := rfl
@[simp] theorem raiseError_oam (e : ErrorCode) : (raiseError e s).oam = s.oam := rfl
@[simp] theorem raiseError_hdr (e : ErrorCode) : (raiseError e s).hdr = s.hdr := rfl
@[simp] theorem raiseError_loadedVersion (e : ErrorCode) : (raiseError e s).loadedVersion = s.loadedVersion := rfl
@[simp] theorem raiseError_trace (e : ErrorCode) : (raiseError e s).trace = s.trace := rfl
@[simp] theorem raiseError_files (e : ErrorCode) : (raiseError e s).files = s.files := rfl
@[simp] theorem raiseError_cartHandle (e : ErrorCode) : (raiseError e s).cartHandle = s.cartHandle := rfl
@[simp] theorem raiseError_opHandle (e : ErrorCode) : (raiseError e s).opHandle = s.opHandle := rfl
@[simp] theorem raiseError_answers (e : ErrorCode) : (raiseError e s).answers = s.answers := rfl
@[simp] theorem raiseError_choices (e : ErrorCode) : (raiseError e s).choices = s.choices := rfl
@[simp] theorem raiseError_env (e : ErrorCode) : (raiseError e s).env = s.env := rfl
@[simp] theorem raiseError_host (e : ErrorCode) : (raiseError e s).host = s.host := rfl
@[simp] theorem raiseError_freeCount (e : ErrorCode) : (raiseError e s).freeCount = s.freeCount := rfl

/-! ### raiseFatal -/

@[simp] theorem raiseFatal_cfg (c : Cause) : (raiseFatal c s).cfg = s.cfg := rfl
@[simp] theorem raiseFatal_cart (c : Cause) : (raiseFatal c s).cart = s.cart := rfl
@[simp] theorem raiseFatal_cw (c : Cause) : (raiseFatal c s).cw = s.cw := rfl
@[simp] theorem raiseFatal_result (c : Cause) : (raiseFatal c s).result = s.result := rfl
@[simp] theorem raiseFatal_xd (c : Cause) : (raiseFatal c s).xd = s.xd := rfl
@[simp] theorem raiseFatal_rdata (c : Cause) : (raiseFatal c s).rdata = s.rdata := rfl
@[simp] theorem raiseFatal_phase (c : Cause) : (raiseFatal c s).phase = s.phase := rfl
@[simp] theorem raiseFatal_run (c : Cause) : (raiseFatal c s).run = s.run := rfl
@[simp] theorem raiseFatal_busy (c : Cause) : (raiseFatal c s).busy = s.busy := rfl
@[simp] theorem raiseFatal_halted (c : Cause) : (raiseFatal c s).halted = true := rfl
@[simp] theorem raiseFatal_hcause (c : Cause) : (raiseFatal c s).hcause = c := rfl
@[simp] theorem raiseFatal_stalled (c : Cause) : (raiseFatal c s).stalled = s.stalled := rfl
@[simp] theorem raiseFatal_warn (c : Cause) : (raiseFatal c s).warn = s.warn := rfl
@[simp] theorem raiseFatal_sramDirty (c : Cause) : (raiseFatal c s).sramDirty = s.sramDirty := rfl
@[simp] theorem raiseFatal_sramSaved (c : Cause) : (raiseFatal c s).sramSaved = s.sramSaved := rfl
@[simp] theorem raiseFatal_renderEnable (c : Cause) : (raiseFatal c s).renderEnable = s.renderEnable := rfl
@[simp] theorem raiseFatal_rombank (c : Cause) : (raiseFatal c s).rombank = s.rombank := rfl
@[simp] theorem raiseFatal_rambank (c : Cause) : (raiseFatal c s).rambank = s.rambank := rfl
@[simp] theorem raiseFatal_slot (c : Cause) : (raiseFatal c s).slot = s.slot := rfl
@[simp] theorem raiseFatal_ftag (c : Cause) : (raiseFatal c s).ftag = s.ftag := rfl
@[simp] theorem raiseFatal_pool (c : Cause) : (raiseFatal c s).pool = s.pool := rfl
@[simp] theorem raiseFatal_ramPages (c : Cause) : (raiseFatal c s).ramPages = s.ramPages := rfl
@[simp] theorem raiseFatal_sram (c : Cause) : (raiseFatal c s).sram = s.sram := rfl
@[simp] theorem raiseFatal_cartFileOpen (c : Cause) : (raiseFatal c s).cartFileOpen = s.cartFileOpen := rfl
@[simp] theorem raiseFatal_cartFileId (c : Cause) : (raiseFatal c s).cartFileId = s.cartFileId := rfl
@[simp] theorem raiseFatal_rtc (c : Cause) : (raiseFatal c s).rtc = s.rtc := rfl
@[simp] theorem raiseFatal_rtcTicks (c : Cause) : (raiseFatal c s).rtcTicks = s.rtcTicks := rfl
@[simp] theorem raiseFatal_frameCycles (c : Cause) : (raiseFatal c s).frameCycles = s.frameCycles := rfl
@[simp] theorem raiseFatal_totalCycles (c : Cause) : (raiseFatal c s).totalCycles = s.totalCycles := rfl
@[simp] theorem raiseFatal_ly (c : Cause) : (raiseFatal c s).ly = s.ly := rfl
@[simp] theorem raiseFatal_lineCycles (c : Cause) : (raiseFatal c s).lineCycles = s.lineCycles := rfl
@[simp] theorem raiseFatal_lcdOn (c : Cause) : (raiseFatal c s).lcdOn = s.lcdOn := rfl
@[simp] theorem raiseFatal_mreg (c : Cause) : (raiseFatal c s).mreg = s.mreg := rfl
@[simp] theorem raiseFatal_bootromDisable (c : Cause) : (raiseFatal c s).bootromDisable = s.bootromDisable := rfl
@[simp] theorem raiseFatal_wram (c : Cause) : (raiseFatal c s).wram = s.wram := rfl
@[simp] theorem raiseFatal_vram (c : Cause) : (raiseFatal c s).vram = s.vram := rfl
@[simp] theorem raiseFatal_wave (c : Cause) : (raiseFatal c s).wave = s.wave := rfl
@[simp] theorem raiseFatal_ioregs (c : Cause) : (raiseFatal c s).ioregs = s.ioregs := rfl
@[simp] theorem raiseFatal_pal (c : Cause) : (raiseFatal c s).pal = s.pal := rfl
@[simp] theorem raiseFatal_oam (c : Cause) : (raiseFatal c s).oam = s.oam := rfl
@[simp] theorem raiseFatal_hdr (c : Cause) : (raiseFatal c s).hdr = s.hdr := rfl
@[simp] theorem raiseFatal_loadedVersion (c : Cause) : (raiseFatal c s).loadedVersion = s.loadedVersion := rfl
@[simp] theorem raiseFatal_trace (c : Cause) : (raiseFatal c s).trace = s.trace := rfl
@[simp] theorem raiseFatal_files (c : Cause) : (raiseFatal c s).files = s.files := rfl
@[simp] theorem raiseFatal_cartHandle (c : Cause) : (raiseFatal c s).cartHandle = s.cartHandle := rfl
@[simp] theorem raiseFatal_opHandle (c : Cause) : (raiseFatal c s).opHandle = s.opHandle := rfl
@[simp] theorem raiseFatal_answers (c : Cause) : (raiseFatal c s).answers = s.answers := rfl
@[simp] theorem raiseFatal_choices (c : Cause) : (raiseFatal c s).choices = s.choices := rfl
@[simp] theorem raiseFatal_env (c : Cause) : (raiseFatal c s).env = s.env := rfl
@[simp] theorem raiseFatal_host (c : Cause) : (raiseFatal c s).host = s.host := rfl
@[simp] theorem raiseFatal_freeCount (c : Cause) : (raiseFatal c s).freeCount = s.freeCount := rfl

/-! ### complete -/

@[simp] theorem complete_cfg : (complete s).cfg = s.cfg := rfl
@[simp] theorem complete_cart : (complete s).cart = s.cart := rfl
@[simp] theorem complete_cw : (complete s).cw = s.cw := rfl
@[simp] theorem complete_result : (complete s).result = 0 := rfl
@[simp] theorem complete_xd : (complete s).xd = s.xd := rfl
@[simp] theorem complete_rdata : (complete s).rdata = s.rdata := rfl
@[simp] theorem complete_phase : (complete s).phase = s.phase := rfl
@[simp] theorem complete_run : (complete s).run = s.run := rfl
@[simp] theorem complete_busy : (complete s).busy = false := rfl
@[simp] theorem complete_halted : (complete s).halted = s.halted := rfl
@[simp] theorem complete_hcause : (complete s).hcause = s.hcause := rfl
@[simp] theorem complete_stalled : (complete s).stalled = s.stalled := rfl
@[simp] theorem complete_warn : (complete s).warn = s.warn := rfl
@[simp] theorem complete_sramDirty : (complete s).sramDirty = s.sramDirty := rfl
@[simp] theorem complete_sramSaved : (complete s).sramSaved = s.sramSaved := rfl
@[simp] theorem complete_renderEnable : (complete s).renderEnable = s.renderEnable := rfl
@[simp] theorem complete_rombank : (complete s).rombank = s.rombank := rfl
@[simp] theorem complete_rambank : (complete s).rambank = s.rambank := rfl
@[simp] theorem complete_slot : (complete s).slot = s.slot := rfl
@[simp] theorem complete_ftag : (complete s).ftag = s.ftag := rfl
@[simp] theorem complete_pool : (complete s).pool = s.pool := rfl
@[simp] theorem complete_ramPages : (complete s).ramPages = s.ramPages := rfl
@[simp] theorem complete_sram : (complete s).sram = s.sram := rfl
@[simp] theorem complete_cartFileOpen : (complete s).cartFileOpen = s.cartFileOpen := rfl
@[simp] theorem complete_cartFileId : (complete s).cartFileId = s.cartFileId := rfl
@[simp] theorem complete_rtc : (complete s).rtc = s.rtc := rfl
@[simp] theorem complete_rtcTicks : (complete s).rtcTicks = s.rtcTicks := rfl
@[simp] theorem complete_frameCycles : (complete s).frameCycles = s.frameCycles := rfl
@[simp] theorem complete_totalCycles : (complete s).totalCycles = s.totalCycles := rfl
@[simp] theorem complete_ly : (complete s).ly = s.ly := rfl
@[simp] theorem complete_lineCycles : (complete s).lineCycles = s.lineCycles := rfl
@[simp] theorem complete_lcdOn : (complete s).lcdOn = s.lcdOn := rfl
@[simp] theorem complete_mreg : (complete s).mreg = s.mreg := rfl
@[simp] theorem complete_bootromDisable : (complete s).bootromDisable = s.bootromDisable := rfl
@[simp] theorem complete_wram : (complete s).wram = s.wram := rfl
@[simp] theorem complete_vram : (complete s).vram = s.vram := rfl
@[simp] theorem complete_wave : (complete s).wave = s.wave := rfl
@[simp] theorem complete_ioregs : (complete s).ioregs = s.ioregs := rfl
@[simp] theorem complete_pal : (complete s).pal = s.pal := rfl
@[simp] theorem complete_oam : (complete s).oam = s.oam := rfl
@[simp] theorem complete_hdr : (complete s).hdr = s.hdr := rfl
@[simp] theorem complete_loadedVersion : (complete s).loadedVersion = s.loadedVersion := rfl
@[simp] theorem complete_trace : (complete s).trace = s.trace := rfl
@[simp] theorem complete_files : (complete s).files = s.files := rfl
@[simp] theorem complete_cartHandle : (complete s).cartHandle = s.cartHandle := rfl
@[simp] theorem complete_opHandle : (complete s).opHandle = s.opHandle := rfl
@[simp] theorem complete_answers : (complete s).answers = s.answers := rfl
@[simp] theorem complete_choices : (complete s).choices = s.choices := rfl
@[simp] theorem complete_env : (complete s).env = s.env := rfl
@[simp] theorem complete_host : (complete s).host = s.host := rfl
@[simp] theorem complete_freeCount : (complete s).freeCount = s.freeCount := rfl

/-! ### markWritten -/

@[simp] theorem markWritten_cfg (i : Nat) : (markWritten i s).cfg = s.cfg := rfl
@[simp] theorem markWritten_cart (i : Nat) : (markWritten i s).cart = s.cart := rfl
@[simp] theorem markWritten_cw (i : Nat) : (markWritten i s).cw = s.cw := rfl
@[simp] theorem markWritten_result (i : Nat) : (markWritten i s).result = s.result := rfl
@[simp] theorem markWritten_xd (i : Nat) : (markWritten i s).xd = s.xd := rfl
@[simp] theorem markWritten_rdata (i : Nat) : (markWritten i s).rdata = s.rdata := rfl
@[simp] theorem markWritten_phase (i : Nat) : (markWritten i s).phase = s.phase := rfl
@[simp] theorem markWritten_run (i : Nat) : (markWritten i s).run = s.run := rfl
@[simp] theorem markWritten_busy (i : Nat) : (markWritten i s).busy = s.busy := rfl
@[simp] theorem markWritten_halted (i : Nat) : (markWritten i s).halted = s.halted := rfl
@[simp] theorem markWritten_hcause (i : Nat) : (markWritten i s).hcause = s.hcause := rfl
@[simp] theorem markWritten_stalled (i : Nat) : (markWritten i s).stalled = s.stalled := rfl
@[simp] theorem markWritten_warn (i : Nat) : (markWritten i s).warn = s.warn := rfl
@[simp] theorem markWritten_sramDirty (i : Nat) : (markWritten i s).sramDirty = clearBit s.sramDirty i := rfl
@[simp] theorem markWritten_sramSaved (i : Nat) : (markWritten i s).sramSaved = setBit s.sramSaved i := rfl
@[simp] theorem markWritten_renderEnable (i : Nat) : (markWritten i s).renderEnable = s.renderEnable := rfl
@[simp] theorem markWritten_rombank (i : Nat) : (markWritten i s).rombank = s.rombank := rfl
@[simp] theorem markWritten_rambank (i : Nat) : (markWritten i s).rambank = s.rambank := rfl
@[simp] theorem markWritten_slot (i : Nat) : (markWritten i s).slot = s.slot := rfl
@[simp] theorem markWritten_ftag (i : Nat) : (markWritten i s).ftag = s.ftag := rfl
@[simp] theorem markWritten_pool (i : Nat) : (markWritten i s).pool = s.pool := rfl
@[simp] theorem markWritten_ramPages (i : Nat) : (markWritten i s).ramPages = s.ramPages := rfl
@[simp] theorem markWritten_sram (i : Nat) : (markWritten i s).sram = s.sram := rfl
@[simp] theorem markWritten_cartFileOpen (i : Nat) : (markWritten i s).cartFileOpen = s.cartFileOpen := rfl
@[simp] theorem markWritten_cartFileId (i : Nat) : (markWritten i s).cartFileId = s.cartFileId := rfl
@[simp] theorem markWritten_rtc (i : Nat) : (markWritten i s).rtc = s.rtc := rfl
@[simp] theorem markWritten_rtcTicks (i : Nat) : (markWritten i s).rtcTicks = s.rtcTicks := rfl
@[simp] theorem markWritten_frameCycles (i : Nat) : (markWritten i s).frameCycles = s.frameCycles := rfl
@[simp] theorem markWritten_totalCycles (i : Nat) : (markWritten i s).totalCycles = s.totalCycles := rfl
@[simp] theorem markWritten_ly (i : Nat) : (markWritten i s).ly = s.ly := rfl
@[simp] theorem markWritten_lineCycles (i : Nat) : (markWritten i s).lineCycles = s.lineCycles := rfl
@[simp] theorem markWritten_lcdOn (i : Nat) : (markWritten i s).lcdOn = s.lcdOn := rfl
@[simp] theorem markWritten_mreg (i : Nat) : (markWritten i s).mreg = s.mreg := rfl
@[simp] theorem markWritten_bootromDisable (i : Nat) : (markWritten i s).bootromDisable = s.bootromDisable := rfl
@[simp] theorem markWritten_wram (i : Nat) : (markWritten i s).wram = s.wram := rfl
@[simp] theorem markWritten_vram (i : Nat) : (markWritten i s).vram = s.vram := rfl
@[simp] theorem markWritten_wave (i : Nat) : (markWritten i s).wave = s.wave := rfl
@[simp] theorem markWritten_ioregs (i : Nat) : (markWritten i s).ioregs = s.ioregs := rfl
@[simp] theorem markWritten_pal (i : Nat) : (markWritten i s).pal = s.pal := rfl
@[simp] theorem markWritten_oam (i : Nat) : (markWritten i s).oam = s.oam := rfl
@[simp] theorem markWritten_hdr (i : Nat) : (markWritten i s).hdr = s.hdr := rfl
@[simp] theorem markWritten_loadedVersion (i : Nat) : (markWritten i s).loadedVersion = s.loadedVersion := rfl
@[simp] theorem markWritten_trace (i : Nat) : (markWritten i s).trace = s.trace := rfl
@[simp] theorem markWritten_files (i : Nat) : (markWritten i s).files = s.files := rfl
@[simp] theorem markWritten_cartHandle (i : Nat) : (markWritten i s).cartHandle = s.cartHandle := rfl
@[simp] theorem markWritten_opHandle (i : Nat) : (markWritten i s).opHandle = s.opHandle := rfl
@[simp] theorem markWritten_answers (i : Nat) : (markWritten i s).answers = s.answers := rfl
@[simp] theorem markWritten_choices (i : Nat) : (markWritten i s).choices = s.choices := rfl
@[simp] theorem markWritten_env (i : Nat) : (markWritten i s).env = s.env := rfl
@[simp] theorem markWritten_host (i : Nat) : (markWritten i s).host = s.host := rfl
@[simp] theorem markWritten_freeCount (i : Nat) : (markWritten i s).freeCount = s.freeCount := rfl

/-! ### assign -/

@[simp] theorem assign_cfg (n f : Nat) : (assign n f s).cfg = s.cfg := rfl
@[simp] theorem assign_cart (n f : Nat) : (assign n f s).cart = s.cart := rfl
@[simp] theorem assign_cw (n f : Nat) : (assign n f s).cw = s.cw := rfl
@[simp] theorem assign_result (n f : Nat) : (assign n f s).result = s.result := rfl
@[simp] theorem assign_xd (n f : Nat) : (assign n f s).xd = s.xd := rfl
@[simp] theorem assign_rdata (n f : Nat) : (assign n f s).rdata = s.rdata := rfl
@[simp] theorem assign_phase (n f : Nat) : (assign n f s).phase = s.phase := rfl
@[simp] theorem assign_run (n f : Nat) : (assign n f s).run = s.run := rfl
@[simp] theorem assign_busy (n f : Nat) : (assign n f s).busy = s.busy := rfl
@[simp] theorem assign_halted (n f : Nat) : (assign n f s).halted = s.halted := rfl
@[simp] theorem assign_hcause (n f : Nat) : (assign n f s).hcause = s.hcause := rfl
@[simp] theorem assign_stalled (n f : Nat) : (assign n f s).stalled = s.stalled := rfl
@[simp] theorem assign_warn (n f : Nat) : (assign n f s).warn = s.warn := rfl
@[simp] theorem assign_sramDirty (n f : Nat) : (assign n f s).sramDirty = s.sramDirty := rfl
@[simp] theorem assign_sramSaved (n f : Nat) : (assign n f s).sramSaved = s.sramSaved := rfl
@[simp] theorem assign_renderEnable (n f : Nat) : (assign n f s).renderEnable = s.renderEnable := rfl
@[simp] theorem assign_rombank (n f : Nat) : (assign n f s).rombank = s.rombank := rfl
@[simp] theorem assign_rambank (n f : Nat) : (assign n f s).rambank = s.rambank := rfl
@[simp] theorem assign_slot (n f : Nat) : (assign n f s).slot = Tab.set s.slot n f := rfl
@[simp] theorem assign_ftag (n f : Nat) : (assign n f s).ftag = Tab.set s.ftag f n := rfl
@[simp] theorem assign_pool (n f : Nat) : (assign n f s).pool = s.pool := rfl
@[simp] theorem assign_ramPages (n f : Nat) : (assign n f s).ramPages = s.ramPages := rfl
@[simp] theorem assign_sram (n f : Nat) : (assign n f s).sram = s.sram := rfl
@[simp] theorem assign_cartFileOpen (n f : Nat) : (assign n f s).cartFileOpen = s.cartFileOpen := rfl
@[simp] theorem assign_cartFileId (n f : Nat) : (assign n f s).cartFileId = s.cartFileId := rfl
@[simp] theorem assign_rtc (n f : Nat) : (assign n f s).rtc = s.rtc := rfl
@[simp] theorem assign_rtcTicks (n f : Nat) : (assign n f s).rtcTicks = s.rtcTicks := rfl
@[simp] theorem assign_frameCycles (n f : Nat) : (assign n f s).frameCycles = s.frameCycles := rfl
@[simp] theorem assign_totalCycles (n f : Nat) : (assign n f s).totalCycles = s.totalCycles := rfl
@[simp] theorem assign_ly (n f : Nat) : (assign n f s).ly = s.ly := rfl
@[simp] theorem assign_lineCycles (n f : Nat) : (assign n f s).lineCycles = s.lineCycles := rfl
@[simp] theorem assign_lcdOn (n f : Nat) : (assign n f s).lcdOn = s.lcdOn := rfl
@[simp] theorem assign_mreg (n f : Nat) : (assign n f s).mreg = s.mreg := rfl
@[simp] theorem assign_bootromDisable (n f : Nat) : (assign n f s).bootromDisable = s.bootromDisable := rfl
@[simp] theorem assign_wram (n f : Nat) : (assign n f s).wram = s.wram := rfl
@[simp] theorem assign_vram (n f : Nat) : (assign n f s).vram = s.vram := rfl
@[simp] theorem assign_wave (n f : Nat) : (assign n f s).wave = s.wave := rfl
@[simp] theorem assign_ioregs (n f : Nat) : (assign n f s).ioregs = s.ioregs := rfl
@[simp] theorem assign_pal (n f : Nat) : (assign n f s).pal = s.pal := rfl
@[simp] theorem assign_oam (n f : Nat) : (assign n f s).oam = s.oam := rfl
@[simp] theorem assign_hdr (n f : Nat) : (assign n f s).hdr = s.hdr := rfl
@[simp] theorem assign_loadedVersion (n f : Nat) : (assign n f s).loadedVersion = s.loadedVersion := rfl
@[simp] theorem assign_trace (n f : Nat) : (assign n f s).trace = s.trace := rfl
@[simp] theorem assign_files (n f : Nat) : (assign n f s).files = s.files := rfl
@[simp] theorem assign_cartHandle (n f : Nat) : (assign n f s).cartHandle = s.cartHandle := rfl
@[simp] theorem assign_opHandle (n f : Nat) : (assign n f s).opHandle = s.opHandle := rfl
@[simp] theorem assign_answers (n f : Nat) : (assign n f s).answers = s.answers := rfl
@[simp] theorem assign_choices (n f : Nat) : (assign n f s).choices = s.choices := rfl
@[simp] theorem assign_env (n f : Nat) : (assign n f s).env = s.env := rfl
@[simp] theorem assign_host (n f : Nat) : (assign n f s).host = s.host := rfl
@[simp] theorem assign_freeCount (n f : Nat) : (assign n f s).freeCount = s.freeCount := rfl

end Sys2Proof.Machine
end

