-- ==== Sys2Proof/Laws/Storage.lean ====
section
/-! SUPPORT. The storage port: what each primitive can change (StorageOnly), what it does when it succeeds, and that it
keeps STORAGE's files in canonical form. -/

namespace Sys2Proof.Machine

/-! ### What a primitive can change -/

/-- `t` differs from `s` at most in STORAGE's files and handles, the trace and the oracle. -/
def StorageOnly (s t : State) : Prop :=
  ∃ tr fs ch oh an fc sd,
    t = { s with
      trace := tr, files := fs, cartHandle := ch, opHandle := oh, answers := an, freeCount := fc, stalled := sd }

theorem StorageOnly.refl (s : State) : StorageOnly s s :=
  ⟨s.trace, s.files, s.cartHandle, s.opHandle, s.answers, s.freeCount, s.stalled, rfl⟩

theorem StorageOnly.trans {s t u : State} (h₁ : StorageOnly s t) (h₂ : StorageOnly t u) : StorageOnly s u := by
  obtain ⟨tr, fs, ch, oh, an, fc, sd, rfl⟩ := h₁
  obtain ⟨tr', fs', ch', oh', an', fc', sd', rfl⟩ := h₂
  exact ⟨tr', fs', ch', oh', an', fc', sd', rfl⟩

theorem emit_only (e : Event) (s : State) : StorageOnly s (emit e s) := ⟨_, _, _, _, _, _, _, rfl⟩

theorem answerTaken_only (s : State) : StorageOnly s (answerTaken s) := by
  unfold answerTaken
  split <;> exact ⟨_, _, _, _, _, _, _, rfl⟩

theorem setHandle_only (h : HandleName) (v : Option Handle) (s : State) : StorageOnly s (setHandle h v s) := by
  cases h <;> exact ⟨_, _, _, _, _, _, _, rfl⟩

theorem setFile_only (id : Half) (f : File) (s : State) : StorageOnly s (setFile id f s) := ⟨_, _, _, _, _, _, _, rfl⟩

theorem openedFiles_only (id : Half) (mode : Mode) (s : State) : StorageOnly s (openedFiles id mode s) := by
  cases mode
  · exact .refl s
  · exact setFile_only _ _ s
  · unfold openedFiles
    simp only
    split
    · exact .refl s
    · exact setFile_only _ _ s

theorem stOpen_only (h : HandleName) (id : Half) (mode : Mode) (s : State) : StorageOnly s (stOpen h id mode s).2 := by
  unfold stOpen
  split
  · exact (emit_only _ s).trans (answerTaken_only _)
  · exact (((emit_only _ s).trans (answerTaken_only _)).trans (openedFiles_only _ _ _)).trans (setHandle_only _ _ _)

theorem stSeek_only (h : HandleName) (off : Nat) (s : State) : StorageOnly s (stSeek h off s).2 := by
  unfold stSeek
  split
  · exact emit_only _ s
  · split
    · exact (emit_only _ s).trans (answerTaken_only _)
    · exact ((emit_only _ s).trans (answerTaken_only _)).trans (setHandle_only _ _ _)

theorem stRead_only (h : HandleName) (n : Nat) (s : State) : StorageOnly s (stRead h n s).2 := by
  unfold stRead
  split
  · exact emit_only _ s
  · split
    · exact (emit_only _ s).trans (answerTaken_only _)
    · exact ((emit_only _ s).trans (answerTaken_only _)).trans (setHandle_only _ _ _)

theorem stWrite_only (h : HandleName) (n : Nat) (b : Memory) (s : State) : StorageOnly s (stWrite h n b s).2 := by
  unfold stWrite
  split
  · exact emit_only _ s
  · split
    · exact (((emit_only _ s).trans (answerTaken_only _)).trans (setFile_only _ _ _)).trans
        ((setHandle_only _ _ _).trans ⟨_, _, _, _, _, _, _, rfl⟩)
    · exact (((emit_only _ s).trans (answerTaken_only _)).trans (setFile_only _ _ _)).trans (setHandle_only _ _ _)

theorem stClose_only (h : HandleName) (s : State) : StorageOnly s (stClose h s) := by
  unfold stClose
  split
  · exact (emit_only _ s).trans (answerTaken_only _)
  · exact ((emit_only _ s).trans (answerTaken_only _)).trans (setHandle_only _ _ _)

/-! ### The oracle -/

theorem nextAnswer_of_answers {s : State} {a : Answer} {rest : List Answer} (h : s.answers = a :: rest) :
    nextAnswer s = a := by simp [nextAnswer, h]

theorem nextFails_of_ok {s : State} {rest : List Answer} (h : s.answers = .ok :: rest) : nextFails s = false := by
  simp [nextFails, nextAnswer_of_answers h]

theorem nextFails_of_not_ok {s : State} {a : Answer} {rest : List Answer} (h : s.answers = a :: rest) (ha : a ≠ .ok) :
    nextFails s = true := by
  simp [nextFails, nextAnswer_of_answers h, ha]

theorem answerTaken_of_answers {s : State} {a : Answer} {rest : List Answer} (h : s.answers = a :: rest)
    (ha : a ≠ .never) : answerTaken s = { s with answers := rest } := by simp [answerTaken, h, ha]

/-- A primitive that never answers hangs the block (R210). -/
theorem answerTaken_of_never {s : State} {rest : List Answer} (h : s.answers = .never :: rest) :
    answerTaken s = { s with answers := rest, stalled := true } := by simp [answerTaken, h]

/-- One primitive that succeeds leaves the block running; one that does not may hang it. -/
theorem answerTaken_stalled {s : State} (h : nextFails s = false) : (answerTaken s).stalled = s.stalled := by
  cases ha : s.answers with
  | nil =>
    have : Config.freeAnswer s.freeCount = .ok := by simpa [nextFails, nextAnswer, ha] using h
    simp [answerTaken, ha, this]
  | cons a rest =>
    have : a = .ok := by simpa [nextFails, nextAnswer, ha] using h
    simp [answerTaken, ha, this]

theorem stalled_answerTaken {s : State} (h : s.stalled = true) : (answerTaken s).stalled = true := by
  unfold answerTaken; split <;> simp [h]

@[simp] theorem unlessStalled_of_stalled {s : State} (f : State → State) (h : s.stalled = true) :
    unlessStalled f s = s := by simp [unlessStalled, h]

@[simp] theorem unlessStalled_of_not {s : State} (f : State → State) (h : s.stalled = false) :
    unlessStalled f s = f s := by simp [unlessStalled, h]

/-- What follows a primitive that did not succeed is done, or the block hangs. -/
theorem unlessStalled_cases (f : State → State) (s : State) :
    (s.stalled = true ∧ unlessStalled f s = s) ∨ (s.stalled = false ∧ unlessStalled f s = f s) := by
  cases h : s.stalled with
  | false => exact .inr ⟨rfl, unlessStalled_of_not f h⟩
  | true => exact .inl ⟨rfl, unlessStalled_of_stalled f h⟩

/-- A close that returns closes the handle, whatever else the oracle says; the file table stays. -/
theorem stClose_returns {s : State} {a : Answer} {rest : List Answer} (h : HandleName) (ha : s.answers = a :: rest)
    (hn : a ≠ .never) :
    stClose h s = setHandle h none { s with trace := s.trace ++ [.stClose h], answers := rest } := by
  have he : (emit (.stClose h) s).answers = a :: rest := ha
  unfold stClose
  rw [if_neg (by rw [nextAnswer_of_answers ha]; exact hn), answerTaken_of_answers he hn]
  rfl

/-- A close that never answers hangs the block, the handle as it was (R210). -/
theorem stClose_hangs {s : State} {rest : List Answer} (h : HandleName) (ha : s.answers = .never :: rest) :
    stClose h s = { s with trace := s.trace ++ [.stClose h], answers := rest, stalled := true } := by
  have he : (emit (.stClose h) s).answers = .never :: rest := ha
  unfold stClose
  rw [if_pos (nextAnswer_of_answers ha), answerTaken_of_never he]
  rfl

/-- What a close does, for every oracle: it closes the handle and leaves `stalled`, or it hangs and keeps the handle. -/
theorem stClose_cases (h : HandleName) (s : State) :
    ∃ fc,
      (nextAnswer s = .never ∧
        stClose h s = { s with
          trace := s.trace ++ [.stClose h], answers := s.answers.tail, freeCount := fc, stalled := true }) ∨
      (nextAnswer s ≠ .never ∧
        stClose h s = setHandle h none { s with
          trace := s.trace ++ [.stClose h], answers := s.answers.tail, freeCount := fc }) := by
  cases ha : s.answers with
  | cons a rest =>
    refine ⟨s.freeCount, ?_⟩
    rw [nextAnswer_of_answers ha]
    by_cases hn : a = .never
    · subst hn; exact .inl ⟨rfl, stClose_hangs h ha⟩
    · exact .inr ⟨hn, stClose_returns h ha hn⟩
  | nil =>
    refine ⟨s.freeCount + 1, ?_⟩
    have hx : nextAnswer s = Config.freeAnswer s.freeCount := by simp [nextAnswer, ha]
    rw [hx]
    by_cases hn : Config.freeAnswer s.freeCount = .never
    · exact .inl ⟨hn, by simp [stClose, hx, hn, answerTaken, emit, ha]⟩
    · exact .inr ⟨hn, by simp [stClose, hx, hn, answerTaken, emit, ha]⟩

/-- What follows a close is done, or the block hangs. -/
theorem closeThen_returns {s : State} {a : Answer} {rest : List Answer} (h : HandleName) (f : State → State)
    (hs : s.stalled = false) (ha : s.answers = a :: rest) (hn : a ≠ .never) :
    closeThen h f s = f (setHandle h none { s with trace := s.trace ++ [.stClose h], answers := rest }) := by
  unfold closeThen
  rw [stClose_returns h ha hn, unlessStalled_of_not]
  cases h <;> exact hs

theorem closeThen_hangs {s : State} {rest : List Answer} (h : HandleName) (f : State → State)
    (ha : s.answers = .never :: rest) :
    closeThen h f s = { s with trace := s.trace ++ [.stClose h], answers := rest, stalled := true } := by
  unfold closeThen
  rw [stClose_hangs h ha, unlessStalled_of_stalled]
  rfl

/-- All that a close and what follows it can do, for every oracle. -/
theorem closeThen_cases {s : State} (h : HandleName) (f : State → State) (hs : s.stalled = false) :
    ∃ fc,
      (nextAnswer s = .never ∧
        closeThen h f s = { s with
          trace := s.trace ++ [.stClose h], answers := s.answers.tail, freeCount := fc, stalled := true }) ∨
      (nextAnswer s ≠ .never ∧
        closeThen h f s = f (setHandle h none { s with
          trace := s.trace ++ [.stClose h], answers := s.answers.tail, freeCount := fc })) := by
  unfold closeThen
  obtain ⟨fc, ⟨hn, e⟩ | ⟨hn, e⟩⟩ := stClose_cases h s <;> rw [e]
  · exact ⟨fc, .inl ⟨hn, unlessStalled_of_stalled _ rfl⟩⟩
  · exact ⟨fc, .inr ⟨hn, unlessStalled_of_not _ (by cases h <;> exact hs)⟩⟩

/-- With `k + 1` answers that do not fail, the next one is `ok` and `k` are left. -/
theorem storageOk_succ {s : State} {k : Nat} (h : s.storageOk (k + 1)) :
    ∃ rest, s.answers = .ok :: rest ∧ rest.take k = List.replicate k .ok := by
  unfold State.storageOk at h
  cases ha : s.answers with
  | nil => rw [ha] at h; simp [List.replicate] at h
  | cons b rest =>
    rw [ha, List.take_succ_cons, List.replicate_succ] at h
    injection h with h1 h2
    exact ⟨rest, by rw [h1], h2⟩

theorem storageOk_mono {s : State} {k j : Nat} (h : s.storageOk k) (hj : j ≤ k) : s.storageOk j := by
  unfold State.storageOk at *
  have := congrArg (List.take j) h
  rwa [List.take_take, Nat.min_eq_left hj, List.take_replicate, Nat.min_eq_left hj] at this

/-! ### A primitive that succeeds -/

theorem stOpen_ok {s : State} {rest : List Answer} (h : HandleName) (id : Half) (mode : Mode)
    (ha : s.answers = .ok :: rest) (hm : missing id mode s = false) :
    stOpen h id mode s = (true, setHandle h (some ⟨id, mode, 0⟩)
      (openedFiles id mode { emit (.stOpen h id mode) s with answers := rest })) := by
  unfold stOpen
  rw [if_neg (by rw [hm, nextFails_of_ok ha]; decide), answerTaken_of_answers (s := emit _ s) ha (by decide)]

theorem stOpen_missing {s : State} (h : HandleName) (id : Half) (mode : Mode) (hm : missing id mode s = true) :
    stOpen h id mode s = (false, answerTaken (emit (.stOpen h id mode) s)) := by
  unfold stOpen
  rw [if_pos (by rw [hm]; rfl)]

theorem stOpen_fails {s : State} {rest : List Answer} (h : HandleName) (id : Half) (mode : Mode)
    (ha : s.answers = .fail :: rest) :
    stOpen h id mode s = (false, { emit (.stOpen h id mode) s with answers := rest }) := by
  unfold stOpen
  rw [if_pos (by rw [nextFails_of_not_ok ha (by decide), Bool.or_true]),
    answerTaken_of_answers (s := emit _ s) ha (by decide)]

theorem stSeek_ok {s : State} {rest : List Answer} {h : HandleName} {hd : Handle} (off : Nat)
    (hh : getHandle h s = some hd) (ha : s.answers = .ok :: rest) :
    stSeek h off s =
      (true, setHandle h (some { hd with pos := off }) { emit (.stSeek h off) s with answers := rest }) := by
  unfold stSeek
  simp only [hh]
  rw [if_neg (by rw [nextFails_of_ok ha]; decide), answerTaken_of_answers (s := emit _ s) ha (by decide)]

theorem stSeek_fails {s : State} {rest : List Answer} {h : HandleName} {hd : Handle} (off : Nat)
    (hh : getHandle h s = some hd) (ha : s.answers = .fail :: rest) :
    stSeek h off s = (false, { emit (.stSeek h off) s with answers := rest }) := by
  unfold stSeek
  simp only [hh]
  rw [if_pos (nextFails_of_not_ok ha (by decide)), answerTaken_of_answers (s := emit _ s) ha (by decide)]

theorem stRead_ok {s : State} {rest : List Answer} {h : HandleName} {hd : Handle} (n : Nat)
    (hh : getHandle h s = some hd) (ha : s.answers = .ok :: rest) :
    stRead h n s =
      (readAt (fileOf hd s) hd.pos n,
       setHandle h (some { hd with pos := hd.pos + (readAt (fileOf hd s) hd.pos n).moved n })
         { emit (.stRead h n) s with answers := rest }) := by
  unfold stRead
  simp only [hh]
  rw [if_neg (by rw [nextFails_of_ok ha]; decide), answerTaken_of_answers (s := emit _ s) ha (by decide)]

theorem stRead_fails {s : State} {rest : List Answer} {h : HandleName} {hd : Handle} (n : Nat)
    (hh : getHandle h s = some hd) (ha : s.answers = .fail :: rest) :
    stRead h n s = (.fail, { emit (.stRead h n) s with answers := rest }) := by
  unfold stRead
  simp only [hh]
  rw [if_pos (nextFails_of_not_ok ha (by decide)), answerTaken_of_answers (s := emit _ s) ha (by decide)]

theorem stWrite_ok {s : State} {rest : List Answer} {h : HandleName} {hd : Handle} (n : Nat) (b : Memory)
    (hh : getHandle h s = some hd) (ha : s.answers = .ok :: rest) :
    stWrite h n b s =
      (true, setHandle h (some { hd with pos := hd.pos + n })
        (setFile hd.id ((fileOf hd s).written hd.pos n b) { emit (.stWrite h n b) s with answers := rest })) := by
  unfold stWrite
  simp only [hh]
  rw [if_neg (by rw [nextFails_of_ok ha]; decide), answerTaken_of_answers (s := emit _ s) ha (by decide)]

/-! ### Handles -/

@[simp] theorem getHandle_setHandle (h : HandleName) (v : Option Handle) (s : State) :
    getHandle h (setHandle h v s) = v := by cases h <;> rfl

@[simp] theorem answerTaken_cartHandle (s : State) : (answerTaken s).cartHandle = s.cartHandle := by
  unfold answerTaken; split <;> rfl

@[simp] theorem answerTaken_opHandle (s : State) : (answerTaken s).opHandle = s.opHandle := by
  unfold answerTaken; split <;> rfl

@[simp] theorem answerTaken_files (s : State) : (answerTaken s).files = s.files := by
  unfold answerTaken; split <;> rfl

/-- Seeking and reading keep whether each handle is open, and on which file. -/
theorem stSeek_handles (h : HandleName) (off : Nat) (s : State) :
    ((stSeek h off s).2.cartHandle.map (·.id) = s.cartHandle.map (·.id)) ∧
    ((stSeek h off s).2.opHandle.map (·.id) = s.opHandle.map (·.id)) := by
  unfold stSeek
  split
  · exact ⟨rfl, rfl⟩
  · rename_i hd hh
    split
    · simp
    · cases h <;> simp_all [setHandle, getHandle]

theorem stRead_handles (h : HandleName) (n : Nat) (s : State) :
    ((stRead h n s).2.cartHandle.map (·.id) = s.cartHandle.map (·.id)) ∧
    ((stRead h n s).2.opHandle.map (·.id) = s.opHandle.map (·.id)) := by
  unfold stRead
  split
  · exact ⟨rfl, rfl⟩
  · rename_i hd hh
    split
    · simp
    · cases h <;> simp_all [setHandle, getHandle]

/-- The primitives on the operation's handle leave the cartridge's handle alone. -/
theorem stOpen_op_cartHandle (id : Half) (mode : Mode) (s : State) :
    (stOpen .op id mode s).2.cartHandle = s.cartHandle := by
  unfold stOpen
  split
  · simp
  · cases mode
    · simp [setHandle, openedFiles]
    · simp [setHandle, openedFiles, setFile]
    · simp only [setHandle, openedFiles]
      split <;> simp [setFile]

theorem stSeek_op_cartHandle (off : Nat) (s : State) : (stSeek .op off s).2.cartHandle = s.cartHandle := by
  unfold stSeek
  split
  · rfl
  · split <;> simp [setHandle]

theorem stRead_op_cartHandle (n : Nat) (s : State) : (stRead .op n s).2.cartHandle = s.cartHandle := by
  unfold stRead
  split
  · rfl
  · split <;> simp [setHandle]

theorem stWrite_op_cartHandle (n : Nat) (b : Memory) (s : State) :
    (stWrite .op n b s).2.cartHandle = s.cartHandle := by
  unfold stWrite
  split
  · rfl
  · split <;> simp [setHandle, setFile]

/-- Seeking and reading change no file. -/
@[simp] theorem stSeek_files (h : HandleName) (off : Nat) (s : State) : (stSeek h off s).2.files = s.files := by
  unfold stSeek
  split
  · rfl
  · split
    · simp
    · cases h <;> simp [setHandle]

@[simp] theorem stRead_files (h : HandleName) (n : Nat) (s : State) : (stRead h n s).2.files = s.files := by
  unfold stRead
  split
  · rfl
  · split
    · simp
    · cases h <;> simp [setHandle]

@[simp] theorem stClose_files (h : HandleName) (s : State) : (stClose h s).files = s.files := by
  unfold stClose
  split
  · simp
  · cases h <;> simp [setHandle]

@[simp] theorem fileKey_eq_of_cfg {s t : State} (h : t.cfg = s.cfg) (id : Half) : fileKey t id = fileKey s id := by
  simp [fileKey, h]

/-! ### Files stay canonical -/

/-- STORAGE's files are in canonical form. -/
def FilesOk (s : State) : Prop := Tab.wf s.files ∧ ∀ e ∈ s.files, File.wf e.2

theorem FilesOk.of_files {s t : State} (h : FilesOk s) (e : t.files = s.files) : FilesOk t := by
  unfold FilesOk; rw [e]; exact h

theorem File.wf_empty : File.wf ⟨0, []⟩ := by decide

theorem FilesOk.fileOf {s : State} (h : FilesOk s) (hd : Handle) : File.wf (fileOf hd s) := by
  unfold Machine.fileOf
  cases hg : Tab.get? s.files (fileKey s hd.id) with
  | none => exact File.wf_empty
  | some f => exact h.2 _ (Tab.mem_of_get? hg)

theorem FilesOk.setFile {s : State} (h : FilesOk s) (id : Half) {f : File} (hf : File.wf f) :
    FilesOk (setFile id f s) := by
  refine ⟨Tab.wf_set h.1 _ _, fun e he => ?_⟩
  rcases Tab.mem_set he with rfl | he
  · exact hf
  · exact h.2 e he

theorem File.written_wf {f : File} {b : Memory} (hf : File.wf f) (hb : b.wf) (pos n : Nat) :
    File.wf (f.written pos n b) := by
  refine ⟨Memory.wf_splice hf.1 hb pos n, fun c hc => ?_⟩
  have := Memory.mem_splice_lt (b := max f.len (pos + n)) (fun c hc => by have := hf.2 c hc; omega) (by omega) c hc
  exact this

theorem File.torn_wf {f : File} (hf : File.wf f) (pos n stamp : Nat) : File.wf (f.torn pos n stamp) :=
  ⟨Memory.wf_below (Memory.wf_splice hf.1 (wf_freeBytes _ _) _ _) _, fun _ hc => (Memory.mem_below.1 hc).2⟩

theorem FilesOk.stOpen {s : State} (h : FilesOk s) (hn : HandleName) (id : Half) (mode : Mode) :
    FilesOk (stOpen hn id mode s).2 := by
  have h0 : FilesOk (answerTaken (emit (.stOpen hn id mode) s)) := h.of_files (by simp)
  unfold Machine.stOpen
  split
  · exact h0
  · have h1 : FilesOk (openedFiles id mode (answerTaken (emit (.stOpen hn id mode) s))) := by
      cases mode
      · exact h0
      · exact h0.setFile _ File.wf_empty
      · simp only [openedFiles]
        split
        · exact h0
        · exact h0.setFile _ File.wf_empty
    cases hn <;> exact h1

theorem FilesOk.stWrite {s : State} (h : FilesOk s) (hn : HandleName) (n : Nat) {b : Memory} (hb : b.wf) :
    FilesOk (stWrite hn n b s).2 := by
  have h0 : FilesOk (answerTaken (emit (.stWrite hn n b) s)) := h.of_files (by simp)
  unfold Machine.stWrite
  split
  · exact h
  · rename_i hd _
    split
    · cases hn <;> exact h0.setFile _ (File.torn_wf (h.fileOf hd) _ _ _)
    · cases hn <;> exact h0.setFile _ (File.written_wf (h.fileOf hd) hb _ _)

/-- A buffer read from a canonical file is canonical. -/
theorem readAt_full_wf {f : File} (hf : File.wf f) {pos n : Nat} {b : Memory} (h : readAt f pos n = .full b) :
    b.wf := by
  unfold readAt at h
  split at h
  · injection h with h; rw [← h]; exact Memory.wf_slice hf.1 _ _
  · exact absurd h (by simp)

theorem readAt_eof_wf {f : File} (hf : File.wf f) {pos n k : Nat} {b : Memory} (h : readAt f pos n = .eof k b) :
    b.wf := by
  unfold readAt at h
  split at h
  · exact absurd h (by simp)
  · injection h with _ h; rw [← h]; exact Memory.wf_slice hf.1 _ _

/-- What a read can answer: it failed, or it is the file's bytes at the handle's position. -/
theorem stRead_answer (h : HandleName) (n : Nat) (s : State) :
    (stRead h n s).1 = .fail ∨
      ∃ hd, getHandle h s = some hd ∧ (stRead h n s).1 = readAt (fileOf hd s) hd.pos n := by
  unfold stRead
  split
  · left; rfl
  · rename_i hd hh
    split
    · left; rfl
    · right; exact ⟨hd, hh, rfl⟩

theorem stRead_full_wf {s : State} (hf : FilesOk s) {h : HandleName} {n : Nat} {b : Memory}
    (hr : (stRead h n s).1 = .full b) : b.wf := by
  rcases stRead_answer h n s with e | ⟨hd, -, e⟩
  · rw [e] at hr; exact absurd hr (by simp)
  · rw [e] at hr; exact readAt_full_wf (hf.fileOf hd) hr

theorem stRead_eof_wf {s : State} (hf : FilesOk s) {h : HandleName} {n k : Nat} {b : Memory}
    (hr : (stRead h n s).1 = .eof k b) : b.wf := by
  rcases stRead_answer h n s with e | ⟨hd, -, e⟩
  · rw [e] at hr; exact absurd hr (by simp)
  · rw [e] at hr; exact readAt_eof_wf (hf.fileOf hd) hr

/-- A byte of a file read at a position, or zero beyond the file's end. -/
theorem readAt_byte {f : File} (hf : File.wf f) (pos n : Nat) :
    (∃ b, readAt f pos n = .full b ∧ pos + n ≤ f.len ∧ ∀ i, i < n → b.read i = f.data.read (pos + i)) ∨
    (∃ b, readAt f pos n = .eof (f.len - pos) b ∧ f.len < pos + n ∧ ∀ i, i < n → b.read i = f.data.read (pos + i)) := by
  unfold readAt
  split
  · rename_i h
    left
    refine ⟨_, rfl, h, fun i hi => by simp [hi]⟩
  · rename_i h
    right
    refine ⟨_, rfl, by omega, fun i hi => ?_⟩
    rw [Memory.read_slice]
    split
    · rfl
    · exact (Memory.read_eq_zero_of_lt hf.2 (by omega)).symm

end Sys2Proof.Machine
end

