-- ==== Sys2Proof/Laws/Bank.lean ====
section
/-! SUPPORT. The bank manager: what LOAD_BANK and PRELOAD's body can change (BankOnly), the tag-array invariant, and
that a fill leaves the file's bytes in the frame. -/

namespace Sys2Proof.Machine

/-! ### What the bank manager can change -/

/-- `t` differs from `s` at most in the tag array, the pool, a halt or a hang, the cartridge handle's position, the
trace and the oracles. -/
def BankOnly (s t : State) : Prop :=
  ∃ sl ft po ha hc tr ch an co fc sd,
    t = { s with slot := sl, ftag := ft, pool := po, halted := ha, hcause := hc, trace := tr, cartHandle := ch,
                 answers := an, choices := co, freeCount := fc, stalled := sd }

theorem BankOnly.refl (s : State) : BankOnly s s :=
  ⟨s.slot, s.ftag, s.pool, s.halted, s.hcause, s.trace, s.cartHandle, s.answers, s.choices, s.freeCount,
    s.stalled, rfl⟩

theorem BankOnly.trans {s t u : State} (h₁ : BankOnly s t) (h₂ : BankOnly t u) : BankOnly s u := by
  obtain ⟨sl, ft, po, ha, hc, tr, ch, an, co, fc, sd, rfl⟩ := h₁
  obtain ⟨sl', ft', po', ha', hc', tr', ch', an', co', fc', sd', rfl⟩ := h₂
  exact ⟨sl', ft', po', ha', hc', tr', ch', an', co', fc', sd', rfl⟩

theorem BankOnly.cfg {s t : State} (h : BankOnly s t) : t.cfg = s.cfg := by
  obtain ⟨_, _, _, _, _, _, _, _, _, _, _, rfl⟩ := h; rfl

theorem BankOnly.cart {s t : State} (h : BankOnly s t) : t.cart = s.cart := by
  obtain ⟨_, _, _, _, _, _, _, _, _, _, _, rfl⟩ := h; rfl

theorem BankOnly.files {s t : State} (h : BankOnly s t) : t.files = s.files := by
  obtain ⟨_, _, _, _, _, _, _, _, _, _, _, rfl⟩ := h; rfl

theorem BankOnly.cartFileId {s t : State} (h : BankOnly s t) : t.cartFileId = s.cartFileId := by
  obtain ⟨_, _, _, _, _, _, _, _, _, _, _, rfl⟩ := h; rfl

theorem answerTaken_bank (s : State) : BankOnly s (answerTaken s) := by
  unfold answerTaken
  split <;> exact ⟨_, _, _, _, _, _, _, _, _, _, _, rfl⟩

theorem emit_bank (e : Event) (s : State) : BankOnly s (emit e s) := ⟨_, _, _, _, _, _, _, _, _, _, _, rfl⟩

theorem stSeek_bank (off : Nat) (s : State) : BankOnly s (stSeek .cart off s).2 := by
  unfold stSeek
  split
  · exact emit_bank _ s
  · split
    · exact (emit_bank _ s).trans (answerTaken_bank _)
    · exact ((emit_bank _ s).trans (answerTaken_bank _)).trans ⟨_, _, _, _, _, _, _, _, _, _, _, rfl⟩

theorem stRead_bank (n : Nat) (s : State) : BankOnly s (stRead .cart n s).2 := by
  unfold stRead
  split
  · exact emit_bank _ s
  · split
    · exact (emit_bank _ s).trans (answerTaken_bank _)
    · exact ((emit_bank _ s).trans (answerTaken_bank _)).trans ⟨_, _, _, _, _, _, _, _, _, _, _, rfl⟩

theorem chooseFrom_bank (d : Nat) (xs : List Nat) (s : State) : BankOnly s (chooseFrom d xs s).2 := by
  unfold chooseFrom
  split <;> exact ⟨_, _, _, _, _, _, _, _, _, _, _, rfl⟩

theorem fillFailed_bank (f : Nat) (s : State) : BankOnly s (fillFailed f s) := by
  rcases unlessStalled_cases (fun t => raiseFatal .storage (spoilFrame f t)) s with ⟨-, e⟩ | ⟨-, e⟩
  · rw [fillFailed, e]; exact .refl s
  · rw [fillFailed, e]; exact ⟨_, _, _, _, _, _, _, _, _, _, _, rfl⟩

theorem fillRead_bank (f : Nat) (r : ReadAnswer × State) : BankOnly r.2 (fillRead f r) := by
  obtain ⟨a, s⟩ := r
  cases a
  · exact ⟨_, _, _, _, _, _, _, _, _, _, _, rfl⟩
  · exact ⟨_, _, _, _, _, _, _, _, _, _, _, rfl⟩
  · exact fillFailed_bank f s

theorem fillSought_bank (f : Nat) (r : Bool × State) : BankOnly r.2 (fillSought f r) := by
  obtain ⟨b, s⟩ := r
  cases b
  · exact fillFailed_bank f s
  · exact (stRead_bank romPage s).trans (fillRead_bank f (stRead .cart romPage s))

theorem clearFrame_bank (f : Nat) (s : State) : BankOnly s (clearFrame f s) := ⟨_, _, _, _, _, _, _, _, _, _, _, rfl⟩

theorem assign_bank (n f : Nat) (s : State) : BankOnly s (assign n f s) := ⟨_, _, _, _, _, _, _, _, _, _, _, rfl⟩

theorem vacate_bank (d : Nat) (s : State) : BankOnly s (vacate d s) := ⟨_, _, _, _, _, _, _, _, _, _, _, rfl⟩

theorem raiseFatal_bank (c : Cause) (s : State) : BankOnly s (raiseFatal c s) := ⟨_, _, _, _, _, _, _, _, _, _, _, rfl⟩

theorem fill_bank (n f : Nat) (s : State) : BankOnly s (fill n f s) :=
  ((clearFrame_bank f s).trans (stSeek_bank _ _)).trans (fillSought_bank f _)

theorem loadFresh_bank (n : Nat) (s : State) : BankOnly s (loadFresh n s) :=
  ((chooseFrom_bank _ _ s).trans (assign_bank _ _ _)).trans (fill_bank _ _ _)

theorem transplant_bank (n d : Nat) (s : State) : BankOnly s (transplant n d s) := by
  unfold transplant
  split
  · exact ((vacate_bank d s).trans (assign_bank _ _ _)).trans (fill_bank _ _ _)
  · exact raiseFatal_bank _ s

theorem loadEvicting_bank (n : Nat) (s : State) : BankOnly s (loadEvicting n s) :=
  (chooseFrom_bank _ _ s).trans (transplant_bank _ _ _)

/-- All that LOAD_BANK can change (R102 to R107). -/
theorem loadBank_bank (n : Nat) (s : State) : BankOnly s (loadBank n s) := by
  unfold loadBank
  split_ifs
  · exact .refl s
  · exact loadFresh_bank n s
  · exact loadEvicting_bank n s
  · exact raiseFatal_bank _ s

/-- All that PRELOAD_BODY can change (R111). -/
theorem preloadFrom_bank (n k : Nat) (s : State) : BankOnly s (preloadFrom n k s) := by
  induction k generalizing n s with
  | zero => exact .refl s
  | succ k ih =>
    unfold preloadFrom
    split
    · exact .refl s
    · exact (loadBank_bank n s).trans (ih _ _)

/-! ### Whether a handle is open, through LOAD_BANK -/

theorem fillFailed_cartHandle (f : Nat) (s : State) :
    (fillFailed f s).cartHandle = s.cartHandle := by
  unfold fillFailed unlessStalled; split <;> rfl

theorem loadBank_handle (n : Nat) (s : State) :
    (loadBank n s).cartHandle.map (·.id) = s.cartHandle.map (·.id) := by
  have hfill : ∀ (n f : Nat) (s : State),
      (fill n f s).cartHandle.map (·.id) = s.cartHandle.map (·.id) := by
    intro n f s
    have h1 := (stSeek_handles .cart (romOffset n) (clearFrame f s)).1
    unfold fill
    rw [show s.cartHandle = (clearFrame f s).cartHandle from rfl, ← h1]
    generalize stSeek .cart (romOffset n) (clearFrame f s) = r
    obtain ⟨b, u⟩ := r
    cases b
    · exact congrArg _ (fillFailed_cartHandle f u)
    · have h2 := (stRead_handles .cart romPage u).1
      show (fillRead f (stRead .cart romPage u)).cartHandle.map (·.id) = u.cartHandle.map (·.id)
      rw [← h2]
      generalize stRead .cart romPage u = q
      obtain ⟨a, v⟩ := q
      cases a
      · rfl
      · rfl
      · exact congrArg _ (fillFailed_cartHandle f v)
  have hch : ∀ (d : Nat) (xs : List Nat) (s : State), (chooseFrom d xs s).2.cartHandle = s.cartHandle := by
    intro d xs s; unfold chooseFrom; split <;> rfl
  unfold loadBank
  split_ifs
  · rfl
  · unfold loadFresh; rw [hfill]; simp only [assign_cartHandle]; rw [hch]
  · unfold loadEvicting transplant
    split
    · rw [hfill]; simp only [assign_cartHandle]; rw [← hch 0 (residents s) s]; rfl
    · rw [raiseFatal_cartHandle, hch]
  · rfl

theorem preloadFrom_handle (n k : Nat) (s : State) :
    (preloadFrom n k s).cartHandle.map (·.id) = s.cartHandle.map (·.id) := by
  induction k generalizing n s with
  | zero => rfl
  | succ k ih =>
    unfold preloadFrom
    split
    · rfl
    · rw [ih, loadBank_handle]

/-! ### Canonical form -/

/-- The tag array's tables and the pool are in canonical form. -/
def PoolOk (s : State) : Prop := Memory.wf s.pool ∧ Tab.wf s.slot ∧ Tab.wf s.ftag

theorem PoolOk.of_eq {s t : State} (h : PoolOk s) (e1 : t.pool = s.pool) (e2 : t.slot = s.slot)
    (e3 : t.ftag = s.ftag) : PoolOk t := by
  unfold PoolOk; rw [e1, e2, e3]; exact h

theorem stSeek_pool (h : HandleName) (off : Nat) (s : State) :
    (stSeek h off s).2.pool = s.pool ∧ (stSeek h off s).2.slot = s.slot ∧ (stSeek h off s).2.ftag = s.ftag := by
  have := stSeek_only h off s
  generalize (stSeek h off s).2 = t at this
  obtain ⟨_, _, _, _, _, _, _, rfl⟩ := this
  exact ⟨rfl, rfl, rfl⟩

theorem stRead_pool (h : HandleName) (n : Nat) (s : State) :
    (stRead h n s).2.pool = s.pool ∧ (stRead h n s).2.slot = s.slot ∧ (stRead h n s).2.ftag = s.ftag := by
  have := stRead_only h n s
  generalize (stRead h n s).2 = t at this
  obtain ⟨_, _, _, _, _, _, _, rfl⟩ := this
  exact ⟨rfl, rfl, rfl⟩

theorem chooseFrom_pool (d : Nat) (xs : List Nat) (s : State) :
    (chooseFrom d xs s).2.pool = s.pool ∧ (chooseFrom d xs s).2.slot = s.slot ∧
      (chooseFrom d xs s).2.ftag = s.ftag := by
  unfold chooseFrom
  split <;> exact ⟨rfl, rfl, rfl⟩

theorem spoilFrame_poolOk {s : State} (h : PoolOk s) (f : Nat) : PoolOk (spoilFrame f s) :=
  ⟨Memory.wf_splice h.1 (wf_freeBytes _ _) _ _, h.2⟩

theorem fillFailed_poolOk {s : State} (h : PoolOk s) (f : Nat) : PoolOk (fillFailed f s) := by
  rcases unlessStalled_cases (fun t => raiseFatal .storage (spoilFrame f t)) s with ⟨-, e⟩ | ⟨-, e⟩
  · rw [fillFailed, e]; exact h
  · rw [fillFailed, e]; exact spoilFrame_poolOk h f

theorem fill_poolOk {s : State} (hf : FilesOk s) (h : PoolOk s) (n f : Nat) :
    PoolOk (fill n f s) := by
  have h0 : PoolOk (clearFrame f s) := ⟨Memory.wf_clear h.1 _ _, h.2⟩
  have f0 : FilesOk (clearFrame f s) := hf
  have h1 : PoolOk (stSeek .cart (romOffset n) (clearFrame f s)).2 :=
    h0.of_eq (stSeek_pool _ _ _).1 (stSeek_pool _ _ _).2.1 (stSeek_pool _ _ _).2.2
  have f1 : FilesOk (stSeek .cart (romOffset n) (clearFrame f s)).2 := f0.of_files (stSeek_files _ _ _)
  unfold fill
  generalize stSeek .cart (romOffset n) (clearFrame f s) = r at h1 f1
  obtain ⟨b, u⟩ := r
  cases b
  · exact fillFailed_poolOk h1 f
  · have h2 : PoolOk (stRead .cart romPage u).2 :=
      h1.of_eq (stRead_pool _ _ _).1 (stRead_pool _ _ _).2.1 (stRead_pool _ _ _).2.2
    have w1 := fun b => stRead_full_wf f1 (h := .cart) (n := romPage) (b := b)
    have w2 := fun k b => stRead_eof_wf f1 (h := .cart) (n := romPage) (k := k) (b := b)
    show PoolOk (fillRead f (stRead .cart romPage u))
    generalize stRead .cart romPage u = q at h2 w1 w2
    obtain ⟨a, v⟩ := q
    cases a with
    | full b => exact ⟨Memory.wf_splice h2.1 (w1 b rfl) _ _, h2.2⟩
    | eof k b => exact ⟨Memory.wf_splice h2.1 (w2 k b rfl) _ _, h2.2⟩
    | fail => exact fillFailed_poolOk h2 f

theorem assign_poolOk {s : State} (h : PoolOk s) (n f : Nat) : PoolOk (assign n f s) :=
  ⟨h.1, Tab.wf_set h.2.1 _ _, Tab.wf_set h.2.2 _ _⟩

theorem vacate_poolOk {s : State} (h : PoolOk s) (d : Nat) : PoolOk (vacate d s) := ⟨h.1, Tab.wf_erase h.2.1 _, h.2.2⟩

theorem chooseFrom_poolOk {s : State} (h : PoolOk s) (d : Nat) (xs : List Nat) : PoolOk (chooseFrom d xs s).2 :=
  h.of_eq (chooseFrom_pool d xs s).1 (chooseFrom_pool d xs s).2.1 (chooseFrom_pool d xs s).2.2

theorem chooseFrom_filesOk {s : State} (h : FilesOk s) (d : Nat) (xs : List Nat) : FilesOk (chooseFrom d xs s).2 :=
  h.of_files (chooseFrom_bank d xs s).files

theorem transplant_poolOk {s : State} (hf : FilesOk s) (h : PoolOk s) (n d : Nat) : PoolOk (transplant n d s) := by
  unfold transplant
  split
  · rename_i f _
    have hf' : FilesOk (assign n f (vacate d s)) := hf
    exact fill_poolOk hf' (assign_poolOk (vacate_poolOk h d) n f) n f
  · exact h

/-- LOAD_BANK keeps the canonical form. -/
theorem loadBank_poolOk {s : State} (hf : FilesOk s) (h : PoolOk s) (n : Nat) : PoolOk (loadBank n s) := by
  unfold loadBank
  split_ifs
  · exact h
  · have hc := chooseFrom_poolOk h 0 (freeFrames s)
    have fc := chooseFrom_filesOk hf 0 (freeFrames s)
    have fa : FilesOk (assign n (chooseFrom 0 (freeFrames s) s).1 (chooseFrom 0 (freeFrames s) s).2) := fc
    exact fill_poolOk fa (assign_poolOk hc n _) n _
  · exact transplant_poolOk (chooseFrom_filesOk hf _ _) (chooseFrom_poolOk h _ _) n _
  · exact h

theorem preloadFrom_poolOk {s : State} (hf : FilesOk s) (h : PoolOk s) (n k : Nat) : PoolOk (preloadFrom n k s) := by
  induction k generalizing n s with
  | zero => exact h
  | succ k ih =>
    unfold preloadFrom
    split
    · exact h
    · exact ih (hf.of_files (loadBank_bank n s).files) (loadBank_poolOk hf h n) _

/-! ### Choices -/

theorem chooseFrom_mem {d : Nat} {xs : List Nat} {s : State} (h : xs ≠ []) : (chooseFrom d xs s).1 ∈ xs := by
  have hl : 0 < xs.length := List.length_pos_of_ne_nil h
  have key : ∀ c, xs.getD (c % xs.length) d ∈ xs := by
    intro c
    have hc : c % xs.length < xs.length := Nat.mod_lt _ hl
    rw [List.getD_eq_getElem?_getD, List.getElem?_eq_getElem hc]
    exact List.getElem_mem hc
  unfold chooseFrom
  split <;> exact key _

theorem mem_freeFrames {s : State} {f : Nat} : f ∈ freeFrames s ↔ f < s.cfg.poolSize ∧ ftagOf s f = none := by
  simp [freeFrames]

theorem mem_residents {s : State} {n : Nat} : n ∈ residents s ↔ (slotOf s n).isSome = true := by
  unfold residents slotOf
  constructor
  · intro h
    obtain ⟨⟨k, v⟩, hk, rfl⟩ := List.mem_map.1 h
    exact Tab.get?_isSome_of_mem hk
  · intro h
    obtain ⟨v, hv⟩ := Option.isSome_iff_exists.1 h
    exact List.mem_map.2 ⟨(n, v), Tab.mem_of_get? hv, rfl⟩

/-! ### The tag-array invariant -/

theorem TagsAgree.of_eq {s t : State} (h : TagsAgree s) (e2 : t.slot = s.slot) (e3 : t.ftag = s.ftag) (e4 : t.cart = s.cart)
    (e5 : t.cfg = s.cfg) : TagsAgree t := by
  constructor
  · intro n f; simp only [slotOf, ftagOf, e2, e3]; exact h.iff n f
  · intro n f hn; rw [e4, e5]; exact h.bound n f (by simpa only [slotOf, e2] using hn)

@[simp] theorem slotOf_assign (n f m : Nat) (s : State) :
    slotOf (assign n f s) m = if m = n then some f else slotOf s m := by simp [slotOf]

@[simp] theorem ftagOf_assign (n f g : Nat) (s : State) :
    ftagOf (assign n f s) g = if g = f then some n else ftagOf s g := by simp [ftagOf]

@[simp] theorem slotOf_vacate (d m : Nat) (s : State) :
    slotOf (vacate d s) m = if m = d then none else slotOf s m := by simp [slotOf, vacate]

@[simp] theorem ftagOf_vacate (d g : Nat) (s : State) : ftagOf (vacate d s) g = ftagOf s g := rfl

/-- Making an absent bank resident in a free frame keeps the invariant (R103). -/
theorem TagsAgree.assign_free {s : State} (h : TagsAgree s) {n f : Nat} (hn : slotOf s n = none) (hf : ftagOf s f = none)
    (hr : n < s.cart.romsize) (hp : f < s.cfg.poolSize) : TagsAgree (assign n f s) := by
  constructor
  · intro m g
    rw [slotOf_assign, ftagOf_assign]
    by_cases hm : m = n <;> by_cases hg : g = f
    · simp [hm, hg]
    · subst hm
      have : ftagOf s g ≠ some m := fun e => by rw [(h.iff m g).2 e] at hn; simp at hn
      have hfg : ¬ f = g := fun e => hg e.symm
      simp [hg, hfg, this]
    · subst hg
      have : slotOf s m ≠ some g := fun e => by rw [(h.iff m g).1 e] at hf; simp at hf
      have hnm : ¬ n = m := fun e => hm e.symm
      simp [hm, hnm, this]
    · simp only [hm, hg, if_false]; exact h.iff m g
  · intro m g hm
    rw [slotOf_assign] at hm
    split at hm
    · rename_i e
      have : f = g := by simpa using hm
      subst e; subst this; exact ⟨hr, hp⟩
    · exact h.bound m g hm

/-- Taking a donor's frame for an absent bank keeps the invariant (R104). -/
theorem TagsAgree.assign_donor {s : State} (h : TagsAgree s) {n d f : Nat} (hn : slotOf s n = none)
    (hd : slotOf s d = some f) (hr : n < s.cart.romsize) : TagsAgree (assign n f (vacate d s)) := by
  have hdn : d ≠ n := fun e => by rw [e, hn] at hd; simp at hd
  constructor
  · intro m g
    rw [slotOf_assign, ftagOf_assign, slotOf_vacate, ftagOf_vacate]
    by_cases hm : m = n <;> by_cases hg : g = f
    · simp [hm, hg]
    · subst hm
      have : ftagOf s g ≠ some m := fun e => by rw [(h.iff m g).2 e] at hn; simp at hn
      have hfg : ¬ f = g := fun e => hg e.symm
      simp [hg, hfg, this]
    · subst hg
      have hnm : ¬ n = m := fun e => hm e.symm
      by_cases hmd : m = d
      · subst hmd; simp [hm, hnm]
      · have : slotOf s m ≠ some g := fun e => by
          have e1 := (h.iff m g).1 e
          have e2 := (h.iff d g).1 hd
          rw [e1] at e2; simp at e2; exact hmd e2
        simp [hm, hnm, hmd, this]
    · by_cases hmd : m = d
      · subst hmd
        have : ftagOf s g ≠ some m := fun e => by
          rw [← h.iff, hd] at e
          exact hg (Option.some.inj e).symm
        simp [hm, hg, this]
      · simp only [hm, hg, hmd, if_false]; exact h.iff m g
  · intro m g hm
    rw [slotOf_assign, slotOf_vacate] at hm
    have hfp : f < s.cfg.poolSize := (h.bound d f hd).2
    split at hm
    · rename_i e
      have : f = g := by simpa using hm
      subst e; subst this; exact ⟨hr, hfp⟩
    · split at hm
      · simp at hm
      · exact h.bound m g hm

theorem fillFailed_tags (f : Nat) (s : State) :
    (fillFailed f s).slot = s.slot ∧ (fillFailed f s).ftag = s.ftag := by
  unfold fillFailed unlessStalled; split <;> exact ⟨rfl, rfl⟩

/-- A fill leaves the tag array as it is, also where it fails (R184). -/
theorem fill_tags (n f : Nat) (s : State) : (fill n f s).slot = s.slot ∧ (fill n f s).ftag = s.ftag := by
  have h1 := stSeek_pool .cart (romOffset n) (clearFrame f s)
  unfold fill
  generalize stSeek .cart (romOffset n) (clearFrame f s) = r at h1
  obtain ⟨b, u⟩ := r
  cases b
  · have ht := fillFailed_tags f u
    exact ⟨ht.1.trans h1.2.1, ht.2.trans h1.2.2⟩
  · have h2 := stRead_pool .cart romPage u
    show (fillRead f (stRead .cart romPage u)).slot = s.slot ∧ (fillRead f (stRead .cart romPage u)).ftag = s.ftag
    generalize stRead .cart romPage u = q at h2
    obtain ⟨a, v⟩ := q
    cases a
    · exact ⟨h2.2.1.trans h1.2.1, h2.2.2.trans h1.2.2⟩
    · exact ⟨h2.2.1.trans h1.2.1, h2.2.2.trans h1.2.2⟩
    · have ht := fillFailed_tags f v
      exact ⟨ht.1.trans (h2.2.1.trans h1.2.1), ht.2.trans (h2.2.2.trans h1.2.2)⟩

/-- Every LOAD_BANK keeps the invariant (R20), also one that halts or hangs. -/
theorem loadBank_tags {s : State} (h : TagsAgree s) {n : Nat} (hr : n < s.cart.romsize) : TagsAgree (loadBank n s) := by
  unfold loadBank
  split_ifs with h1 h2 h3
  · exact h
  · have hn : slotOf s n = none := by simpa using h1
    have hm := mem_freeFrames.1 (chooseFrom_mem (d := 0) (s := s) h2)
    have hc := chooseFrom_pool 0 (freeFrames s) s
    have hb := chooseFrom_bank 0 (freeFrames s) s
    have hT : TagsAgree (chooseFrom 0 (freeFrames s) s).2 := h.of_eq hc.2.1 hc.2.2 hb.cart hb.cfg
    unfold loadFresh
    have ht := fill_tags n (chooseFrom 0 (freeFrames s) s).1
      (assign n (chooseFrom 0 (freeFrames s) s).1 (chooseFrom 0 (freeFrames s) s).2)
    have hF := fill_bank n (chooseFrom 0 (freeFrames s) s).1
      (assign n (chooseFrom 0 (freeFrames s) s).1 (chooseFrom 0 (freeFrames s) s).2)
    refine (hT.assign_free (n := n) (f := (chooseFrom 0 (freeFrames s) s).1) ?_ ?_ ?_ ?_).of_eq ht.1 ht.2 hF.cart hF.cfg
    · simpa [slotOf, hc.2.1] using hn
    · simpa [ftagOf, hc.2.2] using hm.2
    · rw [hb.cart]; exact hr
    · rw [hb.cfg]; exact hm.1
  · have hn : slotOf s n = none := by simpa using h1
    have hc := chooseFrom_pool 0 (residents s) s
    have hb := chooseFrom_bank 0 (residents s) s
    have hT : TagsAgree (chooseFrom 0 (residents s) s).2 := h.of_eq hc.2.1 hc.2.2 hb.cart hb.cfg
    unfold loadEvicting transplant
    split
    · rename_i f hf
      have ht := fill_tags n f (assign n f (vacate (chooseFrom 0 (residents s) s).1 (chooseFrom 0 (residents s) s).2))
      have hF := fill_bank n f (assign n f (vacate (chooseFrom 0 (residents s) s).1 (chooseFrom 0 (residents s) s).2))
      refine (hT.assign_donor (n := n) (f := f) ?_ hf ?_).of_eq ht.1 ht.2 hF.cart hF.cfg
      · simpa [slotOf, hc.2.1] using hn
      · rw [hb.cart]; exact hr
    · exact hT.of_eq rfl rfl rfl rfl
  · exact h.of_eq rfl rfl rfl rfl

/-- Every PRELOAD_BODY keeps the invariant (R20). -/
theorem preloadFrom_tags {s : State} (h : TagsAgree s) {n k : Nat} (hr : n + k ≤ s.cart.romsize) :
    TagsAgree (preloadFrom n k s) := by
  induction k generalizing n s with
  | zero => exact h
  | succ k ih =>
    unfold preloadFrom
    split
    · exact h
    · exact ih (loadBank_tags h (by omega)) (by rw [(loadBank_bank n s).cart]; omega)

theorem fillFailed_halted (f : Nat) {s : State} (h : s.halted = true) :
    (fillFailed f s).halted = true := by
  unfold fillFailed unlessStalled; split
  · exact h
  · rfl

theorem fillSought_halted (f : Nat) {r : Bool × State} (h : r.2.halted = true) :
    (fillSought f r).halted = true := by
  obtain ⟨b, u⟩ := r
  cases b
  · exact fillFailed_halted f h
  · have := stRead_only .cart romPage u
    show (fillRead f (stRead .cart romPage u)).halted = true
    generalize stRead .cart romPage u = q at this
    obtain ⟨a, v⟩ := q
    obtain ⟨_, _, _, _, _, _, _, rfl⟩ := this
    cases a
    · exact h
    · exact h
    · exact fillFailed_halted f h

theorem fill_halted (n f : Nat) {s : State} (h : s.halted = true) : (fill n f s).halted = true := by
  apply fillSought_halted
  obtain ⟨_, _, _, _, _, _, _, e⟩ := stSeek_only .cart (romOffset n) (clearFrame f s)
  rw [e]
  exact h

theorem chooseFrom_halted (d : Nat) (xs : List Nat) (s : State) : (chooseFrom d xs s).2.halted = s.halted := by
  unfold chooseFrom
  split <;> rfl

/-- LOAD_BANK on a halted block leaves it halted. -/
theorem loadBank_halted {s : State} (n : Nat) (h : s.halted = true) : (loadBank n s).halted = true := by
  unfold loadBank
  split_ifs
  · exact h
  · exact fill_halted (s := assign _ _ _) _ _ ((chooseFrom_halted _ _ _).trans h)
  · unfold loadEvicting transplant
    split
    · exact fill_halted (s := assign _ _ (vacate _ _)) _ _ ((chooseFrom_halted _ _ _).trans h)
    · rfl
  · rfl

/-- PRELOAD_BODY on a halted block leaves it halted. -/
theorem preloadFrom_halted {s : State} (n k : Nat) (h : s.halted = true) : (preloadFrom n k s).halted = true := by
  cases k <;> simp [preloadFrom, stopped, h]

end Sys2Proof.Machine
end

