-- ==== Sys2Proof/Laws/Ops.lean ====
section
/-! SUPPORT. What the acceptance of a command and of a bus request gives, and when an operation answers a next state. -/

namespace Sys2Proof.Machine

@[simp] theorem stopped_eq_false {s : State} : stopped s = false ↔ s.halted = false ∧ s.stalled = false := by
  simp [stopped]

@[simp] theorem stopped_eq_true {s : State} : stopped s = true ↔ s.halted = true ∨ s.stalled = true := by
  simp [stopped]

theorem acceptCommand_ready {s : State} (h : s.ready) (op : State → State) :
    acceptCommand op s = .next (op { s with busy := true }) := by
  simp [acceptCommand, stopped, h.1, h.2.1, h.2.2]

theorem acceptBus_inQuantum {s : State} (h : s.inQuantum) (op : State → State) :
    acceptBus op s = .next (op { s with rdata := none }) := by
  obtain ⟨h1, h2, h3⟩ := h
  cases hr : s.run with
  | none => simp [hr] at h3
  | some q => simp [acceptBus, stopped, h1, h2, hr]

/-- A command answers a next state only on an idle block, and then that of its operation (R62, R189, R210). -/
theorem acceptCommand_next {s t : State} {op : State → State} (h : acceptCommand op s = .next t) :
    s.ready ∧ t = op { s with busy := true } := by
  unfold acceptCommand at h
  split at h
  · simp at h
  · rename_i hb
    simp only [Bool.or_eq_true, not_or, Bool.not_eq_true, stopped_eq_false] at hb
    exact ⟨hb, by simpa using h.symm⟩

/-- A bus request answers a next state only inside a quantum, and then that of its operation (R63, R173, R210). -/
theorem acceptBus_next {s t : State} {op : State → State} (h : acceptBus op s = .next t) :
    s.inQuantum ∧ t = op { s with rdata := none } := by
  unfold acceptBus at h
  split at h
  · simp at h
  · rename_i hb
    simp only [Bool.or_eq_true, not_or, Bool.not_eq_true, stopped_eq_false] at hb
    refine ⟨⟨hb.1.1, hb.1.2, ?_⟩, by simpa using h.symm⟩
    cases hr : s.run with
    | none => rw [hr] at hb; simp at hb
    | some q => rfl

/-- A state is determined by its fields. -/
theorem ready_busy {s : State} (h : s.ready) : { s with busy := false } = s := by
  have := h.1
  cases s; simp_all

theorem completeUnlessStopped_of_not {s : State} (h : stopped s = false) : completeUnlessStopped s = complete s := by
  simp [completeUnlessStopped, h]

theorem completeUnlessStopped_of_stopped {s : State} (h : stopped s = true) : completeUnlessStopped s = s := by
  simp [completeUnlessStopped, h]

end Sys2Proof.Machine
end

