-- ==== Sys2Proof/Laws/Bus.lean ====
section
/-! SUPPORT. The bus: what each window selects (R114), and a request inside a quantum. -/

namespace Sys2Proof.Machine

/-- A ROM window selects bank 0 or the bank the selector names. -/
theorem windowOf_rom {s : State} {addr : Half} {n : Nat}
    (h : addr.toNat < 0x4000 ∧ n = 0 ∨ 0x4000 ≤ addr.toNat ∧ addr.toNat < 0x8000 ∧ n = s.rombank.toNat) :
    windowOf s addr = .rom n (addr.toNat % 16384) := by
  unfold windowOf window
  rcases h with ⟨h, rfl⟩ | ⟨h, h', rfl⟩
  · rw [if_pos (by omega), show (2 : Nat) ^ 14 = 16384 from rfl]
  · rw [if_neg (by omega), if_pos (by omega), show (2 : Nat) ^ 14 = 16384 from rfl]

/-- The RAM window selects the bank the selector names. -/
theorem windowOf_ram {s : State} {addr : Half} (h : 0xA000 ≤ addr.toNat) (h' : addr.toNat < 0xC000) :
    windowOf s addr = .ram s.rambank.toNat (addr.toNat - 0xA000) := by
  have e : addr.toNat % 2 ^ 13 = addr.toNat - 0xA000 := by omega
  unfold windowOf window
  rw [if_neg (by omega), if_neg (by omega), if_pos (by omega), e]

/-- Any other address selects nothing. -/
theorem windowOf_outside {s : State} {addr : Half}
    (h : 0x8000 ≤ addr.toNat ∧ addr.toNat < 0xA000 ∨ 0xC000 ≤ addr.toNat) : windowOf s addr = .outside := by
  have := addr.isLt
  unfold windowOf window
  rw [if_neg (by omega), if_neg (by omega), if_neg (by omega)]

theorem exec_rd {s : State} (hs : s.inQuantum) (addr : Half) :
    exec (.rd addr) s = .next (rdOp addr { s with rdata := none }) := acceptBus_inQuantum hs _

theorem exec_wr {s : State} (hs : s.inQuantum) (addr : Half) (d : Byte) :
    exec (.wr addr d) s = .next (wrOp addr d { s with rdata := none }) := acceptBus_inQuantum hs _

end Sys2Proof.Machine
end

