-- ==== Sys2Proof/Laws/Clock.lean ====
section
/-! SUPPORT. The clock cascade: the five ways one second can end, and that RTC_ADVANCE and the accounting write the clock
and the counters only. -/

namespace Sys2Proof.Machine

/-- One second, by the first field that does not overflow (R133). -/
theorem nextSecond_cases (r : Rtc) :
    ((r.sec + 1).toNat < 60 ∧ nextSecond r = { r with sec := r.sec + 1 }) ∨
    (60 ≤ (r.sec + 1).toNat ∧ (r.min + 1).toNat < 60 ∧ nextSecond r = { r with sec := 0, min := r.min + 1 }) ∨
    (60 ≤ (r.sec + 1).toNat ∧ 60 ≤ (r.min + 1).toNat ∧ (r.hour + 1).toNat < 24 ∧
      nextSecond r = { r with sec := 0, min := 0, hour := r.hour + 1 }) ∨
    (60 ≤ (r.sec + 1).toNat ∧ 60 ≤ (r.min + 1).toNat ∧ 24 ≤ (r.hour + 1).toNat ∧ r.day.toNat < 365 ∧
      nextSecond r = { r with sec := 0, min := 0, hour := 0, day := r.day + 1 }) ∨
    (60 ≤ (r.sec + 1).toNat ∧ 60 ≤ (r.min + 1).toNat ∧ 24 ≤ (r.hour + 1).toNat ∧ 365 ≤ r.day.toNat ∧
      nextSecond r = { r with sec := 0, min := 0, hour := 0, day := 0, flags := r.flags ||| 0x80 }) := by
  unfold nextSecond nextMinute nextHour nextDay setCarry
  by_cases h1 : 60 ≤ (r.sec + 1).toNat
  · rw [if_pos h1]
    by_cases h2 : 60 ≤ (r.min + 1).toNat
    · rw [if_pos h2]
      by_cases h3 : 24 ≤ (r.hour + 1).toNat
      · rw [if_pos h3]
        by_cases h4 : 365 ≤ r.day.toNat
        · rw [if_pos h4]; exact .inr (.inr (.inr (.inr ⟨h1, h2, h3, h4, rfl⟩)))
        · rw [if_neg h4]; exact .inr (.inr (.inr (.inl ⟨h1, h2, h3, by omega, rfl⟩)))
      · rw [if_neg h3]; exact .inr (.inr (.inl ⟨h1, h2, by omega, rfl⟩))
    · rw [if_neg h2]; exact .inr (.inl ⟨h1, by omega, rfl⟩)
  · rw [if_neg h1]; exact .inl ⟨by omega, rfl⟩

/-- RTC_ADVANCE writes the clock record only. -/
theorem rtcAdvance_eq (old n : Nat) (s : State) : rtcAdvance old n s = { s with rtc := (rtcAdvance old n s).rtc } := by
  unfold rtcAdvance; split <;> rfl

/-- RTC_ADVANCE depends on the clock, the clock flag and the rate only. -/
theorem rtcAdvance_rtc {old n : Nat} {s t : State} (h1 : t.rtc = s.rtc) (h2 : t.cart = s.cart) (h3 : t.cfg = s.cfg) :
    (rtcAdvance old n t).rtc = (rtcAdvance old n s).rtc := by
  unfold rtcAdvance; rw [h1, h2, h3]; split
  · rfl
  · exact h1

/-- What a quantum request does (R163, R164), in one record update. -/
theorem requestQuantum_eq (n : Nat) (k : QKind) (s : State) :
    requestQuantum n k s =
      { s with
        run := some ⟨n, k⟩, trace := s.trace ++ [.run n k], frameCycles := s.frameCycles + BitVec.ofNat 32 n,
        totalCycles := s.totalCycles + BitVec.ofNat 64 n, rtcTicks := s.rtcTicks + BitVec.ofNat 64 n,
        rtc := (rtcAdvance s.rtcTicks.toNat n s).rtc } := by
  unfold requestQuantum account
  rw [rtcAdvance_eq, rtcAdvance_rtc (s := s) (t := { emit (.run n k) { s with run := some ⟨n, k⟩ } with
    frameCycles := _, totalCycles := _, rtcTicks := _ }) rfl rfl rfl]
  rfl

end Sys2Proof.Machine
end

