-- ==== Sys2Proof/Laws/Decode.lean ====
section
/-! SUPPORT. The fields of the words: what each field of a built word is, and that a word is built from its fields. -/

namespace Sys2Proof

theorem toNat_cmdWord {opc flg arg : Nat} (ho : opc < 256) (hf : flg < 256) (ha : arg < 65536) :
    (cmdWord opc flg arg).toNat = opc * 2 ^ 24 + flg * 2 ^ 16 + arg := by
  simp only [cmdWord, BitVec.toNat_ofNat]; omega

theorem toNat_busWord {kind addr data : Nat} (hk : kind < 8) (ha : addr < 65536) (hd : data < 256) :
    (busWord kind addr data).toNat = kind * 2 ^ 24 + addr * 2 ^ 8 + data := by
  simp only [busWord, BitVec.toNat_ofNat]; omega

theorem cmdOpc_cmdWord {opc flg arg : Nat} (ho : opc < 256) (hf : flg < 256) (ha : arg < 65536) :
    cmdOpc (cmdWord opc flg arg) = opc := by
  simp only [cmdOpc, bitSlice, toNat_cmdWord ho hf ha]; omega

theorem cmdFlg_cmdWord {opc flg arg : Nat} (ho : opc < 256) (hf : flg < 256) (ha : arg < 65536) :
    cmdFlg (cmdWord opc flg arg) = flg := by
  simp only [cmdFlg, bitSlice, toNat_cmdWord ho hf ha]; omega

theorem cmdArg_cmdWord {opc flg arg : Nat} (ho : opc < 256) (hf : flg < 256) (ha : arg < 65536) :
    cmdArg (cmdWord opc flg arg) = arg := by
  simp only [cmdArg, bitSlice, toNat_cmdWord ho hf ha]; omega

theorem busZero_busWord {kind addr data : Nat} (hk : kind < 8) (ha : addr < 65536) (hd : data < 256) :
    busZero (busWord kind addr data) = 0 := by
  simp only [busZero, bitSlice, toNat_busWord hk ha hd]; omega

theorem busKind_busWord {kind addr data : Nat} (hk : kind < 8) (ha : addr < 65536) (hd : data < 256) :
    busKind (busWord kind addr data) = kind := by
  simp only [busKind, bitSlice, toNat_busWord hk ha hd]; omega

theorem busAddr_busWord {kind addr data : Nat} (hk : kind < 8) (ha : addr < 65536) (hd : data < 256) :
    busAddr (busWord kind addr data) = addr := by
  simp only [busAddr, bitSlice, toNat_busWord hk ha hd]; omega

theorem busData_busWord {kind addr data : Nat} (hk : kind < 8) (ha : addr < 65536) (hd : data < 256) :
    busData (busWord kind addr data) = data := by
  simp only [busData, bitSlice, toNat_busWord hk ha hd]; omega

theorem cmdOpc_lt (w : Word) : cmdOpc w < 256 := by simp only [cmdOpc, bitSlice]; omega
theorem cmdFlg_lt (w : Word) : cmdFlg w < 256 := by simp only [cmdFlg, bitSlice]; omega
theorem cmdArg_lt (w : Word) : cmdArg w < 65536 := by simp only [cmdArg, bitSlice]; omega
theorem busKind_lt (w : Word) : busKind w < 8 := by simp only [busKind, bitSlice]; omega
theorem busAddr_lt (w : Word) : busAddr w < 65536 := by simp only [busAddr, bitSlice]; omega
theorem busData_lt (w : Word) : busData w < 256 := by simp only [busData, bitSlice]; omega

/-- A command word is built from its three fields (R60). -/
theorem cmdWord_fields (w : Word) : cmdWord (cmdOpc w) (cmdFlg w) (cmdArg w) = w := by
  have := w.isLt
  apply BitVec.eq_of_toNat_eq
  rw [toNat_cmdWord (cmdOpc_lt w) (cmdFlg_lt w) (cmdArg_lt w)]
  simp only [cmdOpc, cmdFlg, cmdArg, bitSlice]; omega

/-- A bus word whose zero field is 0 is built from its three fields (R63). -/
theorem busWord_fields {w : Word} (h : busZero w = 0) : busWord (busKind w) (busAddr w) (busData w) = w := by
  have := w.isLt
  apply BitVec.eq_of_toNat_eq
  rw [toNat_busWord (busKind_lt w) (busAddr_lt w) (busData_lt w)]
  simp only [busZero, busKind, busAddr, busData, bitSlice] at *; omega

end Sys2Proof
end

