-- ==== Sys2Proof/Laws/Fill.lean ====
section
/-! SUPPORT. What LOAD_BANK does when storage does not fail: a fill leaves the bank's bytes of the file in the frame, and
a miss takes a free frame or a donor's (R103 to R106). -/

namespace Sys2Proof.Machine

/-- The trace entries of a fill (R105). -/
def fillTrace (n : Nat) : List Event := [.stSeek .cart (n * 16384), .stRead .cart 16384]

/-- `p` is the pool of `s` with frame `f` holding bank `n` of the file the handle `hd` is open on. -/
def FilledPool (s : State) (hd : Handle) (n f : Nat) (p : Memory) : Prop :=
  ∀ a, p.read a = if f * 16384 ≤ a ∧ a < f * 16384 + 16384
    then (fileNamed s hd.id).data.read (n * 16384 + (a - f * 16384)) else s.pool.read a

/-- A fill whose seek and read do not fail (R105, R106). -/
theorem fill_ok {s : State} {hd : Handle} {rest : List Answer} (n f : Nat)
    (hh : s.cartHandle = some hd) (ha : s.answers = .ok :: .ok :: rest) (hf : FilesOk s) :
    ∃ p k, fill n f s =
        { s with pool := p, trace := s.trace ++ fillTrace n, answers := rest, cartHandle := some ⟨hd.id, hd.mode, k⟩ } ∧
      FilledPool s hd n f p := by
  have e1 : stSeek .cart (romOffset n) (clearFrame f s) =
      (true, { clearFrame f s with
        trace := s.trace ++ [.stSeek .cart (n * 16384)], answers := .ok :: rest,
        cartHandle := some ⟨hd.id, hd.mode, n * 16384⟩ }) :=
    stSeek_ok (s := clearFrame f s) (romOffset n) hh ha
  unfold fill
  rw [e1]
  unfold fillSought
  dsimp only
  generalize hu : ({ clearFrame f s with
        trace := s.trace ++ [.stSeek .cart (n * 16384)], answers := .ok :: rest,
        cartHandle := some ⟨hd.id, hd.mode, n * 16384⟩ } : State) = u
  have hc : getHandle .cart u = some ⟨hd.id, hd.mode, n * 16384⟩ := by rw [← hu]; rfl
  have hau : u.answers = .ok :: rest := by rw [← hu]
  have hfile : fileOf ⟨hd.id, hd.mode, n * 16384⟩ u = fileNamed s hd.id := by rw [← hu]; rfl
  have hfw : File.wf (fileNamed s hd.id) := hf.fileOf hd
  rw [stRead_ok 16384 hc hau, hfile]
  have key : ∀ b : Memory, (∀ i, i < 16384 → b.read i = (fileNamed s hd.id).data.read (n * 16384 + i)) →
      FilledPool s hd n f ((clearFrame f s).pool.splice (frameOffset f) romPage b) := by
    intro b hb a
    rw [Memory.read_splice]
    unfold frameOffset romPage
    split
    · rename_i h; exact hb _ (by omega)
    · rename_i h
      show Memory.read (s.pool.clear (frameOffset f) romPage) a = _
      rw [Memory.read_clear]
      unfold frameOffset romPage
      rw [if_neg h]
  have htr : s.trace ++ fillTrace n = s.trace ++ [.stSeek .cart (n * 16384)] ++ [.stRead .cart 16384] := by
    simp [fillTrace]
  rcases readAt_byte hfw (n * 16384) 16384 with ⟨b, hr, -, hb⟩ | ⟨b, hr, -, hb⟩
  · rw [hr]
    refine ⟨_, n * 16384 + 16384, ?_, key b hb⟩
    rw [← hu, htr]
    rfl
  · rw [hr]
    refine ⟨_, n * 16384 + ((fileNamed s hd.id).len - n * 16384), ?_, key b hb⟩
    rw [← hu, htr]
    rfl

/-- The oracle after one choice. -/
theorem chooseFrom_eq (d : Nat) (xs : List Nat) (s : State) :
    ∃ co fc, (chooseFrom d xs s).2 = { s with choices := co, freeCount := fc } := by
  unfold chooseFrom; split
  · exact ⟨_, s.freeCount, rfl⟩
  · exact ⟨s.choices, _, rfl⟩

/-- LOAD_BANK of an absent bank whose fill does not fail: some frame `f` takes the bank, a free one with no donor, or a
resident donor's (R103, R104). -/
theorem loadBank_miss {s : State} {hd : Handle} {rest : List Answer} {n : Nat} (hh : s.cartHandle = some hd)
    (ha : s.answers = .ok :: .ok :: rest) (hf : FilesOk s) (hn : slotOf s n = none)
    (hx : freeFrames s ≠ [] ∨ residents s ≠ []) :
    ∃ f p k co fc sl, loadBank n s =
        { s with
          slot := Tab.set sl n f, ftag := Tab.set s.ftag f n, pool := p, trace := s.trace ++ fillTrace n,
          answers := rest, cartHandle := some ⟨hd.id, hd.mode, k⟩, choices := co, freeCount := fc } ∧
      FilledPool s hd n f p ∧
      ((f ∈ freeFrames s ∧ sl = s.slot) ∨
        (freeFrames s = [] ∧ ∃ d, d = (chooseFrom 0 (residents s) s).1 ∧ slotOf s d = some f ∧
          sl = Tab.erase s.slot d)) := by
  unfold loadBank
  rw [if_neg (by simp [hn])]
  by_cases h1 : freeFrames s ≠ []
  · rw [if_pos h1]
    unfold loadFresh
    obtain ⟨co, fc, hc⟩ := chooseFrom_eq 0 (freeFrames s) s
    have hm := chooseFrom_mem (d := 0) (s := s) h1
    generalize (chooseFrom 0 (freeFrames s) s).1 = f at hm ⊢
    rw [hc]
    obtain ⟨p, k, hp, hq⟩ := fill_ok (s := assign n f { s with choices := co, freeCount := fc }) n f hh ha hf
    exact ⟨f, p, k, co, fc, s.slot, hp, hq, .inl ⟨hm, rfl⟩⟩
  · rw [if_neg h1]
    have h2 : residents s ≠ [] := hx.resolve_left h1
    rw [if_pos h2]
    unfold loadEvicting transplant
    obtain ⟨co, fc, hc⟩ := chooseFrom_eq 0 (residents s) s
    have hm := mem_residents.1 (chooseFrom_mem (d := 0) (s := s) h2)
    obtain ⟨f, hfd⟩ := Option.isSome_iff_exists.1 hm
    generalize hd0 : (chooseFrom 0 (residents s) s).1 = d at hm hfd ⊢
    rw [hc]
    have hfd' : slotOf { s with choices := co, freeCount := fc } d = some f := hfd
    rw [hfd']
    obtain ⟨p, k, hp, hq⟩ :=
      fill_ok (s := assign n f (vacate d { s with choices := co, freeCount := fc })) n f hh ha hf
    exact ⟨f, p, k, co, fc, Tab.erase s.slot d, hp, hq, .inr ⟨by simpa using h1, d, rfl, hfd, rfl⟩⟩

/-- With the tag array in agreement and a pool that is not empty, a miss always has a frame or a donor. -/
theorem frame_or_donor {s : State} (ht : TagsAgree s) (hp : 1 ≤ s.cfg.poolSize) : freeFrames s ≠ [] ∨ residents s ≠ [] := by
  cases h : ftagOf s 0 with
  | none =>
    left
    exact List.ne_nil_of_mem (mem_freeFrames.2 ⟨by omega, h⟩)
  | some n =>
    right
    exact List.ne_nil_of_mem (mem_residents.2 (by rw [(ht.iff n 0).2 h]; rfl))

/-- A filled frame reads as its bank of the file; every other frame as before. -/
theorem FilledPool.frame {s t : State} {hd : Handle} {n f : Nat} (h : FilledPool s hd n f t.pool) (g off : Nat)
    (ho : off < 16384) :
    readFrame t g off = if g = f then (fileNamed s hd.id).data.read (n * 16384 + off) else readFrame s g off := by
  unfold readFrame frameOffset romPage
  rw [h]
  by_cases hg : g = f
  · subst hg
    rw [if_pos (by omega), if_pos rfl, show g * 16384 + off - g * 16384 = off by omega]
  · rw [if_neg (by omega), if_neg hg]

/-- Tagging one frame takes at most one off the free frames. -/
theorem freeFrames_assign {s t : State} {f n : Nat} (hc : t.cfg = s.cfg) (ht : t.ftag = Tab.set s.ftag f n) :
    (freeFrames s).length ≤ (freeFrames t).length + 1 := by
  have e : freeFrames t = (freeFrames s).filter (fun g => decide (g ≠ f)) := by
    unfold freeFrames ftagOf
    rw [hc, ht, List.filter_filter]
    apply List.filter_congr
    intro g _
    rw [Tab.get?_set]
    by_cases hg : g = f <;> simp [hg]
  have hnd : (freeFrames s).Nodup := List.Nodup.filter _ List.nodup_range
  rw [e]
  have h1 : (freeFrames s).filter (fun g => decide (g ≠ f)) = (freeFrames s).erase f := by
    rw [hnd.erase_eq_filter]
    apply List.filter_congr
    intro g _
    by_cases hg : g = f <;> simp [hg]
  rw [h1, List.length_erase]
  split <;> omega

/-- LOAD_BANK without a storage failure, hit or miss: the bank is resident, the invariants and the coherence of the
frames are kept, at most two primitives are issued, and nothing but the tag array, the pool, the handle's position and
the oracles changes. -/
theorem loadBank_ok {s : State} {n : Nat} (hr : n < s.cart.romsize) (hf : FilesOk s) (ht : TagsAgree s)
    (hc : FramesCoherent s) (hh : CartHandleOpen s) (hp : 1 ≤ s.cfg.poolSize) {rest : List Answer}
    (ha : s.answers = .ok :: .ok :: rest) :
    ∃ sl ft p es an h co fc,
      loadBank n s =
        { s with
          slot := sl, ftag := ft, pool := p, trace := s.trace ++ es, answers := an, cartHandle := some h,
          choices := co, freeCount := fc } ∧
      (es = [] ∧ an = s.answers ∧ sl = s.slot ∧ ft = s.ftag ∧ p = s.pool ∧ (slotOf s n).isSome = true ∨
        es = fillTrace n ∧ an = rest ∧ slotOf s n = none) ∧
      TagsAgree (loadBank n s) ∧ FramesCoherent (loadBank n s) ∧ CartHandleOpen (loadBank n s) ∧
      (slotOf (loadBank n s) n).isSome = true ∧
      (freeFrames s ≠ [] → ∀ m, (slotOf s m).isSome = true → slotOf (loadBank n s) m = slotOf s m) ∧
      (∀ m, m ≠ n → slotOf s m = none → slotOf (loadBank n s) m = none) ∧
      (freeFrames s).length ≤ (freeFrames (loadBank n s)).length + 1 := by
  obtain ⟨hd, hhd, hid⟩ := Option.map_eq_some_iff.1 hh
  cases hn : slotOf s n with
  | some f =>
    have e : loadBank n s = s := by unfold loadBank; rw [if_pos (by simp [hn])]
    rw [e]
    refine ⟨s.slot, s.ftag, s.pool, [], s.answers, hd, s.choices, s.freeCount, ?_, .inl ⟨rfl, rfl, rfl, rfl, rfl, rfl⟩,
      ht, hc, hh, by simp [hn], fun _ m _ => rfl, fun m _ h => h, by omega⟩
    rw [← hhd, List.append_nil]
  | none =>
    obtain ⟨f, p, k, co, fc, sl, e, hq, hcase⟩ := loadBank_miss hhd ha hf hn (frame_or_donor ht hp)
    have hid' : (fileNamed s hd.id).data = (fileNamed s s.cartFileId).data := by rw [hid]
    refine ⟨_, _, p, fillTrace n, rest, _, co, fc, e, .inr ⟨rfl, rfl, rfl⟩, ?_, ?_, ?_, ?_, ?_, ?_, ?_⟩
    · exact loadBank_tags ht hr
    · intro m g off hm ho
      have hq' : FilledPool s hd n f (loadBank n s).pool := by rw [e]; exact hq
      rw [hq'.frame g off ho]
      rw [e] at hm ⊢
      show _ = romByte s m off
      by_cases hg : g = f
      · have hmn : m = n := by
          have ht' := loadBank_tags ht hr (n := n)
          have h1 := (ht'.iff m g).1 (by rw [e]; exact hm)
          rw [e] at h1
          rw [hg] at h1
          simp only [ftagOf, Tab.get?_set, if_true] at h1
          exact (Option.some.inj h1).symm
        rw [if_pos hg, hmn, hid']
        rfl
      · rw [if_neg hg]
        apply hc m g off _ ho
        have hm' : Tab.get? (Tab.set sl n f) m = some g := hm
        rw [Tab.get?_set] at hm'
        split at hm'
        · exact absurd (Option.some.inj hm').symm hg
        · rcases hcase with ⟨-, rfl⟩ | ⟨-, d, -, -, rfl⟩
          · exact hm'
          · rw [Tab.get?_erase] at hm'
            split at hm'
            · simp at hm'
            · exact hm'
    · rw [e]; show some hd.id = some s.cartFileId; rw [hid]
    · rw [e]; simp [slotOf]
    · intro h1 m hm
      rcases hcase with ⟨-, rfl⟩ | ⟨h2, -⟩
      · rw [e]
        show Tab.get? (Tab.set s.slot n f) m = _
        rw [Tab.get?_set, if_neg (fun x => by rw [x, hn] at hm; simp at hm)]
        rfl
      · exact absurd h2 h1
    · intro m hmn hm
      rw [e]
      show Tab.get? (Tab.set sl n f) m = none
      rw [Tab.get?_set, if_neg hmn]
      rcases hcase with ⟨-, rfl⟩ | ⟨-, d, -, -, rfl⟩
      · exact hm
      · rw [Tab.get?_erase]
        split
        · rfl
        · exact hm
    · rw [e]
      exact freeFrames_assign (f := f) (n := n) rfl rfl

/-- PRELOAD_BODY without a storage failure (R111). -/
theorem preloadFrom_ok (k : Nat) {n : Nat} {s : State} (hl : stopped s = false) (hr : n + k ≤ s.cart.romsize)
    (hf : FilesOk s) (ht : TagsAgree s) (hc : FramesCoherent s) (hh : CartHandleOpen s) (hp : 1 ≤ s.cfg.poolSize)
    (ha : s.storageOk (2 * k)) :
    ∃ sl ft p es an h co fc,
      preloadFrom n k s =
        { s with
          slot := sl, ftag := ft, pool := p, trace := s.trace ++ es, answers := an, cartHandle := h,
          choices := co, freeCount := fc } ∧
      (∀ e ∈ es, e.isStorage = true) ∧
      TagsAgree (preloadFrom n k s) ∧ FramesCoherent (preloadFrom n k s) ∧ CartHandleOpen (preloadFrom n k s) ∧
      (1 ≤ k → (slotOf (preloadFrom n k s) (n + k - 1)).isSome = true) ∧
      (k ≤ (freeFrames s).length →
        (∀ m, n ≤ m → m < n + k → (slotOf (preloadFrom n k s) m).isSome = true) ∧
        ∀ m, (slotOf s m).isSome = true → slotOf (preloadFrom n k s) m = slotOf s m) := by
  induction k generalizing n s with
  | zero =>
    exact ⟨s.slot, s.ftag, s.pool, [], s.answers, s.cartHandle, s.choices, s.freeCount, by simp [preloadFrom],
      by simp, ht, hc, hh, by omega, fun _ => ⟨fun m h1 h2 => by omega, fun m _ => rfl⟩⟩
  | succ k ih =>
    obtain ⟨r1, ha1, ha1'⟩ := storageOk_succ (s := s) (k := 2 * k + 1) ha
    obtain ⟨rest, ha2, ha2'⟩ := storageOk_succ (s := { s with answers := r1 }) (k := 2 * k) ha1'
    have ha3 : s.answers = .ok :: .ok :: rest := by rw [ha1]; exact congrArg _ ha2
    obtain ⟨sl, ft, p, es, an, h, co, fc, e, hcase, h1, h2, h3, h4, h5, h6, h7⟩ :=
      loadBank_ok (n := n) (by omega) hf ht hc hh hp ha3
    have hes : ∀ x ∈ es, x.isStorage = true := by
      rcases hcase with ⟨rfl, -⟩ | ⟨rfl, -⟩
      · simp
      · simp [fillTrace, Event.isStorage]
    have han : State.storageOk (loadBank n s) (2 * k) := by
      unfold State.storageOk
      rw [e]
      rcases hcase with ⟨-, rfl, -⟩ | ⟨-, rfl, -⟩
      · exact storageOk_mono ha (by omega)
      · exact ha2'
    have eu : preloadFrom n (k + 1) s = preloadFrom (n + 1) k (loadBank n s) := by
      show (if stopped s then s else _) = _
      rw [hl]
      rfl
    rw [eu]
    have g1 : stopped (loadBank n s) = false := by rw [e]; exact hl
    have g2 : (loadBank n s).cart = s.cart := by rw [e]
    have g3 : (loadBank n s).cfg = s.cfg := by rw [e]
    have g4 : (loadBank n s).files = s.files := by rw [e]
    obtain ⟨sl', ft', p', es', an', h', co', fc', e', i0, i1, i2, i3, i4, i5⟩ :=
      ih (n := n + 1) g1 (by rw [g2]; omega) (hf.of_files g4) h1 h2 h3 (by rw [g3]; exact hp) han
    refine ⟨sl', ft', p', es ++ es', an', h', co', fc', ?_, ?_, i1, i2, i3, ?_, ?_⟩
    · rw [e', e, List.append_assoc]
    · intro x hx
      rcases List.mem_append.1 hx with hx | hx
      · exact hes x hx
      · exact i0 x hx
    · intro _
      cases k with
      | zero => exact h4
      | succ k =>
        have := i4 (by omega)
        rwa [show n + 1 + (k + 1) - 1 = n + (k + 1 + 1) - 1 by omega] at this
    · intro hfree
      have hne : freeFrames s ≠ [] := by
        intro hz; rw [hz] at hfree; simp at hfree
      obtain ⟨j1, j2⟩ := i5 (by omega)
      constructor
      · intro m hm1 hm2
        by_cases hm : m = n
        · rw [hm, j2 n h4]; exact h4
        · exact j1 m (by omega) (by omega)
      · intro m hm
        have := h5 hne m hm
        rw [j2 m (by rw [this]; exact hm), this]

end Sys2Proof.Machine
end

