-- ==== Sys2Proof/Laws/PerInstr.lean ====
section
/-! SUPPORT. Per-instruction laws of the syntax: every well-formed operation's word has the fixed bits that its row of
spec/opcode_table.json gives (R60 to R64, R74). -/

namespace Sys2Proof.Laws

/-- Bits hi to lo of a row are fixed at a value. -/
structure FixedField where
  hi    : Nat
  lo    : Nat
  value : Nat
  deriving DecidableEq, Repr

/-- The fixed bits of an operation's row, as the table lists them. -/
def fixedFields : Instr → List FixedField
  | .cartLoad _ => [⟨31, 16, 256⟩]
  | .cartUnload => [⟨31, 0, 33554432⟩]
  | .bankLoad _ => [⟨31, 16, 768⟩]
  | .preload _ => [⟨31, 16, 1024⟩]
  | .sramSave _ _ => [⟨31, 17, 640⟩]
  | .sramLoad _ => [⟨31, 16, 1536⟩]
  | .stateSave _ => [⟨31, 16, 1792⟩]
  | .stateLoad _ => [⟨31, 16, 2048⟩]
  | .frame _ => [⟨15, 0, 0⟩, ⟨31, 17, 1152⟩]
  | .rtcGet => [⟨31, 0, 167772160⟩]
  | .rtcSet => [⟨31, 0, 184549376⟩]
  | .rd _ => [⟨7, 0, 0⟩, ⟨31, 24, 0⟩]
  | .wr _ _ => [⟨31, 24, 1⟩]
  | .selrom _ => [⟨7, 0, 0⟩, ⟨31, 24, 2⟩]
  | .selram _ => [⟨31, 8, 196608⟩]

/-- The word of a well-formed operation has its row's fixed bits. -/
def MatchesTableRow.Statement (i : Instr) : Prop :=
  i.wellFormed = true → ∀ f ∈ fixedFields i, bitSlice (encode i) f.hi f.lo = f.value

namespace MatchesTableRow

theorem cartLoad (id : Half) : Statement (.cartLoad id) := by
  intro h f hf
  have h0 := id.isLt
  simp only [fixedFields, List.mem_cons, List.not_mem_nil, or_false] at hf
  subst hf
  simp only [encode, cmdWord, bitSlice, BitVec.toNat_ofNat]; omega

theorem cartUnload : Statement (.cartUnload) := by
  intro h f hf
  simp only [fixedFields, List.mem_cons, List.not_mem_nil, or_false] at hf
  subst hf
  simp only [encode, cmdWord, bitSlice, BitVec.toNat_ofNat]; omega

theorem bankLoad (n : Nat) : Statement (.bankLoad n) := by
  intro h f hf
  have h0 := of_decide_eq_true h
  simp only [fixedFields, List.mem_cons, List.not_mem_nil, or_false] at hf
  subst hf
  simp only [encode, cmdWord, bitSlice, BitVec.toNat_ofNat]; omega

theorem preload (count : Nat) : Statement (.preload count) := by
  intro h f hf
  have h0 := of_decide_eq_true h
  simp only [fixedFields, List.mem_cons, List.not_mem_nil, or_false] at hf
  subst hf
  simp only [encode, cmdWord, bitSlice, BitVec.toNat_ofNat]; omega

theorem sramSave (id : Half) (quick : Bool) : Statement (.sramSave id quick) := by
  intro h f hf
  have h0 := id.isLt
  have h1 := Bool.toNat_lt quick
  simp only [fixedFields, List.mem_cons, List.not_mem_nil, or_false] at hf
  subst hf
  simp only [encode, cmdWord, bitSlice, BitVec.toNat_ofNat]; omega

theorem sramLoad (id : Half) : Statement (.sramLoad id) := by
  intro h f hf
  have h0 := id.isLt
  simp only [fixedFields, List.mem_cons, List.not_mem_nil, or_false] at hf
  subst hf
  simp only [encode, cmdWord, bitSlice, BitVec.toNat_ofNat]; omega

theorem stateSave (id : Half) : Statement (.stateSave id) := by
  intro h f hf
  have h0 := id.isLt
  simp only [fixedFields, List.mem_cons, List.not_mem_nil, or_false] at hf
  subst hf
  simp only [encode, cmdWord, bitSlice, BitVec.toNat_ofNat]; omega

theorem stateLoad (id : Half) : Statement (.stateLoad id) := by
  intro h f hf
  have h0 := id.isLt
  simp only [fixedFields, List.mem_cons, List.not_mem_nil, or_false] at hf
  subst hf
  simp only [encode, cmdWord, bitSlice, BitVec.toNat_ofNat]; omega

theorem frame (draw : Bool) : Statement (.frame draw) := by
  intro h f hf
  have h0 := Bool.toNat_lt draw
  simp only [fixedFields, List.mem_cons, List.not_mem_nil, or_false] at hf
  rcases hf with rfl | rfl <;> (simp only [encode, cmdWord, bitSlice, BitVec.toNat_ofNat]; omega)

theorem rtcGet : Statement (.rtcGet) := by
  intro h f hf
  simp only [fixedFields, List.mem_cons, List.not_mem_nil, or_false] at hf
  subst hf
  simp only [encode, cmdWord, bitSlice, BitVec.toNat_ofNat]; omega

theorem rtcSet : Statement (.rtcSet) := by
  intro h f hf
  simp only [fixedFields, List.mem_cons, List.not_mem_nil, or_false] at hf
  subst hf
  simp only [encode, cmdWord, bitSlice, BitVec.toNat_ofNat]; omega

theorem rd (addr : Half) : Statement (.rd addr) := by
  intro h f hf
  have h0 := addr.isLt
  simp only [fixedFields, List.mem_cons, List.not_mem_nil, or_false] at hf
  rcases hf with rfl | rfl <;> (simp only [encode, busWord, bitSlice, BitVec.toNat_ofNat]; omega)

theorem wr (addr : Half) (data : Byte) : Statement (.wr addr data) := by
  intro h f hf
  have h0 := addr.isLt
  have h1 := data.isLt
  simp only [fixedFields, List.mem_cons, List.not_mem_nil, or_false] at hf
  subst hf
  simp only [encode, busWord, bitSlice, BitVec.toNat_ofNat]; omega

theorem selrom (v : Half) : Statement (.selrom v) := by
  intro h f hf
  have h0 := v.isLt
  simp only [fixedFields, List.mem_cons, List.not_mem_nil, or_false] at hf
  rcases hf with rfl | rfl <;> (simp only [encode, busWord, bitSlice, BitVec.toNat_ofNat]; omega)

theorem selram (v : Byte) : Statement (.selram v) := by
  intro h f hf
  have h0 := v.isLt
  simp only [fixedFields, List.mem_cons, List.not_mem_nil, or_false] at hf
  subst hf
  simp only [encode, busWord, bitSlice, BitVec.toNat_ofNat]; omega

end MatchesTableRow

end Sys2Proof.Laws
end

