-- ==== Sys2Proof/Laws/Persist.lean ====
section
/-! SUPPORT. The persistence commands: what the primitives on the operation's handle can change (OpStep), seek-and-write
and seek-and-read, and the loops of SRAM_SAVE, SRAM_LOAD, STATE_SAVE and STATE_LOAD. -/

namespace Sys2Proof.Machine

/-! ### What the primitives on the operation's handle can change -/

/-- The operation's handle, if it is open, is on the file with this key. -/
def HandleOn (key : Nat) (s : State) : Prop := ∀ hd, s.opHandle = some hd → fileKey s hd.id = key

/-- `t` is `s` after storage primitives on the operation's handle, which write at most the file with this key. -/
def OpStep (key : Nat) (s t : State) : Prop :=
  ∃ es fs oh an fc sd,
    t = { s with
      trace := s.trace ++ es, files := fs, opHandle := oh, answers := an, freeCount := fc, stalled := sd } ∧
    (∀ e ∈ es, e.isStorage = true) ∧ ∀ k, k ≠ key → Tab.get? fs k = Tab.get? s.files k

theorem OpStep.refl (key : Nat) (s : State) : OpStep key s s :=
  ⟨[], s.files, s.opHandle, s.answers, s.freeCount, s.stalled, by rw [List.append_nil], by simp, fun _ _ => rfl⟩

theorem OpStep.trans {key : Nat} {s t u : State} (h₁ : OpStep key s t) (h₂ : OpStep key t u) : OpStep key s u := by
  obtain ⟨es, fs, oh, an, fc, sd, rfl, h1, h2⟩ := h₁
  obtain ⟨es', fs', oh', an', fc', sd', rfl, h1', h2'⟩ := h₂
  refine ⟨es ++ es', fs', oh', an', fc', sd', ?_, ?_, fun k hk => (h2' k hk).trans (h2 k hk)⟩
  · show _ = _
    rw [← List.append_assoc]
  · intro e he
    rcases List.mem_append.1 he with h | h
    · exact h1 e h
    · exact h1' e h

theorem OpStep.cfg {key : Nat} {s t : State} (h : OpStep key s t) : t.cfg = s.cfg := by
  obtain ⟨_, _, _, _, _, _, rfl, -⟩ := h; rfl

theorem OpStep.cart {key : Nat} {s t : State} (h : OpStep key s t) : t.cart = s.cart := by
  obtain ⟨_, _, _, _, _, _, rfl, -⟩ := h; rfl

theorem OpStep.sram {key : Nat} {s t : State} (h : OpStep key s t) : t.sram = s.sram := by
  obtain ⟨_, _, _, _, _, _, rfl, -⟩ := h; rfl

theorem OpStep.rtc {key : Nat} {s t : State} (h : OpStep key s t) : t.rtc = s.rtc := by
  obtain ⟨_, _, _, _, _, _, rfl, -⟩ := h; rfl

theorem OpStep.masks {key : Nat} {s t : State} (h : OpStep key s t) :
    t.sramDirty = s.sramDirty ∧ t.sramSaved = s.sramSaved := by
  obtain ⟨_, _, _, _, _, _, rfl, -⟩ := h; exact ⟨rfl, rfl⟩

theorem OpStep.key {key : Nat} {s t : State} (h : OpStep key s t) (id : Half) : fileKey t id = fileKey s id :=
  fileKey_eq_of_cfg h.cfg id

/-- One primitive, its answer taken. -/
theorem issued_step {key : Nat} (e : Event) (he : e.isStorage = true) (s : State) :
    OpStep key s (answerTaken (emit e s)) := by
  unfold answerTaken
  split <;> exact ⟨[e], _, _, _, _, _, rfl, by simpa using he, fun _ _ => rfl⟩

theorem seek_step {key : Nat} (off : Nat) (s : State) : OpStep key s (stSeek .op off s).2 := by
  unfold stSeek
  split
  · exact ⟨[_], _, _, _, _, _, rfl, by simp [Event.isStorage], fun _ _ => rfl⟩
  · split
    · exact issued_step _ rfl s
    · exact (issued_step _ rfl s).trans
        ⟨[], _, _, _, _, _, by rw [List.append_nil]; rfl, by simp, fun _ _ => rfl⟩

theorem read_step {key : Nat} (n : Nat) (s : State) : OpStep key s (stRead .op n s).2 := by
  unfold stRead
  split
  · exact ⟨[_], _, _, _, _, _, rfl, by simp [Event.isStorage], fun _ _ => rfl⟩
  · split
    · exact issued_step _ rfl s
    · exact (issued_step _ rfl s).trans
        ⟨[], _, _, _, _, _, by rw [List.append_nil]; rfl, by simp, fun _ _ => rfl⟩

theorem write_step {key : Nat} {s : State} (h : HandleOn key s) (n : Nat) (b : Memory) :
    OpStep key s (stWrite .op n b s).2 := by
  unfold stWrite
  cases hh : getHandle .op s with
  | none => exact ⟨[_], _, _, _, _, _, rfl, by simp [Event.isStorage], fun _ _ => rfl⟩
  | some hd =>
    have hk : fileKey s hd.id = key := h hd hh
    simp only
    split
    · refine (issued_step (.stWrite .op n b) rfl s).trans
        ⟨[], _, _, _, _, _, by rw [List.append_nil]; rfl, by simp, fun k hk' => ?_⟩
      show Tab.get? (Tab.set _ (fileKey _ hd.id) _) k = _
      rw [(issued_step (key := key) (.stWrite .op n b) rfl s).key, hk, Tab.get?_set, if_neg hk']
    · refine (issued_step (.stWrite .op n b) rfl s).trans
        ⟨[], _, _, _, _, _, by rw [List.append_nil]; rfl, by simp, fun k hk' => ?_⟩
      show Tab.get? (Tab.set _ (fileKey _ hd.id) _) k = _
      rw [(issued_step (key := key) (.stWrite .op n b) rfl s).key, hk, Tab.get?_set, if_neg hk']

theorem close_step {key : Nat} (s : State) : OpStep key s (stClose .op s) := by
  obtain ⟨fc, ⟨-, e⟩ | ⟨-, e⟩⟩ := stClose_cases .op s <;> rw [e]
  · exact ⟨[.stClose .op], _, _, _, _, _, rfl, by simp [Event.isStorage], fun _ _ => rfl⟩
  · exact ⟨[.stClose .op], _, _, _, _, _, rfl, by simp [Event.isStorage], fun _ _ => rfl⟩

theorem open_step (id : Half) (mode : Mode) (s : State) : OpStep (fileKey s id) s (stOpen .op id mode s).2 := by
  unfold stOpen
  split
  · exact issued_step _ rfl s
  · refine (issued_step (.stOpen .op id mode) rfl s).trans ?_
    have hk := (issued_step (key := fileKey s id) (.stOpen .op id mode) rfl s).key id
    generalize answerTaken (emit (.stOpen .op id mode) s) = u at hk
    cases mode
    · exact ⟨[], _, _, _, _, _, by rw [List.append_nil]; rfl, by simp, fun _ _ => rfl⟩
    · refine ⟨[], _, _, _, _, _, by rw [List.append_nil]; rfl, by simp, fun k hk' => ?_⟩
      show Tab.get? (Tab.set _ (fileKey u id) _) k = _
      rw [Tab.get?_set, if_neg (by rwa [hk])]
    · unfold openedFiles
      simp only
      split
      · exact ⟨[], _, _, _, _, _, by rw [List.append_nil]; rfl, by simp, fun _ _ => rfl⟩
      · refine ⟨[], _, _, _, _, _, by rw [List.append_nil]; rfl, by simp, fun k hk' => ?_⟩
        show Tab.get? (Tab.set _ (fileKey u id) _) k = _
        rw [Tab.get?_set, if_neg (by rwa [hk])]

/-! ### The operation's handle -/

/-- Seek, read and write keep whether the operation's handle is open, and on which file. -/
theorem seek_opHandle (off : Nat) (s : State) : (stSeek .op off s).2.opHandle.map (·.id) = s.opHandle.map (·.id) :=
  (stSeek_handles .op off s).2

theorem read_opHandle (n : Nat) (s : State) : (stRead .op n s).2.opHandle.map (·.id) = s.opHandle.map (·.id) :=
  (stRead_handles .op n s).2

theorem write_opHandle (n : Nat) (b : Memory) (s : State) :
    (stWrite .op n b s).2.opHandle.map (·.id) = s.opHandle.map (·.id) := by
  unfold stWrite
  split
  · rfl
  · rename_i hd hh
    have hh' : s.opHandle = some hd := hh
    split <;> simp [setHandle, hh']

theorem HandleOn.of_id {key : Nat} {s t : State} (h : HandleOn key s) (hc : t.cfg = s.cfg)
    (hi : t.opHandle.map (·.id) = s.opHandle.map (·.id)) : HandleOn key t := by
  intro hd hh
  rw [hh] at hi
  cases hs : s.opHandle with
  | none => rw [hs] at hi; simp at hi
  | some hd' =>
    rw [hs] at hi
    simp only [Option.map_some, Option.some.injEq] at hi
    rw [fileKey_eq_of_cfg hc, hi]
    exact h hd' hs

/-- After an open that answers, the handle is on the file of the identifier. -/
theorem open_handle {id : Half} {mode : Mode} {s : State} (h : (stOpen .op id mode s).1 = true) :
    (stOpen .op id mode s).2.opHandle = some ⟨id, mode, 0⟩ := by
  unfold stOpen at *
  split
  · rename_i hc; rw [if_pos hc] at h; simp at h
  · rfl

/-- After an open that fails, the handle is as it was. -/
theorem open_failed_handle {id : Half} {mode : Mode} {s : State} (h : (stOpen .op id mode s).1 = false) :
    (stOpen .op id mode s).2.opHandle = s.opHandle := by
  unfold stOpen at *
  split
  · simp
  · rename_i hc; rw [if_neg hc] at h; simp at h

/-! ### Seek and write, seek and read -/

theorem seekWrite_step {key : Nat} {s : State} (h : HandleOn key s) (off n : Nat) (b : Memory) :
    OpStep key s (seekWrite off n b s).2 := by
  have h1 := seek_step (key := key) off s
  unfold seekWrite
  split
  · exact h1.trans (write_step (h.of_id h1.cfg (seek_opHandle off s)) n b)
  · exact h1

theorem seekWrite_opHandle (off n : Nat) (b : Memory) (s : State) :
    (seekWrite off n b s).2.opHandle.map (·.id) = s.opHandle.map (·.id) := by
  unfold seekWrite
  split
  · rw [write_opHandle, seek_opHandle]
  · exact seek_opHandle off s

theorem seekRead_step {key : Nat} (off n : Nat) (s : State) : OpStep key s (seekRead off n s).2 := by
  have h1 := seek_step (key := key) off s
  unfold seekRead
  split
  · exact h1.trans (read_step n _)
  · exact h1

theorem seekRead_opHandle (off n : Nat) (s : State) :
    (seekRead off n s).2.opHandle.map (·.id) = s.opHandle.map (·.id) := by
  unfold seekRead
  split
  · rw [read_opHandle, seek_opHandle]
  · exact seek_opHandle off s

@[simp] theorem seekRead_files (off n : Nat) (s : State) : (seekRead off n s).2.files = s.files := by
  unfold seekRead
  split <;> simp

/-- The file with a key. -/
def fileAt (key : Nat) (s : State) : File := (Tab.get? s.files key).getD ⟨0, []⟩

theorem fileAt_of_files {s t : State} (h : t.files = s.files) (key : Nat) : fileAt key t = fileAt key s := by
  unfold fileAt; rw [h]

theorem fileOf_eq {key : Nat} {s : State} {hd : Handle} (h : fileKey s hd.id = key) : fileOf hd s = fileAt key s := by
  rw [← h]; rfl

theorem fileNamed_eq (s : State) (id : Half) : fileNamed s id = fileAt (fileKey s id) s := rfl

theorem FilesOk.fileAt {s : State} (h : FilesOk s) (key : Nat) : File.wf (fileAt key s) := by
  unfold Machine.fileAt
  cases hk : Tab.get? s.files key with
  | none => exact File.wf_empty
  | some f => exact h.2 _ (Tab.mem_of_get? hk)

/-- A write that fails leaves the file torn, one that answers leaves it written. -/
theorem write_fileAt {key : Nat} {s : State} {hd : Handle} (hh : s.opHandle = some hd) (hk : fileKey s hd.id = key)
    (n : Nat) (b : Memory) :
    ((stWrite .op n b s).1 = false ∧
      fileAt key (stWrite .op n b s).2 = (fileAt key s).torn hd.pos n s.freeCount) ∨
    ((stWrite .op n b s).1 = true ∧ fileAt key (stWrite .op n b s).2 = (fileAt key s).written hd.pos n b) := by
  unfold stWrite
  have hg : getHandle .op s = some hd := hh
  have hi := (issued_step (key := key) (.stWrite .op n b) rfl s).key
  simp only [hg]
  rw [fileOf_eq hk]
  split
  · left
    refine ⟨rfl, ?_⟩
    show (Tab.get? (Tab.set _ (fileKey _ hd.id) _) key).getD _ = _
    rw [hi, hk, Tab.get?_set, if_pos rfl]; rfl
  · right
    refine ⟨rfl, ?_⟩
    show (Tab.get? (Tab.set _ (fileKey _ hd.id) _) key).getD _ = _
    rw [hi, hk, Tab.get?_set, if_pos rfl]; rfl

/-- A torn file never shrinks, and bytes outside the range stay. -/
theorem File.torn_outside {f : File} (hf : File.wf f) (pos n stamp : Nat) :
    f.len ≤ (f.torn pos n stamp).len ∧
    ∀ a, (a < pos ∨ pos + n ≤ a) → (f.torn pos n stamp).data.read a = f.data.read a := by
  unfold File.torn
  constructor
  · simp only; split <;> omega
  · intro a ha
    simp only [Memory.read_below, Memory.read_splice]
    rw [if_neg (show ¬(pos ≤ a ∧ a < pos + n) by omega)]
    by_cases hl : a < f.len
    · rw [if_pos (by split <;> omega)]
    · rw [Memory.read_eq_zero_of_lt hf.2 (by omega)]
      exact ite_self _

/-- What seek-and-write leaves of the file: it never shrinks, bytes outside the range stay, and on success the range
holds the bytes written. -/
theorem seekWrite_file {key : Nat} {s : State} (h : HandleOn key s) (hf : FilesOk s) (off n : Nat) {b : Memory}
    (hb : b.wf) :
    (fileAt key s).len ≤ (fileAt key (seekWrite off n b s).2).len ∧
    (∀ a, (a < off ∨ off + n ≤ a) →
      (fileAt key (seekWrite off n b s).2).data.read a = (fileAt key s).data.read a) ∧
    ((seekWrite off n b s).1 = true →
      off + n ≤ (fileAt key (seekWrite off n b s).2).len ∧
      ∀ i, i < n → (fileAt key (seekWrite off n b s).2).data.read (off + i) = b.read i) ∧
    FilesOk (seekWrite off n b s).2 := by
  have hfs : (stSeek .op off s).2.files = s.files := stSeek_files _ _ _
  have hfa : fileAt key (stSeek .op off s).2 = fileAt key s := by unfold fileAt; rw [hfs]
  have hkey := (seek_step (key := key) off s).cfg
  cases hsk : (stSeek .op off s).1 with
  | false =>
    have e : seekWrite off n b s = (false, (stSeek .op off s).2) := by unfold seekWrite; rw [hsk]; rfl
    rw [e]
    simp only [hfa]
    exact ⟨Nat.le_refl _, fun _ _ => by trivial, by simp, hf.of_files hfs⟩
  | true =>
    have e : seekWrite off n b s = stWrite .op n b (stSeek .op off s).2 := by unfold seekWrite; rw [hsk]; rfl
    rw [e]
    have hpos : ∃ hd, (stSeek .op off s).2.opHandle = some hd ∧ hd.pos = off := by
      unfold stSeek at hsk ⊢
      cases hh : getHandle .op s with
      | none => rw [hh] at hsk; simp at hsk
      | some hd =>
        rw [hh] at hsk
        simp only at hsk ⊢
        split
        · rename_i hc; rw [if_pos hc] at hsk; simp at hsk
        · exact ⟨_, rfl, rfl⟩
    have hon : HandleOn key (stSeek .op off s).2 := h.of_id hkey (seek_opHandle off s)
    have hf' : FilesOk (stSeek .op off s).2 := hf.of_files hfs
    rw [← hfa]
    generalize (stSeek .op off s).2 = u at hpos hon hf' ⊢
    obtain ⟨hd, hh, hp⟩ := hpos
    have hok := hf'.stWrite .op n hb
    rcases write_fileAt hh (hon hd hh) n b with ⟨h1, h2⟩ | ⟨h1, h2⟩
    · rw [h2, h1, hp]
      obtain ⟨t1, t2⟩ := File.torn_outside (hf'.fileAt key) off n u.freeCount
      exact ⟨t1, t2, by simp, hok⟩
    · rw [h2, h1, hp]
      unfold File.written
      simp only [Memory.read_splice]
      refine ⟨by omega, fun a ha => by rw [if_neg (by omega)], fun _ => ⟨by omega, fun i hi => ?_⟩, hok⟩
      rw [if_pos (by omega), show off + i - off = i by omega]

/-! ### The bits of the per-bank registers -/

theorem bitOf_bankBit (i j : Nat) : bitOf (bankBit i) j = (decide (j = i) && decide (j < 32)) := by
  unfold bitOf bankBit
  rw [BitVec.getLsbD_shiftLeft]
  by_cases hj : j < 32
  · by_cases hi : j < i
    · simp [hi, show j ≠ i by omega]
    · by_cases he : j = i
      · subst he; simp [hj]
      · have : j - i ≠ 0 := by omega
        simp [he, BitVec.getLsbD_one, this]
  · simp [hj]

theorem bitOf_setBit (w : Word) (i j : Nat) : bitOf (setBit w i) j = (bitOf w j || (decide (j = i) && decide (j < 32))) := by
  rw [← bitOf_bankBit]
  exact BitVec.getLsbD_or

theorem bitOf_clearBit (w : Word) (i j : Nat) : bitOf (clearBit w i) j = (bitOf w j && !decide (j = i)) := by
  have e : bitOf (clearBit w i) j = (bitOf w j && (decide (j < 32) && !bitOf (bankBit i) j)) := by
    unfold bitOf clearBit
    rw [BitVec.getLsbD_and, BitVec.getLsbD_not]
  rw [e, bitOf_bankBit]
  by_cases hj : j < 32
  · simp [hj]
  · have : bitOf w j = false := BitVec.getLsbD_of_ge w j (by omega)
    simp [this]

theorem bitOf_ge (w : Word) {i : Nat} (h : 32 ≤ i) : bitOf w i = false := BitVec.getLsbD_of_ge w i h

theorem bitOf_allBanks {r : Nat} (h : r ≤ 32) (i : Nat) : bitOf (allBanks r) i = decide (i < r) := by
  unfold bitOf allBanks
  rw [BitVec.getLsbD_ofNat, Nat.testBit_two_pow_sub_one]
  by_cases hi : i < r
  · simp [hi, show i < 32 by omega]
  · simp [hi]

/-- Two per-bank registers with the same bits are equal. -/
theorem eq_of_bits {v w : Word} (h : ∀ i, bitOf v i = bitOf w i) : v = w :=
  BitVec.eq_of_getLsbD_eq (fun i _ => h i)

/-! ### The save loop -/

/-- `t` is `s` after some of SRAM_SAVE's steps. -/
def SaveStep (key : Nat) (s t : State) : Prop :=
  ∃ d v es fs oh an fc sd,
    t = { s with
      sramDirty := d, sramSaved := v, trace := s.trace ++ es, files := fs, opHandle := oh, answers := an,
      freeCount := fc, stalled := sd } ∧
    (∀ e ∈ es, e.isStorage = true) ∧ ∀ k, k ≠ key → Tab.get? fs k = Tab.get? s.files k

theorem OpStep.save {key : Nat} {s t : State} (h : OpStep key s t) : SaveStep key s t := by
  obtain ⟨es, fs, oh, an, fc, sd, rfl, h1, h2⟩ := h
  exact ⟨_, _, es, fs, oh, an, fc, sd, rfl, h1, h2⟩

theorem SaveStep.trans {key : Nat} {s t u : State} (h₁ : SaveStep key s t) (h₂ : SaveStep key t u) :
    SaveStep key s u := by
  obtain ⟨d, v, es, fs, oh, an, fc, sd, rfl, h1, h2⟩ := h₁
  obtain ⟨d', v', es', fs', oh', an', fc', sd', rfl, h1', h2'⟩ := h₂
  refine ⟨d', v', es ++ es', fs', oh', an', fc', sd', ?_, ?_, fun k hk => (h2' k hk).trans (h2 k hk)⟩
  · show _ = _
    rw [← List.append_assoc]
  · intro e he
    rcases List.mem_append.1 he with h | h
    · exact h1 e h
    · exact h1' e h

theorem SaveStep.rest {key : Nat} {s t : State} (h : SaveStep key s t) :
    t.cfg = s.cfg ∧ t.cart = s.cart ∧ t.sram = s.sram ∧ t.rtc = s.rtc := by
  obtain ⟨_, _, _, _, _, _, _, _, rfl, -⟩ := h; exact ⟨rfl, rfl, rfl, rfl⟩

theorem markWritten_save (key i : Nat) (s : State) : SaveStep key s (markWritten i s) :=
  ⟨_, _, [], _, _, _, _, _, by rw [List.append_nil]; rfl, by simp, fun _ _ => rfl⟩

theorem markAll_save (key : Nat) (quick : Bool) (s : State) : SaveStep key s (markAll quick s) := by
  cases quick
  · exact ⟨_, _, [], _, _, _, _, _, by rw [List.append_nil]; rfl, by simp, fun _ _ => rfl⟩
  · exact (OpStep.refl key s).save

/-- A skipped bank (R123): its region of the file is unspecified, or the block hangs; the file never shrinks, bytes
outside the region stay, and so does the handle. -/
theorem skipBank_law {key i : Nat} {s : State} (h : HandleOn key s) :
    OpStep key s (unlessStalled (spoilRegion i) s) ∧ (unlessStalled (spoilRegion i) s).opHandle = s.opHandle ∧
    (FilesOk s →
      (fileAt key s).len ≤ (fileAt key (unlessStalled (spoilRegion i) s)).len ∧
      (∀ a, (a < ramOffset i ∨ ramOffset i + ramPage ≤ a) →
        (fileAt key (unlessStalled (spoilRegion i) s)).data.read a = (fileAt key s).data.read a) ∧
      FilesOk (unlessStalled (spoilRegion i) s)) := by
  rcases unlessStalled_cases (spoilRegion i) s with ⟨-, e⟩ | ⟨-, e⟩
  · rw [e]; exact ⟨.refl key s, rfl, fun hf => ⟨Nat.le_refl _, fun _ _ => rfl, hf⟩⟩
  · rw [e]
    unfold spoilRegion
    cases hh : s.opHandle with
    | none => exact ⟨.refl key s, hh, fun hf => ⟨Nat.le_refl _, fun _ _ => rfl, hf⟩⟩
    | some hd =>
      have hk := h hd hh
      have ef : fileAt key (setFile hd.id ((fileOf hd s).torn (ramOffset i) ramPage s.freeCount) s) =
          (fileAt key s).torn (ramOffset i) ramPage s.freeCount := by
        show (Tab.get? (Tab.set _ (fileKey s hd.id) _) key).getD _ = _
        rw [hk, Tab.get?_set, if_pos rfl, fileOf_eq hk]; rfl
      refine ⟨⟨[], _, _, _, _, _, by rw [List.append_nil]; rfl, by simp, fun k hk' => ?_⟩, hh, fun hf => ?_⟩
      · show Tab.get? (Tab.set _ (fileKey s hd.id) _) k = _
        rw [hk, Tab.get?_set, if_neg hk']
      · obtain ⟨t1, t2⟩ := File.torn_outside (hf.fileAt key) (ramOffset i) ramPage s.freeCount
        exact ⟨by rw [← ef] at t1; exact t1, fun a ha => by rw [← t2 a ha, ← ef]; rfl,
          hf.setFile _ (File.torn_wf (hf.fileOf hd) _ _ _)⟩

/-- Every bank marked saved is in the file as it is in the battery RAM. -/
def SavedInFile (key : Nat) (s : State) : Prop :=
  ∀ j, bitOf s.sramSaved j = true →
    (j + 1) * 8192 ≤ (fileAt key s).len ∧
    ∀ off, off < 8192 → (fileAt key s).data.read (j * 8192 + off) = s.sram.read (j * 8192 + off)

/-- One bank of the save loop: its two bits as R123 has them, every other bit kept; the handle stays on its file. -/
theorem saveBank_law {key i : Nat} {s : State} (h : HandleOn key s) (hi : i < 32) :
    SaveStep key s (saveBank i s) ∧ (saveBank i s).opHandle.map (·.id) = s.opHandle.map (·.id) ∧
    (∀ j, j ≠ i → bitOf (saveBank i s).sramDirty j = bitOf s.sramDirty j ∧
      bitOf (saveBank i s).sramSaved j = bitOf s.sramSaved j) ∧
    (bitOf (saveBank i s).sramDirty i = false ∧ bitOf (saveBank i s).sramSaved i = true ∨
      bitOf (saveBank i s).sramDirty i = bitOf s.sramDirty i ∧ bitOf (saveBank i s).sramSaved i = bitOf s.sramSaved i) := by
  unfold saveBank
  split
  · have h1 := seekWrite_step h (ramOffset i) ramPage (ramBank s i)
    have h2 := seekWrite_opHandle (ramOffset i) ramPage (ramBank s i) s
    generalize seekWrite (ramOffset i) ramPage (ramBank s i) s = r at h1 h2
    obtain ⟨b, u⟩ := r
    obtain ⟨m1, m2⟩ := h1.masks
    cases b with
    | false =>
      obtain ⟨s1, s2, -⟩ := skipBank_law (i := i) (h.of_id h1.cfg h2)
      obtain ⟨n1, n2⟩ := s1.masks
      have e1 : (bankWritten i (false, u)).sramDirty = s.sramDirty := n1.trans m1
      have e2 : (bankWritten i (false, u)).sramSaved = s.sramSaved := n2.trans m2
      exact ⟨h1.save.trans s1.save, (congrArg _ s2).trans h2, fun j _ => by rw [e1, e2]; exact ⟨rfl, rfl⟩,
        .inr (by rw [e1, e2]; exact ⟨rfl, rfl⟩)⟩
    | true =>
      refine ⟨h1.save.trans (markWritten_save key i u), h2, fun j hj => ?_, .inl ?_⟩
      · show bitOf (clearBit u.sramDirty i) j = _ ∧ bitOf (setBit u.sramSaved i) j = _
        rw [bitOf_clearBit, bitOf_setBit, m1, m2]
        simp [hj]
      · show bitOf (clearBit u.sramDirty i) i = _ ∧ bitOf (setBit u.sramSaved i) i = _
        rw [bitOf_clearBit, bitOf_setBit]
        simp [hi]
  · exact ⟨(OpStep.refl key s).save, rfl, fun _ _ => ⟨rfl, rfl⟩, .inr ⟨rfl, rfl⟩⟩

/-- A saved bank stays in the file through the write of another bank, and the bank just written joins it. -/
theorem saveBank_inFile {key i : Nat} {s : State} (h : HandleOn key s) (hf : FilesOk s) (hs : s.sram.wf) (hi : i < 32)
    (hn : bitOf s.sramSaved i = false) (hv : SavedInFile key s) : SavedInFile key (saveBank i s) ∧ FilesOk (saveBank i s) := by
  unfold saveBank
  split
  · have h1 := seekWrite_step h (ramOffset i) ramPage (ramBank s i)
    have h2 := seekWrite_opHandle (ramOffset i) ramPage (ramBank s i) s
    obtain ⟨l1, l2, l3, l4⟩ := seekWrite_file h hf (ramOffset i) ramPage
      (show (ramBank s i).wf from Memory.wf_slice hs _ _)
    generalize seekWrite (ramOffset i) ramPage (ramBank s i) s = r at h1 h2 l1 l2 l3 l4
    obtain ⟨b, u⟩ := r
    obtain ⟨m1, m2⟩ := h1.masks
    have hsr : u.sram = s.sram := h1.sram
    have keep : ∀ j, j ≠ i → bitOf s.sramSaved j = true → (j + 1) * 8192 ≤ (fileAt key u).len ∧
        ∀ off, off < 8192 → (fileAt key u).data.read (j * 8192 + off) = s.sram.read (j * 8192 + off) := by
      intro j hj hb
      obtain ⟨k1, k2⟩ := hv j hb
      refine ⟨le_trans k1 l1, fun off ho => ?_⟩
      rw [l2 _ (by
        show j * 8192 + off < i * 8192 ∨ i * 8192 + 8192 ≤ _
        rcases Nat.lt_or_gt_of_ne hj with h | h <;> omega)]
      exact k2 off ho
    cases b with
    | false =>
      obtain ⟨s1, -, s3⟩ := skipBank_law (i := i) (h.of_id h1.cfg h2)
      obtain ⟨f1, f2, f3⟩ := s3 l4
      refine ⟨fun j hb => ?_, f3⟩
      have hb' : bitOf s.sramSaved j = true := by
        rw [← m2, ← s1.masks.2]; exact hb
      show (j + 1) * 8192 ≤ (fileAt key (unlessStalled (spoilRegion i) u)).len ∧ ∀ off, off < 8192 →
        (fileAt key (unlessStalled (spoilRegion i) u)).data.read _ = (unlessStalled (spoilRegion i) u).sram.read _
      rw [s1.sram, hsr]
      by_cases hj : j = i
      · rw [hj, hn] at hb'; simp at hb'
      · obtain ⟨k1, k2⟩ := keep j hj hb'
        refine ⟨le_trans k1 f1, fun off ho => ?_⟩
        rw [f2 _ (by
          show j * 8192 + off < i * 8192 ∨ i * 8192 + 8192 ≤ _
          rcases Nat.lt_or_gt_of_ne hj with h | h <;> omega)]
        exact k2 off ho
    | true =>
      refine ⟨fun j hb => ?_, l4⟩
      show _ ∧ ∀ off, off < 8192 → _ = u.sram.read _
      rw [hsr]
      by_cases hj : j = i
      · subst hj
        obtain ⟨k1, k2⟩ := l3 rfl
        have k1' : j * 8192 + 8192 ≤ (fileAt key u).len := k1
        refine ⟨show (j + 1) * 8192 ≤ (fileAt key u).len by omega, fun off ho => ?_⟩
        show (fileAt key u).data.read _ = _
        have := k2 off ho
        unfold ramBank at this
        rw [Memory.read_slice, if_pos ho] at this
        exact this
      · apply keep j hj
        have hb' : bitOf (setBit u.sramSaved i) j = true := hb
        rw [bitOf_setBit, m2] at hb'
        simpa [hj] using hb'
  · exact ⟨hv, hf⟩

theorem saveBanks_succ {i k : Nat} {s : State} (h : s.stalled = false) :
    saveBanks i (k + 1) s = saveBanks (i + 1) k (saveBank i s) := by simp [saveBanks, h]

theorem saveBanks_stalled {i k : Nat} {s : State} (h : s.stalled = true) : saveBanks i k s = s := by
  cases k <;> simp [saveBanks, h]

/-- The save loop under any storage. -/
theorem saveBanks_law {key : Nat} (k : Nat) {i : Nat} {s : State} (h : HandleOn key s) (hi : i + k ≤ 32) :
    SaveStep key s (saveBanks i k s) ∧ HandleOn key (saveBanks i k s) ∧
    (saveBanks i k s).opHandle.map (·.id) = s.opHandle.map (·.id) ∧
    ∀ j, (i ≤ j ∧ j < i + k ∧ bitOf (saveBanks i k s).sramDirty j = false ∧
        bitOf (saveBanks i k s).sramSaved j = true) ∨
      bitOf (saveBanks i k s).sramDirty j = bitOf s.sramDirty j ∧
        bitOf (saveBanks i k s).sramSaved j = bitOf s.sramSaved j := by
  induction k generalizing i s with
  | zero => exact ⟨(OpStep.refl key s).save, h, rfl, fun _ => .inr ⟨rfl, rfl⟩⟩
  | succ k ih =>
    cases hst : s.stalled with
    | true => rw [saveBanks_stalled hst]; exact ⟨(OpStep.refl key s).save, h, rfl, fun _ => .inr ⟨rfl, rfl⟩⟩
    | false =>
    rw [saveBanks_succ hst]
    obtain ⟨a1, a2, a3, a4⟩ := saveBank_law (i := i) h (by omega)
    have h' : HandleOn key (saveBank i s) := h.of_id a1.rest.1 a2
    obtain ⟨b1, b2, b3, b4⟩ := ih (i := i + 1) h' (by omega)
    refine ⟨a1.trans b1, b2, b3.trans a2, fun j => ?_⟩
    rcases b4 j with ⟨c1, c2, c3, c4⟩ | ⟨c1, c2⟩
    · exact .inl ⟨by omega, by omega, c3, c4⟩
    · by_cases hj : j = i
      · subst hj
        rcases a4 with ⟨d1, d2⟩ | ⟨d1, d2⟩
        · exact .inl ⟨by omega, by omega, c1.trans d1, c2.trans d2⟩
        · exact .inr ⟨c1.trans d1, c2.trans d2⟩
      · obtain ⟨d1, d2⟩ := a3 j hj
        exact .inr ⟨c1.trans d1, c2.trans d2⟩

/-- The save loop from a bank on, none of the banks to come being marked saved (as a full save begins, R121). -/
theorem saveBanks_inFile {key : Nat} (k : Nat) {i : Nat} {s : State} (h : HandleOn key s) (hf : FilesOk s)
    (hs : s.sram.wf) (hi : i + k ≤ 32) (hn : ∀ j, i ≤ j → bitOf s.sramSaved j = false) (hv : SavedInFile key s) :
    SavedInFile key (saveBanks i k s) ∧ FilesOk (saveBanks i k s) ∧
    ∀ j, i + k ≤ j → bitOf (saveBanks i k s).sramSaved j = false := by
  induction k generalizing i s with
  | zero => exact ⟨hv, hf, hn⟩
  | succ k ih =>
    cases hst : s.stalled with
    | true => rw [saveBanks_stalled hst]; exact ⟨hv, hf, fun j hj => hn j (by omega)⟩
    | false =>
    rw [saveBanks_succ hst]
    obtain ⟨a1, a2, a3, a4⟩ := saveBank_law (i := i) h (by omega)
    have h' : HandleOn key (saveBank i s) := h.of_id a1.rest.1 a2
    obtain ⟨b1, b2⟩ := saveBank_inFile (i := i) h hf hs (by omega) (hn i (Nat.le_refl i)) hv
    obtain ⟨c1, c2, c3⟩ := ih (i := i + 1) h' b2 (by rw [a1.rest.2.2.1]; exact hs) (by omega)
      (fun j hj => by rw [(a3 j (by omega)).2]; exact hn j (by omega)) b1
    exact ⟨c1, c2, fun j hj => c3 j (by omega)⟩

theorem saveClock_step {key : Nat} {s : State} (h : HandleOn key s) : OpStep key s (saveClock s).2 := by
  unfold saveClock
  split_ifs
  · exact OpStep.refl key s
  · exact seekWrite_step h _ _ _
  · exact OpStep.refl key s

theorem saveClock_opHandle (s : State) : (saveClock s).2.opHandle.map (·.id) = s.opHandle.map (·.id) := by
  unfold saveClock
  split_ifs
  · rfl
  · exact seekWrite_opHandle _ _ _ s
  · rfl

/-! ### The clock record -/

theorem readLE_congr {m m' : Memory} {off off' n : Nat} (h : ∀ i, i < n → m.read (off + i) = m'.read (off' + i)) :
    m.readLE off n = m'.readLE off' n := by
  unfold Memory.readLE Memory.bytes
  congr 1
  apply List.map_congr_left
  intro i hi
  exact h i (List.mem_range.1 hi)

/-- A little-endian field of a buffer of listed bytes. -/
theorem readLE_ofBytes (pre post : List Byte) (n v : Nat) :
    (Memory.ofBytes (pre ++ (leBytes n v ++ post))).readLE pre.length n = v % 256 ^ n := by
  rw [← unLE_leBytes]
  unfold Memory.readLE
  congr 1
  have := Memory.bytes_eq (m := Memory.ofBytes (pre ++ (leBytes n v ++ post))) (off := pre.length) (bs := leBytes n v)
    (by
      intro i hi
      rw [Memory.read_ofBytes, List.getD_eq_getElem?_getD, List.getElem?_append_right (Nat.le_add_right _ _),
        Nat.add_sub_cancel_left, List.getElem?_append_left hi, List.getD_eq_getElem?_getD])
  rwa [leBytes_length] at this

/-- A run of 32-bit fields, and what follows it. -/
theorem length_fields (vs : List Nat) : (vs.flatMap (leBytes 4)).length = 4 * vs.length := by
  induction vs with
  | nil => rfl
  | cons v vs ih => rw [List.flatMap_cons, List.length_append, ih, leBytes_length, List.length_cons]; omega

theorem readLE_field (vs : List Nat) (post : List Byte) (k : Nat) (hk : k < vs.length) :
    (Memory.ofBytes (vs.flatMap (leBytes 4) ++ post)).readLE (4 * k) 4 = vs[k] % 256 ^ 4 := by
  have e : vs.flatMap (leBytes 4) ++ post =
      (vs.take k).flatMap (leBytes 4) ++ (leBytes 4 vs[k] ++ ((vs.drop (k + 1)).flatMap (leBytes 4) ++ post)) := by
    conv_lhs => rw [← List.take_append_drop k vs, List.drop_eq_getElem_cons hk]
    rw [List.flatMap_append, List.flatMap_cons, List.append_assoc, List.append_assoc]
  have hl : 4 * k = ((vs.take k).flatMap (leBytes 4)).length := by
    rw [length_fields, List.length_take, Nat.min_eq_left (Nat.le_of_lt hk)]
  rw [e]
  conv_lhs => rw [hl]
  exact readLE_ofBytes _ _ _ _

/-- The ten 32-bit fields of a clock record, in order (R70). -/
def clockFields (r : Rtc) : List Nat :=
  [r.sec.toNat, r.min.toNat, r.hour.toNat, r.day.toNat, r.flags.toNat, r.regs[0].toNat, r.regs[1].toNat,
   r.regs[2].toNat, r.regs[3].toNat, r.regs[4].toNat]

theorem rtcRecord_eq (epoch : Dword) (r : Rtc) :
    rtcRecord epoch r = (clockFields r).flatMap (leBytes 4) ++ leBytes 8 (absSeconds epoch r) := by
  unfold rtcRecord clockFields
  simp only [List.flatMap_cons, List.flatMap_nil, List.append_assoc, List.append_nil]

/-- Memory that holds the bytes of RTC_RECORD holds the clock record (R70, R125). -/
theorem clockRecordAt_of {m : Memory} {off : Nat} {epoch : Dword} {r : Rtc}
    (h : ∀ i, i < 48 → m.read (off + i) = (Memory.ofBytes (rtcRecord epoch r)).read i) :
    ClockRecordAt m off epoch r := by
  have f : ∀ (k : Nat) (hk : k < 10), m.readLE (off + 4 * k) 4 = (clockFields r)[k]'hk % 256 ^ 4 := by
    intro k hk
    rw [← readLE_field (clockFields r) (leBytes 8 (absSeconds epoch r)) k hk, ← rtcRecord_eq]
    apply readLE_congr
    intro i hi
    rw [Nat.add_assoc]
    exact h (4 * k + i) (by omega)
  have b : ∀ x : Byte, x.toNat % 256 ^ 4 = x.toNat := fun x => Nat.mod_eq_of_lt (lt_trans x.isLt (by decide))
  refine ⟨(f 0 (by omega)).trans (b _), (f 1 (by omega)).trans (b _), (f 2 (by omega)).trans (b _),
    (f 3 (by omega)).trans (Nat.mod_eq_of_lt (lt_trans r.day.isLt (by decide))), (f 4 (by omega)).trans (b _), ?_, ?_⟩
  · intro j
    have := f (5 + j.val) (by omega)
    rw [show off + 20 + 4 * j.val = off + 4 * (5 + j.val) by omega, this]
    match j with
    | 0 => exact b _
    | 1 => exact b _
    | 2 => exact b _
    | 3 => exact b _
    | 4 => exact b _
  · have e : m.readLE (off + 40) 8 = (Memory.ofBytes (rtcRecord epoch r)).readLE 40 8 := by
      apply readLE_congr
      intro i hi
      rw [Nat.add_assoc]
      exact h (40 + i) (by omega)
    have hr := readLE_ofBytes ((clockFields r).flatMap (leBytes 4)) [] 8 (absSeconds epoch r)
    rw [List.append_nil, ← rtcRecord_eq, length_fields] at hr
    rw [e]
    refine hr.trans (Nat.mod_eq_of_lt ?_)
    exact Nat.mod_lt _ (by decide)

/-- RTC_UNPACK of 48 bytes taken from a memory loads the clock from there (R130). -/
theorem clockLoadedFrom_of (m : Memory) (off : Nat) (old : Rtc) :
    ClockLoadedFrom m off old (rtcUnpack (m.slice off rtcRecSize) old) := by
  have e : ∀ (o n : Nat), o + n ≤ 48 → (m.slice off rtcRecSize).readLE o n = m.readLE (off + o) n := by
    intro o n hn
    apply readLE_congr
    intro i hi
    rw [Memory.read_slice, if_pos (show o + i < 48 by omega), Nat.add_assoc]
  unfold ClockLoadedFrom rtcUnpack
  dsimp only
  rw [e 0 4 (by omega), e 4 4 (by omega), e 8 4 (by omega), e 12 4 (by omega), e 16 4 (by omega), Nat.add_zero]
  refine ⟨BitVec.toNat_ofNat _ _, BitVec.toNat_ofNat _ _, BitVec.toNat_ofNat _ _, BitVec.toNat_ofNat _ _,
    BitVec.toNat_ofNat _ _, ?_, rfl, rfl⟩
  intro j
  match j with
  | 0 => show (BitVec.ofNat 8 _).toNat = _; rw [BitVec.toNat_ofNat, e 20 4 (by omega)]; rfl
  | 1 => show (BitVec.ofNat 8 _).toNat = _; rw [BitVec.toNat_ofNat, e 24 4 (by omega)]; rfl
  | 2 => show (BitVec.ofNat 8 _).toNat = _; rw [BitVec.toNat_ofNat, e 28 4 (by omega)]; rfl
  | 3 => show (BitVec.ofNat 8 _).toNat = _; rw [BitVec.toNat_ofNat, e 32 4 (by omega)]; rfl
  | 4 => show (BitVec.ofNat 8 _).toNat = _; rw [BitVec.toNat_ofNat, e 36 4 (by omega)]; rfl

/-! ### The load loop -/

/-- A full answer of seek-and-read is the file's bytes, which are all there. -/
theorem seekRead_full {key : Nat} {s : State} (h : HandleOn key s) {off n : Nat} {b : Memory}
    (hr : (seekRead off n s).1 = .full b) : off + n ≤ (fileAt key s).len ∧ b = (fileAt key s).data.slice off n := by
  unfold seekRead at hr
  cases hsk : (stSeek .op off s).1 with
  | false => rw [hsk] at hr; simp at hr
  | true =>
    rw [hsk] at hr
    simp only [if_true] at hr
    have hpos : ∃ hd, (stSeek .op off s).2.opHandle = some hd ∧ hd.pos = off := by
      unfold stSeek at hsk ⊢
      cases hh : getHandle .op s with
      | none => rw [hh] at hsk; simp at hsk
      | some hd =>
        rw [hh] at hsk
        simp only at hsk ⊢
        split
        · rename_i hc; rw [if_pos hc] at hsk; simp at hsk
        · exact ⟨_, rfl, rfl⟩
    have hon : HandleOn key (stSeek .op off s).2 := h.of_id (seek_step (key := key) off s).cfg (seek_opHandle off s)
    have hfa : fileAt key (stSeek .op off s).2 = fileAt key s := by unfold fileAt; rw [stSeek_files]
    rw [← hfa]
    generalize (stSeek .op off s).2 = u at hr hpos hon ⊢
    obtain ⟨hd, hh, hp⟩ := hpos
    unfold stRead at hr
    have hg : getHandle .op u = some hd := hh
    simp only [hg] at hr
    split at hr
    · simp at hr
    · simp only at hr
      rw [fileOf_eq (hon hd hh), hp] at hr
      unfold readAt at hr
      split at hr
      · exact ⟨by assumption, (ReadAnswer.full.inj hr).symm⟩
      · simp at hr

/-- Without a failure seek-and-read answers what the file has there. -/
theorem seekRead_ok {key : Nat} {s : State} {hd : Handle} (hh : s.opHandle = some hd) (hk : fileKey s hd.id = key)
    {rest : List Answer} (ha : s.answers = .ok :: .ok :: rest) (off n : Nat) :
    ∃ p, seekRead off n s =
      (readAt (fileAt key s) off n,
       { s with
         trace := s.trace ++ [.stSeek .op off, .stRead .op n], answers := rest,
         opHandle := some ⟨hd.id, hd.mode, p⟩ }) := by
  unfold seekRead
  rw [stSeek_ok (h := .op) (hd := hd) off hh ha]
  simp only [if_true]
  rw [stRead_ok (h := .op) (hd := { hd with pos := off }) (rest := rest) n rfl rfl]
  have hfo : ∀ u : State, u.cfg = s.cfg → u.files = s.files → fileOf { hd with pos := off } u = fileAt key s := by
    intro u h1 h2
    rw [fileOf_eq (key := key) (by rw [fileKey_eq_of_cfg h1]; exact hk)]
    exact fileAt_of_files h2 key
  rw [hfo (setHandle .op (some { hd with pos := off }) { emit (.stSeek .op off) s with answers := .ok :: rest }) rfl rfl]
  refine ⟨off + (readAt (fileAt key s) off n).moved n, ?_⟩
  simp only [emit, setHandle, List.append_assoc, List.cons_append, List.nil_append]

/-- `t` is `s` after some of SRAM_LOAD's steps. -/
def LoadStep (s t : State) : Prop :=
  ∃ v sr rt es oh an fc sd,
    t = { s with
      sramSaved := v, sram := sr, rtc := rt, trace := s.trace ++ es, opHandle := oh, answers := an, freeCount := fc,
      stalled := sd } ∧
    ∀ e ∈ es, e.isStorage = true

theorem LoadStep.refl (s : State) : LoadStep s s :=
  ⟨_, _, _, [], _, _, _, _, by rw [List.append_nil], by simp⟩

theorem LoadStep.trans {s t u : State} (h₁ : LoadStep s t) (h₂ : LoadStep t u) : LoadStep s u := by
  obtain ⟨v, sr, rt, es, oh, an, fc, sd, rfl, h1⟩ := h₁
  obtain ⟨v', sr', rt', es', oh', an', fc', sd', rfl, h1'⟩ := h₂
  refine ⟨v', sr', rt', es ++ es', oh', an', fc', sd', ?_, ?_⟩
  · show _ = _
    rw [← List.append_assoc]
  · intro e he
    rcases List.mem_append.1 he with h | h
    · exact h1 e h
    · exact h1' e h

/-- Primitives on the operation's handle that change no file. -/
theorem OpStep.load {key : Nat} {s t : State} (h : OpStep key s t) (hf : t.files = s.files) : LoadStep s t := by
  obtain ⟨es, fs, oh, an, fc, sd, rfl, h1, -⟩ := h
  obtain rfl : fs = s.files := hf
  exact ⟨_, _, _, es, oh, an, fc, sd, rfl, h1⟩

theorem LoadStep.rest {s t : State} (h : LoadStep s t) :
    t.cfg = s.cfg ∧ t.cart = s.cart ∧ t.files = s.files ∧ t.sramDirty = s.sramDirty := by
  obtain ⟨_, _, _, _, _, _, _, _, rfl, -⟩ := h; exact ⟨rfl, rfl, rfl, rfl⟩

/-- One bank of the load loop (R129): restored in full from the file and marked, or left as it was. -/
theorem loadRamBank_law {key i : Nat} {s : State} (h : HandleOn key s) :
    LoadStep s (loadRamBank i s) ∧ (loadRamBank i s).opHandle.map (·.id) = s.opHandle.map (·.id) ∧
    (loadRamBank i s).rtc = s.rtc ∧
    ((loadRamBank i s).sramSaved = s.sramSaved ∧ (loadRamBank i s).sram = s.sram ∨
      (i + 1) * 8192 ≤ (fileAt key s).len ∧ (loadRamBank i s).sramSaved = setBit s.sramSaved i ∧
        (loadRamBank i s).sram = s.sram.splice (i * 8192) 8192 ((fileAt key s).data.slice (i * 8192) 8192)) := by
  unfold loadRamBank
  have h1 := seekRead_step (key := key) (ramOffset i) ramPage s
  have h2 := seekRead_opHandle (ramOffset i) ramPage s
  have h3 := seekRead_files (ramOffset i) ramPage s
  have h4 := fun b => seekRead_full (b := b) h (off := ramOffset i) (n := ramPage)
  generalize seekRead (ramOffset i) ramPage s = r at h1 h2 h3 h4
  obtain ⟨b, u⟩ := r
  cases b with
  | full b =>
    obtain ⟨f1, f2⟩ := h4 b rfl
    subst f2
    refine ⟨(h1.load h3).trans ⟨_, _, _, [], _, _, _, _, by rw [List.append_nil]; rfl, by simp⟩, h2, h1.rtc, .inr ⟨?_, ?_, ?_⟩⟩
    · have f1' : i * 8192 + 8192 ≤ (fileAt key s).len := f1
      omega
    · show setBit u.sramSaved i = _
      rw [h1.masks.2]
    · show u.sram.splice _ _ _ = _
      rw [h1.sram]; rfl
  | eof k b => exact ⟨h1.load h3, h2, h1.rtc, .inl ⟨h1.masks.2, h1.sram⟩⟩
  | fail => exact ⟨h1.load h3, h2, h1.rtc, .inl ⟨h1.masks.2, h1.sram⟩⟩

theorem loadRamBanks_succ {i k : Nat} {s : State} (h : s.stalled = false) :
    loadRamBanks i (k + 1) s = loadRamBanks (i + 1) k (loadRamBank i s) := by simp [loadRamBanks, h]

theorem loadRamBanks_stalled {i k : Nat} {s : State} (h : s.stalled = true) : loadRamBanks i k s = s := by
  cases k <;> simp [loadRamBanks, h]

/-- A load loop that does nothing. -/
theorem loadRamBanks_none {key i k : Nat} {s : State} (hn : ∀ j, i ≤ j → bitOf s.sramSaved j = false)
    (e : loadRamBanks i k s = s) :
    LoadStep s (loadRamBanks i k s) ∧ (loadRamBanks i k s).opHandle.map (·.id) = s.opHandle.map (·.id) ∧
    (loadRamBanks i k s).rtc = s.rtc ∧
    (∀ j, (j < i ∨ i + k ≤ j) → bitOf (loadRamBanks i k s).sramSaved j = bitOf s.sramSaved j) ∧
    (∀ j, i ≤ j → bitOf (loadRamBanks i k s).sramSaved j = true → j < i + k ∧ (j + 1) * 8192 ≤ (fileAt key s).len) ∧
    ∀ j off, off < 8192 →
      (loadRamBanks i k s).sram.read (j * 8192 + off) =
        if i ≤ j ∧ bitOf (loadRamBanks i k s).sramSaved j = true then (fileAt key s).data.read (j * 8192 + off)
        else s.sram.read (j * 8192 + off) := by
  rw [e]
  refine ⟨.refl s, rfl, rfl, fun _ _ => rfl, fun j hj hb => ?_, fun j off ho => ?_⟩
  · rw [hn j hj] at hb; simp at hb
  · rw [if_neg]
    rintro ⟨hj, hb⟩
    rw [hn j hj] at hb; simp at hb

/-- The load loop under any storage, none of the banks to come being marked saved. -/
theorem loadRamBanks_law {key : Nat} (k : Nat) {i : Nat} {s : State} (h : HandleOn key s) (hi : i + k ≤ 32)
    (hn : ∀ j, i ≤ j → bitOf s.sramSaved j = false) :
    LoadStep s (loadRamBanks i k s) ∧ (loadRamBanks i k s).opHandle.map (·.id) = s.opHandle.map (·.id) ∧
    (loadRamBanks i k s).rtc = s.rtc ∧
    (∀ j, (j < i ∨ i + k ≤ j) → bitOf (loadRamBanks i k s).sramSaved j = bitOf s.sramSaved j) ∧
    (∀ j, i ≤ j → bitOf (loadRamBanks i k s).sramSaved j = true → j < i + k ∧ (j + 1) * 8192 ≤ (fileAt key s).len) ∧
    ∀ j off, off < 8192 →
      (loadRamBanks i k s).sram.read (j * 8192 + off) =
        if i ≤ j ∧ bitOf (loadRamBanks i k s).sramSaved j = true then (fileAt key s).data.read (j * 8192 + off)
        else s.sram.read (j * 8192 + off) := by
  induction k generalizing i s with
  | zero => exact loadRamBanks_none hn rfl
  | succ k ih =>
    cases hst : s.stalled with
    | true => exact loadRamBanks_none hn (loadRamBanks_stalled hst)
    | false =>
    obtain ⟨a1, a2, a3, a4⟩ := loadRamBank_law (i := i) h
    have h' : HandleOn key (loadRamBank i s) := h.of_id a1.rest.1 a2
    have hb : ∀ j, j ≠ i → bitOf (loadRamBank i s).sramSaved j = bitOf s.sramSaved j := by
      intro j hj
      rcases a4 with ⟨e1, -⟩ | ⟨-, e1, -⟩
      · rw [e1]
      · rw [e1, bitOf_setBit]; simp [hj]
    obtain ⟨b1, b2, b3, b4, b5, b6⟩ := ih (i := i + 1) h' (by omega)
      (fun j hj => by rw [hb j (by omega)]; exact hn j (by omega))
    have hfa := fileAt_of_files a1.rest.2.2.1 key
    rw [hfa] at b5 b6
    have ee : loadRamBanks i (k + 1) s = loadRamBanks (i + 1) k (loadRamBank i s) := loadRamBanks_succ hst
    rw [ee]
    refine ⟨a1.trans b1, b2.trans a2, b3.trans a3, fun j hj => ?_, fun j hj hbj => ?_, fun j off ho => ?_⟩
    · rw [b4 j (by omega), hb j (by omega)]
    · by_cases hji : j = i
      · subst hji
        rw [b4 j (by omega)] at hbj
        rcases a4 with ⟨e1, -⟩ | ⟨e2, e1, -⟩
        · rw [e1, hn j (Nat.le_refl j)] at hbj; simp at hbj
        · exact ⟨by omega, e2⟩
      · obtain ⟨c1, c2⟩ := b5 j (by omega) hbj
        exact ⟨by omega, c2⟩
    · rw [b6 j off ho]
      by_cases hji : j = i
      · subst hji
        rw [if_neg (by omega), b4 j (by omega)]
        rcases a4 with ⟨e1, e3⟩ | ⟨e2, e1, e3⟩
        · rw [e1, e3, if_neg]
          rintro ⟨-, hb'⟩; rw [hn j (Nat.le_refl j)] at hb'; simp at hb'
        · rw [e1, e3, if_pos ⟨Nat.le_refl j, by rw [bitOf_setBit]; simp; right; omega⟩, Memory.read_splice,
            if_pos (by omega), show j * 8192 + off - j * 8192 = off by omega, Memory.read_slice, if_pos ho]
      · have hsr : (loadRamBank i s).sram.read (j * 8192 + off) = s.sram.read (j * 8192 + off) := by
          rcases a4 with ⟨-, e3⟩ | ⟨-, -, e3⟩
          · rw [e3]
          · rw [e3, Memory.read_splice, if_neg (by rcases Nat.lt_or_gt_of_ne hji with h | h <;> omega)]
        rw [hsr]
        by_cases hij : i ≤ j
        · by_cases hbj : bitOf (loadRamBanks (i + 1) k (loadRamBank i s)).sramSaved j = true
          · rw [if_pos ⟨by omega, hbj⟩, if_pos ⟨hij, hbj⟩]
          · rw [if_neg (fun x => hbj x.2), if_neg (fun x => hbj x.2)]
        · rw [if_neg (by omega), if_neg (by omega)]

/-- The clock record under any storage (R130): loaded from where it stands in the file, or the clock left as it was. -/
theorem loadClock_law {key : Nat} {s : State} (h : HandleOn key s) :
    LoadStep s (loadClock s) ∧ (loadClock s).opHandle.map (·.id) = s.opHandle.map (·.id) ∧
    (loadClock s).sramSaved = s.sramSaved ∧ (loadClock s).sram = s.sram ∧
    ((loadClock s).rtc = s.rtc ∨ s.cart.hasRtc = true ∧ s.cart.ramsize * 8192 + 48 ≤ (fileAt key s).len ∧
      ClockLoadedFrom (fileAt key s).data (s.cart.ramsize * 8192) s.rtc (loadClock s).rtc) := by
  unfold loadClock
  split_ifs with hst hr
  · exact ⟨.refl s, rfl, rfl, rfl, .inl rfl⟩
  · have h1 := seekRead_step (key := key) (ramOffset s.cart.ramsize) rtcRecSize s
    have h2 := seekRead_opHandle (ramOffset s.cart.ramsize) rtcRecSize s
    have h3 := seekRead_files (ramOffset s.cart.ramsize) rtcRecSize s
    have h4 := fun b => seekRead_full (b := b) h (off := ramOffset s.cart.ramsize) (n := rtcRecSize)
    generalize seekRead (ramOffset s.cart.ramsize) rtcRecSize s = r at h1 h2 h3 h4
    obtain ⟨b, u⟩ := r
    cases b with
    | full b =>
      obtain ⟨f1, f2⟩ := h4 b rfl
      subst f2
      refine ⟨(h1.load h3).trans ⟨_, _, _, [], _, _, _, _, by rw [List.append_nil]; rfl, by simp⟩, h2, h1.masks.2, h1.sram,
        .inr ⟨hr, f1, ?_⟩⟩
      show ClockLoadedFrom _ _ _ (rtcUnpack _ u.rtc)
      rw [h1.rtc]
      exact clockLoadedFrom_of _ _ _
    | eof k b => exact ⟨h1.load h3, h2, h1.masks.2, h1.sram, .inl h1.rtc⟩
    | fail => exact ⟨h1.load h3, h2, h1.masks.2, h1.sram, .inl h1.rtc⟩
  · exact ⟨.refl s, rfl, rfl, rfl, .inl rfl⟩

end Sys2Proof.Machine
end

