-- ==== Sys2Proof/Tests/Slice0.lean ====
section
/-! SUPPORT. The model's own tests: the words and values of spec/95_test_vectors.md, the WellFormed smoke test, and for
every obligation with hypotheses a concrete state that meets them. No test rests on a value the model chose. -/

namespace Sys2Proof.Machine.Tests

set_option Elab.async false

open Sys2Proof Sys2Proof.Machine

/-! ### Small states -/

/-- A check on the next state of an outcome. -/
def nextIs (p : State → Bool) : Host.Outcome State Fault Refusal → Bool
  | .next t => p t
  | .fault _ => false
  | .refused _ => false

/-- ROM_A of 95_test_vectors.md section 0, with the bytes the tests read: header, and some bytes of banks 1 and 3. -/
def romA : File :=
  ⟨65536, Memory.ofBytesAt 0x134 [0x54, 0x45, 0x53, 0x54, 0x43, 0x41, 0x52, 0x54] ++
    [(0x147, 0x03), (0x148, 0x01), (0x149, 0x03), (0x14E, 0x34), (0x14F, 0x12), (0x3FFF, 0x0F), (0x4000, 0x10),
     (0x4ABC, 0x1C), (0xFFFF, 0x3F)]⟩

/-- ROM_A with another byte in its header. -/
def romWith (a : Nat) (b : Byte) : File := ⟨65536, romA.data.write a b⟩

/-- Right after reset with a file in STORAGE, whose next primitives do not fail. -/
def withFile (id : Nat) (f : File) (k : Nat) : State :=
  { State.reset with files := [(id, f)], answers := List.replicate k .ok, choices := [0, 0, 0, 0] }

/-- The cartridge record of ROM_A (V-H1). -/
def cartA : Cart :=
  { loaded := true, title := [0x54, 0x45, 0x53, 0x54, 0x43, 0x41, 0x52, 0x54, 0, 0, 0, 0, 0, 0, 0, 0], mbc := 1,
    hwfamily := .legacy, romsize := 4, ramsize := 4, hasBattery := true, hasRtc := false, hasRumble := false,
    hasMotion := false, colorkey := 0, cksum := 0x1234 }

/-- ROM_A loaded with a pool of `p` frames, bank 0 in frame 0, an idle block, `k` primitives that do not fail. -/
def idleA (p k : Nat) : State :=
  { State.resetWith { Config.reference with poolSize := p } with
    cart := cartA, cartFileOpen := true, cartFileId := 1, cartHandle := some ⟨1, .read, 512⟩, ramPages := 4,
    files := [(1, romA)], slot := [(0, 0)], ftag := [(0, 0)], pool := romA.data.slice 0 16384,
    answers := List.replicate k .ok, choices := [0, 0] }

/-- The same block inside a LINE quantum of a FRAME. -/
def lineA (p k : Nat) : State :=
  { idleA p k with busy := true, phase := .p2, run := some ⟨228, .line⟩, ly := 20, lineCycles := 228, lcdOn := true }

/-- ROM_A's cartridge with a clock at 23:59:59 of day 365 (V-T3). -/
def clockA (k : Nat) : State :=
  { idleA 2 k with
    cart := { cartA with hasRtc := true }, rtc := { Rtc.zero with sec := 59, min := 59, hour := 23, day := 365 } }

/-! ### WellFormed -/

theorem test_wf_bank_too_large : (Instr.bankLoad 65536).wellFormed = false := by decide
theorem test_wf_count_too_large : (Instr.preload 65536).wellFormed = false := by decide
theorem test_wf_largest : (Instr.bankLoad 65535).wellFormed = true ∧ (Instr.preload 65535).wellFormed = true := by decide

/-! ### Decoding: V-E1 to V-E15, words from the tables of R61, R64, R74 -/

theorem test_decode_cart_load : decode .command 0x01000001 = .ok (.cartLoad 1) := by rfl
theorem test_decode_cart_unload : decode .command 0x02000000 = .ok .cartUnload := by rfl
theorem test_decode_bank_load : decode .command 0x03000005 = .ok (.bankLoad 5) := by rfl
theorem test_decode_preload : decode .command 0x04000040 = .ok (.preload 64) := by rfl
theorem test_decode_sram_save :
    decode .command 0x05000007 = .ok (.sramSave 7 false) ∧ decode .command 0x05010007 = .ok (.sramSave 7 true) :=
  ⟨rfl, rfl⟩
theorem test_decode_sram_load : decode .command 0x06000007 = .ok (.sramLoad 7) := by rfl
theorem test_decode_state_save : decode .command 0x07000009 = .ok (.stateSave 9) := by rfl
theorem test_decode_state_load : decode .command 0x08000009 = .ok (.stateLoad 9) := by rfl
theorem test_decode_frame :
    decode .command 0x09000000 = .ok (.frame false) ∧ decode .command 0x09010000 = .ok (.frame true) := ⟨rfl, rfl⟩
theorem test_decode_rtc_get : decode .command 0x0A000000 = .ok .rtcGet := by rfl
theorem test_decode_rtc_set : decode .command 0x0B000000 = .ok .rtcSet := by rfl
theorem test_decode_rd : decode .bus 0x00014700 = .ok (.rd 0x0147) := by rfl
theorem test_decode_wr : decode .bus 0x01A0105A = .ok (.wr 0xA010 0x5A) := by rfl
theorem test_decode_selrom : decode .bus 0x02000700 = .ok (.selrom 7) := by rfl
theorem test_decode_selram : decode .bus 0x03000003 = .ok (.selram 3) := by rfl

/-- V-E10 and V-E11. -/
theorem test_decode_reserved_commands :
    (decode .command 0x00000000).toOption = none ∧ (decode .command 0x0C000000).toOption = none ∧
    (decode .command 0xFF000000).toOption = none ∧ (decode .command 0x09020000).toOption = none ∧
    (decode .command 0x02000001).toOption = none ∧ (decode .command 0x0A010000).toOption = none ∧
    (decode .command 0x09000005).toOption = none := ⟨rfl, rfl, rfl, rfl, rfl, rfl, rfl⟩

/-- V-E15. -/
theorem test_decode_reserved_bus :
    (decode .bus 0x04000000).toOption = none ∧ (decode .bus 0x08000000).toOption = none ∧
    (decode .bus 0x00A00001).toOption = none ∧ (decode .bus 0x03000100).toOption = none := ⟨rfl, rfl, rfl, rfl⟩

/-- The words of programs P1 to P3, encoded. -/
theorem test_encode_programs :
    encode (.frame true) = 0x09010000 ∧ encode (.wr 0xA000 0x77) = 0x01A00077 ∧
    encode (.rd 0x5C3F) = 0x005C3F00 ∧ encode (.selrom 2) = 0x02000200 ∧ encode (.sramSave 8 false) = 0x05000008 ∧
    encode (.bankLoad 8) = 0x03000008 := by decide

/-- The decoder vectors of section 2.1, with `rombank` = 7 and `rambank` = 2 (R114). -/
theorem test_window :
    window 7 2 0x0000 = .rom 0 0x0000 ∧ window 7 2 0x3FFF = .rom 0 0x3FFF ∧ window 7 2 0x4000 = .rom 7 0x0000 ∧
    window 7 2 0x4ABC = .rom 7 0x0ABC ∧ window 7 2 0x7FFF = .rom 7 0x3FFF ∧ window 7 2 0x8000 = .outside ∧
    window 7 2 0x9FFF = .outside ∧ window 7 2 0xA000 = .ram 2 0x0000 ∧ window 7 2 0xBFFF = .ram 2 0x1FFF ∧
    window 7 2 0xC000 = .outside ∧ window 7 2 0xFFFF = .outside := by decide

/-! ### One step of each operation -/

/-- V-H1. -/
theorem test_cart_load_rom_a :
    nextIs (fun t => t.cart == cartA && t.result == 0 && t.rombank == 1 && t.ramPages == 4 && t.warn == 0 &&
      residents t == [0, 1, 2, 3] &&
      t.trace == [.stOpen .cart 1 .read, .stRead .cart 512, .palRebuild, .stSeek .cart 0, .stRead .cart 16384,
        .stSeek .cart 16384, .stRead .cart 16384, .stSeek .cart 32768, .stRead .cart 16384, .stSeek .cart 49152,
        .stRead .cart 16384]) (exec (.cartLoad 1) (withFile 1 romA 10)) = true := by decide +kernel

/-- V-H5: the clamped RAM code warns after the header read and before the palette event. -/
theorem test_cart_load_clamps_ram :
    nextIs (fun t => t.cart.ramsize == 1 && t.warn == 2 && t.result == 0 &&
      t.trace.take 4 == [.stOpen .cart 1 .read, .stRead .cart 512, .warn .ramsize, .palRebuild])
      (exec (.cartLoad 1) (withFile 1 (romWith 0x149 7) 10)) = true := by decide +kernel

/-- V-X5 and R110. -/
theorem test_cart_unload :
    nextIs (fun t => t.cart == Cart.empty && t.warn == 0 && t.slot == [] && t.cartFileOpen == false && t.result == 0 &&
      t.rombank == 7 && t.trace == [.stClose .cart])
      (exec .cartUnload { idleA 2 1 with warn := 2, rombank := 7 }) = true := by decide +kernel

/-- R103 with S10: bank 1 is read from offset 16384. -/
theorem test_bank_load_miss :
    nextIs (fun t => slotOf t 1 == some 1 && readFrame t 1 0xABC == 0x1C && t.result == 0 &&
      t.trace == [.stSeek .cart 16384, .stRead .cart 16384])
      (exec (.bankLoad 1) (idleA 2 2)) = true := by decide +kernel

/-- V-B10 and V-B11. -/
theorem test_bank_load_hit_and_range :
    nextIs (fun t => t.trace == [] && t.result == 0) (exec (.bankLoad 0) (idleA 2 0)) = true ∧
    nextIs (fun t => t.result == 0xFFFFFFFF) (exec (.bankLoad 4) (idleA 2 0)) = true := by decide +kernel

/-- V-B12. -/
theorem test_preload_bounds :
    nextIs (fun t => t.trace == [] && t.result == 0) (exec (.preload 0) (idleA 2 0)) = true ∧
    nextIs (fun t => t.result == 0xFFFFFFFF) (exec (.preload 5) (idleA 2 0)) = true := by decide +kernel

/-- V-S1: the quick save of a cartridge never saved writes every bank. -/
theorem test_sram_save_quick :
    nextIs (fun t => t.sramDirty == 0 && t.sramSaved == 0b1111 && t.result == 0 && (fileNamed t 7).len == 32768 &&
      t.trace.head? == some (.stOpen .op 7 .writeUpdate) && t.trace.length == 10)
      (exec (.sramSave 7 true) (idleA 2 10)) = true := by decide +kernel

/-- V-S4: the write of bank 1 fails. -/
theorem test_sram_save_failing_bank :
    nextIs (fun t => t.sramDirty == 0b0010 && t.sramSaved == 0b1101 && t.result == 0xFFFFFFFE)
      (exec (.sramSave 7 false)
        { idleA 2 0 with answers := [.ok, .ok, .ok, .ok, .fail, .ok, .ok, .ok, .ok, .ok] }) = true := by
  decide +kernel

/-- V-S6: a file of two banks. -/
theorem test_sram_load_short_file :
    nextIs (fun t => t.sramSaved == 0b0011 && t.sramDirty == 0 && t.result == 0 && readRam t 1 3 == 0x42 &&
      readRam t 2 5 == 0x99)
      (exec (.sramLoad 7)
        { idleA 2 10 with
          files := [(1, romA), (7, ⟨16384, [(8195, 0x42)]⟩)], sram := [(16389, 0x99)], sramDirty := 0b1111 }) =
      true := by decide +kernel

/-- V-S7: the marks are cleared although the file is absent. -/
theorem test_sram_load_absent_file :
    nextIs (fun t => t.sramSaved == 0 && t.sramDirty == 0 && t.result == 0xFFFFFFFE)
      (exec (.sramLoad 8) { idleA 2 1 with sramDirty := 1, sramSaved := 2 }) = true := by decide +kernel

/-- The start state of V-P1. -/
def beforeSave : State := { idleA 2 15 with rambank := 2, mreg := [(0, 0x1234)], oam := [(159, 0x99)] }

/-- V-P1. -/
theorem test_state_save_header :
    nextIs (fun t => (fileNamed t 9).len == 53248 && t.result == 0 && t.trace.length == 15 &&
      (fileNamed t 9).data.bytes 0 40 ==
        [0x56, 0x45, 0x52, 0x53, 0x07, 0x01, 0x00, 0x00, 0x72, 0x62, 0x6E, 0x6B, 0x02, 0x00, 0x00, 0x00,
         0x62, 0x6F, 0x6F, 0x74, 0x00, 0x00, 0x00, 0x00, 0x70, 0x63, 0x20, 0x20, 0x34, 0x12, 0x00, 0x00,
         0x00, 0x00, 0x00, 0x00, 0x00, 0x00, 0x00, 0x00] &&
      (fileNamed t 9).data.read 0x0F9F == 0x99)
      (exec (.stateSave 9) beforeSave) = true := by decide +kernel

/-- V-P13: the fifth write fails. -/
theorem test_state_save_fifth_write :
    nextIs (fun t => t.result == 0xFFFFFFFE && t.trace.length == 7 && t.trace.getLast? == some (.stClose .op))
      (exec (.stateSave 9) { beforeSave with answers := [.ok, .ok, .ok, .ok, .ok, .fail, .ok] }) = true := by
  decide +kernel

/-- A state file of the given records (V-P2 to V-P7). -/
def stateFile (records : List Byte) : File := ⟨53248, Memory.ofBytes records⟩

/-- V-P3: the version differs by its low byte. -/
theorem test_state_load_version :
    nextIs (fun t => t.loadedVersion == 0x106 && t.warn == 1 && t.rambank == 2 && readReg t (.other 0) == 0x1234 &&
      t.bootromDisable && t.result == 0 &&
      t.trace.drop 15 == [.warn .version, .palRebuild, .sndDirty, .memRemap])
      (exec (.stateLoad 9)
        { idleA 2 15 with
          files := [(9, stateFile [0x56, 0x45, 0x52, 0x53, 0x06, 0x01, 0x00, 0x00, 0x72, 0x62, 0x6E, 0x6B, 0x02, 0x00,
            0x00, 0x00, 0x62, 0x6F, 0x6F, 0x74, 0x00, 0x00, 0x00, 0x00, 0x70, 0x63, 0x20, 0x20, 0x34, 0x12])] }) =
      true := by decide +kernel

/-- V-P6 with V-P7: the first match wins, and its value is masked by `ramsize - 1` = 3. -/
theorem test_state_load_first_match :
    nextIs (fun t => t.loadedVersion == 0x107 && t.warn == 0 && t.rambank == 3 && readReg t (.other 0) == 0)
      (exec (.stateLoad 9)
        { idleA 2 15 with
          mreg := [(0, 5)],
          files := [(9, stateFile [0x56, 0x45, 0x52, 0x53, 0x07, 0x01, 0x00, 0x00, 0x72, 0x62, 0x6E, 0x6B, 0x0B, 0x00,
            0x00, 0x00, 0x72, 0x62, 0x6E, 0x6B, 0x01, 0x00, 0x00, 0x00])] }) = true := by decide +kernel

/-- The first line of V-F1. -/
theorem test_frame_starts :
    nextIs (fun t => t.trace == [.run 2280 .head] && t.frameCycles == 2280 && t.rtcTicks == 2283 && t.busy &&
      t.phase == .p1 && t.renderEnable)
      (exec (.frame true) { idleA 2 0 with rtcTicks := 3, frameCycles := 9 }) = true := by decide +kernel

/-- V-F10. -/
theorem test_frame_without_cartridge :
    nextIs (fun t => t.result == 0xFFFFFFFF && t.renderEnable && t.frameCycles == 9 && t.trace == [])
      (exec (.frame false) { State.reset with renderEnable := true, frameCycles := 9 }) = true := by decide +kernel

/-- R134 on V-R1's clock. -/
theorem test_rtc_get :
    nextIs (fun t => t.xd == #v[30, 15, 7, 100, 0x40, 1, 2, 3, 4, 5] && t.result == 0)
      (exec .rtcGet { State.reset with rtc := ⟨30, 15, 7, 100, 9, 8, 0x40, #v[1, 2, 3, 4, 5]⟩ }) = true := by
  decide +kernel

/-- V-T11 with V-T12's truncation; latch and select stay. -/
theorem test_rtc_set :
    nextIs (fun t => t.rtc == ⟨0x78, 0, 0, 100, 9, 8, 0, #v[0, 0, 0, 0, 0]⟩ && t.result == 0)
      (exec .rtcSet
        { State.reset with
          xd := #v[0x12345678, 0, 0, 100, 0, 0, 0, 0, 0, 0], rtc := ⟨30, 15, 7, 1, 9, 8, 0x40, #v[1, 2, 3, 4, 5]⟩ }) =
      true := by decide +kernel

/-- V-B1 and V-B3: a resident bank, and a miss through `rombank` = 1. -/
theorem test_rd_rom :
    nextIs (fun t => t.rdata == some 0x03) (exec (.rd 0x0147) (lineA 2 0)) = true ∧
    nextIs (fun t => t.rdata == some 0x1C) (exec (.rd 0x4ABC) (lineA 2 2)) = true := by decide +kernel

/-- V-B6 and V-B8: banks beyond the cartridge. -/
theorem test_rd_range :
    nextIs (fun t => t.halted && t.hcause == .range && t.busy) (exec (.rd 0x4000) { lineA 2 0 with rombank := 4 }) =
      true ∧
    nextIs (fun t => t.halted && t.hcause == .range) (exec (.rd 0xA000) { lineA 2 0 with rambank := 4 }) = true := by
  decide +kernel

/-- V-B7. -/
theorem test_wr_ram :
    nextIs (fun t => t.sramDirty == 0b0100 && t.sram == [(2 * 8192 + 0x10, 0x5A)])
      (exec (.wr 0xA010 0x5A) { lineA 2 0 with rambank := 2 }) = true := by decide +kernel

/-- V-B4 and V-B5. -/
theorem test_selrom :
    nextIs (fun t => t.rombank == 3) (exec (.selrom 3) (lineA 2 0)) = true ∧
    nextIs (fun t => t.rombank == 0) (exec (.selrom 0) (lineA 2 0)) = true := by decide +kernel

/-- V-B8: stored raw, beyond the cartridge's banks too. -/
theorem test_selram : nextIs (fun t => t.rambank == 4 && t.halted == false) (exec (.selram 4) (lineA 2 0)) = true := by
  decide +kernel

/-- V-T2, V-T3 and V-T7. -/
theorem test_rtc_advance :
    (rtcAdvance 2073888 32832 { clockA 0 with rtc := Rtc.zero }).rtc = { Rtc.zero with sec := 1 } ∧
    (rtcAdvance 2097000 228 (clockA 0)).rtc = { Rtc.zero with flags := 0x80 } ∧
    (rtcAdvance 2097000 228 { clockA 0 with rtc := { Rtc.zero with sec := 200 } }).rtc = { Rtc.zero with min := 1 } := by
  decide +kernel

/-- R210: a read that never answers leaves the block busy, and the next step changes nothing. -/
theorem test_hang :
    nextIs (fun t => t.busy && t.stalled && t.halted == false && t.result == 7 && nextIs (fun u => decide (u = t)) (step t))
      (exec (.bankLoad 1) { idleA 2 0 with result := 7, answers := [.ok, .never] }) = true := by decide +kernel

/-- R210: the close of CART_UNLOAD that never answers: banks and array are freed, the record and the file stay (R110). -/
theorem test_close_hangs :
    nextIs (fun t => t.busy && t.stalled && t.slot == [] && t.ramPages == 0 && t.cart == cartA && t.cartFileOpen &&
      t.trace == [.stClose .cart]) (exec .cartUnload { idleA 2 0 with answers := [.never] }) = true := by decide +kernel

/-- R200: reset between two quanta, after `ev_vblank`. -/
theorem test_reset_between_quanta :
    nextIs (fun t => t.phase == .p3 && t.busy)
      (core.run 1 { lineA 2 0 with run := none, ly := 144, host := [.resetAfter 1] }) = true ∧
    nextIs (fun t => t.phase == .idle && t.busy == false && t.trace == [])
      (core.run 2 { lineA 2 0 with run := none, ly := 144, host := [.resetAfter 1] }) = true := by decide +kernel

/-- V-R1: the record, byte for byte. -/
theorem test_rtc_record :
    rtcRecord 0 ⟨30, 15, 7, 100, 0, 0, 0x40, #v[1, 2, 3, 4, 5]⟩ =
      [0x1E, 0, 0, 0, 0x0F, 0, 0, 0, 0x07, 0, 0, 0, 0x64, 0, 0, 0, 0x40, 0, 0, 0, 1, 0, 0, 0, 2, 0, 0, 0, 3, 0, 0, 0,
       4, 0, 0, 0, 5, 0, 0, 0, 0x12, 0x3C, 0x84, 0, 0, 0, 0, 0] := by decide +kernel

/-! ### Witnesses: for each obligation with hypotheses, states and operands that meet all of them together

Each is named after its obligation. Where a statement has several clauses, each clause has its own values, at the ends of
its ranges. -/

theorem canonical_of {s : State}
    (h : (Memory.wf s.pool ∧ Memory.wf s.sram ∧ Memory.wf s.wram ∧ Memory.wf s.vram ∧ Memory.wf s.wave ∧
      Memory.wf s.ioregs ∧ Memory.wf s.pal) ∧ Memory.wf s.oam ∧ Memory.wf s.hdr ∧ Tab.wf s.slot ∧ Tab.wf s.ftag ∧
      Tab.wf s.mreg ∧ Tab.wf s.files ∧ ∀ e ∈ s.files, File.wf e.2) : MemoriesCanonical s := by
  obtain ⟨⟨h1, h2, h3, h4, h5, h6, h7⟩, h8, h9, h10, h11, h12, h13, h14⟩ := h
  exact ⟨h1, h2, h3, h4, h5, h6, h7, h8, h9, h10, h11, h12, h13, h14⟩

theorem tags_of {s : State}
    (h : (∀ e ∈ s.slot, Tab.get? s.ftag e.2 = some e.1 ∧ e.1 < s.cart.romsize ∧ e.2 < s.cfg.poolSize) ∧
      ∀ e ∈ s.ftag, Tab.get? s.slot e.2 = some e.1) : TagsAgree s :=
  ⟨fun _ _ => ⟨fun e => (h.1 _ (Tab.mem_of_get? e)).1, fun e => h.2 _ (Tab.mem_of_get? e)⟩,
   fun _ _ e => (h.1 _ (Tab.mem_of_get? e)).2⟩

theorem masks_of {s : State}
    (h : s.sramDirty.toNat < 2 ^ s.cart.ramsize ∧ s.sramSaved.toNat < 2 ^ s.cart.ramsize) : MasksInRange s := by
  intro i hi
  have hp := Nat.pow_le_pow_right (by decide : 0 < 2) hi
  exact ⟨Nat.testBit_lt_two_pow (by omega), Nat.testBit_lt_two_pow (by omega)⟩

theorem coherent_of {s : State} (h : ∀ e ∈ s.slot, e = (0, 0))
    (hp : s.pool = (fileNamed s s.cartFileId).data.slice 0 16384) : FramesCoherent s := by
  intro n f off hn ho
  have e := h _ (Tab.mem_of_get? hn)
  obtain ⟨rfl, rfl⟩ := Prod.mk.inj e
  unfold readFrame romByte memByte
  rw [hp, Memory.read_slice]
  simp [frameOffset, ho]

/-- The word list's clauses of R71, each with a word, on an idle block. -/
theorem witness_ReservedCommandWordRefused :
    ∀ w : Word, w ∈ [0x00000000, 0x0C000000, 0xFF000000, 0x09020000, 0x0A010000, 0x02000001, 0x09000005] →
      State.ready { idleA 2 0 with host := [.command w] } ∧ reservedCommand w ∧
      { idleA 2 0 with host := [.command w] }.host = .command w :: [] := by
  intro w hw
  refine ⟨⟨rfl, rfl, rfl⟩, ?_, rfl⟩
  simp only [List.mem_cons, List.not_mem_nil, or_false] at hw
  rcases hw with rfl | rfl | rfl | rfl | rfl | rfl | rfl <;> (unfold reservedCommand; decide)

theorem witness_ReservedBusWordHalts :
    ∀ w : Word, w ∈ [0x04000000, 0x08000000, 0x00A00001, 0x02000001, 0x03000100] →
      State.inQuantum { lineA 2 0 with env := [.bus w] } ∧ { lineA 2 0 with env := [.bus w] }.busy = true ∧
      reservedBus w ∧ { lineA 2 0 with env := [.bus w] }.env = .bus w :: [] := by
  intro w hw
  refine ⟨⟨rfl, rfl, rfl⟩, rfl, ?_, rfl⟩
  simp only [List.mem_cons, List.not_mem_nil, or_false] at hw
  rcases hw with rfl | rfl | rfl | rfl | rfl <;> (unfold reservedBus; decide)

theorem witness_DecodeReadsEncodedOperation : (Instr.bankLoad 65535).wellFormed = true := by decide

theorem witness_EncodeGivesBackDecodedWord :
    decode .command 0x0300FFFF = .ok (.bankLoad 65535) ∧ decode .bus 0x01FFFFFF = .ok (.wr 0xFFFF 0xFF) := ⟨rfl, rfl⟩

theorem witness_StepRunsTheDecodedOperation :
    (let s : State := { idleA 2 0 with host := [.command 0x0A000000] };
      s.ready ∧ s.host = .command 0x0A000000 :: [] ∧ decode .command 0x0A000000 = .ok .rtcGet) ∧
    (let s : State := { lineA 2 0 with env := [.bus 0x02000700] };
      s.inQuantum ∧ s.busy = true ∧ nextEnv s = .bus 0x02000700 ∧ decode .bus 0x02000700 = .ok (.selrom 7)) :=
  ⟨⟨⟨rfl, rfl, rfl⟩, rfl, rfl⟩, ⟨rfl, rfl, rfl⟩, rfl, rfl, rfl⟩

theorem witness_OperationsNotAccepted :
    (Instr.port .rtcGet = .command ∧ (lineA 2 0).busy = true ∧ { idleA 2 0 with halted := true }.halted = true ∧
      { idleA 2 0 with stalled := true }.stalled = true) ∧
    Instr.port (.rd 0) = .bus ∧ (idleA 2 0).run = none ∧ { lineA 2 0 with halted := true }.halted = true ∧
    { lineA 2 0 with stalled := true }.stalled = true := by
  decide +kernel

/-- No cartridge; the bank just beyond the cartridge and the count just beyond its size; no battery. -/
theorem witness_CommandsRefusedInPresentState :
    (State.reset.ready ∧ State.reset.cart.loaded = false) ∧ (idleA 2 0).ready ∧ (idleA 2 0).cart.loaded = true ∧
    (idleA 2 0).cart.romsize ≤ 4 ∧ (idleA 2 0).cart.romsize < 5 ∧
    { idleA 2 0 with cart := { cartA with hasBattery := false } }.cart.hasBattery = false := by decide +kernel

/-- A halted block and one that hangs, with either form of the reset input to come and with none. -/
theorem witness_HaltedBlockLeavesOnlyByReset :
    (∀ a, a = HostAct.reset ∨ a = .resetAfter 0 ∨ a = .resetAfter 7 →
      { lineA 2 0 with halted := true, hcause := .range, host := [a] }.halted = true ∧
      { lineA 2 0 with stalled := true, host := [a] }.stalled = true ∧
      ({ lineA 2 0 with host := [a] }.host = .reset :: [] ∨
        ∃ k, { lineA 2 0 with host := [a] }.host = .resetAfter k :: [])) ∧
    { lineA 2 0 with halted := true, hcause := .range }.halted = true ∧
    ({ lineA 2 0 with stalled := true }.halted = false ∧ { lineA 2 0 with stalled := true }.stalled = true) ∧
    (∀ rest, (lineA 2 0).host ≠ .reset :: rest) ∧ ∀ k rest, (lineA 2 0).host ≠ .resetAfter k :: rest := by
  refine ⟨?_, rfl, ⟨rfl, rfl⟩, fun _ h => (nomatch h), fun _ _ h => (nomatch h)⟩
  rintro a (rfl | rfl | rfl)
  · exact ⟨rfl, rfl, .inl rfl⟩
  · exact ⟨rfl, rfl, .inr ⟨0, rfl⟩⟩
  · exact ⟨rfl, rfl, .inr ⟨7, rfl⟩⟩

/-- A bus request beyond the cartridge, a fill that fails, and a CART_LOAD whose preload fails. -/
theorem witness_FatalErrorWritesOnlyTheHalt :
    nextIs (fun t => t.halted) (exec (.cartLoad 1) { withFile 1 romA 0 with answers := [.ok, .ok, .fail] }) = true ∧
    nextIs (fun t => t.halted) (exec (.rd 0x4000) { lineA 2 0 with rombank := 4 }) = true ∧
    nextIs (fun t => t.halted) (exec (.bankLoad 1) { idleA 2 0 with answers := [.fail] }) = true := by decide +kernel

theorem witness_ResetInputResetsTheBlock :
    (let s : State := { idleA 2 0 with host := [.reset] };
      s.busy = false ∧ s.host = .reset :: []) ∧
    (let s : State := { lineA 2 0 with stalled := true, host := [.resetAfter 4] };
      s.stalled = true ∧ s.host = .resetAfter 4 :: []) ∧
    (∀ k ∈ [0, 1],
      let s : State := { lineA 2 0 with run := none, host := [.resetAfter k] };
      s.halted = false ∧ s.stalled = false ∧ s.busy = true ∧ s.run = none ∧ s.host = .resetAfter k :: [] ∧
      nextIs (fun _ => true) (step { s with host := [] }) = true) ∧
    (let s : State := { lineA 2 0 with halted := true, hcause := .range, host := [.reset] };
      s.halted = true ∧ s.host = .reset :: []) ∧
    (let s : State := { lineA 2 0 with env := [.reset] };
      s.inQuantum ∧ s.busy = true ∧ nextEnv s = .reset) ∧
    let s : State := { idleA 2 0 with host := [.commandReset 0x05000007 3] };
    s.ready ∧ s.host = .commandReset 0x05000007 3 :: [] := by decide +kernel

theorem witness_RtcGetFillsTheWindow : State.reset.ready ∧ (idleA 2 0).ready := by decide +kernel

theorem witness_RtcSetTakesTheWindow : State.reset.ready ∧ (clockA 0).ready := by decide +kernel

/-- The last second of the calendar (V-T3), and its first. -/
theorem witness_ClockCountsTheSecondsDue :
    (clockA 0).cart.hasRtc = true ∧ (clockA 0).rtc.flags.getLsbD 6 = false ∧ ClockInRange (clockA 0).rtc ∧
    ClockInRange Rtc.zero := by
  unfold ClockInRange; decide +kernel

/-- Every field at the ends of its ranges: below the last value, at it, at 254 and at 255. -/
theorem witness_ClockDropsSecondsAndClampsFields :
    (idleA 2 0).cart.hasRtc = false ∧ { clockA 0 with rtc := { Rtc.zero with flags := 0x40 } }.rtc.flags.getLsbD 6 = true ∧
    ((clockA 0).cart.hasRtc = true ∧ (clockA 0).rtc.flags.getLsbD 6 = false) ∧
    ((58 : Byte).toNat < 59 ∧ (255 : Byte).toNat = 255 ∧ 59 ≤ (59 : Byte).toNat ∧ (254 : Byte).toNat ≤ 254) ∧
    ((22 : Byte).toNat < 23 ∧ 23 ≤ (23 : Byte).toNat) ∧ (364 : Half).toNat < 365 ∧ 365 ≤ (365 : Half).toNat ∧
    365 ≤ (65535 : Half).toNat := by decide +kernel

theorem witness_SelectorsAreStoredRaw : (lineA 2 0).inQuantum := by decide +kernel

/-- The last ROM address, and the first and last addresses of the two windows outside the block. -/
theorem witness_RequestsOutsideTheBlockChangeNothing :
    (lineA 2 0).inQuantum ∧ (0x7FFF : Half).toNat < 0x8000 ∧
    (0x8000 ≤ (0x8000 : Half).toNat ∧ (0x9FFF : Half).toNat < 0xA000) ∧ 0xC000 ≤ (0xC000 : Half).toNat ∧
    0xC000 ≤ (0xFFFF : Half).toNat := by decide +kernel

/-- The first and last addresses of the window, the last bank and the one beyond it. -/
theorem witness_BatteryRamWindow :
    (lineA 2 0).inQuantum ∧ MemoriesCanonical (lineA 2 0) ∧ 0xA000 ≤ (0xA000 : Half).toNat ∧
    (0xBFFF : Half).toNat < 0xC000 ∧
    { lineA 2 0 with rambank := 3 }.rambank.toNat < (lineA 2 0).cart.ramsize ∧
    (lineA 2 0).cart.ramsize ≤ { lineA 2 0 with rambank := 4 }.rambank.toNat :=
  ⟨by decide +kernel, canonical_of (by decide +kernel), by decide, by decide, by decide, by decide⟩

/-- ROM0's last address with bank 0, ROMX's first and last with the selected bank, the last bank and the one beyond. -/
theorem witness_RomWindowHitAndRange :
    (lineA 2 0).inQuantum ∧ (0x3FFF : Half).toNat < 0x4000 ∧
    (0x4000 ≤ (0x4000 : Half).toNat ∧ (0x7FFF : Half).toNat < 0x8000 ∧ 3 = { lineA 2 0 with rombank := 3 }.rombank.toNat) ∧
    (0 < (lineA 2 0).cart.romsize ∧ slotOf (lineA 2 0) 0 = some 0) ∧ 3 < (lineA 2 0).cart.romsize ∧
    slotOf { lineA 2 0 with slot := [(3, 1)] } 3 = some 1 ∧ (lineA 2 0).cart.romsize ≤ 4 ∧
    4 = { lineA 2 0 with rombank := 4 }.rombank.toNat := by decide +kernel

/-- A hit in bank 0, and a miss in the last bank, with one frame free and with none. -/
theorem witness_RomReadGivesTheFileByte :
    (∀ p, p = 1 ∨ p = 2 → (lineA p 2).inQuantum ∧ MemoriesCanonical (lineA p 2) ∧ TagsAgree (lineA p 2) ∧
      FramesCoherent (lineA p 2) ∧ CartHandleOpen (lineA p 2) ∧ 1 ≤ (lineA p 2).cfg.poolSize ∧
      (lineA p 2).storageOk 2) ∧
    (0x3FFF : Half).toNat < 0x4000 ∧ 0x4000 ≤ (0x7FFF : Half).toNat ∧
    3 = { lineA 2 2 with rombank := 3 }.rombank.toNat ∧ 3 < (lineA 2 2).cart.romsize := by
  refine ⟨?_, by decide, by decide, by decide, by decide⟩
  rintro p (rfl | rfl)
  · exact ⟨by decide +kernel, canonical_of (by decide +kernel), tags_of (by decide +kernel),
      coherent_of (by decide +kernel) rfl, by decide +kernel, by decide +kernel, by decide +kernel⟩
  · exact ⟨by decide +kernel, canonical_of (by decide +kernel), tags_of (by decide +kernel),
      coherent_of (by decide +kernel) rfl, by decide +kernel, by decide +kernel, by decide +kernel⟩

theorem witness_BankLoadHitChangesNothing :
    (idleA 2 0).ready ∧ (idleA 2 0).cart.loaded = true ∧ 0 < (idleA 2 0).cart.romsize ∧
    (slotOf (idleA 2 0) 0).isSome = true := by decide +kernel

theorem witness_BankLoadFillsAFreeFrame :
    (idleA 2 2).ready ∧ (idleA 2 2).cart.loaded = true ∧ 3 < (idleA 2 2).cart.romsize ∧ MemoriesCanonical (idleA 2 2) ∧
    CartHandleOpen (idleA 2 2) ∧ (idleA 2 2).storageOk 2 ∧ slotOf (idleA 2 2) 3 = none ∧
    ∃ g, g < (idleA 2 2).cfg.poolSize ∧ ftagOf (idleA 2 2) g = none :=
  ⟨by decide +kernel, rfl, by decide +kernel, canonical_of (by decide +kernel), rfl, by decide +kernel, rfl, 1,
    by decide +kernel⟩

theorem witness_BankLoadEvictsOneResident :
    (idleA 1 2).ready ∧ (idleA 1 2).cart.loaded = true ∧ 3 < (idleA 1 2).cart.romsize ∧ MemoriesCanonical (idleA 1 2) ∧
    TagsAgree (idleA 1 2) ∧ CartHandleOpen (idleA 1 2) ∧ (idleA 1 2).storageOk 2 ∧ slotOf (idleA 1 2) 3 = none ∧
    1 ≤ (idleA 1 2).cfg.poolSize ∧ (∀ g, g < (idleA 1 2).cfg.poolSize → ftagOf (idleA 1 2) g ≠ none) ∧
    slotOf (idleA 1 2) 0 = some 0 := by
  refine ⟨by decide +kernel, rfl, by decide +kernel, canonical_of (by decide +kernel), tags_of (by decide +kernel), rfl,
    by decide +kernel, rfl, by decide +kernel, ?_, rfl⟩
  intro g hg
  obtain rfl : g = 0 := by change g < 1 at hg; omega
  decide +kernel

/-- A frame free and none free; the seek or the read fails or never answers; the first absent bank and the last; bank 0
absent, for a read in ROM0. -/
theorem witness_FillFailureHalts :
    (∀ p ∈ [1, 2], ∀ a ∈ [Answer.fail, .never], ∀ l ∈ [[a], [.ok, a]],
      (let s : State := { idleA p 0 with answers := l };
      s.ready ∧ s.cart.loaded = true ∧ 3 < s.cart.romsize ∧ s.cartHandle.isSome = true ∧ slotOf s 3 = none ∧
      slotOf s 1 = none ∧ (p = 2 → 1 < s.cfg.poolSize ∧ ftagOf s 1 = none) ∧ (slotOf s 0).isSome = true ∧ a ≠ .ok ∧
      (s.answers = a :: [] ∨ s.answers = .ok :: a :: []) ∧ 1 < 4 ∧ 4 ≤ s.cart.romsize ∧
      ∀ m ∈ List.range 1, (slotOf s m).isSome = true) ∧
      let s : State := { lineA p 0 with answers := l, rombank := 3 };
      s.inQuantum ∧ s.cartHandle.isSome = true ∧ 3 = s.rombank.toNat ∧ slotOf s 3 = none ∧
      0x4000 ≤ (0x4000 : Half).toNat ∧ (0x7FFF : Half).toNat < 0x8000) ∧
    let s : State := { lineA 1 0 with answers := [.fail], slot := [(3, 0)], ftag := [(0, 3)] };
    s.inQuantum ∧ slotOf s 0 = none ∧ (slotOf s 3).isSome = true ∧ (0x3FFF : Half).toNat < 0x4000 := by decide +kernel

/-- The largest count of the cartridge, with a pool that holds it and with one that does not; count 0. -/
theorem witness_PreloadMakesBanksResident :
    (∀ p, p = 2 ∨ p = 5 → (idleA p 8).ready ∧ (idleA p 8).cart.loaded = true ∧ 4 ≤ (idleA p 8).cart.romsize ∧
      MemoriesCanonical (idleA p 8) ∧ TagsAgree (idleA p 8) ∧ FramesCoherent (idleA p 8) ∧ CartHandleOpen (idleA p 8) ∧
      1 ≤ (idleA p 8).cfg.poolSize ∧ (idleA p 8).storageOk (2 * 4)) ∧
    4 ≤ (freeFrames (idleA 5 8)).length := by
  refine ⟨?_, by decide +kernel⟩
  rintro p (rfl | rfl)
  · exact ⟨by decide +kernel, rfl, by decide +kernel, canonical_of (by decide +kernel), tags_of (by decide +kernel),
      coherent_of (by decide +kernel) rfl, rfl, by decide +kernel, by decide +kernel⟩
  · exact ⟨by decide +kernel, rfl, by decide +kernel, canonical_of (by decide +kernel), tags_of (by decide +kernel),
      coherent_of (by decide +kernel) rfl, rfl, by decide +kernel, by decide +kernel⟩

/-- A close that returns, one that never answers, and no file open. -/
theorem witness_CartUnloadFreesEverything :
    (∀ a ∈ [Answer.ok, .fail, .never],
      let s : State := { idleA 2 0 with answers := [a] };
      s.ready ∧ s.cartFileOpen = true ∧ nextAnswer s = a) ∧
    State.reset.ready ∧ State.reset.cartFileOpen = false := by decide +kernel

theorem witness_PoolIsNeverOverfull :
    MemoriesCanonical (idleA 1 0) ∧ TagsAgree (idleA 1 0) ∧ slotOf (idleA 1 0) 0 = some 0 :=
  ⟨canonical_of (by decide +kernel), tags_of (by decide +kernel), rfl⟩

/-- A type byte in the second range and one in none; a title sum in no table, at index 0x40, and at index 0x41 with a
letter that is listed and with one that is not. -/
theorem witness_ClassificationTables :
    Config.wf Config.reference ∧
    (let m := Config.reference.typeMap;
      m.families = [⟨3, 3, 1⟩] ++ ⟨16, 16, 2⟩ :: [] ∧
      (∀ e ∈ m.families, ¬(e.lo.toNat ≤ (17 : Byte).toNat ∧ (17 : Byte).toNat ≤ e.hi.toNat))) ∧
    let ct : ColorTables := ⟨8, List.range 79, [(0x41, 0x41, 7)], [(0x41, 9)]⟩;
    titleSum ct [79] ∉ ct.sums ∧
    ct.sums = List.range 0x40 ++ titleSum ct [0x40] :: List.range' 0x41 14 ∧ titleSum ct [0x40] ∉ List.range 0x40 ∧
    (∀ t ∈ [[0, 0, 0, 0x41], [0x41]], ct.sums = List.range 0x41 ++ titleSum ct t :: List.range' 0x42 13 ∧
      titleSum ct t ∉ List.range 0x41 ∧ 0x40 < (List.range 0x41).length) ∧
    ct.letters = [] ++ ((List.range 0x41).length, [0, 0, 0, (0x41 : Byte)].getD 3 0, 7) :: [] ∧
    (∀ x ∈ ct.letters, ¬(x.1 = 0x41 ∧ x.2.1 = [(0x41 : Byte)].getD 3 0)) ∧
    ct.through = [] ++ ((List.range 0x41).length, 9) :: [] := by decide +kernel

/-- ROM_A: 4 banks, all preloaded, into a pool of 64 frames. -/
theorem witness_CartLoadClassifiesAndPreloads :
    (withFile 1 romA 10).ready ∧ (withFile 1 romA 10).cart.loaded = false ∧ MemoriesCanonical (withFile 1 romA 10) ∧
    HandlesDisciplined (withFile 1 romA 10) ∧ 1 ≤ (withFile 1 romA 10).cfg.poolSize ∧
    Tab.get? (withFile 1 romA 10).files (fileKey (withFile 1 romA 10) 1) = some romA ∧ 512 ≤ romA.len ∧
    romSize (memByte (withFile 1 romA 10) (.file 1) 0x0148) = some 4 ∧
    (ramSize (memByte (withFile 1 romA 10) (.file 1) 0x0149)).1 ≤ (withFile 1 romA 10).cfg.ramCap ∧
    4 = (if 64 < 4 ∧ (romA.data.bytes 0x0134 16) ∈ (withFile 1 romA 10).cfg.preloadTitles then 4 - 40 else min 4 64) ∧
    (withFile 1 romA 10).storageOk (2 + 2 * 4) ∧ 4 ≤ (withFile 1 romA 10).cfg.poolSize := by
  refine ⟨by decide +kernel, rfl, canonical_of (by decide +kernel), ?_, by decide +kernel, rfl, by decide +kernel,
    by decide +kernel, by decide +kernel, by decide +kernel, by decide +kernel, by decide +kernel⟩
  unfold HandlesDisciplined
  decide +kernel

/-- The file absent; a failed open; a failed read; 511 bytes; ROM codes 9 and 1; a RAM array too large (V-H4 to
V-H10). -/
theorem witness_CartLoadFailsCleanly :
    (∀ s ∈ [State.reset, { withFile 1 romA 0 with answers := [.fail] }, withFile 1 romA 3, withFile 1 ⟨511, []⟩ 3,
        withFile 1 (romWith 0x148 9) 3,
        { withFile 1 (romWith 0x149 4) 3 with cfg := { Config.reference with ramCap := 8 } }],
      State.ready s ∧ s.cart.loaded = false ∧ s.cartHandle = none) ∧
    Tab.get? State.reset.files (fileKey State.reset 9) = none ∧
    { withFile 1 romA 0 with answers := [.fail] }.answers = .fail :: [] ∧
    (∀ a ∈ [Answer.ok, .never],
      { withFile 1 romA 0 with answers := [.ok, .fail, a] }.answers = .ok :: .fail :: a :: [] ∧
      { withFile 1 romA 0 with answers := [.ok, .ok, a] }.answers = .ok :: .ok :: a :: []) ∧
    (let s := withFile 1 ⟨511, []⟩ 3;
      Tab.get? s.files (fileKey s 1) = some ⟨511, []⟩) ∧
    (let s := withFile 1 (romWith 0x148 9) 3;
      Tab.get? s.files (fileKey s 1) = some (romWith 0x148 9) ∧ 512 ≤ (romWith 0x148 9).len ∧
      romSize ((romWith 0x148 9).data.read 0x0148) = none) ∧
    let s : State := { withFile 1 (romWith 0x149 4) 3 with cfg := { Config.reference with ramCap := 8 } };
    Tab.get? s.files (fileKey s 1) = some (romWith 0x149 4) ∧ 512 ≤ (romWith 0x149 4).len ∧
    (romSize ((romWith 0x149 4).data.read 0x0148)).isSome = true ∧
    s.cfg.ramCap < (ramSize ((romWith 0x149 4).data.read 0x0149)).1 := by decide +kernel

/-- The first seek of the preload, its first read, and its last read. -/
theorem witness_CartLoadPreloadFailureHalts :
    (∀ j ∈ [0, 1, 7],
      let s : State := { withFile 1 romA 0 with answers := List.replicate (2 + j) .ok ++ [.fail] };
      s.ready ∧ s.cart.loaded = false ∧ 1 ≤ s.cfg.poolSize ∧ Tab.get? s.files (fileKey s 1) = some romA ∧
      (ramSize (romA.data.read 0x0149)).1 ≤ s.cfg.ramCap ∧ j < 2 * 4 ∧
      s.answers = List.replicate (2 + j) .ok ++ .fail :: []) ∧
    (∀ a, HandlesDisciplined { withFile 1 romA 0 with answers := a }) ∧
    512 ≤ romA.len ∧ romSize (romA.data.read 0x0148) = some 4 ∧
    4 = (if 64 < 4 ∧ (romA.data.bytes 0x0134 16) ∈ (withFile 1 romA 0).cfg.preloadTitles then 4 - 40 else min 4 64) := by
  refine ⟨by decide +kernel, fun _ => ?_, by decide +kernel, by decide +kernel, by decide +kernel⟩
  exact fun _ _ => ⟨rfl, rfl, fun h => (nomatch h), fun _ => ⟨rfl, rfl, rfl⟩⟩

/-- Without a clock and with one. -/
theorem witness_FullSaveWritesEveryBank :
    (∀ s, s = idleA 2 10 ∨ s = clockA 12 → s.ready ∧ s.cart.loaded = true ∧ s.cart.hasBattery = true ∧
      s.cart.ramsize ≤ 32 ∧ MemoriesCanonical s ∧
      s.storageOk (2 + 2 * s.cart.ramsize + (if s.cart.hasRtc then 2 else 0))) := by
  rintro s (rfl | rfl)
  · exact ⟨by decide +kernel, rfl, rfl, by decide +kernel, canonical_of (by decide +kernel), by decide +kernel⟩
  · exact ⟨by decide +kernel, rfl, rfl, by decide +kernel, canonical_of (by decide +kernel), by decide +kernel⟩

/-- With an open that succeeds, fails, or never answers; a save that succeeds on a cartridge with a clock; and a quick save
with one bank dirty and the others saved (V-S3). -/
theorem witness_SaveResultFollowsTheDirtyBits :
    (∀ a ∈ [[Answer.ok], [.fail], [.never]],
      let s : State := { idleA 2 0 with answers := a };
      s.ready ∧ s.cart.loaded = true ∧ s.cart.hasBattery = true ∧ s.cart.ramsize ≤ 32 ∧ s.cart.hasRtc = false ∧
      s.opHandle = none ∧ (s.answers = .ok :: [] ∨ s.answers = .fail :: [] ∨ s.answers = .never :: [])) ∧
    MemoriesCanonical (idleA 2 0) ∧
    (let s := clockA 12;
      s.ready ∧ s.cart.loaded = true ∧ s.cart.hasBattery = true ∧ s.cart.ramsize ≤ 32 ∧ s.cart.hasRtc = true ∧
      nextIs (fun t => t.result == 0) (exec (.sramSave 7 false) s) = true) ∧
    MemoriesCanonical (clockA 12) ∧
    (let s : State := { idleA 2 10 with sramSaved := 0b1111, sramDirty := 0b0100 };
      s.ready ∧ s.storageOk (2 + 2 * s.cart.ramsize + (if s.cart.hasRtc then 2 else 0)) ∧
      bitOf s.sramDirty 2 = true ∧ bitOf s.sramSaved 3 = true ∧ bitOf s.sramDirty 3 = false) ∧
    MasksInRange { idleA 2 10 with sramSaved := 0b1111, sramDirty := 0b0100 } := by
  refine ⟨by decide +kernel, canonical_of (by decide +kernel), by decide +kernel, canonical_of (by decide +kernel),
    by decide +kernel, masks_of (by decide +kernel)⟩

theorem witness_QuickSaveWithNothingToWrite :
    (∀ s, s = { idleA 2 4 with sramSaved := 0b1111 } ∨ s = { clockA 4 with sramSaved := 0b1111 } →
      s.ready ∧ s.cart.loaded = true ∧ s.cart.hasBattery = true ∧ s.sramDirty = 0 ∧
      (∀ i, i < s.cart.ramsize → bitOf s.sramSaved i = true) ∧ s.storageOk 4) := by
  rintro s (rfl | rfl) <;>
  · refine ⟨by decide +kernel, rfl, rfl, rfl, ?_, by decide +kernel⟩
    intro i hi
    have : i = 0 ∨ i = 1 ∨ i = 2 ∨ i = 3 := by change i < 4 at hi; omega
    rcases this with rfl | rfl | rfl | rfl <;> rfl

/-- A file of two banks beside a cartridge of four, one that holds banks and record, one that holds no bank. -/
theorem witness_SramLoadRestoresTheBanksOfTheFile :
    (∀ n, n = 8191 ∨ n = 16384 ∨ n = 32816 →
      { clockA 12 with files := [(7, ⟨n, [(0, 1)]⟩)] }.ready ∧
      { clockA 12 with files := [(7, ⟨n, [(0, 1)]⟩)] }.cart.loaded = true ∧
      { clockA 12 with files := [(7, ⟨n, [(0, 1)]⟩)] }.cart.hasBattery = true ∧
      1 ≤ (clockA 12).cart.ramsize ∧ (clockA 12).cart.ramsize ≤ 32 ∧
      MemoriesCanonical { clockA 12 with files := [(7, ⟨n, [(0, 1)]⟩)] } ∧
      Tab.get? { clockA 12 with files := [(7, ⟨n, [(0, 1)]⟩)] }.files
        (fileKey { clockA 12 with files := [(7, ⟨n, [(0, 1)]⟩)] } 7) = some ⟨n, [(0, 1)]⟩ ∧
      { clockA 12 with files := [(7, ⟨n, [(0, 1)]⟩)] }.storageOk (2 + 2 * 4 + 2)) := by
  rintro n (rfl | rfl | rfl) <;>
  exact ⟨by decide +kernel, rfl, rfl, by decide +kernel, by decide +kernel, canonical_of (by decide +kernel), rfl,
    by decide +kernel⟩

theorem witness_SramLoadKeepsBanksItCannotRead :
    (∀ a ∈ [Answer.ok, .fail, .never],
      let s : State := { idleA 2 0 with answers := [a] };
      s.ready ∧ s.cart.loaded = true ∧ s.cart.hasBattery = true ∧ s.cart.ramsize ≤ 32 ∧
      Tab.get? s.files (fileKey s 7) = none ∧ s.opHandle = none ∧ s.answers = a :: []) ∧
    MemoriesCanonical (idleA 2 0) :=
  ⟨by decide +kernel, canonical_of (by decide +kernel)⟩

/-- A save of a clock cartridge whose battery RAM holds one byte, and the block after it, with RAM and clock changed. -/
def savedRam : State := sramSaveOp 7 false { clockA 12 with sram := [(8195, 0x77)], busy := true }
def changedRam : State := { savedRam with sram := [(3, 9)], rtc := Rtc.zero, answers := List.replicate 12 .ok }

theorem witness_SramRoundTrip :
    exec (.sramSave 7 false) { clockA 12 with sram := [(8195, 0x77)] } = .next savedRam ∧
    MemoriesCanonical { clockA 12 with sram := [(8195, 0x77)] } ∧ (clockA 12).cart.loaded = true ∧
    (clockA 12).cart.hasBattery = true ∧ 1 ≤ (clockA 12).cart.ramsize ∧ (clockA 12).cart.ramsize ≤ 32 ∧
    changedRam.ready ∧ MemoriesCanonical changedRam ∧ changedRam.cfg = savedRam.cfg ∧ changedRam.cart = savedRam.cart ∧
    changedRam.files = savedRam.files ∧
    savedRam.stalled = false ∧
    changedRam.storageOk (2 + 2 * changedRam.cart.ramsize + (if changedRam.cart.hasRtc then 2 else 0)) ∧
    exec (.sramLoad 7) changedRam = .next (sramLoadOp 7 { changedRam with busy := true }) ∧
    bitOf savedRam.sramSaved 1 = true ∧ savedRam.result = 0 :=
  ⟨rfl, canonical_of (by decide +kernel), rfl, rfl, by decide +kernel, by decide +kernel, by decide +kernel,
    canonical_of (by decide +kernel), by decide +kernel, by decide +kernel, rfl, by decide +kernel, by decide +kernel,
    acceptCommand_ready (s := changedRam) (by decide +kernel) (sramLoadOp 7), by decide +kernel, by decide +kernel⟩

theorem witness_StateSaveWritesTheSnapshot :
    beforeSave.ready ∧ beforeSave.cart.loaded = true ∧ Config.wf beforeSave.cfg ∧ MemoriesCanonical beforeSave ∧
    beforeSave.storageOk (3 + wramUnits beforeSave.cart.hwfamily + vramUnits beforeSave.cart.hwfamily +
      2 * beforeSave.cart.ramsize) ∧
    beforeSave.cfg.regTable[2]? = some ⟨⟨0x70, 0x63, 0x20, 0x20⟩, 2, .other 0⟩ :=
  ⟨by decide +kernel, rfl, by decide +kernel, canonical_of (by decide +kernel), by decide +kernel, rfl⟩

/-- The open that fails, and the first and the last write that fail, with a close that returns and one that hangs. -/
theorem witness_StateSaveStopsAtTheFirstFailure :
    (∀ k ∈ [0, 1, 13], ∀ a ∈ [Answer.ok, .never],
      let s : State := { beforeSave with answers := List.replicate k .ok ++ [.fail, a] };
      s.ready ∧ s.cart.loaded = true ∧
      k ≤ 1 + wramUnits s.cart.hwfamily + vramUnits s.cart.hwfamily + 2 * s.cart.ramsize ∧
      s.answers = List.replicate k .ok ++ .fail :: a :: []) ∧
    MemoriesCanonical beforeSave ∧
    nextIs (fun t => t.result == 0) (exec (.stateSave 9) { beforeSave with answers := List.replicate 15 .ok }) = true :=
  ⟨by decide +kernel, canonical_of (by decide +kernel), by decide +kernel⟩

theorem witness_FindAnswersTheFirstMatch : Config.reference.versionTag ≠ Tag.zero := by decide

/-- A file one byte too short (V-P11), an open that fails, one that never answers, and a load that succeeds. -/
theorem witness_StateLoadFailureLeavesTheRegisters :
    (let s : State := { idleA 2 15 with files := [(9, ⟨53247, []⟩)] };
      s.ready ∧ s.cart.loaded = true ∧ s.opHandle = none ∧
      (fileNamed s 9).len < 4096 * (1 + wramUnits s.cart.hwfamily + vramUnits s.cart.hwfamily + 2 * s.cart.ramsize)) ∧
    (∀ a ∈ [Answer.fail, .never],
      let s : State := { idleA 2 0 with answers := [a] };
      s.ready ∧ s.cart.loaded = true ∧ s.answers = a :: []) ∧
    let s : State := { idleA 2 15 with files := [(9, ⟨53248, []⟩)] };
    s.ready ∧ s.cart.loaded = true ∧ nextIs (fun t => t.result == 0) (exec (.stateLoad 9) s) = true := by decide +kernel

/-- A file of exactly the snapshot's length; an entry that is not forced, and the two the spec masks and forces. -/
theorem witness_StateLoadRestoresTheMachine :
    let f := stateFile [0x56, 0x45, 0x52, 0x53, 0x07, 0x01];
    let s : State := { idleA 2 15 with files := [(9, f)] };
    s.ready ∧ s.cart.loaded = true ∧ Config.wf s.cfg ∧ MemoriesCanonical s ∧ Tab.get? s.files (fileKey s 9) = some f ∧
    4096 * (1 + wramUnits s.cart.hwfamily + vramUnits s.cart.hwfamily + 2 * s.cart.ramsize) ≤ f.len ∧
    s.storageOk (3 + wramUnits s.cart.hwfamily + vramUnits s.cart.hwfamily + 2 * s.cart.ramsize) ∧
    s.cfg.regTable = [⟨⟨0x72, 0x62, 0x6E, 0x6B⟩, 1, .rambank⟩, ⟨⟨0x62, 0x6F, 0x6F, 0x74⟩, 1, .bootromOff⟩] ++
      ⟨⟨0x70, 0x63, 0x20, 0x20⟩, 2, .other 0⟩ :: [] ∧
    RegId.other 0 ≠ .rambank ∧ RegId.other 0 ≠ .bootromOff :=
  ⟨by decide +kernel, rfl, by decide +kernel, canonical_of (by decide +kernel), rfl, by decide +kernel, by decide +kernel,
    rfl, by decide, by decide⟩

/-- A save, and the block after it with its memories and registers changed (P3). -/
def savedState : State := stateSaveOp 9 { beforeSave with busy := true }
def changedState : State :=
  { savedState with
    rambank := 3, mreg := [(0, 0x5678)], wram := [(0, 0x22)], oam := [], sram := [(5, 6)],
    answers := List.replicate 15 .ok }

theorem witness_StateRoundTrip :
    beforeSave.ready ∧ beforeSave.cart.loaded = true ∧ Config.wf beforeSave.cfg ∧ MemoriesCanonical beforeSave ∧
    RegistersFit beforeSave ∧
    beforeSave.storageOk (3 + wramUnits beforeSave.cart.hwfamily + vramUnits beforeSave.cart.hwfamily +
      2 * beforeSave.cart.ramsize) ∧
    exec (.stateSave 9) beforeSave = .next savedState ∧ changedState.ready ∧ changedState.cart = savedState.cart ∧
    changedState.cfg = savedState.cfg ∧ changedState.files = savedState.files ∧ MemoriesCanonical changedState ∧
    changedState.storageOk (3 + wramUnits beforeSave.cart.hwfamily + vramUnits beforeSave.cart.hwfamily +
      2 * beforeSave.cart.ramsize) := by
  refine ⟨by decide +kernel, rfl, by decide +kernel, canonical_of (by decide +kernel), ?_, by decide +kernel,
    acceptCommand_ready (s := beforeSave) (by decide +kernel) (stateSaveOp 9), by decide +kernel, rfl, rfl, rfl,
    canonical_of (by decide +kernel), by decide +kernel⟩
  unfold RegistersFit
  decide +kernel

theorem witness_FrameStartsWithTheHeadQuantum : (idleA 2 0).ready ∧ (idleA 2 0).cart.loaded = true := by decide +kernel

/-- Between quanta, in each phase, with the line counter at the ends of its ranges. -/
theorem witness_SchedulerFollowsThePhases :
    (∀ p, { lineA 2 0 with run := none, phase := p }.halted = false ∧
      { lineA 2 0 with run := none, phase := p }.stalled = false ∧
      { lineA 2 0 with run := none, phase := p }.busy = true) ∧
    (∀ k rest, (lineA 2 0).host ≠ .resetAfter k :: rest) ∧
    (1 ≤ (1 : Byte).toNat ∧ (143 : Byte).toNat < 144) ∧ ((0 : Byte).toNat = 0 ∨ 144 ≤ (0 : Byte).toNat) ∧
    144 ≤ (144 : Byte).toNat ∧ (143 : Byte).toNat < 144 := by
  exact ⟨fun _ => ⟨rfl, rfl, rfl⟩, fun _ _ h => (nomatch h), by decide⟩

theorem witness_PhaseNeverSkips :
    SchedulerConsistent { lineA 2 0 with run := none, phase := .p1 } ∧
    nextIs (fun t => t.phase == .p2) (step { lineA 2 0 with run := none, phase := .p1 }) = true := by
  unfold SchedulerConsistent; decide +kernel

/-- ENV writes one of its inputs, ENV returns, and the memory-controller logic writes the last shadow register. -/
theorem witness_EnvWritesOnlyWhatItMay :
    (lineA 2 0).inQuantum ∧ (lineA 2 0).busy = true ∧ nextEnv { lineA 2 0 with env := [.setLy 21] } = .setLy 21 ∧
    nextIs (fun t => t.ly == 21) (step { lineA 2 0 with env := [.setLy 21] }) = true ∧
    nextEnv { lineA 2 0 with env := [.done] } = .done ∧
    nextIs (fun t => t.run == none) (step { lineA 2 0 with env := [.done] }) = true ∧
    nextEnv { lineA 2 0 with env := [.controller (.shadow 4) 9] } = .controller (.shadow 4) 9 ∧
    nextIs (fun t => t.rtc.regs[4] == 9) (step { lineA 2 0 with env := [.controller (.shadow 4) 9] }) = true ∧
    ∀ e ∈ (lineA 2 0).cfg.regTable, e.id ≠ .rombank ∧ e.id ≠ .rtcSec := by decide +kernel

/-- V-F1's start. -/
theorem witness_DisplayOffFrameIsOneFrameOfCycles :
    (∀ k rest, ([] : List HostAct) ≠ .resetAfter k :: rest) ∧
    ∀ l ∈ [0, 144, 255],
      let s : State :=
        { idleA 2 0 with ly := BitVec.ofNat 8 l, host := [.command (encode (.frame false))], env := [.done, .done] };
      s.ready ∧ s.cart.loaded = true ∧ s.run = none ∧ s.lcdOn = false ∧ (s.ly.toNat = 0 ∨ 144 ≤ s.ly.toNat) ∧
      s.host = .command (encode (.frame false)) :: [] ∧ s.env = .done :: .done :: [] :=
  ⟨fun _ _ h => (nomatch h), by decide +kernel⟩

/-- A step that requests a quantum, in a state whose counters agree with its trace. -/
theorem witness_CountersCountTheRequestedCycles :
    (let s : State :=
      { lineA 2 0 with run := none, trace := [.run 2280 .head, .run 228 .line], frameCycles := 2508, totalCycles := 2508 };
      nextIs (fun t => t.frameCycles == 2736) (step s) = true ∧
      s.frameCycles = BitVec.ofNat 32 (cyclesSinceHead s.trace) ∧
      s.totalCycles = BitVec.ofNat 64 (requestedCycles s.trace)) := by decide +kernel

theorem witness_TicksAdvanceWithTheQuanta :
    nextIs (fun t => t.rtcTicks == 228) (step { lineA 2 0 with run := none }) = true ∧
    nextIs (fun t => t.rtcTicks == 0 && t.cart.loaded)
      (step { withFile 1 romA 10 with rtcTicks := 7, host := [.command 0x01000001] }) = true ∧
    let e : RegEntry := ⟨⟨0x74, 0x69, 0x63, 0x6B⟩, 4, .rtcTicksHigh⟩;
    nextIs (fun t => t.rtcTicks == 0x500000007)
      (step { lineA 2 0 with
        cfg := { Config.reference with regTable := [e] }, rtcTicks := 7, env := [.setReg .rtcTicksHigh 5] }) =
      true := by decide +kernel

theorem witness_DrawFlagIsInert :
    SameButDraw (lineA 2 0) { lineA 2 0 with renderEnable := true, cw := 0x09010000 } ∧
    nextIs (fun t => t.run == none) (step { lineA 2 0 with env := [.done] }) = true ∧ (idleA 2 0).ready ∧
    nextIs (fun t => t.phase == .p1)
      (core.run 1 { idleA 2 0 with host := [.command (encode .frameSkip)] }) = true :=
  ⟨rfl, by decide +kernel, by decide +kernel, by decide +kernel⟩

theorem witness_PersistenceCommandsKeepTheRest :
    nextIs (fun t => t.result == 0) (exec (.sramSave 7 true) (idleA 2 10)) = true ∧
    nextIs (fun t => t.result == 0)
      (exec (.sramLoad 7) { idleA 2 10 with files := [(1, romA), (7, ⟨32768, []⟩)] }) = true ∧
    nextIs (fun t => t.result == 0) (exec (.stateSave 9) beforeSave) = true ∧
    nextIs (fun t => t.result == 0) (exec (.stateLoad 9) { idleA 2 15 with files := [(9, ⟨53248, []⟩)] }) = true := by
  decide +kernel

theorem witness_BankOperationsKeepTheRest :
    nextIs (fun t => t.result == 0) (exec (.bankLoad 3) (idleA 2 2)) = true ∧
    nextIs (fun t => t.result == 0) (exec (.preload 2) (idleA 2 2)) = true ∧
    nextIs (fun t => t.rdata == some 0) (exec (.rd 0xBFFF) (lineA 2 2)) = true ∧ 0x8000 ≤ (0xBFFF : Half).toNat ∧
    nextIs (fun t => t.sramDirty == 1) (exec (.wr 0xA000 1) (lineA 2 0)) = true ∧
    nextIs (fun t => t.cart.loaded) (exec (.cartLoad 1) (withFile 1 romA 10)) = true := by decide +kernel

theorem witness_CartridgeRecordIsImmutable :
    nextIs (fun t => decide (t.cart ≠ cartA)) (step { idleA 2 1 with host := [.command 0x02000000] }) = true ∧
    (idleA 2 1).cart = cartA ∧
    nextIs (fun t => decide (t.cart ≠ Cart.empty)) (step { withFile 1 romA 10 with host := [.command 0x01000001] }) =
      true := by decide +kernel

/-- Each flag changed by one of its writers, in states that are not those after reset (their trace, or their cartridge,
is not). -/
theorem witness_FlagsHaveTheirWriters :
    nextIs (fun t => t.renderEnable && decide (t.trace ≠ []))
      (step { idleA 2 0 with host := [.command 0x09010000] }) = true ∧
    nextIs (fun t => t.sramDirty == 1 && t.cart.loaded) (step { lineA 2 0 with env := [.bus 0x01A00001] }) = true ∧
    nextIs (fun t => t.warn == 1 && t.bootromDisable)
      (step { idleA 2 15 with files := [(9, ⟨53248, []⟩)], host := [.command 0x08000009] }) = true ∧
    nextIs (fun t => t.warn == 2 && t.cart.loaded)
      (step { withFile 1 (romWith 0x149 7) 10 with host := [.command 0x01000001] }) = true ∧
    nextIs (fun t => decide ((1 : BitVec 2) &&& ~~~ t.warn ≠ 0) && decide (t.trace ≠ []))
      (step { idleA 2 1 with warn := 1, host := [.command 0x02000000] }) = true := by decide +kernel

theorem witness_MemoriesStayCanonical :
    MemoriesCanonical { lineA 2 0 with env := [.bus 0x01A00001] } ∧
    nextIs (fun t => t.sram == [(0, 1)]) (step { lineA 2 0 with env := [.bus 0x01A00001] }) = true :=
  ⟨canonical_of (by decide +kernel), by decide +kernel⟩

/-- Inside a quantum, about to read the last byte of the last bank, which is absent. -/
def lineFill : State := { lineA 2 2 with rombank := 3, env := [.bus 0x007FFF00] }

theorem lineFill_inv : BlockInvariant lineFill := by
  refine ⟨by decide +kernel, ?_, ?_, ?_, ?_, tags_of (by decide +kernel), ?_⟩
  · unfold CartLegal; decide +kernel
  · exact fun i _ =>
      ⟨by simp [bitOf, lineFill, lineA, idleA, State.resetWith], by simp [bitOf, lineFill, lineA, idleA, State.resetWith]⟩
  · unfold HandlesDisciplined; decide +kernel
  · unfold SchedulerConsistent; decide +kernel
  · unfold RegistersFit; decide +kernel

/-- The invariant holds with a cartridge loaded, on an idle block and inside a quantum. -/
theorem witness_BlockInvariantIsKept :
    BlockInvariant { idleA 2 0 with host := [.command 0x0A000000] } ∧
    nextIs (fun _ => true) (step { idleA 2 0 with host := [.command 0x0A000000] }) = true ∧ BlockInvariant lineFill := by
  refine ⟨⟨by decide +kernel, ?_, ?_, ?_, ?_, tags_of (by decide +kernel), ?_⟩, by decide +kernel, lineFill_inv⟩
  · unfold CartLegal; decide +kernel
  · exact fun i _ => ⟨by simp [bitOf, idleA, State.resetWith], by simp [bitOf, idleA, State.resetWith]⟩
  · unfold HandlesDisciplined; decide +kernel
  · unfold SchedulerConsistent; decide +kernel
  · unfold RegistersFit; decide +kernel

/-- A read that fills the last bank, beside a resident bank 0. -/
theorem witness_FramesStayCoherent :
    BlockInvariant lineFill ∧ MemoriesCanonical lineFill ∧ FramesCoherent lineFill ∧
    nextIs (fun t => t.files == lineFill.files && t.halted == false && t.rdata == some 0x3F) (step lineFill) = true :=
  ⟨lineFill_inv, canonical_of (by decide +kernel), coherent_of (by decide +kernel) rfl, by decide +kernel⟩

theorem witness_InvariantsHoldAtReset : Config.wf Config.reference := by decide +kernel

end Sys2Proof.Machine.Tests
end

section
/-! PROOFS. What the reset input gives, and how a halted block and a hanging one leave their state (R9, R184, R200, R201,
R210). -/

namespace Sys2Proof.Machine

/-! ### The reset input -/

/-- R201. -/
theorem resetInput_resetValues (s : State) : ResetValues (resetInput s) := by
  constructor <;> intros <;> rfl

@[simp] theorem resetInput_files (s : State) : (resetInput s).files = s.files := rfl
@[simp] theorem resetInput_cfg (s : State) : (resetInput s).cfg = s.cfg := rfl
@[simp] theorem resetInput_host (s : State) : (resetInput s).host = s.host := rfl

/-! ### Whether reset is asserted next -/

theorem resetNext_eq_some {host rest : List HostAct} :
    resetNext host = some rest ↔ host = .reset :: rest ∨ ∃ k, host = .resetAfter k :: rest := by
  rcases host with _ | ⟨a, as⟩
  · simp [resetNext]
  · cases a <;> simp [resetNext]

theorem resetNext_eq_none {host : List HostAct} (hr : ∀ rest, host ≠ .reset :: rest)
    (ha : ∀ k rest, host ≠ .resetAfter k :: rest) : resetNext host = none := by
  refine Option.eq_none_iff_forall_ne_some.mpr fun rest h => ?_
  obtain h | ⟨k, h⟩ := resetNext_eq_some.mp h
  · exact hr rest h
  · exact ha k rest h

/-! ### The step of a block nobody but reset can move -/

variable {s : State}

theorem step_of_halted (h : s.halted = true) : step s = haltedTurn s := by simp [step, turn, h]

theorem step_of_stalled (hh : s.halted = false) (hs : s.stalled = true) : step s = stalledTurn s := by
  simp [step, turn, hh, hs]

/-- Reset is taken from either state, and from both together (R200). -/
theorem step_of_resetNext {rest : List HostAct} (h : s.halted = true ∨ s.stalled = true)
    (hn : resetNext s.host = some rest) : step s = .next (resetInput { s with host := rest }) := by
  by_cases hh : s.halted = true
  · rw [step_of_halted hh]; simp [haltedTurn, hn]
  · rw [step_of_stalled (by simpa using hh) (h.resolve_left hh)]; simp [stalledTurn, hn]

theorem step_of_halted_without_reset (h : s.halted = true) (hn : resetNext s.host = none) :
    step s = .fault (.halted s.hcause) := by
  rw [step_of_halted h]; simp [haltedTurn, hn]

theorem step_of_stalled_without_reset (hh : s.halted = false) (hs : s.stalled = true)
    (hn : resetNext s.host = none) : step s = .next s := by
  rw [step_of_stalled hh hs]; simp [stalledTurn, hn]

/-- Settles O9: by whether the HOST's next action asserts reset. -/
theorem haltedBlockLeavesOnlyByReset : Obligations.HaltedBlockLeavesOnlyByReset := by
  refine fun s => ⟨fun hstop rest hhost => ?_, fun hr ha => ?_⟩
  · exact ⟨_, step_of_resetNext hstop (resetNext_eq_some.mpr hhost), resetInput_resetValues _,
      resetInput_files _, resetInput_cfg _, resetInput_host _⟩
  · have hn := resetNext_eq_none hr ha
    exact ⟨fun hh => step_of_halted_without_reset hh hn, fun hh hs => step_of_stalled_without_reset hh hs hn⟩

end Sys2Proof.Machine
end

section
/-! PROOFS. What one step can be, said once: which agent acted, and the next state in terms of the operation it ran
(R5, R62, R63, R71, R72, R163, R184, R200). -/

namespace Sys2Proof.Machine

/-! ### The decoder and the ports -/

theorem noFlag_ok {flg : Nat} {i j : Instr} (h : noFlag flg i = .ok j) : j = i := by
  unfold noFlag at h; split at h <;> simp_all

theorem noOperand_ok {flg arg : Nat} {i j : Instr} (h : noOperand flg arg i = .ok j) : j = i := by
  unfold noOperand at h; split_ifs at h; simp_all

theorem port_of_decodeOpc {opc flg arg : Nat} {i : Instr} (h : decodeOpc opc flg arg = .ok i) : i.port = .command := by
  unfold decodeOpc at h
  split at h
  case h_5 => cases h; rfl
  case h_9 => split at h <;> cases h; rfl
  case h_12 => cases h
  case h_2 => rw [noOperand_ok h]; rfl
  case h_10 => rw [noOperand_ok h]; rfl
  case h_11 => rw [noOperand_ok h]; rfl
  all_goals rw [noFlag_ok h]; rfl

theorem port_of_decodeKind {kind addr data : Nat} {i : Instr} (h : decodeKind kind addr data = .ok i) :
    i.port = .bus := by
  unfold decodeKind at h
  split at h
  case h_2 => cases h; rfl
  case h_5 => cases h
  all_goals split at h <;> cases h; rfl

/-- What a port's decoder accepts is an operation of that port (R61, R64, R190). -/
theorem port_of_decode {p : Port} {w : Word} {i : Instr} (h : decode p w = .ok i) : i.port = p := by
  cases p with
  | command =>
    change decodeCommand w = .ok i at h
    unfold decodeCommand at h
    split at h
    · exact port_of_decodeOpc h
    · cases h
  | bus =>
    change decodeBus w = .ok i at h
    unfold decodeBus at h
    split at h
    · exact port_of_decodeKind h
    · cases h

/-! ### Presenting a word -/

/-- A command word that answers a next state ran its operation, or was reserved (R62, R71). -/
theorem present_cases {w : Word} {s t : State} (h : present w s = .next t) :
    (∃ i, decode .command w = .ok i ∧ exec i { s with cw := w } = .next t) ∨
    (s.ready ∧ t = raiseError .inval { s with cw := w, busy := true }) := by
  unfold present at h
  split at h
  · exact .inl ⟨_, by assumption, h⟩
  · exact .inr (acceptCommand_next h)

/-- A bus word that answers a next state ran its operation, or was reserved and halted the block (R63, R72). -/
theorem presentBus_cases {w : Word} {s t : State} (h : presentBus w s = .next t) :
    (∃ i, decode .bus w = .ok i ∧ exec i s = .next t) ∨
    (s.inQuantum ∧ t = raiseFatal .range { s with rdata := none }) := by
  unfold presentBus at h
  split at h
  · exact .inl ⟨_, by assumption, h⟩
  · exact .inr (acceptBus_next h)

/-- A command presented with reset to come ends in the reset input, whatever it had done (R200). -/
theorem presentReset_next {w : Word} {k : Nat} {s t : State} (h : presentReset w k s = .next t) :
    ∃ u, present w { s with answers := cutAnswers k s } = .next u ∧
      t = resetInput { u with answers := s.answers.drop k, freeCount := u.freeCount + k } := by
  unfold presentReset at h
  split at h
  · exact ⟨_, by assumption, (Host.Outcome.next.inj h).symm⟩
  · cases h
  · cases h

/-- The script moves on; nothing else of the block changes. -/
theorem envTaken_eq (s : State) :
    envTaken s = { s with env := (envTaken s).env, freeCount := (envTaken s).freeCount } := by
  unfold envTaken; split <;> rfl

/-! ### One step -/

/-- What a step from `s` to `t` was. -/
inductive StepCase (s t : State) : Prop
  /-- The block hangs, or the HOST has nothing to do (R196, R210). -/
  | stays (h : t = s)
  /-- Reset was asserted with no command in flight (R200). -/
  | resets (u : State) (hcfg : u.cfg = s.cfg) (hfiles : u.files = s.files) (h : t = resetInput u)
  /-- Reset was asserted with a command in flight (R200). -/
  | abandons (w : Word) (k : Nat) (rest : List HostAct) (an : List Answer) (u : State)
      (hrun : present w { s with host := rest, answers := an } = .next u)
      (h : t = resetInput { u with answers := s.answers.drop k, freeCount := u.freeCount + k })
  /-- The HOST presented a command (R62). -/
  | command (w : Word) (rest : List HostAct) (i : Instr) (hhost : s.host = .command w :: rest)
      (hdec : decode .command w = .ok i) (hrun : exec i { s with host := rest, cw := w } = .next t)
  /-- The HOST presented a reserved word (R71). -/
  | reserved (w : Word) (rest : List HostAct) (hready : s.ready)
      (h : t = raiseError .inval { s with host := rest, cw := w, busy := true })
  /-- The HOST wrote one register of the data window (R12). -/
  | window (rest : List HostAct) (xd : Vector Word 10) (hready : s.ready) (h : t = { s with host := rest, xd := xd })
  /-- The interpreter presented a bus request (R63). -/
  | bus (w : Word) (i : Instr) (hbusy : s.busy = true) (henv : nextEnv s = .bus w) (hdec : decode .bus w = .ok i)
      (hrun : exec i (envTaken s) = .next t)
  /-- The interpreter presented a reserved word (R72). -/
  | busReserved (hquantum : s.inQuantum) (hbusy : s.busy = true)
      (h : t = raiseFatal .range { envTaken s with rdata := none })
  /-- ENV or the memory-controller logic acted otherwise inside a quantum (R24, R163). -/
  | env (hquantum : s.inQuantum) (hbusy : s.busy = true) (hbus : ∀ w, nextEnv s ≠ .bus w) (hreset : nextEnv s ≠ .reset)
      (hrun : envAct (nextEnv s) (envTaken s) = .next t)
  /-- The scheduler acted between two quanta (R160). -/
  | schedules (hs : List HostAct) (hhalted : s.halted = false) (hstalled : s.stalled = false) (hbusy : s.busy = true)
      (hidle : s.run = none) (hrun : schedule { s with host := hs } = .next t)

/-- Reset taken from the HOST's list. -/
theorem StepCase.of_reset {s t : State} {rest : List HostAct}
    (h : (.next (resetInput { s with host := rest }) : Host.Outcome State Fault Refusal) = .next t) : StepCase s t :=
  .resets { s with host := rest } rfl rfl (Host.Outcome.next.inj h).symm

theorem haltedTurn_cases {s t : State} (h : haltedTurn s = .next t) : StepCase s t := by
  unfold haltedTurn at h
  split at h
  · exact .of_reset h
  · cases h

theorem stalledTurn_cases {s t : State} (h : stalledTurn s = .next t) : StepCase s t := by
  unfold stalledTurn at h
  split at h
  · exact .of_reset h
  · exact .stays (Host.Outcome.next.inj h).symm

theorem hostTurn_cases {s t : State} (hr : s.ready) (h : hostTurn s = .next t) : StepCase s t := by
  unfold hostTurn at h
  split at h
  case h_1 => exact .stays (Host.Outcome.next.inj h).symm
  case h_2 w rest hhost =>
    rcases present_cases h with ⟨i, hdec, hrun⟩ | ⟨-, ht⟩
    · exact .command w rest i hhost hdec hrun
    · exact .reserved w rest hr ht
  case h_3 => exact .window _ _ hr (Host.Outcome.next.inj h).symm
  case h_4 => exact .of_reset h
  case h_5 w k rest _ =>
    obtain ⟨u, hrun, ht⟩ := presentReset_next h
    exact .abandons w k rest _ u hrun ht
  case h_6 => exact .of_reset h

theorem envTurn_cases {s t : State} (hq : s.inQuantum) (hb : s.busy = true) (h : envTurn s = .next t) :
    StepCase s t := by
  unfold envTurn at h
  by_cases hbus : ∃ w, nextEnv s = .bus w
  · obtain ⟨w, hw⟩ := hbus
    rw [hw] at h
    rcases presentBus_cases h with ⟨i, hdec, hrun⟩ | ⟨-, ht⟩
    · exact .bus w i hb hw hdec hrun
    · exact .busReserved hq hb ht
  · by_cases hreset : nextEnv s = .reset
    · rw [hreset] at h
      have he := envTaken_eq s
      exact .resets (envTaken s) (by rw [he]) (by rw [he]) (Host.Outcome.next.inj h).symm
    · exact .env hq hb (fun w hw => hbus ⟨w, hw⟩) hreset h

theorem schedulerTurn_cases {s t : State} (hh : s.halted = false) (hst : s.stalled = false) (hb : s.busy = true)
    (hn : s.run = none) (h : schedulerTurn s = .next t) : StepCase s t := by
  unfold schedulerTurn at h
  split at h
  · exact .of_reset h
  · exact .schedules _ hh hst hb hn h
  · exact .schedules s.host hh hst hb hn h

/-- What a step can be (R5). -/
theorem step_cases {s t : State} (h : step s = .next t) : StepCase s t := by
  unfold step turn at h
  split_ifs at h with hh hst hb hq
  · exact haltedTurn_cases h
  · exact stalledTurn_cases h
  · exact hostTurn_cases ⟨hb, by simpa using hh, by simpa using hst⟩ h
  · exact envTurn_cases ⟨by simpa using hh, by simpa using hst, hq⟩ (by simpa using hb) h
  · exact schedulerTurn_cases (by simpa using hh) (by simpa using hst) (by simpa using hb) (by simpa using hq) h

end Sys2Proof.Machine
end

section
/-! PROOFS. Every operation keeps the canonical form of the memories, tables and files (log entry 22): one lemma for each
function of the model, in the order of the model. -/

namespace Sys2Proof.Machine

variable {s : State}

/-! ### The invariant and the parts of the state -/

theorem MemoriesCanonical.filesOk (h : MemoriesCanonical s) : FilesOk s := ⟨h.files, h.eachFile⟩

theorem MemoriesCanonical.poolOk (h : MemoriesCanonical s) : PoolOk s := ⟨h.pool, h.slot, h.ftag⟩

/-- Storage primitives reach no memory but the files. -/
theorem MemoriesCanonical.of_storageOnly {t : State} (h : MemoriesCanonical s) (hst : StorageOnly s t)
    (hf : FilesOk t) : MemoriesCanonical t := by
  obtain ⟨_, _, _, _, _, _, _, rfl⟩ := hst
  exact { h with files := hf.1, eachFile := hf.2 }

/-- The bank manager reaches no memory but the tag array and the pool. -/
theorem MemoriesCanonical.of_bankOnly {t : State} (h : MemoriesCanonical s) (hb : BankOnly s t)
    (hp : PoolOk t) : MemoriesCanonical t := by
  obtain ⟨_, _, _, _, _, _, _, _, _, _, _, rfl⟩ := hb
  exact { h with pool := hp.1, slot := hp.2.1, ftag := hp.2.2 }

theorem MemoriesCanonical.raiseError (h : MemoriesCanonical s) (e : ErrorCode) :
    MemoriesCanonical (raiseError e s) := { h with }

theorem MemoriesCanonical.raiseFatal (h : MemoriesCanonical s) (c : Cause) :
    MemoriesCanonical (raiseFatal c s) := { h with }

theorem MemoriesCanonical.complete (h : MemoriesCanonical s) : MemoriesCanonical (complete s) := { h with }

theorem MemoriesCanonical.emit (h : MemoriesCanonical s) (e : Event) : MemoriesCanonical (emit e s) := { h with }

theorem MemoriesCanonical.completeUnlessStopped (h : MemoriesCanonical s) :
    MemoriesCanonical (completeUnlessStopped s) := by
  unfold Machine.completeUnlessStopped; split
  · exact h
  · exact h.complete

/-! ### Storage primitives -/

theorem MemoriesCanonical.stOpen (h : MemoriesCanonical s) (hn : HandleName) (id : Half) (mode : Mode) :
    MemoriesCanonical (stOpen hn id mode s).2 :=
  h.of_storageOnly (stOpen_only hn id mode s) (h.filesOk.stOpen hn id mode)

theorem MemoriesCanonical.stSeek (h : MemoriesCanonical s) (hn : HandleName) (off : Nat) :
    MemoriesCanonical (stSeek hn off s).2 :=
  h.of_storageOnly (stSeek_only hn off s) (h.filesOk.of_files (stSeek_files hn off s))

theorem MemoriesCanonical.stRead (h : MemoriesCanonical s) (hn : HandleName) (n : Nat) :
    MemoriesCanonical (stRead hn n s).2 :=
  h.of_storageOnly (stRead_only hn n s) (h.filesOk.of_files (stRead_files hn n s))

theorem MemoriesCanonical.stWrite (h : MemoriesCanonical s) (hn : HandleName) (n : Nat) {b : Memory} (hb : b.wf) :
    MemoriesCanonical (stWrite hn n b s).2 :=
  h.of_storageOnly (stWrite_only hn n b s) (h.filesOk.stWrite hn n hb)

theorem MemoriesCanonical.stClose (h : MemoriesCanonical s) (hn : HandleName) : MemoriesCanonical (stClose hn s) :=
  h.of_storageOnly (stClose_only hn s) (h.filesOk.of_files (stClose_files hn s))

theorem MemoriesCanonical.unlessStalled {f : State → State} (h : MemoriesCanonical s)
    (hf : MemoriesCanonical s → MemoriesCanonical (f s)) : MemoriesCanonical (unlessStalled f s) := by
  unfold Machine.unlessStalled; split
  · exact h
  · exact hf h

theorem MemoriesCanonical.closeThen {f : State → State} (h : MemoriesCanonical s) (hn : HandleName)
    (hf : ∀ u, MemoriesCanonical u → MemoriesCanonical (f u)) : MemoriesCanonical (closeThen hn f s) :=
  (h.stClose hn).unlessStalled (hf _)

/-! ### The bank manager and the bus -/

theorem MemoriesCanonical.loadBank (h : MemoriesCanonical s) (n : Nat) : MemoriesCanonical (loadBank n s) :=
  h.of_bankOnly (loadBank_bank n s) (loadBank_poolOk h.filesOk h.poolOk n)

theorem MemoriesCanonical.preloadBody (h : MemoriesCanonical s) (k : Nat) : MemoriesCanonical (preloadBody k s) :=
  h.of_bankOnly (preloadFrom_bank 0 k s) (preloadFrom_poolOk h.filesOk h.poolOk 0 k)

theorem MemoriesCanonical.bankLoadOp (h : MemoriesCanonical s) (n : Nat) : MemoriesCanonical (bankLoadOp n s) := by
  unfold Machine.bankLoadOp
  split_ifs
  · exact h.raiseError _
  · exact h.raiseError _
  · exact (h.loadBank n).completeUnlessStopped

theorem MemoriesCanonical.preloadOp (h : MemoriesCanonical s) (k : Nat) : MemoriesCanonical (preloadOp k s) := by
  unfold Machine.preloadOp
  split_ifs
  · exact h.raiseError _
  · exact (h.preloadBody k).completeUnlessStopped

theorem MemoriesCanonical.cartUnloadOp (h : MemoriesCanonical s) : MemoriesCanonical (cartUnloadOp s) := by
  have h0 : MemoriesCanonical { s with slot := [], ftag := [], ramPages := 0, sram := [] } :=
    { h with slot := Tab.wf_nil, ftag := Tab.wf_nil, sram := Memory.wf_nil }
  unfold Machine.cartUnloadOp
  split
  · exact h0.closeThen .cart fun u hu => { hu with }
  · exact { h0 with }

theorem MemoriesCanonical.rdOp (h : MemoriesCanonical s) (a : Half) : MemoriesCanonical (rdOp a s) := by
  unfold Machine.rdOp
  split
  · unfold readRom
    split_ifs
    · exact h.raiseFatal _
    · exact h.loadBank _
    · unfold driveRom
      split
      · exact { h.loadBank _ with }
      · exact h.loadBank _
  · unfold readXram
    split
    · exact h.raiseFatal _
    · exact { h with }
  · exact h

theorem MemoriesCanonical.wrOp (h : MemoriesCanonical s) (a : Half) (d : Byte) : MemoriesCanonical (wrOp a d s) := by
  unfold Machine.wrOp
  split
  · exact h
  · unfold writeXram
    split
    · exact h.raiseFatal _
    · exact { h with sram := Memory.wf_write h.sram _ _ }
  · exact h

/-! ### CART_LOAD -/

theorem MemoriesCanonical.warnRamsize (h : MemoriesCanonical s) (hd : Header) :
    MemoriesCanonical (warnRamsize hd s) := by
  unfold Machine.warnRamsize; split
  · exact { h with }
  · exact h

theorem MemoriesCanonical.notifyPalette (h : MemoriesCanonical s) (hd : Header) :
    MemoriesCanonical (notifyPalette hd s) := by
  unfold Machine.notifyPalette; split
  · exact h
  · exact { h with }

theorem MemoriesCanonical.cartCommitted (h : MemoriesCanonical s) (id : Half) (hd : Header) (n : Nat) :
    MemoriesCanonical (cartCommitted id hd n s) := by
  have h0 : MemoriesCanonical (commitCart id hd n s) := { h with sram := Memory.wf_nil }
  exact (((h0.warnRamsize hd).notifyPalette hd).preloadBody _).completeUnlessStopped

theorem MemoriesCanonical.cartClassify (h : MemoriesCanonical s) (id : Half) (hd : Header) :
    MemoriesCanonical (cartClassify id hd s) := by
  unfold Machine.cartClassify
  split
  · exact h.closeThen .cart fun u hu => hu.raiseError _
  · split
    · exact h.closeThen .cart fun u hu => hu.raiseError _
    · exact h.cartCommitted id hd _

theorem MemoriesCanonical.cartHeaderRead {r : ReadAnswer × State} (h : MemoriesCanonical r.2) (id : Half) :
    MemoriesCanonical (cartHeaderRead id r) := by
  obtain ⟨a, u⟩ := r
  cases a with
  | full b => exact h.cartClassify id _
  | eof k b => exact h.closeThen .cart fun u hu => hu.raiseError _
  | fail => exact h.unlessStalled fun h => h.closeThen .cart fun u hu => hu.raiseError _

theorem MemoriesCanonical.cartLoadOp (h : MemoriesCanonical s) (id : Half) : MemoriesCanonical (cartLoadOp id s) := by
  unfold Machine.cartLoadOp
  split
  · exact h.raiseError _
  · have ho := h.stOpen .cart id .read
    generalize Machine.stOpen .cart id .read s = r at ho
    obtain ⟨b, u⟩ := r
    cases b
    · exact ho.unlessStalled fun h => h.raiseError _
    · exact (ho.stRead .cart hdrMin).cartHeaderRead id

/-! ### FRAME and the scheduler -/

theorem MemoriesCanonical.requestQuantum (h : MemoriesCanonical s) (n : Nat) (k : QKind) :
    MemoriesCanonical (requestQuantum n k s) := by
  rw [requestQuantum_eq]; exact { h with }

theorem MemoriesCanonical.frameOp (h : MemoriesCanonical s) (draw : Bool) : MemoriesCanonical (frameOp draw s) := by
  unfold Machine.frameOp
  split
  · exact h.raiseError _
  · rw [requestQuantum_eq]; exact { h with }

/-! ### SRAM_SAVE -/

theorem MemoriesCanonical.seekWrite (h : MemoriesCanonical s) (off n : Nat) {b : Memory} (hb : b.wf) :
    MemoriesCanonical (seekWrite off n b s).2 := by
  unfold Machine.seekWrite
  split
  · exact (h.stSeek .op off).stWrite .op n hb
  · exact h.stSeek .op off

theorem MemoriesCanonical.spoilRegion (h : MemoriesCanonical s) (i : Nat) : MemoriesCanonical (spoilRegion i s) := by
  unfold Machine.spoilRegion
  split
  · exact h
  · rename_i hd _
    have hf := h.filesOk.setFile hd.id (File.torn_wf (h.filesOk.fileOf hd) (ramOffset i) ramPage s.freeCount)
    exact { h with files := hf.1, eachFile := hf.2 }

theorem MemoriesCanonical.saveBank (h : MemoriesCanonical s) (i : Nat) : MemoriesCanonical (saveBank i s) := by
  unfold Machine.saveBank
  split
  · have hw := h.seekWrite (ramOffset i) ramPage (b := ramBank s i) (Memory.wf_slice h.sram _ _)
    generalize Machine.seekWrite (ramOffset i) ramPage (ramBank s i) s = r at hw
    obtain ⟨b, u⟩ := r
    cases b
    · exact hw.unlessStalled fun h => h.spoilRegion i
    · exact { hw with }
  · exact h

theorem MemoriesCanonical.saveBanks (h : MemoriesCanonical s) (i k : Nat) : MemoriesCanonical (saveBanks i k s) := by
  induction k generalizing i s with
  | zero => exact h
  | succ k ih =>
    unfold Machine.saveBanks
    split
    · exact h
    · exact ih (h.saveBank i) (i + 1)

theorem MemoriesCanonical.saveClock (h : MemoriesCanonical s) : MemoriesCanonical (saveClock s).2 := by
  unfold Machine.saveClock
  split_ifs
  · exact h
  · exact h.seekWrite _ _ (Memory.wf_ofBytes _)
  · exact h

theorem MemoriesCanonical.saveResult (h : MemoriesCanonical s) (ok : Bool) : MemoriesCanonical (saveResult ok s) := by
  unfold Machine.saveResult
  split
  · exact h.raiseError _
  · exact h.complete

theorem MemoriesCanonical.sramSaveOp (h : MemoriesCanonical s) (id : Half) (quick : Bool) :
    MemoriesCanonical (sramSaveOp id quick s) := by
  unfold Machine.sramSaveOp
  split
  · exact h.raiseError _
  · have hm : MemoriesCanonical (markAll quick s) := by cases quick <;> exact { h with }
    have ho := hm.stOpen .op id (saveMode quick)
    generalize Machine.stOpen .op id (saveMode quick) (markAll quick s) = r at ho
    obtain ⟨b, u⟩ := r
    cases b
    · exact ho.unlessStalled fun h => h.raiseError _
    · exact (ho.saveBanks 0 u.cart.ramsize).saveClock.unlessStalled
        fun h => h.closeThen .op fun v hv => hv.saveResult _

/-! ### SRAM_LOAD -/

theorem MemoriesCanonical.seekRead (h : MemoriesCanonical s) (off n : Nat) :
    MemoriesCanonical (seekRead off n s).2 := by
  unfold Machine.seekRead
  split
  · exact (h.stSeek .op off).stRead .op n
  · exact h.stSeek .op off

theorem seekRead_full_wf (h : FilesOk s) {off n : Nat} {b : Memory} (hr : (seekRead off n s).1 = .full b) : b.wf := by
  unfold seekRead at hr
  split at hr
  · exact stRead_full_wf (h.of_files (stSeek_files .op off s)) hr
  · cases hr

theorem MemoriesCanonical.loadRamBank (h : MemoriesCanonical s) (i : Nat) : MemoriesCanonical (loadRamBank i s) := by
  have hr := h.seekRead (ramOffset i) ramPage
  have hb := fun b => seekRead_full_wf h.filesOk (off := ramOffset i) (n := ramPage) (b := b)
  unfold Machine.loadRamBank
  generalize Machine.seekRead (ramOffset i) ramPage s = r at hr hb
  obtain ⟨a, u⟩ := r
  cases a with
  | full b => exact { hr with sram := Memory.wf_splice hr.sram (hb b rfl) _ _ }
  | eof k b => exact hr
  | fail => exact hr

theorem MemoriesCanonical.loadRamBanks (h : MemoriesCanonical s) (i k : Nat) :
    MemoriesCanonical (loadRamBanks i k s) := by
  induction k generalizing i s with
  | zero => exact h
  | succ k ih =>
    unfold Machine.loadRamBanks
    split
    · exact h
    · exact ih (h.loadRamBank i) (i + 1)

theorem MemoriesCanonical.loadClock (h : MemoriesCanonical s) : MemoriesCanonical (loadClock s) := by
  unfold Machine.loadClock
  split_ifs
  · exact h
  · have hr := h.seekRead (ramOffset s.cart.ramsize) rtcRecSize
    generalize Machine.seekRead (ramOffset s.cart.ramsize) rtcRecSize s = r at hr
    obtain ⟨a, u⟩ := r
    cases a <;> exact { hr with }
  · exact h

theorem MemoriesCanonical.loadResult (h : MemoriesCanonical s) : MemoriesCanonical (loadResult s) := by
  unfold Machine.loadResult
  split
  · exact h.raiseError _
  · exact h.complete

theorem MemoriesCanonical.sramLoadOp (h : MemoriesCanonical s) (id : Half) : MemoriesCanonical (sramLoadOp id s) := by
  unfold Machine.sramLoadOp
  split
  · exact h.raiseError _
  · have h0 : MemoriesCanonical { s with sramDirty := 0, sramSaved := 0 } := { h with }
    have ho := h0.stOpen .op id .read
    generalize Machine.stOpen .op id .read _ = r at ho
    obtain ⟨b, u⟩ := r
    cases b
    · exact ho.unlessStalled fun h => h.raiseError _
    · exact (ho.loadRamBanks 0 u.cart.ramsize).loadClock.unlessStalled
        fun h => h.closeThen .op fun v hv => hv.loadResult

/-! ### STATE_SAVE -/

theorem putRecord_wf {hdr : Memory} (h : hdr.wf) (k : Nat) (t : Tag) (v : Word) : (putRecord k t v hdr).wf :=
  Memory.wf_splice h (Memory.wf_ofBytes _) _ _

theorem putRegisters_wf (es : List RegEntry) {hdr : Memory} (h : hdr.wf) (k : Nat) : (putRegisters s k es hdr).wf := by
  induction es generalizing k hdr with
  | nil => exact h
  | cons e es ih => exact ih (putRecord_wf h k _ _) (k + 1)

theorem buildHeader_wf (h : MemoriesCanonical s) : (buildHeader s).wf := by
  have hr := putRegisters_wf (s := s) s.cfg.regTable
    (putRecord_wf Memory.wf_nil 0 s.cfg.versionTag s.cfg.formatVersion) 1
  exact Memory.wf_splice (Memory.wf_splice (Memory.wf_splice (Memory.wf_splice hr h.wave _ _) h.ioregs _ _)
    h.pal _ _) h.oam _ _

theorem units_wf {m : Memory} (h : m.wf) (k : Nat) : ∀ u ∈ units m k, Memory.wf u := by
  intro u hu
  obtain ⟨_, _, rfl⟩ := List.mem_map.1 hu
  exact Memory.wf_slice h _ _

theorem stateUnits_wf (h : MemoriesCanonical s) : ∀ u ∈ stateUnits s, Memory.wf u := by
  intro u hu
  simp only [stateUnits, List.mem_cons, List.mem_append] at hu
  obtain rfl | (hu | hu) | hu := hu
  · exact h.hdr
  · exact units_wf h.wram _ u hu
  · exact units_wf h.vram _ u hu
  · exact units_wf h.sram _ u hu

theorem MemoriesCanonical.writeUnits {us : List Memory} (hu : ∀ u ∈ us, Memory.wf u) (h : MemoriesCanonical s) :
    MemoriesCanonical (writeUnits us s).2 := by
  induction us generalizing s with
  | nil => exact h
  | cons u us ih =>
    have hw := h.stWrite .op unitSize (hu u (List.mem_cons_self ..))
    unfold Machine.writeUnits
    split
    · exact ih (fun v hv => hu v (List.mem_cons_of_mem _ hv)) hw
    · exact hw

theorem MemoriesCanonical.stateSaveOp (h : MemoriesCanonical s) (id : Half) :
    MemoriesCanonical (stateSaveOp id s) := by
  unfold Machine.stateSaveOp
  split
  · exact h.raiseError _
  · have h0 : MemoriesCanonical { s with hdr := buildHeader s } := { h with hdr := buildHeader_wf h }
    have ho := h0.stOpen .op id .writeNew
    generalize Machine.stOpen .op id .writeNew _ = r at ho
    obtain ⟨b, u⟩ := r
    cases b
    · exact ho.unlessStalled fun h => h.raiseError _
    · have hw := MemoriesCanonical.writeUnits (stateUnits_wf ho) ho
      show MemoriesCanonical (saveStateWritten (Machine.writeUnits (stateUnits u) u))
      generalize Machine.writeUnits (stateUnits u) u = q at hw
      obtain ⟨c, v⟩ := q
      cases c
      · exact hw.unlessStalled fun h => h.closeThen .op fun v hv => hv.raiseError _
      · exact hw.closeThen .op fun v hv => hv.complete

/-! ### STATE_LOAD -/

/-- R1 repeated keeps the canonical form, and the units it delivers have it. -/
theorem MemoriesCanonical.readUnits (h : MemoriesCanonical s) (k : Nat) :
    MemoriesCanonical (readUnits k s).2 ∧ ∀ us, (readUnits k s).1 = some us → ∀ u ∈ us, Memory.wf u := by
  induction k generalizing s with
  | zero => exact ⟨h, fun us hus => by cases hus; simp⟩
  | succ k ih =>
    have hr := h.stRead .op unitSize
    have hb := fun b => stRead_full_wf h.filesOk (h := .op) (n := unitSize) (b := b)
    unfold Machine.readUnits
    generalize Machine.stRead .op unitSize s = r at hr hb
    obtain ⟨a, v⟩ := r
    cases a with
    | full b =>
      obtain ⟨i1, i2⟩ := ih hr
      refine ⟨i1, fun us hus => ?_⟩
      obtain ⟨us', hus', rfl⟩ := Option.map_eq_some_iff.1 hus
      rintro u (_ | ⟨_, hu⟩)
      · exact hb b rfl
      · exact i2 us' hus' u hu
    | eof j b => exact ⟨hr, fun us hus => by cases hus⟩
    | fail => exact ⟨hr, fun us hus => by cases hus⟩

theorem storeUnits_wf {us : List Memory} (hu : ∀ u ∈ us, Memory.wf u) {m : Memory} (h : m.wf) (k : Nat) :
    (storeUnits k us m).wf := by
  induction us generalizing k m with
  | nil => exact h
  | cons u us ih =>
    exact ih (fun v hv => hu v (List.mem_cons_of_mem _ hv)) (Memory.wf_splice h (hu u (List.mem_cons_self ..)) _ _) _

/-- New bulk memories in place of the old ones. -/
theorem MemoriesCanonical.with_bulk {w v r : Memory} (h : MemoriesCanonical s) (hw : w.wf) (hv : v.wf) (hr : r.wf)
    (k : Nat) : MemoriesCanonical { s with wram := w, vram := v, sram := r, freeCount := k } :=
  { h with wram := hw, vram := hv, sram := hr }

/-- New embedded regions in place of the old ones. -/
theorem MemoriesCanonical.with_regions {w i p o : Memory} (h : MemoriesCanonical s) (hw : w.wf) (hi : i.wf)
    (hp : p.wf) (ho : o.wf) : MemoriesCanonical { s with wave := w, ioregs := i, pal := p, oam := o } :=
  { h with wave := hw, ioregs := hi, pal := hp, oam := ho }

theorem MemoriesCanonical.storeBlocks (h : MemoriesCanonical s) {us : List Memory} (hu : ∀ u ∈ us, Memory.wf u) :
    MemoriesCanonical (storeBlocks us s) :=
  h.with_bulk (storeUnits_wf (fun u m => hu u (List.mem_of_mem_take m)) h.wram 0)
    (storeUnits_wf (fun u m => hu u (List.mem_of_mem_drop (List.mem_of_mem_take m))) h.vram 0)
    (storeUnits_wf (fun u m => hu u (List.mem_of_mem_drop m)) h.sram 0) s.freeCount

theorem MemoriesCanonical.spoilBlocks (h : MemoriesCanonical s) : MemoriesCanonical (spoilBlocks s) :=
  h.with_bulk (wf_freeBytes _ _) (wf_freeBytes _ _) (wf_freeBytes _ _) _

theorem MemoriesCanonical.takeRegions (h : MemoriesCanonical s) : MemoriesCanonical (takeRegions s) :=
  h.with_regions (Memory.wf_slice h.hdr _ _) (Memory.wf_slice h.hdr _ _) (Memory.wf_slice h.hdr _ _)
    (Memory.wf_slice h.hdr _ _)

theorem MemoriesCanonical.writeReg (h : MemoriesCanonical s) (id : RegId) (v : Word) :
    MemoriesCanonical (writeReg id v s) := by
  cases id
  case ioreg k =>
    unfold Machine.writeReg
    dsimp only
    split
    · exact { h with ioregs := Memory.wf_write h.ioregs _ _ }
    · exact h
  case other n =>
    refine { h with mreg := ?_ }
    show Tab.wf (if v = 0 then _ else _)
    split
    · exact Tab.wf_erase h.mreg n
    · exact Tab.wf_set h.mreg n v
  all_goals exact { h with }

theorem MemoriesCanonical.walkRegisters (h : MemoriesCanonical s) (es : List RegEntry) :
    MemoriesCanonical (walkRegisters es s) := by
  induction es generalizing s with
  | nil => exact h
  | cons e es ih => exact ih (h.writeReg e.id _)

theorem MemoriesCanonical.checkVersion (h : MemoriesCanonical s) : MemoriesCanonical (checkVersion s) := by
  unfold Machine.checkVersion
  split
  · exact { h with }
  · exact h

theorem MemoriesCanonical.stateRestored (h : MemoriesCanonical s) : MemoriesCanonical (stateRestored s) := by
  have h0 : MemoriesCanonical { Machine.takeRegions s with loadedVersion := findRecord s.hdr s.cfg.versionTag } :=
    { h.takeRegions with }
  have h1 := (h0.walkRegisters s.cfg.regTable).checkVersion
  have h2 : MemoriesCanonical (maskRambank _) := { h1 with }
  have h3 : MemoriesCanonical { maskRambank _ with bootromDisable := true } := { h2 with }
  exact (((h3.emit .palRebuild).emit .sndDirty).emit .memRemap).complete

theorem MemoriesCanonical.loadStateRead {r : Option (List Memory) × State} (h : MemoriesCanonical r.2)
    (hu : ∀ us, r.1 = some us → ∀ u ∈ us, Memory.wf u) : MemoriesCanonical (loadStateRead r) := by
  obtain ⟨a, u⟩ := r
  rcases a with _ | _ | ⟨hdr, us⟩
  · exact (h.unlessStalled fun h => h.closeThen .op fun v hv => hv.raiseError _).spoilBlocks
  · exact (h.closeThen .op fun v hv => hv.raiseError _).spoilBlocks
  · have h0 : MemoriesCanonical { u with hdr := hdr } := { h with hdr := hu _ rfl hdr (List.mem_cons_self ..) }
    exact (h0.storeBlocks fun v hv => hu _ rfl v (List.mem_cons_of_mem _ hv)).closeThen .op
      fun v hv => hv.stateRestored

theorem MemoriesCanonical.stateLoadOp (h : MemoriesCanonical s) (id : Half) :
    MemoriesCanonical (stateLoadOp id s) := by
  unfold Machine.stateLoadOp
  split
  · exact h.raiseError _
  · have ho := h.stOpen .op id .read
    generalize Machine.stOpen .op id .read s = r at ho
    obtain ⟨b, u⟩ := r
    cases b
    · exact ho.unlessStalled fun h => h.raiseError _
    · obtain ⟨hr, hu⟩ := ho.readUnits (unitCount u.cart)
      exact hr.loadStateRead hu

/-! ### Operations -/

theorem MemoriesCanonical.acceptCommand {t : State} {op : State → State} (h : MemoriesCanonical s)
    (hop : ∀ u, MemoriesCanonical u → MemoriesCanonical (op u)) (hrun : acceptCommand op s = .next t) :
    MemoriesCanonical t := by
  obtain ⟨-, rfl⟩ := acceptCommand_next hrun
  exact hop _ { h with }

theorem MemoriesCanonical.acceptBus {t : State} {op : State → State} (h : MemoriesCanonical s)
    (hop : ∀ u, MemoriesCanonical u → MemoriesCanonical (op u)) (hrun : acceptBus op s = .next t) :
    MemoriesCanonical t := by
  obtain ⟨-, rfl⟩ := acceptBus_next hrun
  exact hop _ { h with }

/-- Every operation keeps the canonical form, however it ends. -/
theorem MemoriesCanonical.exec {t : State} {i : Instr} (h : MemoriesCanonical s) (hrun : exec i s = .next t) :
    MemoriesCanonical t := by
  cases i with
  | cartLoad id => exact h.acceptCommand (fun u hu => hu.cartLoadOp id) hrun
  | cartUnload => exact h.acceptCommand (fun u hu => hu.cartUnloadOp) hrun
  | bankLoad n => exact h.acceptCommand (fun u hu => hu.bankLoadOp n) hrun
  | preload k => exact h.acceptCommand (fun u hu => hu.preloadOp k) hrun
  | sramSave id q => exact h.acceptCommand (fun u hu => hu.sramSaveOp id q) hrun
  | sramLoad id => exact h.acceptCommand (fun u hu => hu.sramLoadOp id) hrun
  | stateSave id => exact h.acceptCommand (fun u hu => hu.stateSaveOp id) hrun
  | stateLoad id => exact h.acceptCommand (fun u hu => hu.stateLoadOp id) hrun
  | frame d => exact h.acceptCommand (fun u hu => hu.frameOp d) hrun
  | rtcGet => exact h.acceptCommand (op := rtcGetOp) (fun u hu => { hu with }) hrun
  | rtcSet => exact h.acceptCommand (op := rtcSetOp) (fun u hu => { hu with }) hrun
  | rd a => exact h.acceptBus (fun u hu => hu.rdOp a) hrun
  | wr a d => exact h.acceptBus (fun u hu => hu.wrOp a d) hrun
  | selrom v => exact h.acceptBus (op := fun t => { t with rombank := v }) (fun u hu => { hu with }) hrun
  | selram v => exact h.acceptBus (op := fun t => { t with rambank := v }) (fun u hu => { hu with }) hrun

/-! ### The agents -/

theorem freeRegisters_wf (es : List RegEntry) (k : Nat) {t : Tab Word} (h : t.wf) : (freeRegisters k es t).wf := by
  induction es generalizing k t with
  | nil => exact h
  | cons e es ih =>
    unfold freeRegisters
    split
    · split
      · exact ih _ (Tab.wf_erase h _)
      · exact ih _ (Tab.wf_set h _ _)
    · exact ih _ h

theorem State.resetWith_canonical (c : Config) : MemoriesCanonical (State.resetWith c) where
  pool := Memory.wf_nil
  sram := Memory.wf_nil
  wram := Memory.wf_nil
  vram := Memory.wf_nil
  wave := Memory.wf_nil
  ioregs := Memory.wf_nil
  pal := Memory.wf_nil
  oam := Memory.wf_nil
  hdr := Memory.wf_nil
  slot := Tab.wf_nil
  ftag := Tab.wf_nil
  mreg := Tab.wf_nil
  files := Tab.wf_nil
  eachFile := fun _ he => absurd he List.not_mem_nil

/-- The reset input keeps the files and makes every memory canonical (R200, R201). -/
theorem resetInput_canonical (h : FilesOk s) : MemoriesCanonical (resetInput s) := by
  have h0 : MemoriesCanonical { State.resetWith s.cfg with files := s.files } :=
    { State.resetWith_canonical s.cfg with files := h.1, eachFile := h.2 }
  have h1 := (h0.with_regions (wf_freeBytes (s.freeCount + 3) lenWave) (wf_freeBytes (s.freeCount + 4) lenIo)
    (wf_freeBytes (s.freeCount + 5) lenPal) (wf_freeBytes (s.freeCount + 6) lenOam)).with_bulk
    (wf_freeBytes (s.freeCount + 1) 32768) (wf_freeBytes (s.freeCount + 2) 16384) Memory.wf_nil 0
  have hp := wf_freeBytes (s.freeCount + 7) (frameOffset s.cfg.poolSize)
  have hm := freeRegisters_wf s.cfg.regTable (s.freeCount + 1) Tab.wf_nil
  unfold resetInput
  exact { h1 with pool := hp, mreg := hm }

theorem MemoriesCanonical.pokeRegion (h : MemoriesCanonical s) (r : Region) (off : Nat) (b : Byte) :
    MemoriesCanonical (pokeRegion r off b s) := by
  cases r with
  | wram => exact { h with wram := Memory.wf_write h.wram _ _ }
  | vram => exact { h with vram := Memory.wf_write h.vram _ _ }
  | wave => exact { h with wave := Memory.wf_write h.wave _ _ }
  | ioregs => exact { h with ioregs := Memory.wf_write h.ioregs _ _ }
  | pal => exact { h with pal := Memory.wf_write h.pal _ _ }
  | oam => exact { h with oam := Memory.wf_write h.oam _ _ }

theorem MemoriesCanonical.schedule {t : State} (h : MemoriesCanonical s) (hrun : schedule s = .next t) :
    MemoriesCanonical t := by
  unfold Machine.schedule at hrun
  split at hrun
  · cases hrun
  · cases hrun; exact { h with }
  · split at hrun <;> cases hrun
    · exact h.requestQuantum _ _
    · exact { h with }
  · split at hrun <;> cases hrun
    · exact { h with }
    · rw [requestQuantum_eq]; exact { h with }
  · cases hrun; exact { h with }
  · split at hrun <;> cases hrun
    · exact h.requestQuantum _ _
    · exact { h with }

/-- The agents' lists and the command word hold no memory. -/
theorem MemoriesCanonical.presented (h : MemoriesCanonical s) (rest : List HostAct) (w : Word) (an : List Answer) :
    MemoriesCanonical { s with host := rest, cw := w, answers := an } := { h with }

theorem MemoriesCanonical.envTaken (h : MemoriesCanonical s) : MemoriesCanonical (envTaken s) := by
  rw [envTaken_eq]; exact { h with }

theorem MemoriesCanonical.envSetReg {t : State} {id : RegId} {v : Word} (h : MemoriesCanonical s)
    (hrun : envSetReg id v s = .next t) : MemoriesCanonical t := by
  unfold Machine.envSetReg at hrun
  split at hrun
  · cases hrun; exact h.writeReg id _
  · split at hrun <;> cases hrun
    · exact h.writeReg .rambank v
    · exact h.writeReg .bootromOff v

/-- Whatever acts inside a quantum keeps the canonical form. -/
theorem MemoriesCanonical.envAct {t : State} {a : EnvAct} (h : MemoriesCanonical s)
    (hrun : envAct a s = .next t) : MemoriesCanonical t := by
  cases a with
  | bus w =>
    obtain ⟨i, -, hi⟩ | ⟨-, rfl⟩ := presentBus_cases hrun
    · exact h.exec hi
    · exact { h with }
  | setReg id v => exact h.envSetReg hrun
  | poke r off b =>
    unfold Machine.envAct envPoke at hrun
    dsimp only at hrun
    split at hrun <;> cases hrun
    exact h.pokeRegion r off b
  | controller r v => cases hrun; cases r <;> exact { h with }
  | reset => cases hrun; exact resetInput_canonical h.filesOk
  | setLy v => cases hrun; exact { h with }
  | setLineCycles v => cases hrun; exact { h with }
  | setLcdOn v => cases hrun; exact { h with }
  | done => cases hrun; exact { h with }

theorem MemoriesCanonical.present {t : State} {w : Word} (h : MemoriesCanonical s) (hrun : present w s = .next t) :
    MemoriesCanonical t := by
  obtain ⟨i, -, hi⟩ | ⟨-, rfl⟩ := present_cases hrun
  · exact (h.presented s.host w s.answers).exec hi
  · exact { h with }

/-- Settles O57: by the agent that acts, and for an operation by the lemma of each function it is made of. -/
theorem memoriesStayCanonical : Obligations.MemoriesStayCanonical := by
  intro s t h hstep
  cases step_cases hstep with
  | stays ht => rw [ht]; exact h
  | resets u _ hfiles ht => rw [ht]; exact resetInput_canonical (h.filesOk.of_files hfiles)
  | abandons w k rest an u hrun ht =>
    have hu : MemoriesCanonical u := (h.presented rest s.cw an).present hrun
    rw [ht]
    exact resetInput_canonical hu.filesOk
  | command w rest i _ _ hrun => exact (h.presented rest w s.answers).exec hrun
  | reserved w rest _ ht => rw [ht]; exact { h with }
  | window rest xd _ ht => rw [ht]; exact { h with }
  | bus w i _ _ _ hrun => exact h.envTaken.exec hrun
  | busReserved _ _ ht => rw [ht]; exact { h.envTaken with }
  | env _ _ _ _ hrun => exact h.envTaken.envAct hrun
  | schedules hs _ _ _ _ hrun => exact (h.presented hs s.cw s.answers).schedule hrun

end Sys2Proof.Machine
end

section
/-! PROOFS. What each operation can change and how it ends: for every command the state `u` its body leaves, compared with
the state it was accepted in, and its end (R9, R183, R184, R210). -/

namespace Sys2Proof.Machine

variable {s : State}

/-! ### Traces of storage primitives -/

theorem OnlyStorageSince.of_trace {t : State} (h : t.trace = s.trace) : OnlyStorageSince s t :=
  ⟨[], by rw [h, List.append_nil], by simp⟩

theorem OnlyStorageSince.of_event {t : State} {e : Event} (h : t.trace = s.trace ++ [e]) (he : e.isStorage = true) :
    OnlyStorageSince s t :=
  ⟨[e], h, by simpa using he⟩

theorem OnlyStorageSince.trans {t u : State} (h₁ : OnlyStorageSince s t) (h₂ : OnlyStorageSince t u) :
    OnlyStorageSince s u := by
  obtain ⟨es, e1, h1⟩ := h₁
  obtain ⟨es', e2, h2⟩ := h₂
  refine ⟨es ++ es', by rw [e2, e1, List.append_assoc], fun e he => ?_⟩
  rcases List.mem_append.1 he with he | he
  · exact h1 e he
  · exact h2 e he

@[simp] theorem answerTaken_trace (s : State) : (answerTaken s).trace = s.trace := by
  unfold answerTaken; split <;> rfl

@[simp] theorem setHandle_trace (h : HandleName) (v : Option Handle) (s : State) :
    (setHandle h v s).trace = s.trace := by cases h <;> rfl

@[simp] theorem stSeek_trace (h : HandleName) (off : Nat) (s : State) :
    (stSeek h off s).2.trace = s.trace ++ [.stSeek h off] := by
  unfold stSeek; split
  · rfl
  · split <;> simp

@[simp] theorem stRead_trace (h : HandleName) (n : Nat) (s : State) :
    (stRead h n s).2.trace = s.trace ++ [.stRead h n] := by
  unfold stRead; split
  · rfl
  · split <;> simp

@[simp] theorem chooseFrom_trace (d : Nat) (xs : List Nat) (s : State) : (chooseFrom d xs s).2.trace = s.trace := by
  unfold chooseFrom; split <;> rfl

/-! ### The end of a command -/

/-- A command ends with a code and `busy` clear, unless it has halted or hangs (R9, R183, R184, R210). -/
def endWith (r : Word) (u : State) : State := if stopped u then u else { u with result := r, busy := false }

/-- `busy` stays set exactly where the command stopped, and then `result` is as it was. -/
theorem endWith_eq {r : Word} {u : State} (h : u.busy = true) :
    endWith r u = { u with result := if stopped u then u.result else r, busy := stopped u } := by
  unfold endWith
  cases hs : stopped u
  · rfl
  · cases u; cases h; rfl

theorem endWith_of_stopped {u : State} (r : Word) (h : stopped u = true) : endWith r u = u := by simp [endWith, h]

theorem endWith_of_not {u : State} (r : Word) (h : stopped u = false) :
    endWith r u = { u with result := r, busy := false } := by simp [endWith, h]

theorem raiseError_end (e : ErrorCode) (h : stopped s = false) : raiseError e s = endWith e.code s := by
  simp [endWith, h, raiseError]

theorem complete_end (h : stopped s = false) : complete s = endWith 0 s := by simp [endWith, h, complete]

theorem unlessStalled_end {f : State → State} {r : Word} (hh : s.halted = false)
    (hf : stopped s = false → f s = endWith r s) : unlessStalled f s = endWith r s := by
  rcases unlessStalled_cases f s with ⟨hst, e⟩ | ⟨hst, e⟩ <;> rw [e]
  · exact (endWith_of_stopped r (stopped_eq_true.2 (.inr hst))).symm
  · exact hf (stopped_eq_false.2 ⟨hh, hst⟩)

/-! ### Primitives on the cartridge's handle -/

/-- `t` is `s` after storage primitives on the cartridge's handle, which write no file. -/
def CartStep (s t : State) : Prop :=
  ∃ es ch an fc sd,
    t = { s with trace := s.trace ++ es, cartHandle := ch, answers := an, freeCount := fc, stalled := sd } ∧
    ∀ e ∈ es, e.isStorage = true

theorem CartStep.trans {t u : State} (h₁ : CartStep s t) (h₂ : CartStep t u) : CartStep s u := by
  obtain ⟨es, ch, an, fc, sd, rfl, h1⟩ := h₁
  obtain ⟨es', ch', an', fc', sd', rfl, h2⟩ := h₂
  refine ⟨es ++ es', ch', an', fc', sd', by rw [← List.append_assoc], fun e he => ?_⟩
  rcases List.mem_append.1 he with he | he
  · exact h1 e he
  · exact h2 e he

theorem CartStep.refl (s : State) : CartStep s s := ⟨[], _, _, _, _, by rw [List.append_nil], by simp⟩

theorem CartStep.halted {t : State} (h : CartStep s t) : t.halted = s.halted := by
  obtain ⟨_, _, _, _, _, rfl, -⟩ := h; rfl

theorem issued_cartStep (e : Event) (he : e.isStorage = true) (s : State) : CartStep s (answerTaken (emit e s)) := by
  unfold answerTaken
  split <;> exact ⟨[e], _, _, _, _, rfl, by simpa using he⟩

theorem cartHandle_cartStep (v : Option Handle) (s : State) : CartStep s (setHandle .cart v s) :=
  ⟨[], v, _, _, _, by rw [List.append_nil]; rfl, by simp⟩

theorem open_cartStep (id : Half) (s : State) : CartStep s (stOpen .cart id .read s).2 := by
  unfold stOpen
  split
  · exact issued_cartStep _ rfl s
  · exact (issued_cartStep _ rfl s).trans (cartHandle_cartStep _ _)

theorem read_cartStep (n : Nat) (s : State) : CartStep s (stRead .cart n s).2 := by
  unfold stRead
  split
  · exact ⟨[_], _, _, _, _, rfl, by simp [Event.isStorage]⟩
  · split
    · exact issued_cartStep _ rfl s
    · exact (issued_cartStep _ rfl s).trans (cartHandle_cartStep _ _)

theorem close_cartStep (s : State) : CartStep s (stClose .cart s) := by
  unfold stClose
  split
  · exact issued_cartStep _ rfl s
  · exact (issued_cartStep _ rfl s).trans (cartHandle_cartStep _ _)

/-! ### Closing a handle at the end of a command -/

/-- A close that returns has closed the handle. -/
theorem stClose_closed (h : HandleName) (s : State) (hr : (stClose h s).stalled = false) :
    getHandle h (stClose h s) = none := by
  obtain ⟨fc, ⟨-, e⟩ | ⟨-, e⟩⟩ := stClose_cases h s <;> rw [e] at hr ⊢
  · cases hr
  · exact getHandle_setHandle h none _

theorem stClose_halted (h : HandleName) (s : State) : (stClose h s).halted = s.halted := by
  obtain ⟨_, _, _, _, _, _, _, e⟩ := stClose_only h s; rw [e]

/-- The close and what follows it end the command, in the state the close leaves. -/
theorem closeThen_end {h : HandleName} {f : State → State} {r : State → Word} (hh : s.halted = false)
    (hf : ∀ v, stopped v = false → f v = endWith (r v) v) :
    closeThen h f s = endWith (r (stClose h s)) (stClose h s) :=
  unlessStalled_end (by rw [stClose_halted, hh]) (hf _)

/-- A command that closes its handle, unless it hangs before (R145, R210). -/
theorem closing_end {key : Nat} {f : State → State} {r : State → Word} (hh : s.halted = false)
    (hf : ∀ v, stopped v = false → f v = endWith (r v) v) :
    ∃ v, unlessStalled (closeThen .op f) s = endWith (r v) v ∧ OpStep key s v ∧ v.files = s.files ∧
      (v.stalled = false → v.opHandle = none) := by
  rcases unlessStalled_cases (closeThen .op f) s with ⟨hst, e⟩ | ⟨-, e⟩ <;> rw [e]
  · exact ⟨s, (endWith_of_stopped _ (stopped_eq_true.2 (.inr hst))).symm, .refl key s, rfl,
      fun h => by rw [hst] at h; cases h⟩
  · exact ⟨_, closeThen_end hh hf, close_step s, stClose_files .op s, stClose_closed .op s⟩

/-! ### The bank manager: no event but storage primitives -/

/-- What BANK_LOAD, PRELOAD and RD can change, and that they emit no event output. -/
def BankStep (s t : State) : Prop := BankOnly s t ∧ OnlyStorageSince s t

theorem fillFailed_trace (f : Nat) (s : State) : (fillFailed f s).trace = s.trace := by
  unfold fillFailed unlessStalled; split <;> rfl

theorem fillRead_trace (f : Nat) (r : ReadAnswer × State) : (fillRead f r).trace = r.2.trace := by
  obtain ⟨a, u⟩ := r
  cases a
  · rfl
  · rfl
  · exact fillFailed_trace f u

theorem fillSought_storage (f : Nat) (r : Bool × State) : OnlyStorageSince r.2 (fillSought f r) := by
  obtain ⟨b, u⟩ := r
  cases b
  · exact .of_trace (fillFailed_trace f u)
  · exact .of_event ((fillRead_trace f _).trans (stRead_trace .cart romPage u)) rfl

theorem fill_storage (n f : Nat) (s : State) : OnlyStorageSince s (fill n f s) :=
  (OnlyStorageSince.of_event (stSeek_trace .cart (romOffset n) (clearFrame f s)) rfl).trans (fillSought_storage f _)

theorem loadBank_storage (n : Nat) (s : State) : OnlyStorageSince s (loadBank n s) := by
  have hc : ∀ xs, OnlyStorageSince s (chooseFrom 0 xs s).2 := fun xs => .of_trace (chooseFrom_trace 0 xs s)
  unfold loadBank
  split_ifs
  · exact .of_trace rfl
  · exact (hc _).trans (fill_storage n _ (assign n _ _))
  · refine (hc (residents s)).trans ?_
    unfold loadEvicting transplant
    split
    · exact fill_storage n _ (assign n _ (vacate _ _))
    · exact .of_trace rfl
  · exact .of_trace rfl

theorem preloadFrom_storage (n k : Nat) (s : State) : OnlyStorageSince s (preloadFrom n k s) := by
  induction k generalizing n s with
  | zero => exact .of_trace rfl
  | succ k ih =>
    unfold preloadFrom
    split
    · exact .of_trace rfl
    · exact (loadBank_storage n s).trans (ih _ _)

theorem loadBank_step (n : Nat) (s : State) : BankStep s (loadBank n s) := ⟨loadBank_bank n s, loadBank_storage n s⟩

theorem preloadBody_step (k : Nat) (s : State) : BankStep s (preloadBody k s) :=
  ⟨preloadFrom_bank 0 k s, preloadFrom_storage 0 k s⟩

/-! ### CART_LOAD -/

/-- The state from which CART_LOAD preloads: committed, warned, the palette event emitted (R85, R88, R89). -/
def cartAnnounced (id : Half) (h : Header) (romsize : Nat) (s : State) : State :=
  notifyPalette h (warnRamsize h (commitCart id h romsize s))

/-- What CART_LOAD adds to its commit before the preload: the warning, the palette event (R85, R88). -/
theorem cartAnnounced_frame (id : Half) (h : Header) (n : Nat) (s : State) :
    ∃ wn es, cartAnnounced id h n s = { commitCart id h n s with warn := wn, trace := s.trace ++ es } ∧
      (wn = s.warn ∨ wn = s.warn ||| 2) := by
  unfold cartAnnounced notifyPalette warnRamsize
  split <;> split
  · exact ⟨_, [.warn .ramsize], rfl, .inr rfl⟩
  · exact ⟨_, [], by rw [List.append_nil]; rfl, .inl rfl⟩
  · exact ⟨_, [.warn .ramsize, .palRebuild], by rw [← List.singleton_append, ← List.append_assoc]; rfl, .inr rfl⟩
  · exact ⟨_, [.palRebuild], rfl, .inl rfl⟩

/-- How CART_LOAD ends: without a commit, the handle closed unless it hangs, or committed and preloaded. -/
def CartLoadEnd (id : Half) (s t : State) : Prop :=
  (∃ u r, t = endWith r u ∧ CartStep s u ∧ (s.cartHandle = none → u.stalled = false → u.cartHandle = none) ∧
    (s.cart.loaded = true → u = s)) ∨
  (∃ b n u, s.cart.loaded = false ∧ romSize (headerFields b).romcode = some n ∧ CartStep s u ∧
    u.cartHandle.map (·.id) = some id ∧
    t = endWith 0 (preloadBody (preloadCount u.cfg n (headerFields b).title) (cartAnnounced id (headerFields b) n u)))

/-- A CART_LOAD that closes the handle and ends with an error. -/
theorem CartLoadEnd.of_close {id : Half} {u : State} (hu : CartStep s u) (hh : s.halted = false)
    (hl : s.cart.loaded = false) (e : ErrorCode) : CartLoadEnd id s (closeThen .cart (raiseError e) u) := by
  exact .inl ⟨_, e.code, closeThen_end (hu.halted.trans hh) fun v hv => raiseError_end e hv,
    hu.trans (close_cartStep u), fun _ => stClose_closed .cart u, fun h => by rw [hl] at h; cases h⟩

theorem cartClassify_ends {id : Half} {u : State} (hu : CartStep s u) (hh : s.halted = false)
    (hl : s.cart.loaded = false) (hid : u.cartHandle.map (·.id) = some id) (b : Memory) :
    CartLoadEnd id s (cartClassify id (headerFields b) u) := by
  unfold cartClassify
  split
  · exact .of_close hu hh hl _
  · split
    · exact .of_close hu hh hl _
    · exact .inr ⟨b, _, u, hl, by assumption, hu, hid, rfl⟩

theorem cartOpened_ends {id : Half} {u : State} (hu : CartStep s u) (hh : s.halted = false)
    (hl : s.cart.loaded = false) (hid : u.cartHandle.map (·.id) = some id) :
    CartLoadEnd id s (cartOpened id (true, u)) := by
  have hr := hu.trans (read_cartStep hdrMin u)
  have hi := (stRead_handles .cart hdrMin u).1.trans hid
  show CartLoadEnd id s (cartHeaderRead id (stRead .cart hdrMin u))
  generalize stRead .cart hdrMin u = r at hr hi
  obtain ⟨a, v⟩ := r
  cases a with
  | full b => exact cartClassify_ends hr hh hl hi b
  | eof k b => exact .of_close hr hh hl _
  | fail =>
    rcases unlessStalled_cases (closeThen .cart (raiseError .storage)) v with ⟨hst, e⟩ | ⟨-, e⟩
    · refine .inl ⟨v, 0, e.trans (endWith_of_stopped 0 (stopped_eq_true.2 (.inr hst))).symm, hr, fun _ h => ?_,
        fun h => ?_⟩
      · rw [hst] at h; cases h
      · rw [hl] at h; cases h
    · show CartLoadEnd id s (unlessStalled _ v)
      rw [e]
      exact .of_close hr hh hl _

/-- An open that answers leaves a handle on the identifier; one that does not leaves the handle as it was. -/
theorem stOpen_cartHandle (id : Half) (s : State) :
    (stOpen .cart id .read s).1 = true ∧ (stOpen .cart id .read s).2.cartHandle.map (·.id) = some id ∨
    (stOpen .cart id .read s).1 = false ∧ (stOpen .cart id .read s).2.cartHandle = s.cartHandle := by
  unfold stOpen
  split
  · exact .inr ⟨rfl, answerTaken_cartHandle _⟩
  · exact .inl ⟨rfl, rfl⟩

theorem cartLoadOp_ends (id : Half) (hs : stopped s = false) : CartLoadEnd id s (cartLoadOp id s) := by
  have hh := (stopped_eq_false.1 hs).1
  unfold cartLoadOp
  split
  · exact .inl ⟨s, _, raiseError_end _ hs, .refl s, fun h _ => h, fun _ => rfl⟩
  · rename_i hl
    have hu := open_cartStep id s
    have hc := stOpen_cartHandle id s
    generalize stOpen .cart id .read s = r at hu hc
    obtain ⟨b, u⟩ := r
    rcases hc with ⟨rfl, hid⟩ | ⟨rfl, hid⟩
    · exact cartOpened_ends hu hh (by simpa using hl) hid
    · exact .inl ⟨u, _, unlessStalled_end (hu.halted.trans hh) fun h => raiseError_end _ h, hu, fun h _ => hid.trans h,
        fun h => absurd h hl⟩

/-! ### SRAM_SAVE, SRAM_LOAD and STATE_SAVE -/

/-- A command on the operation's handle ended, from a body related by `Step`: the handle is closed unless it hangs. -/
def OpEnd (Step : State → State → Prop) (s t : State) : Prop :=
  ∃ u r, t = endWith r u ∧ Step s u ∧ (s.opHandle = none → u.stalled = false → u.opHandle = none)

theorem OpEnd.refused {Step : State → State → Prop} (hs : stopped s = false) (hr : Step s s) (e : ErrorCode) :
    OpEnd Step s (raiseError e s) :=
  ⟨s, e.code, raiseError_end e hs, hr, fun h _ => h⟩

/-- The state before the handle is opened can differ from the accepted one, the handle apart. -/
theorem OpEnd.of_start {Step Step' : State → State → Prop} {s₀ t : State} (h : OpEnd Step s₀ t)
    (hi : ∀ u, Step s₀ u → Step' s u) (hh : s₀.opHandle = s.opHandle) : OpEnd Step' s t := by
  obtain ⟨u, r, e, h1, h2⟩ := h; exact ⟨u, r, e, hi u h1, fun h => h2 (hh.trans h)⟩

theorem OpStep.halted {key : Nat} {t : State} (h : OpStep key s t) : t.halted = s.halted := by
  obtain ⟨_, _, _, _, _, _, rfl, -⟩ := h; rfl

/-- An open for reading changes no file. -/
theorem stOpen_read_files (h : HandleName) (id : Half) (s : State) : (stOpen h id .read s).2.files = s.files := by
  unfold stOpen
  split
  · simp
  · cases h <;> simp [setHandle, openedFiles]

/-- `u` is `s` after an open of the operation's handle that answered. -/
structure Opened (id : Half) (mode : Mode) (s u : State) : Prop where
  step : OpStep (fileKey s id) s u
  handle : u.opHandle = some ⟨id, mode, 0⟩
  files : mode = .read → u.files = s.files

theorem Opened.on {id : Half} {mode : Mode} {u : State} (h : Opened id mode s u) : HandleOn (fileKey s id) u := by
  intro hd hhd
  rw [h.handle] at hhd
  cases hhd
  exact h.step.key id

/-- How a command goes on from its open: an error where it does not answer, else a body that ends. -/
theorem OpEnd.of_open {Step : State → State → Prop} {id : Half} {mode : Mode} {g : Bool × State → State}
    (hh : s.halted = false) (hstep : ∀ u, OpStep (fileKey s id) s u → (mode = .read → u.files = s.files) → Step s u)
    (hfail : ∀ u, g (false, u) = unlessStalled (raiseError .storage) u)
    (hok : ∀ u, Opened id mode s u → ∃ v r, g (true, u) = endWith r v ∧ Step s v ∧
      (v.stalled = false → v.opHandle = none)) :
    OpEnd Step s (g (stOpen .op id mode s)) := by
  have hu := open_step id mode s
  have h1 := open_handle (id := id) (mode := mode) (s := s)
  have h2 := open_failed_handle (id := id) (mode := mode) (s := s)
  have hf : mode = .read → (stOpen .op id mode s).2.files = s.files := by
    rintro rfl; exact stOpen_read_files .op id s
  generalize stOpen .op id mode s = r at hu h1 h2 hf
  obtain ⟨b, u⟩ := r
  cases b with
  | false =>
    rw [hfail]
    exact ⟨u, _, unlessStalled_end (hu.halted.trans hh) fun h => raiseError_end _ h, hstep u hu hf,
      fun h _ => (h2 rfl).trans h⟩
  | true =>
    obtain ⟨v, r, e, hv, hc⟩ := hok u ⟨hu, h1 rfl, hf⟩
    exact ⟨v, r, e, hv, fun _ => hc⟩

/-- The code a save ends with (R126). -/
def saveCode (ok : Bool) (s : State) : Word := if s.sramDirty ≠ 0 ∨ ok = false then ErrorCode.code .storage else 0

theorem saveResult_end (ok : Bool) (hs : stopped s = false) : saveResult ok s = endWith (saveCode ok s) s := by
  unfold saveResult saveCode
  split
  · exact raiseError_end _ hs
  · exact complete_end hs

/-- Marking a bank of the cartridge keeps the bits beyond its banks clear (R15). -/
theorem MasksInRange.markWritten {i : Nat} (h : MasksInRange s) (hi : i < s.cart.ramsize) :
    MasksInRange (markWritten i s) := by
  intro j hj
  have hj' : s.cart.ramsize ≤ j := hj
  obtain ⟨h1, h2⟩ := h j hj'
  refine ⟨(bitOf_clearBit s.sramDirty i j).trans (by rw [h1, Bool.false_and]), (bitOf_setBit s.sramSaved i j).trans ?_⟩
  rw [h2, decide_eq_false (show ¬ j = i by omega), Bool.false_and, Bool.or_false]

theorem MasksInRange.of_eq {t : State} (h : MasksInRange s) (h1 : t.cart = s.cart) (h2 : t.sramDirty = s.sramDirty)
    (h3 : t.sramSaved = s.sramSaved) : MasksInRange t := by
  unfold MasksInRange; rw [h1, h2, h3]; exact h

/-- What SRAM_SAVE can change; it marks banks of the cartridge only. -/
def SaveBody (key : Nat) (s t : State) : Prop :=
  SaveStep key s t ∧ (s.cart.ramsize ≤ 32 → MasksInRange s → MasksInRange t)

theorem SaveBody.trans {key : Nat} {t u : State} (h₁ : SaveBody key s t) (h₂ : SaveBody key t u) : SaveBody key s u :=
  ⟨h₁.1.trans h₂.1, fun hr hm => h₂.2 (h₁.1.rest.2.1 ▸ hr) (h₁.2 hr hm)⟩

theorem OpStep.saveBody {key : Nat} {t : State} (h : OpStep key s t) : SaveBody key s t :=
  ⟨h.save, fun _ hm => hm.of_eq h.cart h.masks.1 h.masks.2⟩

theorem markAll_body (key : Nat) (quick : Bool) (s : State) : SaveBody key s (markAll quick s) := by
  refine ⟨markAll_save key quick s, fun hr hm => ?_⟩
  cases quick with
  | true => exact hm
  | false =>
    intro j hj
    have hj' : s.cart.ramsize ≤ j := hj
    exact ⟨(bitOf_allBanks hr j).trans (decide_eq_false (by omega)), BitVec.getLsbD_zero⟩

theorem saveBank_body {key i : Nat} (h : HandleOn key s) (hi : i < s.cart.ramsize) :
    SaveBody key s (saveBank i s) ∧ (saveBank i s).opHandle.map (·.id) = s.opHandle.map (·.id) := by
  unfold saveBank
  split
  · have h1 := seekWrite_step h (ramOffset i) ramPage (ramBank s i)
    have h2 := seekWrite_opHandle (ramOffset i) ramPage (ramBank s i) s
    generalize seekWrite (ramOffset i) ramPage (ramBank s i) s = r at h1 h2
    obtain ⟨b, u⟩ := r
    cases b with
    | false =>
      obtain ⟨s1, s2, -⟩ := skipBank_law (i := i) (h.of_id h1.cfg h2)
      exact ⟨h1.saveBody.trans s1.saveBody, (congrArg _ s2).trans h2⟩
    | true =>
      have hi' : i < u.cart.ramsize := h1.cart ▸ hi
      exact ⟨h1.saveBody.trans ⟨markWritten_save key i u, fun _ hm => hm.markWritten hi'⟩, h2⟩
  · exact ⟨(OpStep.refl key s).saveBody, rfl⟩

theorem saveBanks_body {key : Nat} (k i : Nat) (h : HandleOn key s) (hi : i + k ≤ s.cart.ramsize) :
    SaveBody key s (saveBanks i k s) ∧ HandleOn key (saveBanks i k s) := by
  induction k generalizing i s with
  | zero => exact ⟨(OpStep.refl key s).saveBody, h⟩
  | succ k ih =>
    unfold saveBanks
    split
    · exact ⟨(OpStep.refl key s).saveBody, h⟩
    · obtain ⟨h1, h2⟩ := saveBank_body (i := i) h (by omega)
      have hc : (saveBank i s).cart = s.cart := h1.1.rest.2.1
      obtain ⟨h3, h4⟩ := ih (i + 1) (h.of_id h1.1.rest.1 h2) (by rw [hc]; omega)
      exact ⟨h1.trans h3, h4⟩

theorem SaveStep.halted {key : Nat} {t : State} (h : SaveStep key s t) : t.halted = s.halted := by
  obtain ⟨_, _, _, _, _, _, _, _, rfl, -⟩ := h; rfl

theorem sramSaveOp_ends (id : Half) (quick : Bool) (hs : stopped s = false) :
    OpEnd (SaveBody (fileKey s id)) s (sramSaveOp id quick s) := by
  have hm := markAll_body (fileKey s id) quick s
  have hmh : (markAll quick s).opHandle = s.opHandle := by cases quick <;> rfl
  have hk : fileKey (markAll quick s) id = fileKey s id := fileKey_eq_of_cfg hm.1.rest.1 id
  unfold sramSaveOp
  split
  · exact .refused hs (OpStep.refl _ s).saveBody _
  · generalize markAll quick s = m at hm hmh hk
    have hh : m.halted = false := hm.1.halted.trans (stopped_eq_false.1 hs).1
    refine OpEnd.of_start (Step := SaveBody (fileKey m id)) (.of_open hh (fun u h _ => h.saveBody) (fun u => rfl) ?_)
      (fun u h => hm.trans (hk ▸ h)) hmh
    intro u hu
    obtain ⟨h1, h2⟩ := saveBanks_body u.cart.ramsize 0 hu.on (by omega)
    have h3 := (hu.step.saveBody.trans h1).trans (saveClock_step h2).saveBody
    obtain ⟨v, e, hv, -, hc⟩ := closing_end (key := fileKey m id) (h3.1.halted.trans hh)
      (fun w hw => saveResult_end (saveClock (saveBanks 0 u.cart.ramsize u)).1 hw)
    exact ⟨v, _, e, h3.trans hv.saveBody, hc⟩

/-- The code a load of the battery RAM ends with (R132). -/
def loadCode (s : State) : Word := if s.sramSaved = 0 then ErrorCode.code .storage else 0

theorem loadResult_end (hs : stopped s = false) : loadResult s = endWith (loadCode s) s := by
  unfold loadResult loadCode
  split
  · exact raiseError_end _ hs
  · exact complete_end hs

/-- What SRAM_LOAD's loops can change; they mark banks of the cartridge only. -/
def LoadBody (s t : State) : Prop := LoadStep s t ∧ (MasksInRange s → MasksInRange t)

theorem LoadBody.trans {t u : State} (h₁ : LoadBody s t) (h₂ : LoadBody t u) : LoadBody s u :=
  ⟨h₁.1.trans h₂.1, fun hm => h₂.2 (h₁.2 hm)⟩

theorem OpStep.loadBody {key : Nat} {t : State} (h : OpStep key s t) (hf : t.files = s.files) : LoadBody s t :=
  ⟨h.load hf, fun hm => hm.of_eq h.cart h.masks.1 h.masks.2⟩

theorem loadRamBank_body {key i : Nat} (h : HandleOn key s) (hi : i < s.cart.ramsize) :
    LoadBody s (loadRamBank i s) := by
  obtain ⟨h1, -, -, h2⟩ := loadRamBank_law (i := i) h
  obtain ⟨-, hc, -, hd⟩ := h1.rest
  refine ⟨h1, fun hm j hj => ?_⟩
  have hj' : s.cart.ramsize ≤ j := hc ▸ hj
  obtain ⟨m1, m2⟩ := hm j hj'
  refine ⟨hd ▸ m1, ?_⟩
  rcases h2 with ⟨e, -⟩ | ⟨-, e, -⟩ <;> rw [e]
  · exact m2
  · rw [bitOf_setBit, m2, decide_eq_false (show ¬ j = i by omega), Bool.false_and, Bool.or_false]

theorem loadRamBanks_body {key : Nat} (k i : Nat) (h : HandleOn key s) (hi : i + k ≤ s.cart.ramsize) :
    LoadBody s (loadRamBanks i k s) ∧ HandleOn key (loadRamBanks i k s) := by
  induction k generalizing i s with
  | zero => exact ⟨⟨.refl s, id⟩, h⟩
  | succ k ih =>
    unfold loadRamBanks
    split
    · exact ⟨⟨.refl s, id⟩, h⟩
    · obtain ⟨h1, h2, -⟩ := loadRamBank_law (i := i) h
      obtain ⟨h3, h4⟩ := ih (i + 1) (h.of_id h1.rest.1 h2) (by rw [h1.rest.2.1]; omega)
      exact ⟨(loadRamBank_body h (by omega)).trans h3, h4⟩

theorem loadClock_body {key : Nat} (h : HandleOn key s) : LoadBody s (loadClock s) := by
  obtain ⟨h1, -, h2, -⟩ := loadClock_law h
  exact ⟨h1, fun hm => hm.of_eq h1.rest.2.1 h1.rest.2.2.2 h2⟩

theorem LoadStep.halted {t : State} (h : LoadStep s t) : t.halted = s.halted := by
  obtain ⟨_, _, _, _, _, _, _, _, rfl, -⟩ := h; rfl

/-- What SRAM_LOAD can change: the dirty bits, and what its loops change. -/
def RestoreBody (s t : State) : Prop :=
  (∃ d, LoadStep { s with sramDirty := d } t) ∧ (MasksInRange s → MasksInRange t)

theorem RestoreBody.of_cleared {t : State} (h : LoadBody { s with sramDirty := 0, sramSaved := 0 } t) :
    RestoreBody s t := by
  obtain ⟨⟨v, sr, rt, es, oh, an, fc, sd, rfl, he⟩, hm⟩ := h
  exact ⟨⟨0, v, sr, rt, es, oh, an, fc, sd, rfl, he⟩, fun _ => hm fun i _ => ⟨BitVec.getLsbD_zero, BitVec.getLsbD_zero⟩⟩

theorem sramLoadOp_ends (id : Half) (hs : stopped s = false) : OpEnd RestoreBody s (sramLoadOp id s) := by
  have hh := (stopped_eq_false.1 hs).1
  unfold sramLoadOp
  split
  · exact .refused hs ⟨⟨s.sramDirty, .refl s⟩, fun h => h⟩ _
  · refine OpEnd.of_start (s₀ := { s with sramDirty := 0, sramSaved := 0 }) (Step := LoadBody)
      (.of_open hh (fun u h hf => h.loadBody (hf rfl)) (fun u => rfl) fun u hu => ?_) (fun u => .of_cleared) rfl
    obtain ⟨h1, h2⟩ := loadRamBanks_body u.cart.ramsize 0 hu.on (by omega)
    have h3 := ((hu.step.loadBody (hu.files rfl)).trans h1).trans (loadClock_body h2)
    obtain ⟨v, e, hv, hf, hc⟩ := closing_end (key := 0) (h3.1.halted.trans hh) fun w hw => loadResult_end hw
    exact ⟨v, _, e, h3.trans (hv.loadBody hf), hc⟩

/-- What STATE_SAVE can change: the scratch `hdr`, and what its writes change. -/
def SnapshotStep (key : Nat) (s t : State) : Prop := ∃ h, OpStep key { s with hdr := h } t

theorem writeUnits_step {key : Nat} (us : List Memory) (h : HandleOn key s) : OpStep key s (writeUnits us s).2 := by
  induction us generalizing s with
  | nil => exact .refl key s
  | cons u us ih =>
    have h1 := write_step h unitSize u
    unfold writeUnits
    split
    · exact h1.trans (ih (h.of_id h1.cfg (write_opHandle unitSize u s)))
    · exact h1

theorem stateSaveOp_ends (id : Half) (hs : stopped s = false) :
    OpEnd (SnapshotStep (fileKey s id)) s (stateSaveOp id s) := by
  have hh := (stopped_eq_false.1 hs).1
  unfold stateSaveOp
  split
  · exact .refused hs ⟨s.hdr, .refl _ s⟩ _
  · refine OpEnd.of_start (s₀ := { s with hdr := buildHeader s }) (Step := OpStep (fileKey s id))
      (.of_open hh (fun u h _ => h) (fun u => rfl) fun u hu => ?_) (fun u h => ⟨_, h⟩) rfl
    have hw := hu.step.trans (writeUnits_step (stateUnits u) hu.on)
    show ∃ v r, saveStateWritten (writeUnits (stateUnits u) u) = endWith r v ∧ _
    generalize writeUnits (stateUnits u) u = q at hw
    obtain ⟨b, w⟩ := q
    have hw' := hw.halted.trans hh
    cases b with
    | false =>
      obtain ⟨v, e, hv, -, hc⟩ := closing_end (key := fileKey s id) hw' fun x hx => raiseError_end .storage hx
      exact ⟨v, _, e, hw.trans hv, hc⟩
    | true =>
      exact ⟨_, _, closeThen_end hw' fun x hx => complete_end hx, hw.trans (close_step w), stClose_closed .op w⟩

/-! ### STATE_LOAD -/

/-- What STATE_LOAD can change before the registers: the bulk memories, the scratch `hdr`, and what its primitives
change. -/
def BulkStep (s t : State) : Prop :=
  ∃ w v r h es oh an fc sd,
    t = { s with
      wram := w, vram := v, sram := r, hdr := h, trace := s.trace ++ es, opHandle := oh, answers := an,
      freeCount := fc, stalled := sd } ∧
    ∀ e ∈ es, e.isStorage = true

theorem BulkStep.trans {t u : State} (h₁ : BulkStep s t) (h₂ : BulkStep t u) : BulkStep s u := by
  obtain ⟨w, v, r, h, es, oh, an, fc, sd, rfl, h1⟩ := h₁
  obtain ⟨w', v', r', h', es', oh', an', fc', sd', rfl, h2⟩ := h₂
  refine ⟨w', v', r', h', es ++ es', oh', an', fc', sd', by rw [← List.append_assoc], fun e he => ?_⟩
  rcases List.mem_append.1 he with he | he
  · exact h1 e he
  · exact h2 e he

theorem OpStep.bulk {key : Nat} {t : State} (h : OpStep key s t) (hf : t.files = s.files) : BulkStep s t := by
  obtain ⟨es, fs, oh, an, fc, sd, rfl, h1, -⟩ := h
  obtain rfl : fs = s.files := hf
  exact ⟨_, _, _, _, es, oh, an, fc, sd, rfl, h1⟩

theorem BulkStep.halted {t : State} (h : BulkStep s t) : t.halted = s.halted := by
  obtain ⟨_, _, _, _, _, _, _, _, _, rfl, -⟩ := h; rfl

theorem spoilBlocks_bulk (s : State) : BulkStep s (spoilBlocks s) :=
  ⟨_, _, _, s.hdr, [], _, _, _, _, by rw [List.append_nil]; rfl, by simp⟩

theorem storeBlocks_bulk (h : Memory) (us : List Memory) (s : State) :
    BulkStep s (storeBlocks us { s with hdr := h }) :=
  ⟨_, _, _, h, [], _, _, _, _, by rw [List.append_nil]; rfl, by simp⟩

/-- Spoiling the bulk memories after a command has ended is ending it after they are spoiled. -/
theorem spoilBlocks_endWith (r : Word) (u : State) : spoilBlocks (endWith r u) = endWith r (spoilBlocks u) := by
  cases hs : stopped u with
  | true => rw [endWith_of_stopped r hs, endWith_of_stopped r (u := spoilBlocks u) hs]
  | false =>
    rw [endWith_of_not r hs, endWith_of_not r (u := spoilBlocks u) hs]
    simp only [spoilBlocks]

/-- A read that delivers all it was asked for had it in the file, and moved the handle past it. -/
theorem stRead_full {n : Nat} {b : Memory} (hr : (stRead .op n s).1 = .full b) :
    ∃ hd, s.opHandle = some hd ∧ hd.pos + n ≤ (fileOf hd s).len ∧
      (stRead .op n s).2.opHandle = some { hd with pos := hd.pos + n } := by
  unfold stRead at hr ⊢
  split at hr
  · cases hr
  · rename_i hd hh
    split at hr
    · cases hr
    · rename_i hn
      have hr' : readAt (fileOf hd s) hd.pos n = .full b := hr
      rw [if_neg hn]
      refine ⟨hd, hh, ?_, ?_⟩
      · unfold readAt at hr'
        split at hr'
        · assumption
        · cases hr'
      · show some { hd with pos := hd.pos + (readAt (fileOf hd s) hd.pos n).moved n } = _
        rw [hr']
        rfl

/-- R1 repeated: what it can change, and that a run of full units was in the file from the handle's position on. -/
theorem readUnits_law {key : Nat} (k : Nat) (h : HandleOn key s) :
    OpStep key s (readUnits k s).2 ∧ (readUnits k s).2.files = s.files ∧
    ∀ us hd, (readUnits k s).1 = some us → s.opHandle = some hd → hd.pos ≤ (fileAt key s).len →
      hd.pos + 4096 * k ≤ (fileAt key s).len := by
  induction k generalizing s with
  | zero => exact ⟨.refl key s, rfl, fun _ _ _ _ h => h⟩
  | succ k ih =>
    have h1 := read_step (key := key) unitSize s
    have hf := stRead_files .op unitSize s
    have hi := read_opHandle unitSize s
    have hb := fun b => stRead_full (s := s) (n := unitSize) (b := b)
    unfold readUnits
    generalize stRead .op unitSize s = r at h1 hf hi hb
    obtain ⟨a, v⟩ := r
    cases a with
    | full b =>
      obtain ⟨i1, i2, i3⟩ := ih (h.of_id h1.cfg hi)
      refine ⟨h1.trans i1, i2.trans hf, fun us hd hus hh _ => ?_⟩
      obtain ⟨us', hus', -⟩ := Option.map_eq_some_iff.1 hus
      obtain ⟨hd', hh', hlen, hpos⟩ := hb b rfl
      obtain rfl : hd' = hd := Option.some.inj (hh'.symm.trans hh)
      rw [fileOf_eq (h hd' hh)] at hlen
      have hend := i3 us' _ hus' hpos
      rw [fileAt_of_files hf] at hend
      calc hd'.pos + 4096 * (k + 1) = hd'.pos + 4096 + 4096 * k := by ring
        _ ≤ (fileAt key s).len := hend hlen
    | eof j b => exact ⟨h1, hf, fun us hd hus => by cases hus⟩
    | fail => exact ⟨h1, hf, fun us hd hus => by cases hus⟩

/-- How STATE_LOAD ends after its open: with E_STORAGE or a hang and no register changed, or restored from a file of the
snapshot's length (R147, R149, R210). -/
def StateLoadEnd (id : Half) (s t : State) : Prop :=
  (∃ u, t = endWith (ErrorCode.code .storage) u ∧ BulkStep s u ∧
    (s.opHandle = none → u.stalled = false → u.opHandle = none)) ∨
  (∃ u, t = stateRestored u ∧ BulkStep s u ∧ u.stalled = false ∧ u.opHandle = none ∧
    4096 * unitCount s.cart ≤ (fileNamed s id).len)

/-- A STATE_LOAD that a read stopped closes the handle and ends with the error (R149). -/
theorem StateLoadEnd.of_failed {id : Half} {u : State} (hu : BulkStep s u) (hh : s.halted = false) :
    StateLoadEnd id s (spoilBlocks (unlessStalled (closeThen .op (raiseError .storage)) u)) := by
  obtain ⟨v, e, hv, hf, hc⟩ := closing_end (key := 0) (hu.halted.trans hh) fun w hw => raiseError_end .storage hw
  refine .inl ⟨spoilBlocks v, by rw [e, spoilBlocks_endWith], (hu.trans (hv.bulk hf)).trans (spoilBlocks_bulk v),
    fun _ => hc⟩

theorem loadStateRead_ends {id : Half} {r : Option (List Memory) × State} (hu : BulkStep s r.2)
    (hh : s.halted = false) (hlen : r.1 ≠ none → 4096 * unitCount s.cart ≤ (fileNamed s id).len)
    (hne : r.1 ≠ some []) : StateLoadEnd id s (loadStateRead r) := by
  obtain ⟨a, u⟩ := r
  rcases a with _ | _ | ⟨hdr, us⟩
  · exact .of_failed hu hh
  · exact absurd rfl hne
  · have hb := hu.trans (storeBlocks_bulk hdr us u)
    show StateLoadEnd id s (closeThen .op stateRestored (storeBlocks us { u with hdr := hdr }))
    generalize storeBlocks us { u with hdr := hdr } = v at hb
    have hc := hb.trans ((close_step (key := 0) v).bulk (stClose_files .op v))
    have hcl := stClose_closed .op v
    rcases unlessStalled_cases stateRestored (stClose .op v) with ⟨hst, e⟩ | ⟨hst, e⟩
    · exact .inl ⟨_, e.trans (endWith_of_stopped _ (stopped_eq_true.2 (.inr hst))).symm, hc, fun _ => hcl⟩
    · exact .inr ⟨_, e, hc, hst, hcl hst, hlen (by simp)⟩

theorem readUnits_ne_nil (k : Nat) (s : State) : (readUnits (k + 1) s).1 ≠ some [] := by
  unfold readUnits
  split
  · intro h
    obtain ⟨us, -, h'⟩ := Option.map_eq_some_iff.1 h
    cases h'
  · simp
  · simp

theorem stateLoadOp_ends (id : Half) (hs : stopped s = false) (hl : s.cart.loaded = true) :
    StateLoadEnd id s (stateLoadOp id s) := by
  have hh := (stopped_eq_false.1 hs).1
  have hu := open_step id .read s
  have h1 := open_handle (id := id) (mode := .read) (s := s)
  have h2 := open_failed_handle (id := id) (mode := .read) (s := s)
  have hf := stOpen_read_files .op id s
  unfold stateLoadOp
  rw [if_neg (by simp [hl])]
  generalize stOpen .op id .read s = r at hu h1 h2 hf
  obtain ⟨b, u⟩ := r
  have hb := hu.bulk hf
  cases b with
  | false =>
    exact .inl ⟨u, unlessStalled_end (hb.halted.trans hh) fun h => raiseError_end _ h, hb,
      fun h _ => (h2 rfl).trans h⟩
  | true =>
    have ho : Opened id .read s u := ⟨hu, h1 rfl, fun _ => hf⟩
    obtain ⟨r1, r2, r3⟩ := readUnits_law (unitCount u.cart) ho.on
    have hcart : u.cart = s.cart := hu.cart
    refine loadStateRead_ends (hb.trans (r1.bulk r2)) hh (fun hr => ?_) ?_
    · obtain ⟨us, hus⟩ := Option.ne_none_iff_exists'.1 hr
      have := r3 us _ hus ho.handle (Nat.zero_le _)
      rw [fileAt_of_files hf, ← fileNamed_eq, hcart] at this
      simpa using this
    · rw [show unitCount u.cart = (wramUnits u.cart.hwfamily + vramUnits u.cart.hwfamily + 2 * u.cart.ramsize) + 1 by
        unfold unitCount; omega]
      exact readUnits_ne_nil _ u

end Sys2Proof.Machine
end

section
/-! PROOFS. The registers STATE_LOAD and ENV write (R31, R151, R163), and STATE_LOAD whatever storage answers (R147 to
R155, R210). -/

namespace Sys2Proof.Machine

variable {s : State}

/-! ### Writes of machine registers -/

/-- `t` differs from `s` at most in registers that REG_TABLE can name. -/
def RegsOnly (s t : State) : Prop :=
  ∃ ra bo ro rt tk io mr,
    t = { s with
      rambank := ra, bootromDisable := bo, rombank := ro, rtc := rt, rtcTicks := tk, ioregs := io, mreg := mr }

theorem RegsOnly.refl (s : State) : RegsOnly s s := ⟨_, _, _, _, _, _, _, rfl⟩

theorem RegsOnly.trans {t u : State} (h₁ : RegsOnly s t) (h₂ : RegsOnly t u) : RegsOnly s u := by
  obtain ⟨ra, bo, ro, rt, tk, io, mr, rfl⟩ := h₁
  obtain ⟨ra', bo', ro', rt', tk', io', mr', rfl⟩ := h₂
  exact ⟨ra', bo', ro', rt', tk', io', mr', rfl⟩

theorem writeReg_regs (id : RegId) (v : Word) (s : State) : RegsOnly s (writeReg id v s) := by
  cases id
  case ioreg k =>
    unfold writeReg
    dsimp only
    split
    · exact ⟨_, _, _, _, _, _, _, rfl⟩
    · exact .refl s
  all_goals exact ⟨_, _, _, _, _, _, _, rfl⟩

/-- Whether a register is one half of the tick accumulator (log entry 21). -/
def isTicks : RegId → Bool
  | .rtcTicksLow => true
  | .rtcTicksHigh => true
  | _ => false

theorem writeReg_ticks {id : RegId} (h : isTicks id = false) (v : Word) (s : State) :
    (writeReg id v s).rtcTicks = s.rtcTicks := by
  cases id
  case rtcTicksLow => cases h
  case rtcTicksHigh => cases h
  case ioreg k => unfold writeReg; dsimp only; split <;> rfl
  all_goals rfl

theorem walkRegisters_regs (es : List RegEntry) (s : State) : RegsOnly s (walkRegisters es s) := by
  induction es generalizing s with
  | nil => exact .refl s
  | cons e es ih => exact (writeReg_regs e.id _ s).trans (ih _)

theorem walkRegisters_ticks {es : List RegEntry} (h : ∀ e ∈ es, isTicks e.id = false) (s : State) :
    (walkRegisters es s).rtcTicks = s.rtcTicks := by
  induction es generalizing s with
  | nil => rfl
  | cons e es ih =>
    have hes : ∀ e' ∈ es, isTicks e'.id = false := fun e' he' => h e' (List.mem_cons_of_mem _ he')
    exact (ih hes _).trans (writeReg_ticks (h e (List.mem_cons_self ..)) _ s)

/-! ### The restored state -/

/-- The version check warns, or does nothing (R152). -/
theorem checkVersion_cases (s : State) : checkVersion s = s ∨ checkVersion s = raiseWarning .version s := by
  unfold checkVersion
  split
  · exact .inr rfl
  · exact .inl rfl

/-- The state after the register walk (R147, R150, R151). -/
def walked (u : State) : State :=
  walkRegisters u.cfg.regTable { takeRegions u with loadedVersion := findRecord u.hdr u.cfg.versionTag }

/-- The rest of a STATE_LOAD: the version check, the mask, the boot-ROM flag, the notifications, the end (R152 to
R155). -/
def finished (v : State) : State :=
  complete (notifyLoaded { maskRambank (checkVersion v) with bootromDisable := true })

theorem stateRestored_eq (u : State) : stateRestored u = finished (walked u) := rfl

theorem finished_frame (v : State) :
    ∃ wn es,
      finished v = { v with
        rambank := v.rambank &&& BitVec.ofNat 8 (v.cart.ramsize - 1), bootromDisable := true, warn := wn, result := 0,
        busy := false, trace := v.trace ++ es } ∧
      (wn = v.warn ∨ wn = v.warn ||| 1) ∧ requestedCycles es = 0 := by
  unfold finished
  rcases checkVersion_cases v with hc | hc <;> rw [hc]
  · refine ⟨v.warn, [.palRebuild, .sndDirty, .memRemap], ?_, .inl rfl, rfl⟩
    simp only [complete, notifyLoaded, emit, maskRambank, List.append_assoc, List.cons_append, List.nil_append]
  · refine ⟨v.warn ||| 1, [.warn .version, .palRebuild, .sndDirty, .memRemap], ?_, .inr rfl, rfl⟩
    simp only [complete, notifyLoaded, emit, maskRambank, raiseWarning, warnBit, List.append_assoc, List.cons_append,
      List.nil_append]

theorem walked_frame (u : State) :
    ∃ w i p o lv ra bo ro rt,
      walked u = { u with
        wave := w, ioregs := i, pal := p, oam := o, loadedVersion := lv, rambank := ra, bootromDisable := bo,
        rombank := ro, rtc := rt, rtcTicks := (walked u).rtcTicks, mreg := (walked u).mreg } := by
  obtain ⟨ra, bo, ro, rt, tk, io, mr, e⟩ : RegsOnly { takeRegions u with loadedVersion := _ } (walked u) :=
    walkRegisters_regs _ _
  rw [e]
  exact ⟨_, _, _, _, _, _, _, _, _, rfl⟩

/-- What a STATE_LOAD that succeeds changes after its last primitive (R150 to R155). -/
theorem stateRestored_frame (u : State) :
    ∃ w i p o lv ra ro rt wn es,
      stateRestored u = { u with
        wave := w, ioregs := i, pal := p, oam := o, loadedVersion := lv, rambank := ra, rombank := ro, rtc := rt,
        rtcTicks := (walked u).rtcTicks, mreg := (walked u).mreg, bootromDisable := true, warn := wn, result := 0,
        busy := false, trace := u.trace ++ es } ∧
      (wn = u.warn ∨ wn = u.warn ||| 1) ∧ requestedCycles es = 0 := by
  obtain ⟨w, i, p, o, lv, ra, bo, ro, rt, e⟩ := walked_frame u
  obtain ⟨wn, es, e', hw, hes⟩ := finished_frame (walked u)
  have h1 : (walked u).warn = u.warn := by rw [e]
  refine ⟨w, i, p, o, lv, (walked u).rambank &&& BitVec.ofNat 8 ((walked u).cart.ramsize - 1), ro, rt, wn, es, ?_,
    h1 ▸ hw, hes⟩
  rw [stateRestored_eq, e', e]

/-! ### STATE_LOAD under any storage -/

theorem BulkStep.frame {t : State} (h : BulkStep s t) :
    t.result = s.result ∧ t.busy = s.busy ∧ t.files = s.files ∧ t.cartHandle = s.cartHandle := by
  obtain ⟨_, _, _, _, _, _, _, _, _, rfl, -⟩ := h; exact ⟨rfl, rfl, rfl, rfl⟩

/-- What O42 says of a STATE_LOAD that does not succeed (R149). -/
theorem stateLoad_failed {t u : State} (hs : s.ready) (hu : BulkStep { s with busy := true } u)
    (ht : t = endWith (ErrorCode.code .storage) u) :
    EndsOrHangs s t ∧ t.files = s.files ∧ t.cartHandle = s.cartHandle ∧ t.stalled = u.stalled ∧
    t.opHandle = u.opHandle ∧ (t.stalled = true ∨ t.result = 0xFFFFFFFE) ∧
    t = { s with
      result := t.result, busy := t.busy, stalled := t.stalled, wram := t.wram, vram := t.vram, sram := t.sram,
      hdr := t.hdr, trace := t.trace, answers := t.answers, opHandle := t.opHandle, freeCount := t.freeCount } ∧
    OnlyStorageSince s t := by
  have hh : s.halted = false := hs.2.1
  have hst : stopped u = u.stalled := by rw [stopped, hu.halted, hh, Bool.false_or]
  rw [endWith_eq hu.frame.2.1, hst] at ht
  obtain ⟨w, v, r, h, es, oh, an, fc, sd, rfl, he⟩ := hu
  subst ht
  refine ⟨⟨hh, ?_⟩, rfl, rfl, rfl, rfl, ?_, rfl, es, rfl, he⟩
  · cases sd
    · exact .inl ⟨rfl, rfl, .inr rfl⟩
    · exact .inr ⟨rfl, rfl, rfl⟩
  · cases sd
    · exact .inr rfl
    · exact .inl rfl

/-- What O42 says of a STATE_LOAD that succeeds. -/
theorem stateLoad_restored {u : State} (hs : s.ready) (hu : BulkStep { s with busy := true } u)
    (hst : u.stalled = false) :
    EndsOrHangs s (stateRestored u) ∧ (stateRestored u).files = s.files ∧
    (stateRestored u).cartHandle = s.cartHandle ∧ (stateRestored u).stalled = false ∧
    (stateRestored u).opHandle = u.opHandle ∧ (stateRestored u).result = 0 := by
  obtain ⟨_, _, _, _, _, _, _, _, _, _, e, -⟩ := stateRestored_frame u
  obtain ⟨-, -, hf, hc⟩ := hu.frame
  rw [e]
  exact ⟨⟨hu.halted.trans hs.2.1, .inl ⟨hst, rfl, .inl rfl⟩⟩, hf, hc, hst, rfl, rfl⟩

/-- An open that the oracle fails ends STATE_LOAD with E_STORAGE, and one it never answers hangs it (R149, R210). -/
theorem stateLoad_open_fails {a : Answer} {rest : List Answer} (id : Half) (hs : s.stalled = false)
    (hl : s.cart.loaded = true) (ha : s.answers = a :: rest) :
    (a = .fail → (stateLoadOp id s).stalled = false ∧ (stateLoadOp id s).result = 0xFFFFFFFE) ∧
    (a = .never → (stateLoadOp id s).stalled = true) := by
  have e : a ≠ .ok → stateLoadOp id s =
      unlessStalled (raiseError .storage) (answerTaken (emit (.stOpen .op id .read) s)) := by
    intro hn
    unfold stateLoadOp stOpen
    rw [if_neg (by simp [hl]), if_pos (by rw [nextFails_of_not_ok ha hn, Bool.or_true])]
    rfl
  constructor
  · rintro rfl
    rw [e (by decide), answerTaken_of_answers (s := emit _ s) ha (by decide),
      unlessStalled_of_not (s := { emit (.stOpen .op id .read) s with answers := rest }) _ hs]
    exact ⟨hs, rfl⟩
  · rintro rfl
    rw [e (by decide), answerTaken_of_never (s := emit _ s) ha, unlessStalled_of_stalled _ rfl]

/-- Settles O42: by whether the load restored the machine, or stopped before any register. -/
theorem stateLoadFailureLeavesTheRegisters : Obligations.StateLoadFailureLeavesTheRegisters := by
  intro s id hs hl
  have hopen := fun a rest => stateLoad_open_fails (s := { s with busy := true }) (a := a) (rest := rest) id hs.2.2 hl
  refine ⟨_, acceptCommand_ready hs (stateLoadOp id), ?_⟩
  rcases stateLoadOp_ends (s := { s with busy := true }) id (stopped_eq_false.2 hs.2) hl with
    ⟨u, e, hu, hc⟩ | ⟨u, e, hu, hst, hc, hlen⟩
  · obtain ⟨h1, h2, h3, h4, h5, h6, h7, h8⟩ := stateLoad_failed hs hu e
    exact ⟨h1, fun ho hn => h5.trans (hc ho (h4 ▸ hn)), h2, h3, fun _ => ⟨h7, h8⟩, fun _ => h6, hopen⟩
  · obtain ⟨h1, h2, h3, h4, h5, h6⟩ := stateLoad_restored hs hu hst
    rw [← e] at h1 h2 h3 h4 h5 h6
    have hne : ¬ ((stateLoadOp id { s with busy := true }).stalled = true ∨
        (stateLoadOp id { s with busy := true }).result = 0xFFFFFFFE) := by rw [h4, h6]; decide
    refine ⟨h1, fun _ _ => h5.trans hc, h2, h3, fun h => absurd h hne, fun hshort => absurd hlen ?_, hopen⟩
    exact Nat.not_le.2 hshort

end Sys2Proof.Machine
end

section
/-! PROOFS. The invariants of the block (R11, R13 to R15, R20, R31, R214): each is kept by every operation, whatever
storage answers, and by every agent. -/

namespace Sys2Proof.Machine

variable {s : State}

/-! ### Registers keep their width (R31) -/

theorem narrow_of_lt {w : Nat} {v : Word} (h : v.toNat < 2 ^ (8 * w)) : narrow w v = v := by
  unfold narrow; rw [Nat.mod_eq_of_lt h]; simp

theorem narrow_lt (w : Nat) (v : Word) : (narrow w v).toNat < 2 ^ (8 * w) := by
  unfold narrow
  rw [BitVec.toNat_ofNat]
  exact (Nat.mod_le _ _).trans_lt (Nat.mod_lt _ (Nat.two_pow_pos _))

theorem narrow_narrow (w : Nat) (v : Word) : narrow w (narrow w v) = narrow w v := narrow_of_lt (narrow_lt w v)

/-- A value of `k` bits, widened, still has as many. -/
theorem toNat_setWidth_lt {k m : Nat} (h : k ≤ m) (x : BitVec k) : (x.setWidth 32).toNat < 2 ^ m := by
  rw [BitVec.toNat_setWidth]
  exact (Nat.mod_le _ _).trans_lt (x.isLt.trans_le (Nat.pow_le_pow_right (by decide) h))

/-- A register whose width the spec fixes holds a value of that width, whatever it holds. -/
theorem readReg_fits {id : RegId} {w : Nat} (h : id.widthOk w = true) (hid : ∀ n, id ≠ .other n) (s : State) :
    narrow w (readReg s id) = readReg s id := by
  apply narrow_of_lt
  cases id
  case other n => exact absurd rfl (hid n)
  case rtcTicksLow => rw [eq_of_beq h]; exact BitVec.isLt _
  case rtcTicksHigh => rw [eq_of_beq h]; exact BitVec.isLt _
  case ioreg k => rw [eq_of_beq (Bool.and_eq_true_iff.1 h).1]; exact toNat_setWidth_lt (Nat.le_refl 8) _
  all_goals rw [eq_of_beq h]; exact toNat_setWidth_lt (by decide) _

/-- The collaborators' registers hold values of the widths REG_TABLE gives them. -/
def OthersFit (c : Config) (m : Tab Word) : Prop :=
  ∀ e ∈ c.regTable, ∀ n, e.id = .other n → narrow e.width ((Tab.get? m n).getD 0) = (Tab.get? m n).getD 0

/-- Only the collaborators' registers can fail to fit. -/
theorem registersFit_iff (hc : Config.wf s.cfg) : RegistersFit s ↔ OthersFit s.cfg s.mreg := by
  obtain ⟨-, -, -, -, -, -, htab, -⟩ := hc
  constructor
  · intro h e he n hn
    have := h e he
    rw [hn] at this
    exact this
  · intro h e he
    by_cases hn : ∃ n, e.id = .other n
    · obtain ⟨n, hn⟩ := hn
      rw [hn]
      exact h e he n hn
    · exact readReg_fits (htab e he).2.2 (fun n hn' => hn ⟨n, hn'⟩) s

theorem RegistersFit.of_mreg {t : State} (hc : Config.wf s.cfg) (h : RegistersFit s) (e1 : t.cfg = s.cfg)
    (e2 : t.mreg = s.mreg) : RegistersFit t := by
  rw [registersFit_iff (e1 ▸ hc), e1, e2]; exact (registersFit_iff hc).1 h

/-- A collaborators' register after one is written; a register that holds 0 is not listed. -/
theorem getD_put (m : Tab Word) (n k : Nat) (v : Word) :
    (Tab.get? (if v = 0 then Tab.erase m n else Tab.set m n v) k).getD 0 =
      if k = n then v else (Tab.get? m k).getD 0 := by
  split
  · rename_i hv
    rw [Tab.get?_erase, hv]
    split <;> rfl
  · rw [Tab.get?_set]
    split <;> rfl

/-- Writing a register at the width REG_TABLE gives it keeps the widths. -/
theorem OthersFit.put {c : Config} {m : Tab Word} (h : OthersFit c m) (hc : Config.wf c) {e : RegEntry}
    (he : e ∈ c.regTable) {n : Nat} (hn : e.id = .other n) (v : Word) :
    OthersFit c (if narrow e.width v = 0 then Tab.erase m n else Tab.set m n (narrow e.width v)) := by
  obtain ⟨-, -, -, -, -, -, -, -, hsame, -⟩ := hc
  intro e' he' k hk
  rw [getD_put]
  split
  · rename_i hkn
    rw [hsame e' he' e he (by rw [hk, hn, hkn]), narrow_narrow]
  · exact h e' he' k hk

theorem writeReg_cfg (id : RegId) (v : Word) (s : State) : (writeReg id v s).cfg = s.cfg := by
  obtain ⟨_, _, _, _, _, _, _, e⟩ := writeReg_regs id v s; rw [e]

theorem writeReg_mreg {id : RegId} (hid : ∀ n, id ≠ .other n) (v : Word) (s : State) :
    (writeReg id v s).mreg = s.mreg := by
  cases id
  case other n => exact absurd rfl (hid n)
  case ioreg k => unfold writeReg; dsimp only; split <;> rfl
  all_goals rfl

theorem writeReg_fits (hc : Config.wf s.cfg) (h : OthersFit s.cfg s.mreg) {e : RegEntry} (he : e ∈ s.cfg.regTable)
    (v : Word) : OthersFit s.cfg (writeReg e.id (narrow e.width v) s).mreg := by
  by_cases hn : ∃ n, e.id = .other n
  · obtain ⟨n, hn⟩ := hn
    rw [hn]
    exact h.put hc he hn v
  · rw [writeReg_mreg fun n hn' => hn ⟨n, hn'⟩]; exact h

theorem walkRegisters_fits (es : List RegEntry) (hc : Config.wf s.cfg) (h : OthersFit s.cfg s.mreg)
    (hes : ∀ e ∈ es, e ∈ s.cfg.regTable) : OthersFit s.cfg (walkRegisters es s).mreg := by
  induction es generalizing s with
  | nil => exact h
  | cons e es ih =>
    have hcfg := writeReg_cfg e.id (narrow e.width (findRecord s.hdr e.tag)) s
    have hw := writeReg_fits hc h (hes e (List.mem_cons_self ..)) (findRecord s.hdr e.tag)
    rw [← hcfg] at hw hc hes ⊢
    exact ih hc hw fun e' he' => hes e' (List.mem_cons_of_mem _ he')

theorem freeRegisters_fits {c : Config} (hc : Config.wf c) (es : List RegEntry) (hes : ∀ e ∈ es, e ∈ c.regTable)
    (k : Nat) {m : Tab Word} (h : OthersFit c m) : OthersFit c (freeRegisters k es m) := by
  induction es generalizing k m with
  | nil => exact h
  | cons e es ih =>
    have hes' : ∀ e' ∈ es, e' ∈ c.regTable := fun e' he' => hes e' (List.mem_cons_of_mem _ he')
    unfold freeRegisters
    split
    · rename_i n hn
      exact ih hes' _ (h.put hc (hes e (List.mem_cons_self ..)) hn _)
    · exact ih hes' _ h

/-! ### The cartridge record is legal (R11) -/

theorem romSize_legal {code : Byte} {n : Nat} (h : romSize code = some n) :
    n = 2 ∨ n = 4 ∨ n = 8 ∨ n = 16 ∨ n = 32 ∨ n = 64 ∨ n = 128 ∨ n = 256 ∨ n = 512 := by
  unfold romSize at h
  split at h
  · rename_i hc
    obtain rfl := Option.some.inj h
    interval_cases code.toNat <;> decide
  · split at h
    · obtain rfl := Option.some.inj h; decide
    · cases h

theorem ramSize_legal (code : Byte) :
    (ramSize code).1 = 1 ∨ (ramSize code).1 = 4 ∨ (ramSize code).1 = 8 ∨ (ramSize code).1 = 16 := by
  unfold ramSize; split <;> decide

theorem familyOf_le {m : TypeMap} (h : ∀ r ∈ m.families, r.family.toNat ≤ 8) (t : Byte) :
    (familyOf m t).toNat ≤ 8 := by
  unfold familyOf
  split
  · exact h _ (List.mem_of_find?_eq_some (by assumption))
  · decide

theorem disambiguate_lt {t : ColorTables} (h : ∀ b ∈ (ColorMap.tables t).listed, b.toNat < 94) (i : Nat) (c : Byte) :
    (disambiguate t i c).toNat < 94 := by
  unfold disambiguate
  split
  · rename_i e he
    exact h _ (List.mem_append_left _ (List.mem_map_of_mem (List.mem_of_find?_eq_some he)))
  · split
    · rename_i e he
      exact h _ (List.mem_append_right _ (List.mem_map_of_mem (List.mem_of_find?_eq_some he)))
    · decide

theorem colorize_lt {m : ColorMap} (h : m.ok) (title : List Byte) : (colorize m title).toNat < 94 := by
  cases m with
  | tables t =>
    show (colorLookup t title).toNat < 94
    unfold colorLookup
    split
    · decide
    · split
      · rw [BitVec.toNat_ofNat]; omega
      · exact disambiguate_lt h.2 _ _
  | graph g =>
    unfold colorize
    dsimp only
    split
    · rename_i e he
      exact h.2 _ (List.mem_map_of_mem (List.mem_of_find?_eq_some he))
    · decide

/-- The record a valid header gives is legal (R84 to R88). -/
theorem commitCart_legal (hc : Config.wf s.cfg) {b : Memory} {n : Nat} (id : Half)
    (hn : romSize (headerFields b).romcode = some n) : CartLegal (commitCart id (headerFields b) n s) := by
  obtain ⟨-, -, -, -, -, -, -, -, -, -, -, -, -, hfam, hcol⟩ := hc
  refine ⟨fun h => (nomatch h), fun _ => ⟨Memory.bytes_length _ _ _, romSize_legal hn, ramSize_legal _,
    familyOf_le hfam _, ?_, fun h => if_pos h⟩, fun _ => rfl⟩
  show (colorKey s.cfg (headerFields b)).toNat < 94
  unfold colorKey
  split
  · decide
  · exact colorize_lt hcol _

theorem CartLegal.of_eq {t : State} (h : CartLegal s) (hs : s.stalled = false) (e1 : t.cart = s.cart)
    (e2 : t.ramPages = s.ramPages) : CartLegal t := by
  obtain ⟨h1, h2, h3⟩ := h
  exact ⟨e1 ▸ h1, e1 ▸ h2, fun _ => by rw [e1, e2]; exact h3 hs⟩

theorem CartLegal.ramsize_le (h : CartLegal s) : s.cart.ramsize ≤ 32 := by
  cases hl : s.cart.loaded with
  | false => rw [h.1 hl]; decide
  | true => obtain ⟨-, -, hr, -⟩ := h.2.1 hl; omega

/-! ### A halted block has a cause (R184) -/

/-- `halted` is set with a cause, and no cause stands without it (R14, R184). -/
def HaltCause (s : State) : Prop := s.halted = false ↔ s.hcause = .none

theorem raiseFatal_cause {c : Cause} (hc : c ≠ .none) (s : State) : HaltCause (raiseFatal c s) :=
  ⟨fun h => (nomatch h), fun h => absurd h hc⟩

theorem HaltCause.of_storageOnly {t : State} (h : HaltCause s) (hst : StorageOnly s t) : HaltCause t := by
  obtain ⟨_, _, _, _, _, _, _, rfl⟩ := hst; exact h

theorem HaltCause.fillFailed (h : HaltCause s) (f : Nat) : HaltCause (fillFailed f s) := by
  unfold Machine.fillFailed
  rcases unlessStalled_cases (fun t => raiseFatal .storage (spoilFrame f t)) s with ⟨-, e⟩ | ⟨-, e⟩ <;> rw [e]
  · exact h
  · exact raiseFatal_cause (by decide) _

theorem HaltCause.fillSought {r : Bool × State} (h : HaltCause r.2) (f : Nat) : HaltCause (fillSought f r) := by
  obtain ⟨b, u⟩ := r
  cases b with
  | false => exact h.fillFailed f
  | true =>
    have h1 := h.of_storageOnly (stRead_only .cart romPage u)
    show HaltCause (fillRead f (stRead .cart romPage u))
    generalize stRead .cart romPage u = q at h1
    obtain ⟨a, v⟩ := q
    cases a with
    | full b => exact h1
    | eof k b => exact h1
    | fail => exact h1.fillFailed f

theorem HaltCause.fill (h : HaltCause s) (n f : Nat) : HaltCause (fill n f s) :=
  (h.of_storageOnly (s := clearFrame f s) (stSeek_only .cart (romOffset n) (clearFrame f s))).fillSought f

theorem HaltCause.loadBank (h : HaltCause s) (n : Nat) : HaltCause (loadBank n s) := by
  have hc : ∀ xs, HaltCause (chooseFrom 0 xs s).2 := fun xs => by
    obtain ⟨_, _, e⟩ := chooseFrom_eq 0 xs s; rw [e]; exact h
  unfold Machine.loadBank
  split_ifs
  · exact h
  · exact HaltCause.fill (s := assign n _ _) (hc _) n _
  · unfold loadEvicting transplant
    split
    · exact HaltCause.fill (s := assign n _ (vacate _ _)) (hc _) n _
    · exact raiseFatal_cause (by decide) _
  · exact raiseFatal_cause (by decide) _

theorem HaltCause.preloadFrom (h : HaltCause s) (n k : Nat) : HaltCause (preloadFrom n k s) := by
  induction k generalizing n s with
  | zero => exact h
  | succ k ih =>
    unfold Machine.preloadFrom
    split
    · exact h
    · exact ih (h.loadBank n) (n + 1)

end Sys2Proof.Machine
end

section
/-! PROOFS. Every step keeps the invariants of the block, and the state after reset meets them (R11, R13 to R15, R20, R31,
R35, R36, R201, R214). -/

namespace Sys2Proof.Machine

variable {s : State}

/-! ### The invariants but the scheduler's -/

/-- The tag-array invariant of R20, as a formula. -/
def TagsPaired (s : State) : Prop :=
  (∀ n f, slotOf s n = some f ↔ ftagOf s f = some n) ∧
  ∀ n f, slotOf s n = some f → n < s.cart.romsize ∧ f < s.cfg.poolSize

theorem TagsAgree.paired (h : TagsAgree s) : TagsPaired s := ⟨h.iff, h.bound⟩

theorem TagsPaired.agree (h : TagsPaired s) : TagsAgree s := ⟨h.1, h.2⟩

/-- With no bank resident and no frame taken, the tag array agrees. -/
theorem TagsPaired.of_nil (h1 : s.slot = []) (h2 : s.ftag = []) : TagsPaired s := by
  constructor <;> intro n f <;> simp [slotOf, ftagOf, h1, h2]

/-- Every invariant of the block but the scheduler's. -/
structure LegalState (s : State) : Prop where
  config : Config.wf s.cfg
  cart : CartLegal s
  masks : MasksInRange s
  handles : HandlesDisciplined s
  tags : TagsPaired s
  registers : RegistersFit s

/-- Every invariant of the block. -/
structure LegalBlock (s : State) : Prop extends LegalState s where
  scheduler : SchedulerConsistent s

theorem BlockInvariant.legal (h : BlockInvariant s) : LegalBlock s :=
  ⟨⟨h.config, h.cart, h.masks, h.handles, h.tags.paired, h.registers⟩, h.scheduler⟩

theorem LegalBlock.invariant (h : LegalBlock s) : BlockInvariant s :=
  ⟨h.config, h.cart, h.masks, h.handles, h.scheduler, h.tags.agree, h.registers⟩

theorem RegistersFit.of_others (hc : Config.wf s.cfg) (h : OthersFit s.cfg s.mreg) : RegistersFit s :=
  (registersFit_iff hc).2 h

theorem RegistersFit.others (hc : Config.wf s.cfg) (h : RegistersFit s) : OthersFit s.cfg s.mreg :=
  (registersFit_iff hc).1 h

theorem OthersFit.nil (c : Config) : OthersFit c [] := fun e _ n _ => by simp [narrow]

theorem MasksInRange.of_zero (h1 : s.sramDirty = 0) (h2 : s.sramSaved = 0) : MasksInRange s := by
  intro i _; simp [bitOf, h1, h2]

/-- What the bank manager does to a loaded cartridge keeps every invariant, the tag array's given. -/
theorem LegalState.of_bank {t : State} (h : LegalState s) (hs : stopped s = false) (hl : s.cart.loaded = true)
    (hb : BankOnly s t) (ht : TagsAgree t) (hid : t.cartHandle.map (·.id) = s.cartHandle.map (·.id)) :
    LegalState t := by
  obtain ⟨hh, hst⟩ := stopped_eq_false.1 hs
  obtain ⟨ho, hf, hopen, -⟩ := h.handles hh hst
  obtain ⟨_, _, _, _, _, _, _, _, _, _, _, rfl⟩ := hb
  exact { h with
    cart := h.cart.of_eq hst rfl rfl
    handles := fun _ _ => ⟨ho, hf, fun _ => hid.trans (hopen hl), fun hn => Bool.noConfusion (hl.symm.trans hn)⟩
    tags := ht.paired }

theorem LegalState.loadBank (h : LegalState s) (hs : stopped s = false) (hl : s.cart.loaded = true) {n : Nat}
    (hn : n < s.cart.romsize) : LegalState (loadBank n s) :=
  h.of_bank hs hl (loadBank_bank n s) (loadBank_tags h.tags.agree hn) (loadBank_handle n s)

theorem preloadBody_of_stopped (h : stopped s = true) (k : Nat) : preloadBody k s = s := by
  cases k with
  | zero => rfl
  | succ k => exact if_pos h

theorem LegalState.preloadBody (h : LegalState s) (hl : s.cart.loaded = true) {k : Nat} (hk : k ≤ s.cart.romsize) :
    LegalState (preloadBody k s) := by
  cases hs : stopped s with
  | true => rw [preloadBody_of_stopped hs]; exact h
  | false =>
    exact h.of_bank hs hl (preloadFrom_bank 0 k s) (preloadFrom_tags h.tags.agree (by omega)) (preloadFrom_handle 0 k s)

/-! ### A command in flight, and its end -/

/-- A command other than FRAME is in flight: `busy` is set, the scheduler is idle (R13, R62). -/
def InFlight (u : State) : Prop := u.busy = true ∧ u.phase = .idle ∧ u.run = none ∧ HaltCause u

theorem InFlight.ended {u : State} (h : InFlight u) (r : Word) : SchedulerConsistent (endWith r u) := by
  obtain ⟨hb, hp, hr, hc⟩ := h
  have hrun : u.run.isSome = true → False := fun h => by rw [hr] at h; cases h
  cases hs : stopped u with
  | true =>
    rw [endWith_of_stopped r hs]
    refine ⟨fun h => Bool.noConfusion (hb.symm.trans h), fun h => (hrun h).elim, fun h1 h2 => ?_, hc⟩
    rw [stopped_eq_false.2 ⟨h1, h2⟩] at hs
    cases hs
  | false =>
    rw [endWith_of_not r hs]
    obtain ⟨h1, h2⟩ := stopped_eq_false.1 hs
    exact ⟨fun _ => ⟨h1, h2, hp, hr⟩, fun h => (hrun h).elim, fun _ _ h => (nomatch h), hc⟩

/-- The body of a command leaves `u`: the invariants stand, the command still in flight. -/
structure CommandBody (s u : State) : Prop where
  legal : LegalState u
  inFlight : InFlight u
  cfg : u.cfg = s.cfg

/-- What O58 says of a step. -/
def BlockKept (s t : State) : Prop := LegalBlock t ∧ t.cfg = s.cfg

theorem CommandBody.ended {u : State} (h : CommandBody s u) (r : Word) : BlockKept s (endWith r u) := by
  have hs := h.inFlight.ended r
  obtain ⟨hl, ⟨hb, -⟩, hc⟩ := h
  rw [endWith_eq hb] at hs ⊢
  exact ⟨⟨{ hl with }, hs⟩, hc⟩

theorem CommandBody.completes {u : State} (h : CommandBody s u) (hs : stopped u = false) :
    BlockKept s (complete u) := by
  rw [complete_end hs]; exact h.ended 0

/-- A command as it starts: accepted, nothing done (R62). -/
structure Accepted (s : State) : Prop extends LegalState s where
  running : stopped s = false
  inFlight : InFlight s

theorem LegalBlock.accepted (h : LegalBlock s) (hr : s.ready) : Accepted { s with busy := true } := by
  obtain ⟨hb, hh, hst⟩ := hr
  obtain ⟨-, -, hp, hrun⟩ := h.scheduler.1 hb
  exact { h with
    running := stopped_eq_false.2 ⟨hh, hst⟩
    inFlight := ⟨rfl, hp, hrun, h.scheduler.2.2.2⟩ }

theorem Accepted.opHandle (h : Accepted s) : s.opHandle = none := by
  obtain ⟨hh, hst⟩ := stopped_eq_false.1 h.running
  exact (h.handles hh hst).1

theorem Accepted.body (h : Accepted s) : CommandBody s s := ⟨h.toLegalState, h.inFlight, rfl⟩

theorem Accepted.refused (h : Accepted s) (e : ErrorCode) : BlockKept s (raiseError e s) := by
  rw [raiseError_end e h.running]; exact h.body.ended _

/-- The handles are in order after a command on the operation's handle that closed it, unless it hangs. -/
theorem Accepted.handles_of_op {t : State} (h : Accepted s) (ho : t.stalled = false → t.opHandle = none)
    (h1 : t.cartFileOpen = s.cartFileOpen) (h2 : t.cart = s.cart) (h3 : t.cartHandle = s.cartHandle)
    (h4 : t.cartFileId = s.cartFileId) (h5 : t.slot = s.slot) (h6 : t.ftag = s.ftag) : HandlesDisciplined t := by
  obtain ⟨hh, hst⟩ := stopped_eq_false.1 h.running
  intro _ hs
  unfold CartHandleOpen
  rw [h1, h2, h3, h4, h5, h6]
  exact ⟨ho hs, (h.handles hh hst).2⟩

/-! ### The commands -/

theorem Accepted.bankLoad (h : Accepted s) (n : Nat) : BlockKept s (bankLoadOp n s) := by
  unfold bankLoadOp
  split
  · exact h.refused _
  · rename_i hl
    split
    · exact h.refused _
    · rename_i hn
      obtain ⟨hb, hp, hr, hc⟩ := h.inFlight
      have hk := loadBank_bank n s
      refine CommandBody.ended ⟨h.loadBank h.running (by simpa using hl) (by omega), ?_, hk.cfg⟩ 0
      have hc' := hc.loadBank n
      obtain ⟨_, _, _, _, _, _, _, _, _, _, _, e⟩ := hk
      rw [e] at hc' ⊢
      exact ⟨hb, hp, hr, hc'⟩

/-- Preloading from a loaded cartridge's banks, in flight. -/
theorem CommandBody.preloadBody {u : State} (h : CommandBody s u) (hl : u.cart.loaded = true) {k : Nat}
    (hk : k ≤ u.cart.romsize) : CommandBody s (preloadBody k u) := by
  obtain ⟨hb, hp, hr, hc⟩ := h.inFlight
  have hbank := preloadFrom_bank 0 k u
  refine ⟨h.legal.preloadBody hl hk, ?_, hbank.cfg.trans h.cfg⟩
  have hc' : HaltCause (Machine.preloadBody k u) := hc.preloadFrom 0 k
  obtain ⟨_, _, _, _, _, _, _, _, _, _, _, e⟩ : BankOnly u (Machine.preloadBody k u) := hbank
  rw [e] at hc' ⊢
  exact ⟨hb, hp, hr, hc'⟩

theorem Accepted.preload (h : Accepted s) (k : Nat) : BlockKept s (preloadOp k s) := by
  unfold preloadOp
  split
  · exact h.refused _
  · rename_i hl
    obtain ⟨hl, hk⟩ := not_or.1 hl
    exact (h.body.preloadBody (by simpa using hl) (by omega)).ended 0

/-- The state CART_UNLOAD leaves when its close, if any, has answered (R110). -/
theorem Accepted.emptied (h : Accepted s) {co : Bool} {ci : Half} {ch : Option Handle} (hco : co = false)
    (hch : ch = none) (tr : List Event) (an : List Answer) (fc : Nat) :
    CommandBody s { s with
      cart := Cart.empty, sramDirty := 0, sramSaved := 0, warn := 0, slot := [], ftag := [], ramPages := 0, sram := [],
      cartFileOpen := co, cartFileId := ci, cartHandle := ch, trace := tr, answers := an, freeCount := fc } := by
  refine ⟨?_, h.inFlight, rfl⟩
  have hl := h.toLegalState
  exact { hl with
    cart := ⟨fun _ => rfl, fun hn => (nomatch hn), fun _ => rfl⟩
    masks := .of_zero rfl rfl
    handles := fun _ _ => ⟨h.opHandle, hco, fun hn => (nomatch hn), fun _ => ⟨hch, rfl, rfl⟩⟩
    tags := .of_nil rfl rfl }

/-- A CART_UNLOAD that hangs in its close (R110, R210). -/
theorem Accepted.unload_hangs (h : Accepted s) (tr : List Event) (an : List Answer) (fc : Nat) :
    CommandBody s { s with
      slot := [], ftag := [], ramPages := 0, sram := [], trace := tr, answers := an, freeCount := fc,
      stalled := true } := by
  refine ⟨?_, h.inFlight, rfl⟩
  have hl := h.toLegalState
  obtain ⟨c1, c2, -⟩ := h.cart
  exact { hl with
    cart := ⟨c1, c2, fun hn => (nomatch hn)⟩
    handles := fun _ hn => (nomatch hn)
    tags := .of_nil rfl rfl }

theorem Accepted.cartUnload (h : Accepted s) : BlockKept s (cartUnloadOp s) := by
  obtain ⟨hh, hst⟩ := stopped_eq_false.1 h.running
  unfold cartUnloadOp
  split
  · obtain ⟨fc, ⟨-, e⟩ | ⟨-, e⟩⟩ := closeThen_cases (s := { s with slot := [], ftag := [], ramPages := 0, sram := [] })
      .cart cartFileClosed hst <;> rw [e]
    · have hk := (h.unload_hangs (s.trace ++ [.stClose .cart]) s.answers.tail fc).ended 0
      rwa [endWith_of_stopped 0 (stopped_eq_true.2 (.inr rfl))] at hk
    · exact (h.emptied rfl rfl (s.trace ++ [.stClose .cart]) s.answers.tail fc).completes h.running
  · rename_i hopen
    obtain ⟨-, hloaded, -, hnone⟩ := h.handles hh hst
    have hopen : s.cartFileOpen = false := by simpa using hopen
    obtain ⟨hch, -, -⟩ := hnone (hloaded.symm.trans hopen)
    exact (h.emptied hopen hch s.trace s.answers s.freeCount).completes h.running

theorem Accepted.saved (h : Accepted s) {key : Nat} {t : State} (ht : OpEnd (SaveBody key) s t) : BlockKept s t := by
  obtain ⟨u, r, rfl, ⟨hu, hm⟩, hc⟩ := ht
  have hm := hm h.cart.ramsize_le h.masks
  have hc := hc h.opHandle
  have hl := h.toLegalState
  obtain ⟨_, _, _, _, _, _, _, _, rfl, -⟩ := hu
  refine CommandBody.ended ?_ r
  exact ⟨{ hl with
    cart := hl.cart.of_eq (stopped_eq_false.1 h.running).2 rfl rfl
    masks := hm
    handles := h.handles_of_op hc rfl rfl rfl rfl rfl rfl }, h.inFlight, rfl⟩

theorem Accepted.restored (h : Accepted s) {t : State} (ht : OpEnd RestoreBody s t) : BlockKept s t := by
  obtain ⟨u, r, rfl, ⟨⟨d, hu⟩, hm⟩, hc⟩ := ht
  have hm := hm h.masks
  have hc := hc h.opHandle
  have hl := h.toLegalState
  obtain ⟨_, _, _, _, _, _, _, _, rfl, -⟩ := hu
  refine CommandBody.ended ?_ r
  exact ⟨{ hl with
    cart := hl.cart.of_eq (stopped_eq_false.1 h.running).2 rfl rfl
    masks := hm
    handles := h.handles_of_op hc rfl rfl rfl rfl rfl rfl
    registers := hl.registers.of_mreg hl.config rfl rfl }, h.inFlight, rfl⟩

theorem Accepted.snapshot (h : Accepted s) {key : Nat} {t : State} (ht : OpEnd (SnapshotStep key) s t) :
    BlockKept s t := by
  obtain ⟨u, r, rfl, ⟨_, hu⟩, hc⟩ := ht
  have hc := hc h.opHandle
  have hl := h.toLegalState
  obtain ⟨_, _, _, _, _, _, rfl, -⟩ := hu
  refine CommandBody.ended ?_ r
  exact ⟨{ hl with
    cart := hl.cart.of_eq (stopped_eq_false.1 h.running).2 rfl rfl
    handles := h.handles_of_op hc rfl rfl rfl rfl rfl rfl }, h.inFlight, rfl⟩

theorem Accepted.bulk (h : Accepted s) {u : State} (hu : BulkStep s u) (hc : u.stalled = false → u.opHandle = none) :
    CommandBody s u := by
  have hl := h.toLegalState
  obtain ⟨_, _, _, _, _, _, _, _, _, rfl, -⟩ := hu
  exact ⟨{ hl with
    cart := hl.cart.of_eq (stopped_eq_false.1 h.running).2 rfl rfl
    handles := h.handles_of_op hc rfl rfl rfl rfl rfl rfl
    registers := hl.registers.of_mreg hl.config rfl rfl }, h.inFlight, rfl⟩

theorem walked_fits {u : State} (hc : Config.wf u.cfg) (h : RegistersFit u) : OthersFit u.cfg (walked u).mreg :=
  have hm := h.others hc
  walkRegisters_fits (s := { takeRegions u with loadedVersion := findRecord u.hdr u.cfg.versionTag }) u.cfg.regTable hc
    hm fun _ he => he

/-- A STATE_LOAD that restores the machine writes registers at their widths (R31, R151). -/
theorem CommandBody.stateRestored {u : State} (h : CommandBody s u) (hs : stopped u = false) :
    BlockKept s (stateRestored u) := by
  obtain ⟨hE, hcfg⟩ := h.ended 0
  have hfits := walked_fits h.legal.config h.legal.registers
  obtain ⟨_, _, _, _, _, _, _, _, _, _, e, -⟩ := stateRestored_frame u
  rw [endWith_of_not 0 hs] at hE
  rw [e]
  exact ⟨{ hE with registers := .of_others h.legal.config hfits }, h.cfg⟩

theorem Accepted.stateLoad (h : Accepted s) (id : Half) : BlockKept s (stateLoadOp id s) := by
  cases hl : s.cart.loaded with
  | false =>
    have e : stateLoadOp id s = raiseError .inval s := if_pos hl
    rw [e]
    exact h.refused _
  | true =>
    rcases stateLoadOp_ends id h.running hl with ⟨u, e, hu, hc⟩ | ⟨u, e, hu, hst, hc, -⟩ <;> rw [e]
    · exact (h.bulk hu (hc h.opHandle)).ended _
    · exact (h.bulk hu fun _ => hc).stateRestored
        (stopped_eq_false.2 ⟨hu.halted.trans (stopped_eq_false.1 h.running).1, hst⟩)

theorem preloadCount_le (c : Config) (n : Nat) (title : List Byte) : preloadCount c n title ≤ n := by
  unfold preloadCount; split <;> omega

theorem CartStep.cfg {u : State} (h : CartStep s u) : u.cfg = s.cfg := by
  obtain ⟨_, _, _, _, _, rfl, -⟩ := h; rfl

/-- CART_LOAD's commit, from a block with no cartridge whose file it has opened (R89). -/
theorem Accepted.committed (h : Accepted s) (hl : s.cart.loaded = false) {u : State} (hu : CartStep s u) {id : Half}
    {b : Memory} {n : Nat} (hn : romSize (headerFields b).romcode = some n) (hid : u.cartHandle.map (·.id) = some id) :
    CommandBody s (cartAnnounced id (headerFields b) n u) := by
  obtain ⟨hh, hst⟩ := stopped_eq_false.1 h.running
  obtain ⟨ho, -, -, hnone⟩ := h.handles hh hst
  obtain ⟨-, hslot, hftag⟩ := hnone hl
  have hlegal := h.toLegalState
  obtain ⟨wn, es, e, -⟩ := cartAnnounced_frame id (headerFields b) n u
  have hcart := commitCart_legal (s := u) (hu.cfg ▸ hlegal.config) id hn
  obtain ⟨_, _, _, _, _, rfl, -⟩ := hu
  rw [e]
  exact ⟨{
    config := hlegal.config
    cart := hcart
    masks := .of_zero rfl rfl
    handles := fun _ _ => ⟨ho, rfl, fun _ => hid, fun hf => (nomatch hf)⟩
    tags := .of_nil hslot hftag
    registers := hlegal.registers.of_mreg hlegal.config rfl rfl }, h.inFlight, rfl⟩

/-- A CART_LOAD that ends without a commit. -/
theorem Accepted.uncommitted (h : Accepted s) {u : State} (hu : CartStep s u)
    (hc : s.cartHandle = none → u.stalled = false → u.cartHandle = none) (hl : s.cart.loaded = true → u = s) :
    CommandBody s u := by
  cases hload : s.cart.loaded with
  | true => rw [hl hload]; exact h.body
  | false =>
    obtain ⟨hh, hst⟩ := stopped_eq_false.1 h.running
    obtain ⟨ho, hf, hopen, hnone⟩ := h.handles hh hst
    obtain ⟨hch, hslot, hftag⟩ := hnone hload
    have hc := hc hch
    have hlegal := h.toLegalState
    obtain ⟨_, _, _, _, _, rfl, -⟩ := hu
    exact ⟨{ hlegal with
      cart := hlegal.cart.of_eq hst rfl rfl
      handles := fun _ hs => ⟨ho, hf, fun hn => Bool.noConfusion (hload.symm.trans hn),
        fun _ => ⟨hc hs, hslot, hftag⟩⟩ },
      h.inFlight, rfl⟩

theorem Accepted.cartLoad (h : Accepted s) (id : Half) : BlockKept s (cartLoadOp id s) := by
  rcases cartLoadOp_ends id h.running with ⟨u, r, e, hu, hc, hl⟩ | ⟨b, n, u, hl, hn, hu, hid, e⟩ <;> rw [e]
  · exact (h.uncommitted hu hc hl).ended r
  · have hb := h.committed hl hu hn hid
    obtain ⟨_, _, e', -⟩ := cartAnnounced_frame id (headerFields b) n u
    refine (hb.preloadBody ?_ ?_).ended 0 <;> rw [e']
    · rfl
    · exact preloadCount_le u.cfg n (headerFields b).title

/-- A quantum requested by a busy block in one of the phases that have quanta (R163). -/
theorem LegalState.requestQuantum (h : LegalState s) (n : Nat) (k : QKind) (hb : s.busy = true) (hi : s.phase ≠ .idle)
    (h3 : s.phase ≠ .p3) (hl : s.cart.loaded = true) (hc : HaltCause s) :
    BlockKept s (requestQuantum n k s) := by
  rw [requestQuantum_eq]
  refine ⟨⟨{ h with registers := h.registers.of_mreg h.config rfl rfl }, ?_⟩, rfl⟩
  exact ⟨fun hn => Bool.noConfusion (hb.symm.trans hn), fun _ => ⟨hb, hi, h3⟩, fun _ _ _ => ⟨hi, hl⟩, hc⟩

theorem Accepted.frame (h : Accepted s) (draw : Bool) : BlockKept s (frameOp draw s) := by
  unfold frameOp
  split
  · exact h.refused _
  · rename_i hl
    obtain ⟨hb, -, -, hc⟩ := h.inFlight
    have hlegal := h.toLegalState
    exact LegalState.requestQuantum (s := { s with renderEnable := draw, frameCycles := 0, phase := .p1 })
      { hlegal with } s.cfg.qHead .head hb nofun nofun (by simpa using hl) hc

theorem Accepted.rtcGet (h : Accepted s) : BlockKept s (rtcGetOp s) := by
  have hlegal := h.toLegalState
  exact CommandBody.completes (u := { s with xd := _ }) ⟨{ hlegal with }, h.inFlight, rfl⟩ h.running

theorem Accepted.rtcSet (h : Accepted s) : BlockKept s (rtcSetOp s) := by
  have hlegal := h.toLegalState
  exact CommandBody.completes (u := { s with rtc := _ })
    ⟨{ hlegal with registers := hlegal.registers.of_mreg hlegal.config rfl rfl }, h.inFlight, rfl⟩ h.running

/-! ### Bus requests -/

/-- A halt inside a quantum (R184). -/
theorem LegalBlock.raiseFatal (h : LegalBlock s) (hr : s.run.isSome = true) {c : Cause} (hc : c ≠ .none) :
    LegalBlock (raiseFatal c s) := by
  obtain ⟨-, h2, -, -⟩ := h.scheduler
  obtain ⟨hb, h2⟩ := h2 hr
  exact { h with
    handles := fun hn => (nomatch hn)
    scheduler := ⟨fun hn => Bool.noConfusion (hb.symm.trans hn), fun _ => ⟨hb, h2⟩, fun hn => (nomatch hn),
      raiseFatal_cause hc s⟩ }

/-- LOAD_BANK inside a quantum. -/
theorem LegalBlock.loadBank (h : LegalBlock s) (hq : s.inQuantum) {n : Nat} (hn : n < s.cart.romsize) :
    LegalBlock (loadBank n s) := by
  obtain ⟨hh, hst, hr⟩ := hq
  obtain ⟨-, h2, h3, hc⟩ := h.scheduler
  obtain ⟨hb, hi, hp⟩ := h2 hr
  obtain ⟨-, hl⟩ := h3 hh hst hb
  have hlegal := h.toLegalState.loadBank (stopped_eq_false.2 ⟨hh, hst⟩) hl hn
  have hc' : HaltCause (Machine.loadBank n s) := HaltCause.loadBank hc n
  refine ⟨hlegal, ?_⟩
  obtain ⟨_, _, _, _, _, _, _, _, _, _, _, e⟩ := loadBank_bank n s
  rw [e] at hc' ⊢
  exact ⟨fun hn => Bool.noConfusion (hb.symm.trans hn), fun _ => ⟨hb, hi, hp⟩, fun _ _ _ => ⟨hi, hl⟩, hc'⟩

theorem LegalBlock.rd (h : LegalBlock s) (hq : s.inQuantum) (addr : Half) : BlockKept s (rdOp addr s) := by
  unfold rdOp
  split
  · rename_i n off _
    unfold readRom
    split
    · exact ⟨h.raiseFatal hq.2.2 (by decide), rfl⟩
    · rename_i hn
      have hb := h.loadBank hq (n := n) (by omega)
      have hc := (loadBank_bank n s).cfg
      split
      · exact ⟨hb, hc⟩
      · unfold driveRom
        split
        · exact ⟨{ hb with }, hc⟩
        · exact ⟨hb, hc⟩
  · unfold readXram
    split
    · exact ⟨h.raiseFatal hq.2.2 (by decide), rfl⟩
    · exact ⟨{ h with }, rfl⟩
  · exact ⟨h, rfl⟩

theorem MasksInRange.markDirty {i : Nat} (h : MasksInRange s) (hi : i < s.cart.ramsize) :
    MasksInRange (markDirty i s) := by
  intro j hj
  have hj' : s.cart.ramsize ≤ j := hj
  obtain ⟨h1, h2⟩ := h j hj'
  refine ⟨(bitOf_setBit s.sramDirty i j).trans ?_, h2⟩
  rw [h1, decide_eq_false (show ¬ j = i by omega), Bool.false_and, Bool.or_false]

theorem LegalBlock.wr (h : LegalBlock s) (hq : s.inQuantum) (addr : Half) (data : Byte) :
    BlockKept s (wrOp addr data s) := by
  unfold wrOp
  split
  · exact ⟨h, rfl⟩
  · rename_i i off _
    unfold writeXram
    split
    · exact ⟨h.raiseFatal hq.2.2 (by decide), rfl⟩
    · rename_i hi
      exact ⟨{ h with masks := MasksInRange.markDirty (s := writeRam i off data s) h.masks (Nat.lt_of_not_le hi) }, rfl⟩
  · exact ⟨h, rfl⟩

/-! ### Every operation -/

/-- The data output of a bus request that has driven nothing yet. -/
theorem LegalBlock.undriven (h : LegalBlock s) : LegalBlock { s with rdata := none } := { h with }

theorem LegalBlock.exec {i : Instr} {t : State} (h : LegalBlock s) (hrun : exec i s = .next t) :
    BlockKept s t := by
  have hcmd : ∀ {op : State → State}, acceptCommand op s = .next t →
      (∀ {u : State}, Accepted u → BlockKept u (op u)) → BlockKept s t := fun hr hop => by
    obtain ⟨hready, rfl⟩ := acceptCommand_next hr
    exact hop (h.accepted hready)
  have hbus : ∀ {op : State → State}, acceptBus op s = .next t →
      (∀ {u : State}, LegalBlock u → u.inQuantum → BlockKept u (op u)) → BlockKept s t := fun hr hop => by
    obtain ⟨hq, rfl⟩ := acceptBus_next hr
    exact hop h.undriven hq
  cases i with
  | cartLoad id => exact hcmd hrun fun hu => hu.cartLoad id
  | cartUnload => exact hcmd hrun fun hu => hu.cartUnload
  | bankLoad n => exact hcmd hrun fun hu => hu.bankLoad n
  | preload k => exact hcmd hrun fun hu => hu.preload k
  | sramSave id quick => exact hcmd hrun fun hu => hu.saved (sramSaveOp_ends id quick hu.running)
  | sramLoad id => exact hcmd hrun fun hu => hu.restored (sramLoadOp_ends id hu.running)
  | stateSave id => exact hcmd hrun fun hu => hu.snapshot (stateSaveOp_ends id hu.running)
  | stateLoad id => exact hcmd hrun fun hu => hu.stateLoad id
  | frame draw => exact hcmd hrun fun hu => hu.frame draw
  | rtcGet => exact hcmd hrun fun hu => hu.rtcGet
  | rtcSet => exact hcmd hrun fun hu => hu.rtcSet
  | rd addr => exact hbus hrun fun hu hq => hu.rd hq addr
  | wr addr data => exact hbus hrun fun hu hq => hu.wr hq addr data
  | selrom v =>
    exact hbus (op := fun t => { t with rombank := v }) hrun fun hu _ =>
      ⟨{ hu with registers := hu.registers.of_mreg hu.config rfl rfl }, rfl⟩
  | selram v =>
    exact hbus (op := fun t => { t with rambank := v }) hrun fun hu _ =>
      ⟨{ hu with registers := hu.registers.of_mreg hu.config rfl rfl }, rfl⟩

/-! ### Reset -/

/-- R201: the state after reset. -/
theorem resetWith_block {c : Config} (hc : Config.wf c) : LegalBlock (State.resetWith c) where
  config := hc
  cart := ⟨fun _ => rfl, fun h => (nomatch h), fun _ => rfl⟩
  masks := .of_zero rfl rfl
  handles := fun _ _ => ⟨rfl, rfl, fun h => (nomatch h), fun _ => ⟨rfl, rfl, rfl⟩⟩
  scheduler := ⟨fun _ => ⟨rfl, rfl, rfl, rfl⟩, fun h => (nomatch h), fun _ _ h => (nomatch h),
    fun _ => rfl, fun _ => rfl⟩
  tags := .of_nil rfl rfl
  registers := .of_others hc (.nil c)

theorem resetInput_block (hc : Config.wf s.cfg) : LegalBlock (resetInput s) := by
  have h := resetWith_block hc
  have hm := freeRegisters_fits hc s.cfg.regTable (fun _ he => he) (s.freeCount + 1) (.nil _)
  unfold resetInput
  exact { h with registers := .of_others hc hm }

/-! ### The agents -/

theorem writeReg_block {e : RegEntry} (h : LegalBlock s) (he : e ∈ s.cfg.regTable) (v : Word) :
    BlockKept s (writeReg e.id (narrow e.width v) s) := by
  have hf := writeReg_fits h.config (h.registers.others h.config) he v
  obtain ⟨_, _, _, _, _, _, _, e'⟩ := writeReg_regs e.id (narrow e.width v) s
  rw [e'] at hf ⊢
  exact ⟨{ h with registers := .of_others h.config hf }, rfl⟩

/-- A register's width is that of an entry of REG_TABLE. -/
theorem tableWidth_some {c : Config} {id : RegId} {w : Nat} (h : tableWidth c id = some w) :
    ∃ e ∈ c.regTable, e.id = id ∧ e.width = w := by
  obtain ⟨e, he, hw⟩ := Option.map_eq_some_iff.1 h
  exact ⟨e, List.mem_of_find?_eq_some he, by simpa using List.find?_some he, hw⟩

theorem LegalBlock.envSetReg {id : RegId} {v : Word} {t : State} (h : LegalBlock s)
    (hrun : envSetReg id v s = .next t) : BlockKept s t := by
  unfold Machine.envSetReg at hrun
  split at hrun
  · rename_i w hw
    obtain ⟨e, he, rfl, rfl⟩ := tableWidth_some hw
    cases hrun
    exact writeReg_block h he v
  · split at hrun <;> cases hrun
    · exact ⟨{ h with registers := h.registers.of_mreg h.config rfl rfl }, rfl⟩
    · exact ⟨{ h with registers := h.registers.of_mreg h.config rfl rfl }, rfl⟩

theorem LegalBlock.pokeRegion (h : LegalBlock s) (r : Region) (off : Nat) (b : Byte) :
    BlockKept s (pokeRegion r off b s) := by
  cases r <;> exact ⟨{ h with registers := h.registers.of_mreg h.config rfl rfl }, rfl⟩

theorem LegalBlock.envAct {a : EnvAct} {t : State} (h : LegalBlock s) (hq : s.inQuantum)
    (hrun : envAct a s = .next t) : BlockKept s t := by
  obtain ⟨h1, h2, h3, h4⟩ := h.scheduler
  cases a with
  | bus w =>
    obtain ⟨i, -, hi⟩ | ⟨-, rfl⟩ := presentBus_cases hrun
    · exact h.exec hi
    · exact ⟨h.undriven.raiseFatal hq.2.2 (by decide), rfl⟩
  | setReg id v => exact h.envSetReg hrun
  | poke r off b =>
    unfold Machine.envAct envPoke at hrun
    dsimp only at hrun
    split at hrun <;> cases hrun
    exact h.pokeRegion r off b
  | controller r v =>
    cases hrun
    cases r <;> exact ⟨{ h with registers := h.registers.of_mreg h.config rfl rfl }, rfl⟩
  | reset => cases hrun; exact ⟨resetInput_block h.config, rfl⟩
  | setLy v => cases hrun; exact ⟨{ h with }, rfl⟩
  | setLineCycles v => cases hrun; exact ⟨{ h with }, rfl⟩
  | setLcdOn v => cases hrun; exact ⟨{ h with }, rfl⟩
  | done =>
    cases hrun
    exact ⟨{ h with
      scheduler := ⟨fun hb => (h1 hb).imp_right fun h => h.imp_right fun h => ⟨h.1, rfl⟩, fun hn => (nomatch hn),
        h3, h4⟩ }, rfl⟩

/-- The scheduler goes to another phase of the FRAME between two quanta (R13). -/
theorem LegalBlock.phase (h : LegalBlock s) (hb : s.busy = true) (hr : s.run = none) (p : Phase)
    (hp : p ≠ .idle) (hl : s.cart.loaded = true) (tr : List Event) :
    LegalBlock { s with phase := p, trace := tr } := by
  obtain ⟨-, -, -, h4⟩ := h.scheduler
  exact { h with
    scheduler := ⟨fun hn => Bool.noConfusion (hb.symm.trans hn), fun hn => absurd hn (by simp [hr]),
      fun _ _ _ => ⟨hp, hl⟩, h4⟩ }

theorem LegalBlock.schedule {t : State} (h : LegalBlock s) (hh : s.halted = false) (hst : s.stalled = false)
    (hb : s.busy = true) (hr : s.run = none) (hrun : schedule s = .next t) : BlockKept s t := by
  obtain ⟨-, -, h3, h4⟩ := h.scheduler
  obtain ⟨hi, hl⟩ := h3 hh hst hb
  have hdone : BlockKept s (frameDone s) :=
    ⟨{ h with
      scheduler := ⟨fun _ => ⟨hh, hst, rfl, hr⟩, fun hn => absurd hn (by simp [frameDone, complete, hr]),
        fun _ _ hn => (nomatch hn), h4⟩ }, rfl⟩
  unfold Machine.schedule at hrun
  split at hrun
  case h_1 => cases hrun
  case h_2 => cases hrun; exact ⟨h.phase hb hr .p2 nofun hl s.trace, rfl⟩
  case h_3 hp =>
    split at hrun <;> cases hrun
    · exact h.toLegalState.requestQuantum _ _ hb hi (by rw [hp]; decide) hl h4
    · exact ⟨h.phase hb hr .p3 nofun hl _, rfl⟩
  case h_4 =>
    split at hrun <;> cases hrun
    · exact ⟨h.phase hb hr .p4l nofun hl s.trace, rfl⟩
    · exact LegalState.requestQuantum (s := { s with phase := .p4s })
        (h.phase hb hr .p4s nofun hl s.trace).toLegalState s.cfg.qSkip .skip hb nofun nofun hl h4
  case h_5 => cases hrun; exact hdone
  case h_6 hp =>
    split at hrun <;> cases hrun
    · exact h.toLegalState.requestQuantum _ _ hb hi (by rw [hp]; decide) hl h4
    · exact hdone

/-- The HOST's list, the command word and the oracle are in no invariant. -/
theorem LegalBlock.presented (h : LegalBlock s) (rest : List HostAct) (w : Word) (an : List Answer) :
    LegalBlock { s with host := rest, cw := w, answers := an } := { h with }

theorem LegalBlock.envTaken (h : LegalBlock s) : LegalBlock (envTaken s) := by
  rw [envTaken_eq]; exact { h with }

theorem envTaken_cfg (s : State) : (envTaken s).cfg = s.cfg := by rw [envTaken_eq]

theorem LegalBlock.present {w : Word} {t : State} (h : LegalBlock s) (hrun : present w s = .next t) :
    BlockKept s t := by
  obtain ⟨i, -, hi⟩ | ⟨hr, rfl⟩ := present_cases hrun
  · exact (h.presented s.host w s.answers).exec hi
  · exact ((h.presented s.host w s.answers).accepted hr).refused _

/-- Settles O58: by the agent that acts, and for a command by what its body can change and how it ends. -/
theorem blockInvariantIsKept : Obligations.BlockInvariantIsKept := by
  intro s t h hstep
  suffices hk : BlockKept s t from ⟨hk.1.invariant, hk.2⟩
  replace h := h.legal
  cases step_cases hstep with
  | stays ht => rw [ht]; exact ⟨h, rfl⟩
  | resets u hcfg _ ht => rw [ht]; exact ⟨resetInput_block (hcfg ▸ h.config), hcfg⟩
  | abandons w k rest an u hrun ht =>
    obtain ⟨hu, hcfg⟩ := (h.presented rest s.cw an).present hrun
    rw [ht]
    exact ⟨resetInput_block hu.config, hcfg⟩
  | command w rest i _ _ hrun => exact (h.presented rest w s.answers).exec hrun
  | reserved w rest hr ht =>
    rw [ht]
    exact ((h.presented rest w s.answers).accepted hr).refused _
  | window rest xd _ ht => rw [ht]; exact ⟨{ h with }, rfl⟩
  | bus w i _ _ _ hrun => exact (h.envTaken.exec hrun).imp_right fun hc => hc.trans (envTaken_cfg s)
  | busReserved hq _ ht =>
    rw [ht]
    refine ⟨h.envTaken.undriven.raiseFatal ?_ (by decide), envTaken_cfg s⟩
    rw [envTaken_eq]
    exact hq.2.2
  | env hq _ _ _ hrun =>
    have hq' : (envTaken s).inQuantum := by rw [envTaken_eq]; exact hq
    exact (h.envTaken.envAct hq' hrun).imp_right fun hc => hc.trans (envTaken_cfg s)
  | schedules hs hh hst hb hr hrun => exact (h.presented hs s.cw s.answers).schedule hh hst hb hr hrun

/-- Settles O60: every invariant is read off the reset values. -/
theorem invariantsHoldAtReset : Obligations.InvariantsHoldAtReset := by
  refine ⟨fun c hc => (resetWith_block hc).invariant, (resetWith_block (by decide +kernel)).invariant, fun c => ?_⟩
  exact ⟨State.resetWith_canonical c, fun n f off hn => (nomatch hn), rfl, rfl⟩

end Sys2Proof.Machine
end

section
/-! PROOFS. The pool holds no bank twice and no more banks than it has frames (R20). -/

namespace Sys2Proof.Machine

variable {s : State}

/-- The resident banks are listed in rising order. -/
theorem residents_nodup (h : Tab.wf s.slot) : (residents s).Nodup :=
  (List.pairwise_map.2 h).imp fun hlt => Nat.ne_of_lt hlt

/-- R20: a frame holds one bank. -/
theorem TagsAgree.slot_injective (h : TagsAgree s) {m n f : Nat} (hm : slotOf s m = some f) (hn : slotOf s n = some f) :
    m = n :=
  Option.some.inj (((h.iff m f).1 hm).symm.trans ((h.iff n f).1 hn))

/-- The frame of a resident bank. -/
def frameOf (s : State) (n : Nat) : Nat := (slotOf s n).getD 0

theorem slotOf_resident {n : Nat} (h : n ∈ residents s) : slotOf s n = some (frameOf s n) := by
  obtain ⟨f, hf⟩ := Option.isSome_iff_exists.1 (mem_residents.1 h)
  rw [frameOf, hf, Option.getD_some]

/-- The residents' frames are all different, and frames of the pool. -/
theorem TagsAgree.residents_length_le (h : TagsAgree s) (hnd : (residents s).Nodup) :
    (residents s).length ≤ s.cfg.poolSize := by
  have hframes : ((residents s).map (frameOf s)).Nodup := hnd.map_on fun m hm n hn e =>
    h.slot_injective (slotOf_resident hm) (e ▸ slotOf_resident hn)
  have hpool : (residents s).map (frameOf s) ⊆ List.range s.cfg.poolSize := fun f hf => by
    obtain ⟨n, hn, rfl⟩ := List.mem_map.1 hf
    exact List.mem_range.2 (h.bound n _ (slotOf_resident hn)).2
  calc (residents s).length = ((residents s).map (frameOf s)).length := (List.length_map _).symm
    _ ≤ (List.range s.cfg.poolSize).length := (hframes.subperm hpool).length_le
    _ = s.cfg.poolSize := List.length_range

/-- Settles O28: by mapping each resident bank to its frame. -/
theorem poolIsNeverOverfull : Obligations.PoolIsNeverOverfull := by
  intro s hm ht
  have hnd := residents_nodup hm.slot
  exact ⟨hnd, ht.residents_length_le hnd, fun m n f => ht.slot_injective⟩

end Sys2Proof.Machine
end

section
/-! PROOFS. Who writes the registers that are watched over the whole machine: the cartridge record, the phase, the draw
flag, the dirty bits, the warnings and the tick accumulator (R11, R13, R14, R15, R16, R27). -/

namespace Sys2Proof.Machine

variable {s t : State}

/-! ### The watched registers -/

/-- The registers O47, O51, O55 and O56 speak of. -/
structure Watch where
  cart : Cart
  phase : Phase
  draw : Bool
  dirty : Word
  warn : BitVec 2
  ticks : Dword

/-- What the watched registers hold. -/
def watch (s : State) : Watch := ⟨s.cart, s.phase, s.renderEnable, s.sramDirty, s.warn, s.rtcTicks⟩

/-- The watched registers became `w`, and `n` cycles were requested. -/
def Became (w : Watch) (n : Nat) (s t : State) : Prop :=
  watch t = w ∧ ∃ es, t.trace = s.trace ++ es ∧ requestedCycles es = n

theorem requestedCycles_storage {es : List Event} (h : ∀ e ∈ es, e.isStorage = true) : requestedCycles es = 0 := by
  refine List.sum_eq_zero fun n hn => ?_
  obtain ⟨e, he, rfl⟩ := List.mem_map.1 hn
  have := h e he
  cases e with
  | run n k => cases this
  | _ => rfl

theorem Became.of_storage {w : Watch} (h : watch t = w) (ht : OnlyStorageSince s t) : Became w 0 s t := by
  obtain ⟨es, e, he⟩ := ht
  exact ⟨h, es, e, requestedCycles_storage he⟩

theorem Became.of_trace {w : Watch} (h : watch t = w) (ht : t.trace = s.trace) : Became w 0 s t :=
  .of_storage h (.of_trace ht)

theorem requestedCycles_append (es es' : List Event) :
    requestedCycles (es ++ es') = requestedCycles es + requestedCycles es' := by
  simp [requestedCycles]

theorem Became.trans {v w : Watch} {u : State} (h₁ : Became v 0 s u) (h₂ : Became w 0 u t) : Became w 0 s t := by
  obtain ⟨-, es, e, hes⟩ := h₁
  obtain ⟨h, es', e', hes'⟩ := h₂
  exact ⟨h, es ++ es', by rw [e', e, List.append_assoc], by rw [requestedCycles_append, hes, hes']⟩

theorem Became.ended {w : Watch} {n : Nat} {u : State} (h : Became w n s u) (r : Word) :
    Became w n s (endWith r u) := by
  unfold endWith
  split
  · exact h
  · exact h

/-- The tick accumulator counted the requested cycles. -/
theorem Became.counted {w : Watch} {n : Nat} (h : Became w n s t) (hw : w.ticks = s.rtcTicks + BitVec.ofNat 64 n) :
    ∃ es, t.trace = s.trace ++ es ∧ t.rtcTicks = s.rtcTicks + BitVec.ofNat 64 (requestedCycles es) := by
  obtain ⟨h1, es, h2, h3⟩ := h
  exact ⟨es, h2, by rw [h3, ← hw, ← h1]; rfl⟩

theorem Became.uncounted {w : Watch} (h : Became w 0 s t) (hw : w.ticks = s.rtcTicks) :
    ∃ es, t.trace = s.trace ++ es ∧ t.rtcTicks = s.rtcTicks + BitVec.ofNat 64 (requestedCycles es) :=
  h.counted (by rw [hw]; simp)

theorem BankStep.watched (h : BankStep s t) : Became (watch s) 0 s t := by
  obtain ⟨hb, ht⟩ := h
  refine .of_storage ?_ ht
  obtain ⟨_, _, _, _, _, _, _, _, _, _, _, rfl⟩ := hb
  rfl

/-! ### What a command does to them -/

/-- What a command did to the watched registers. -/
inductive CommandEffect (i : Instr) (s t : State) : Prop
  | keeps (h : Became (watch s) 0 s t)
  /-- SRAM_SAVE or SRAM_LOAD wrote the dirty bits (R15). -/
  | marks (d : Word) (hi : (∃ id q, i = .sramSave id q) ∨ ∃ id, i = .sramLoad id)
      (h : Became { watch s with dirty := d } 0 s t)
  /-- CART_UNLOAD (R110). -/
  | unloads (c : Cart) (d : Word) (wn : BitVec 2) (hi : i = .cartUnload) (hw : wn = s.warn ∨ wn = 0)
      (h : Became { watch s with cart := c, dirty := d, warn := wn } 0 s t)
  /-- CART_LOAD's commit (R85, R89). -/
  | commits (id : Half) (c : Cart) (wn : BitVec 2) (hi : i = .cartLoad id) (hs : s.cart.loaded = false)
      (hc : c.loaded = true) (hw : wn = s.warn ∨ wn = s.warn ||| 2)
      (h : Became { watch s with cart := c, dirty := 0, warn := wn, ticks := 0 } 0 s t)
  /-- STATE_LOAD restored the machine (R151, R152). -/
  | restores (id : Half) (wn : BitVec 2) (tk : Dword) (hi : i = .stateLoad id) (hw : wn = s.warn ∨ wn = s.warn ||| 1)
      (htk : (∀ e ∈ s.cfg.regTable, isTicks e.id = false) → tk = s.rtcTicks)
      (h : Became { watch s with warn := wn, ticks := tk } 0 s t)
  /-- FRAME requested its HEAD quantum (R160, R161). -/
  | frames (d : Bool) (n : Nat) (hi : i = .frame d) (hr : s.ready)
      (h : Became { watch s with phase := .p1, draw := d, ticks := s.rtcTicks + BitVec.ofNat 64 n } n s t)

theorem requestQuantum_watched (n : Nat) (k : QKind) (s : State) :
    Became { watch s with ticks := s.rtcTicks + BitVec.ofNat 64 n } n s (requestQuantum n k s) := by
  rw [requestQuantum_eq]
  exact ⟨rfl, [.run n k], rfl, rfl⟩

theorem bankLoadOp_watched (n : Nat) (s : State) : Became (watch s) 0 s (bankLoadOp n s) := by
  unfold bankLoadOp
  split
  · exact .of_trace rfl rfl
  · split
    · exact .of_trace rfl rfl
    · exact (loadBank_step n s).watched.ended 0

theorem preloadOp_watched (k : Nat) (s : State) : Became (watch s) 0 s (preloadOp k s) := by
  unfold preloadOp
  split
  · exact .of_trace rfl rfl
  · exact (preloadBody_step k s).watched.ended 0

theorem cartUnloadOp_watched (hs : s.stalled = false) :
    ∃ c d wn, (wn = s.warn ∨ wn = 0) ∧
      Became { watch s with cart := c, dirty := d, warn := wn } 0 s (cartUnloadOp s) := by
  unfold cartUnloadOp
  split
  · obtain ⟨fc, ⟨-, e⟩ | ⟨-, e⟩⟩ := closeThen_cases (s := { s with slot := [], ftag := [], ramPages := 0, sram := [] })
      .cart cartFileClosed hs <;> rw [e]
    · exact ⟨s.cart, s.sramDirty, s.warn, .inl rfl, rfl, [.stClose .cart], rfl, rfl⟩
    · exact ⟨Cart.empty, 0, 0, .inr rfl, rfl, [.stClose .cart], rfl, rfl⟩
  · exact ⟨Cart.empty, 0, 0, .inr rfl, .of_trace rfl rfl⟩

theorem SaveBody.watched {key : Nat} (h : SaveBody key s t) : ∃ d, Became { watch s with dirty := d } 0 s t := by
  obtain ⟨⟨d, _, es, _, _, _, _, _, rfl, he, -⟩, -⟩ := h
  exact ⟨d, .of_storage rfl ⟨es, rfl, he⟩⟩

theorem RestoreBody.watched (h : RestoreBody s t) : ∃ d, Became { watch s with dirty := d } 0 s t := by
  obtain ⟨⟨d, _, _, _, es, _, _, _, _, rfl, he⟩, -⟩ := h
  exact ⟨d, .of_storage rfl ⟨es, rfl, he⟩⟩

theorem SnapshotStep.watched {key : Nat} (h : SnapshotStep key s t) : Became (watch s) 0 s t := by
  obtain ⟨_, es, _, _, _, _, _, rfl, he, -⟩ := h
  exact .of_storage rfl ⟨es, rfl, he⟩

theorem BulkStep.watched (h : BulkStep s t) : Became (watch s) 0 s t := by
  obtain ⟨_, _, _, _, es, _, _, _, _, rfl, he⟩ := h
  exact .of_storage rfl ⟨es, rfl, he⟩

theorem CartStep.watched (h : CartStep s t) : Became (watch s) 0 s t := by
  obtain ⟨es, _, _, _, _, rfl, he⟩ := h
  exact .of_storage rfl ⟨es, rfl, he⟩

/-- The register walk writes the tick accumulator only through REG_TABLE (log entry 21). -/
theorem walked_ticks {u : State} (h : ∀ e ∈ u.cfg.regTable, isTicks e.id = false) :
    (walked u).rtcTicks = u.rtcTicks :=
  walkRegisters_ticks h { takeRegions u with loadedVersion := findRecord u.hdr u.cfg.versionTag }

theorem stateLoadOp_effect (id : Half) (hs : stopped s = false) :
    CommandEffect (.stateLoad id) s (stateLoadOp id s) := by
  cases hl : s.cart.loaded with
  | false =>
    have e : stateLoadOp id s = raiseError .inval s := if_pos hl
    rw [e]
    exact .keeps (.of_trace rfl rfl)
  | true =>
    rcases stateLoadOp_ends id hs hl with ⟨u, e, hu, -⟩ | ⟨u, e, hu, -, -, -⟩ <;> rw [e]
    · exact .keeps (hu.watched.ended _)
    · have hk := walked_ticks (u := u)
      have hr : ∃ wn, (wn = u.warn ∨ wn = u.warn ||| 1) ∧
          Became { watch u with warn := wn, ticks := (walked u).rtcTicks } 0 u (stateRestored u) := by
        obtain ⟨_, _, _, _, _, _, _, _, wn, es, e', hw, hes⟩ := stateRestored_frame u
        rw [e']
        exact ⟨wn, hw, rfl, es, rfl, hes⟩
      obtain ⟨wn, hw, hr⟩ := hr
      have hr := hu.watched.trans hr
      obtain ⟨_, _, _, _, _, _, _, _, _, rfl, -⟩ := hu
      exact .restores id wn _ rfl hw hk hr

theorem cartAnnounced_watched {u : State} (id : Half) (hd : Header) (n : Nat) :
    ∃ wn, (wn = u.warn ∨ wn = u.warn ||| 2) ∧
      Became { watch u with cart := cartOf u.cfg hd n, dirty := 0, warn := wn, ticks := 0 } 0 u
        (cartAnnounced id hd n u) := by
  unfold cartAnnounced notifyPalette warnRamsize
  split <;> split
  · exact ⟨_, .inr rfl, rfl, [.warn .ramsize], rfl, rfl⟩
  · exact ⟨_, .inl rfl, .of_trace rfl rfl⟩
  · exact ⟨_, .inr rfl, rfl, [.warn .ramsize, .palRebuild], List.append_assoc .., rfl⟩
  · exact ⟨_, .inl rfl, rfl, [.palRebuild], rfl, rfl⟩

theorem cartLoadOp_effect (id : Half) (hs : stopped s = false) : CommandEffect (.cartLoad id) s (cartLoadOp id s) := by
  rcases cartLoadOp_ends id hs with ⟨u, r, e, hu, -⟩ | ⟨b, n, u, hl, -, hu, -, e⟩ <;> rw [e]
  · exact .keeps (hu.watched.ended r)
  · obtain ⟨wn, hw, ha⟩ := cartAnnounced_watched (u := u) id (headerFields b) n
    have hp := (preloadBody_step (preloadCount u.cfg n (headerFields b).title)
      (cartAnnounced id (headerFields b) n u)).watched
    rw [ha.1] at hp
    have hc := (hu.watched.trans (ha.trans hp)).ended 0
    obtain ⟨_, _, _, _, _, rfl, -⟩ := hu
    exact .commits id _ wn rfl hl rfl hw hc

theorem frameOp_effect (draw : Bool) (hr : s.ready) :
    CommandEffect (.frame draw) s (frameOp draw { s with busy := true }) := by
  unfold frameOp
  split
  · exact .keeps (.of_trace rfl rfl)
  · exact .frames draw _ rfl hr (requestQuantum_watched _ _
      { s with busy := true, renderEnable := draw, frameCycles := 0, phase := .p1 })

/-- Acceptance changes no watched register. -/
theorem CommandEffect.of_accepted {i : Instr} (h : CommandEffect i { s with busy := true } t) :
    CommandEffect i s t := by
  cases h with
  | keeps h => exact .keeps h
  | marks d hi h => exact .marks d hi h
  | unloads c d wn hi hw h => exact .unloads c d wn hi hw h
  | commits id c wn hi hs hc hw h => exact .commits id c wn hi hs hc hw h
  | restores id wn tk hi hw htk h => exact .restores id wn tk hi hw htk h
  | frames d n hi hr h => exact Bool.noConfusion hr.1

/-- Every operation of the command port, whatever storage answers. -/
theorem exec_effect {i : Instr} (hp : i.port = .command) (hrun : exec i s = .next t) : CommandEffect i s t := by
  have hcmd : ∀ {op : State → State}, acceptCommand op s = .next t →
      (stopped s = false → CommandEffect i { s with busy := true } (op { s with busy := true })) →
      CommandEffect i s t := fun hr hop => by
    obtain ⟨hready, rfl⟩ := acceptCommand_next hr
    exact (hop (stopped_eq_false.2 hready.2)).of_accepted
  cases i with
  | cartLoad id => exact hcmd hrun fun hs => cartLoadOp_effect id hs
  | cartUnload =>
    refine hcmd hrun fun hs => ?_
    obtain ⟨c, d, wn, hw, h⟩ := cartUnloadOp_watched (s := { s with busy := true }) (stopped_eq_false.1 hs).2
    exact .unloads c d wn rfl hw h
  | bankLoad n => exact hcmd hrun fun _ => .keeps (bankLoadOp_watched n _)
  | preload k => exact hcmd hrun fun _ => .keeps (preloadOp_watched k _)
  | sramSave id quick =>
    refine hcmd hrun fun hs => ?_
    obtain ⟨u, r, e, hu, -⟩ := sramSaveOp_ends (s := { s with busy := true }) id quick hs
    obtain ⟨d, h⟩ := hu.watched
    rw [e]
    exact .marks d (.inl ⟨id, quick, rfl⟩) (h.ended r)
  | sramLoad id =>
    refine hcmd hrun fun hs => ?_
    obtain ⟨u, r, e, hu, -⟩ := sramLoadOp_ends (s := { s with busy := true }) id hs
    obtain ⟨d, h⟩ := hu.watched
    rw [e]
    exact .marks d (.inr ⟨id, rfl⟩) (h.ended r)
  | stateSave id =>
    refine hcmd hrun fun hs => ?_
    obtain ⟨u, r, e, hu, -⟩ := stateSaveOp_ends (s := { s with busy := true }) id hs
    rw [e]
    exact .keeps (hu.watched.ended r)
  | stateLoad id => exact hcmd hrun fun hs => stateLoadOp_effect id hs
  | frame draw =>
    obtain ⟨hready, rfl⟩ := acceptCommand_next hrun
    exact frameOp_effect draw hready
  | rtcGet => exact hcmd hrun fun _ => .keeps (.of_trace rfl rfl)
  | rtcSet => exact hcmd hrun fun _ => .keeps (.of_trace rfl rfl)
  | rd addr => cases hp
  | wr addr data => cases hp
  | selrom v => cases hp
  | selram v => cases hp

/-! ### Bus requests -/

theorem rdOp_watched (addr : Half) (s : State) : Became (watch s) 0 s (rdOp addr s) := by
  unfold rdOp readRom readXram
  split
  · rename_i n off _
    split
    · exact .of_trace rfl rfl
    · have hb := (loadBank_step n s).watched
      split
      · exact hb
      · unfold driveRom
        split
        · exact hb
        · exact hb
  · split
    · exact .of_trace rfl rfl
    · exact .of_trace rfl rfl
  · exact .of_trace rfl rfl

theorem wrOp_watched (addr : Half) (data : Byte) (s : State) :
    ∃ d, Became { watch s with dirty := d } 0 s (wrOp addr data s) := by
  unfold wrOp writeXram
  split
  · exact ⟨_, .of_trace rfl rfl⟩
  · split
    · exact ⟨_, .of_trace rfl rfl⟩
    · exact ⟨_, .of_trace rfl rfl⟩
  · exact ⟨_, .of_trace rfl rfl⟩

/-- Of the bus requests only WR writes a watched register, the dirty bits (R109). -/
theorem exec_bus_watched {i : Instr} (hp : i.port = .bus) (hrun : exec i s = .next t) :
    Became (watch s) 0 s t ∨ ∃ a b d, i = .wr a b ∧ Became { watch s with dirty := d } 0 s t := by
  cases i with
  | rd addr =>
    obtain ⟨-, rfl⟩ := acceptBus_next hrun
    exact .inl (rdOp_watched addr { s with rdata := none })
  | wr addr data =>
    obtain ⟨-, rfl⟩ := acceptBus_next hrun
    obtain ⟨d, h⟩ := wrOp_watched addr data { s with rdata := none }
    exact .inr ⟨addr, data, d, rfl, h⟩
  | selrom v =>
    obtain ⟨-, rfl⟩ := acceptBus_next (op := fun u => { u with rombank := v }) hrun
    exact .inl (.of_trace rfl rfl)
  | selram v =>
    obtain ⟨-, rfl⟩ := acceptBus_next (op := fun u => { u with rambank := v }) hrun
    exact .inl (.of_trace rfl rfl)
  | _ => cases hp

/-! ### ENV, the scheduler, and every step -/

theorem writeReg_watched (id : RegId) (v : Word) (s : State) :
    Became { watch s with ticks := (writeReg id v s).rtcTicks } 0 s (writeReg id v s) := by
  obtain ⟨_, _, _, _, _, _, _, e⟩ := writeReg_regs id v s
  rw [e]
  exact .of_trace rfl rfl

/-- Of what ENV does but a bus request and a reset, only a write of the tick accumulator through REG_TABLE writes a
watched register (log entry 21). -/
theorem envAct_watched {a : EnvAct} (hbus : ∀ w, a ≠ .bus w) (hreset : a ≠ .reset) (hrun : envAct a s = .next t) :
    Became (watch s) 0 s t ∨
    ∃ e ∈ s.cfg.regTable, isTicks e.id = true ∧ (∃ v, a = .setReg e.id v) ∧
      ∃ tk, Became { watch s with ticks := tk } 0 s t := by
  cases a with
  | bus w => exact absurd rfl (hbus w)
  | reset => exact absurd rfl hreset
  | setReg id v =>
    unfold envAct envSetReg at hrun
    dsimp only at hrun
    split at hrun
    · rename_i w hw
      obtain ⟨e, he, rfl, -⟩ := tableWidth_some hw
      cases hrun
      have h := writeReg_watched e.id (narrow w v) s
      cases ht : isTicks e.id with
      | true => exact .inr ⟨e, he, ht, ⟨v, rfl⟩, _, h⟩
      | false => rw [writeReg_ticks ht] at h; exact .inl h
    · split at hrun <;> cases hrun
      · exact .inl (.of_trace rfl rfl)
      · exact .inl (.of_trace rfl rfl)
  | poke r off b =>
    unfold envAct envPoke at hrun
    dsimp only at hrun
    split at hrun <;> cases hrun
    cases r <;> exact .inl (.of_trace rfl rfl)
  | controller r v => cases hrun; cases r <;> exact .inl (.of_trace rfl rfl)
  | setLy v => cases hrun; exact .inl (.of_trace rfl rfl)
  | setLineCycles v => cases hrun; exact .inl (.of_trace rfl rfl)
  | setLcdOn v => cases hrun; exact .inl (.of_trace rfl rfl)
  | done => cases hrun; exact .inl (.of_trace rfl rfl)

/-- The moves of the phase between two quanta (R13). -/
inductive PhaseMove : Phase → Phase → Prop
  | stays (p : Phase) : PhaseMove p p
  | visible : PhaseMove .p1 .p2
  | vblank : PhaseMove .p2 .p3
  | skips : PhaseMove .p3 .p4s
  | lines : PhaseMove .p3 .p4l
  | skipped : PhaseMove .p4s .idle
  | done : PhaseMove .p4l .idle

theorem schedule_watched (hrun : schedule s = .next t) :
    ∃ p n, PhaseMove s.phase p ∧
      Became { watch s with phase := p, ticks := s.rtcTicks + BitVec.ofNat 64 n } n s t := by
  have hquiet : ∀ {p : Phase}, watch t = { watch s with phase := p } → ∀ es, t.trace = s.trace ++ es →
      requestedCycles es = 0 →
      Became { watch s with phase := p, ticks := s.rtcTicks + BitVec.ofNat 64 0 } 0 s t := fun hw es he hes =>
    ⟨by rw [hw]; simp [watch], es, he, hes⟩
  have hstill : t.trace = s.trace → t.trace = s.trace ++ [] := fun h => by rw [h, List.append_nil]
  unfold schedule at hrun
  split at hrun
  case h_1 => cases hrun
  case h_2 hp => cases hrun; exact ⟨.p2, 0, hp ▸ .visible, hquiet rfl [] (hstill rfl) rfl⟩
  case h_3 hp =>
    split at hrun <;> cases hrun
    · exact ⟨s.phase, _, .stays _, requestQuantum_watched _ _ s⟩
    · exact ⟨.p3, 0, hp ▸ .vblank, hquiet rfl [.vblank] rfl rfl⟩
  case h_4 hp =>
    split at hrun <;> cases hrun
    · exact ⟨.p4l, 0, hp ▸ .lines, hquiet rfl [] (hstill rfl) rfl⟩
    · exact ⟨.p4s, _, hp ▸ .skips, requestQuantum_watched _ _ { s with phase := .p4s }⟩
  case h_5 hp => cases hrun; exact ⟨.idle, 0, hp ▸ .skipped, hquiet rfl [] (hstill rfl) rfl⟩
  case h_6 hp =>
    split at hrun <;> cases hrun
    · exact ⟨s.phase, _, .stays _, requestQuantum_watched _ _ s⟩
    · exact ⟨.idle, 0, hp ▸ .done, hquiet rfl [] (hstill rfl) rfl⟩

/-- What a step did to the watched registers. -/
inductive StepEffect (s t : State) : Prop
  | keeps (h : Became (watch s) 0 s t)
  | resets (h : ResetValues t)
  | commands (w : Word) (rest : List HostAct) (i : Instr) (hhost : s.host = .command w :: rest)
      (hdec : decode .command w = .ok i) (h : CommandEffect i { s with host := rest, cw := w } t)
  | writes (w : Word) (a : Half) (b : Byte) (d : Word) (hnext : nextEnv s = .bus w)
      (hdec : decode .bus w = .ok (.wr a b)) (h : Became { watch s with dirty := d } 0 s t)
  | setsTicks (e : RegEntry) (v : Word) (tk : Dword) (he : e ∈ s.cfg.regTable) (ht : isTicks e.id = true)
      (hnext : nextEnv s = .setReg e.id v) (h : Became { watch s with ticks := tk } 0 s t)
  | schedules (p : Phase) (n : Nat) (hp : PhaseMove s.phase p)
      (h : Became { watch s with phase := p, ticks := s.rtcTicks + BitVec.ofNat 64 n } n s t)

theorem step_effect (hstep : step s = .next t) : StepEffect s t := by
  cases step_cases hstep with
  | stays h => exact .keeps (.of_trace (by rw [h]) (by rw [h]))
  | resets u _ _ h => rw [h]; exact .resets (resetInput_resetValues u)
  | abandons w k rest an u _ h => rw [h]; exact .resets (resetInput_resetValues _)
  | command w rest i hhost hdec hrun => exact .commands w rest i hhost hdec (exec_effect (port_of_decode hdec) hrun)
  | reserved w rest _ h => rw [h]; exact .keeps (.of_trace rfl rfl)
  | window rest xd _ h => rw [h]; exact .keeps (.of_trace rfl rfl)
  | bus w i _ hnext hdec hrun =>
    rw [envTaken_eq] at hrun
    rcases exec_bus_watched (port_of_decode hdec) hrun with h | ⟨a, b, d, rfl, h⟩
    · exact .keeps h
    · exact .writes w a b d hnext hdec h
  | busReserved _ _ h => rw [h, envTaken_eq]; exact .keeps (.of_trace rfl rfl)
  | env _ _ hbus hreset hrun =>
    rw [envTaken_eq] at hrun
    rcases envAct_watched hbus hreset hrun with h | ⟨e, he, ht, ⟨v, hv⟩, tk, h⟩
    · exact .keeps h
    · exact .setsTicks e v tk he ht hv h
  | schedules hs _ _ _ _ hrun =>
    obtain ⟨p, n, hp, h⟩ := schedule_watched hrun
    exact .schedules p n hp h

end Sys2Proof.Machine
end

section
/-! PROOFS. The rules over every step that follow from what a step can write (R11, R13, R14, R15, R16, R27). -/

namespace Sys2Proof.Machine

variable {s t : State}

/-- A move of the phase is one R13 allows. -/
theorem PhaseMove.allowed {p q : Phase} (h : PhaseMove p q) :
    q = p ∨ (p = .idle ∧ q = .p1) ∨ (p = .p1 ∧ q = .p2) ∨ (p = .p2 ∧ q = .p3) ∨ (p = .p3 ∧ (q = .p4s ∨ q = .p4l)) ∨
    ((p = .p4s ∨ p = .p4l) ∧ q = .idle) := by
  cases h with
  | stays => exact .inl rfl
  | visible => decide
  | vblank => decide
  | skips => decide
  | lines => decide
  | skipped => decide
  | done => decide

/-- Settles O47: a FRAME starts from an idle phase, and between quanta the scheduler moves to the next. -/
theorem phaseNeverSkips : Obligations.PhaseNeverSkips := by
  intro s t hs hstep
  have hsame : ∀ {w n}, Became w n s t → w.phase = s.phase → t.phase = s.phase := fun h hw =>
    (congrArg Watch.phase h.1).trans hw
  cases step_effect hstep with
  | keeps h => exact .inl (hsame h rfl)
  | resets h => exact .inr (.inr (.inr (.inr (.inr (.inr h)))))
  | commands w rest i hhost hdec h =>
    cases h with
    | keeps h => exact .inl (hsame h rfl)
    | marks d _ h => exact .inl (hsame h rfl)
    | unloads c d wn _ _ h => exact .inl (hsame h rfl)
    | commits id c wn _ _ _ _ h => exact .inl (hsame h rfl)
    | restores id wn tk _ _ _ h => exact .inl (hsame h rfl)
    | frames d n _ hr h =>
      obtain ⟨-, -, hp, -⟩ := hs.1 hr.1
      exact .inr (.inl ⟨hp, congrArg Watch.phase h.1⟩)
  | writes w a b d _ _ h => exact .inl (hsame h rfl)
  | setsTicks e v tk _ _ _ h => exact .inl (hsame h rfl)
  | schedules p n hp h =>
    obtain rfl : t.phase = p := congrArg Watch.phase h.1
    obtain h | h | h | h | h | h := hp.allowed
    · exact .inl h
    · exact .inr (.inl h)
    · exact .inr (.inr (.inl h))
    · exact .inr (.inr (.inr (.inl h)))
    · exact .inr (.inr (.inr (.inr (.inl h))))
    · exact .inr (.inr (.inr (.inr (.inr (.inl h)))))

theorem isTicks_iff {id : RegId} : isTicks id = true ↔ id = .rtcTicksLow ∨ id = .rtcTicksHigh := by
  cases id <;> simp [isTicks]

/-- Settles O51: by what the step wrote. -/
theorem ticksAdvanceWithTheQuanta : Obligations.TicksAdvanceWithTheQuanta := by
  intro s t hstep
  cases step_effect hstep with
  | keeps h => exact .inl (h.uncounted rfl)
  | resets h => exact .inr (.inl ⟨h.rtcTicks, .inl h⟩)
  | commands w rest i hhost hdec h =>
    cases h with
    | keeps h => exact .inl (h.uncounted rfl)
    | marks d _ h => exact .inl (h.uncounted rfl)
    | unloads c d wn _ _ h => exact .inl (h.uncounted rfl)
    | commits id c wn _ hs hc _ h =>
      exact .inr (.inl ⟨congrArg Watch.ticks h.1, .inr ⟨hs, (congrArg (·.cart.loaded) h.1).trans hc⟩⟩)
    | restores id wn tk hi _ htk h =>
      by_cases hany : ∃ e ∈ s.cfg.regTable, isTicks e.id = true
      · obtain ⟨e, he, ht⟩ := hany
        exact .inr (.inr ⟨e, he, isTicks_iff.1 ht, .inl ⟨w, rest, id, hhost, hi ▸ hdec⟩⟩)
      · refine .inl (h.uncounted (htk fun e he => ?_))
        by_contra ht
        exact hany ⟨e, he, by simpa using ht⟩
    | frames d n _ _ h => exact .inl (h.counted rfl)
  | writes w a b d _ _ h => exact .inl (h.uncounted rfl)
  | setsTicks e v tk he ht hnext h => exact .inr (.inr ⟨e, he, isTicks_iff.1 ht, .inr ⟨v, hnext⟩⟩)
  | schedules p n _ h => exact .inl (h.counted rfl)

/-- Settles O55: a step that is none of the three keeps the record. -/
theorem cartridgeRecordIsImmutable : Obligations.CartridgeRecordIsImmutable := by
  intro s t hstep hne
  have hsame : ∀ {w n}, Became w n s t → w.cart = s.cart → False := fun h hw =>
    hne ((congrArg Watch.cart h.1).trans hw)
  cases step_effect hstep with
  | keeps h => exact (hsame h rfl).elim
  | resets h => exact .inr (.inr h)
  | commands w rest i hhost hdec h =>
    cases h with
    | keeps h => exact (hsame h rfl).elim
    | marks d _ h => exact (hsame h rfl).elim
    | unloads c d wn hi _ h => exact .inr (.inl ⟨w, rest, hhost, hi ▸ hdec⟩)
    | commits id c wn hi _ _ _ h => exact .inl ⟨w, rest, id, hhost, hi ▸ hdec⟩
    | restores id wn tk _ _ _ h => exact (hsame h rfl).elim
    | frames d n _ _ h => exact (hsame h rfl).elim
  | writes w a b d _ _ h => exact (hsame h rfl).elim
  | setsTicks e v tk _ _ _ h => exact (hsame h rfl).elim
  | schedules p n _ h => exact (hsame h rfl).elim

/-! ### The flags -/

theorem drawFlag_writers (hstep : step s = .next t) (hreset : ¬ ResetValues t)
    (hne : t.renderEnable ≠ s.renderEnable) :
    ∃ w rest d, s.host = .command w :: rest ∧ decode .command w = .ok (.frame d) ∧ t.renderEnable = d := by
  have hsame : ∀ {w n}, Became w n s t → w.draw = s.renderEnable → False := fun h hw =>
    hne ((congrArg Watch.draw h.1).trans hw)
  cases step_effect hstep with
  | keeps h => exact (hsame h rfl).elim
  | resets h => exact absurd h hreset
  | commands w rest i hhost hdec h =>
    cases h with
    | keeps h => exact (hsame h rfl).elim
    | marks d _ h => exact (hsame h rfl).elim
    | unloads c d wn _ _ h => exact (hsame h rfl).elim
    | commits id c wn _ _ _ _ h => exact (hsame h rfl).elim
    | restores id wn tk _ _ _ h => exact (hsame h rfl).elim
    | frames d n hi _ h => exact ⟨w, rest, d, hhost, hi ▸ hdec, congrArg Watch.draw h.1⟩
  | writes w a b d _ _ h => exact (hsame h rfl).elim
  | setsTicks e v tk _ _ _ h => exact (hsame h rfl).elim
  | schedules p n _ h => exact (hsame h rfl).elim

theorem dirtyBits_writers (hstep : step s = .next t) (hreset : ¬ ResetValues t) (hne : t.sramDirty ≠ s.sramDirty) :
    (∃ w rest i, s.host = .command w :: rest ∧ decode .command w = .ok i ∧
      ((∃ id q, i = .sramSave id q) ∨ (∃ id, i = .sramLoad id) ∨ (∃ id, i = .cartLoad id) ∨ i = .cartUnload)) ∨
    ∃ w a d, nextEnv s = .bus w ∧ decode .bus w = .ok (.wr a d) := by
  have hsame : ∀ {w n}, Became w n s t → w.dirty = s.sramDirty → False := fun h hw =>
    hne ((congrArg Watch.dirty h.1).trans hw)
  cases step_effect hstep with
  | keeps h => exact (hsame h rfl).elim
  | resets h => exact absurd h hreset
  | commands w rest i hhost hdec h =>
    cases h with
    | keeps h => exact (hsame h rfl).elim
    | marks d hi h => exact .inl ⟨w, rest, i, hhost, hdec, hi.imp_right .inl⟩
    | unloads c d wn hi _ h => exact .inl ⟨w, rest, i, hhost, hdec, .inr (.inr (.inr hi))⟩
    | commits id c wn hi _ _ _ h => exact .inl ⟨w, rest, i, hhost, hdec, .inr (.inr (.inl ⟨id, hi⟩))⟩
    | restores id wn tk _ _ _ h => exact (hsame h rfl).elim
    | frames d n _ _ h => exact (hsame h rfl).elim
  | writes w a b d hnext hdec h => exact .inr ⟨w, a, b, hnext, hdec⟩
  | setsTicks e v tk _ _ _ h => exact (hsame h rfl).elim
  | schedules p n _ h => exact (hsame h rfl).elim

/-- Every warning was there before, or one of the commands named for it did the rest (R185). -/
theorem warnings_writers (hstep : step s = .next t) (hreset : ¬ ResetValues t) :
    t.warn = s.warn ∨
    (t.warn = s.warn ||| 1 ∧ ∃ w rest id, s.host = .command w :: rest ∧ decode .command w = .ok (.stateLoad id)) ∨
    (t.warn = s.warn ||| 2 ∧ ∃ w rest id, s.host = .command w :: rest ∧ decode .command w = .ok (.cartLoad id)) ∨
    (t.warn = 0 ∧ ∃ w rest, s.host = .command w :: rest ∧ decode .command w = .ok .cartUnload) := by
  have hwarn : ∀ {w n}, Became w n s t → t.warn = w.warn := fun h => congrArg Watch.warn h.1
  cases step_effect hstep with
  | keeps h => exact .inl (hwarn h)
  | resets h => exact absurd h hreset
  | commands w rest i hhost hdec h =>
    cases h with
    | keeps h => exact .inl (hwarn h)
    | marks d _ h => exact .inl (hwarn h)
    | unloads c d wn hi hw h =>
      exact hw.imp (hwarn h).trans fun hw => .inr (.inr ⟨(hwarn h).trans hw, w, rest, hhost, hi ▸ hdec⟩)
    | commits id c wn hi _ _ hw h =>
      exact hw.imp (hwarn h).trans fun hw => .inr (.inl ⟨(hwarn h).trans hw, w, rest, id, hhost, hi ▸ hdec⟩)
    | restores id wn tk hi hw _ h =>
      exact hw.imp (hwarn h).trans fun hw => .inl ⟨(hwarn h).trans hw, w, rest, id, hhost, hi ▸ hdec⟩
    | frames d n _ _ h => exact .inl (hwarn h)
  | writes w a b d _ _ h => exact .inl (hwarn h)
  | setsTicks e v tk _ _ _ h => exact .inl (hwarn h)
  | schedules p n _ h => exact .inl (hwarn h)

/-- Settles O56: by the writers of each flag. -/
theorem flagsHaveTheirWriters : Obligations.FlagsHaveTheirWriters := by
  intro s t hstep hreset
  refine ⟨drawFlag_writers hstep hreset, dirtyBits_writers hstep hreset, ?_⟩
  have hkept : ∀ x y : BitVec 2, x &&& ~~~ (x ||| y) = 0 := by decide
  rcases warnings_writers hstep hreset with h | ⟨h, hw⟩ | ⟨h, hw⟩ | ⟨h, hw⟩ <;> rw [h]
  · exact ⟨fun h1 h0 => Bool.noConfusion (h0.symm.trans h1), fun h1 h0 => Bool.noConfusion (h0.symm.trans h1),
      fun hne => absurd (BitVec.and_not_self s.warn) hne⟩
  · exact ⟨fun _ _ => hw, fun h1 h0 => absurd h1 (by rw [BitVec.getLsbD_or, h0]; decide),
      fun hne => absurd (hkept s.warn 1) hne⟩
  · exact ⟨fun h1 h0 => absurd h1 (by rw [BitVec.getLsbD_or, h0]; decide), fun _ _ => hw,
      fun hne => absurd (hkept s.warn 2) hne⟩
  · exact ⟨fun h1 => absurd h1 (by simp), fun h1 => absurd h1 (by simp), fun _ => hw⟩

end Sys2Proof.Machine
end

section
/-! PROOFS. What ENV and the memory-controller logic write inside a quantum (R24, R31, R163). -/

namespace Sys2Proof.Machine

variable {s t : State}

theorem step_of_inQuantum (hq : s.inQuantum) (hb : s.busy = true) : step s = envTurn s := by
  obtain ⟨hh, hst, hr⟩ := hq
  simp [step, turn, hh, hst, hb, hr]

/-- A register the spec fixes and that is neither ENV's own nor in IOREGS (R31). -/
def isFsb : RegId → Bool
  | .rambank => false
  | .bootromOff => false
  | .ioreg _ => false
  | .other _ => false
  | _ => true

/-- Such a register is the program-bank selector, or of the clock or the tick accumulator. -/
theorem readReg_of_fsb {id : RegId} (h : isFsb id = true) (h1 : t.rombank = s.rombank) (h2 : t.rtc = s.rtc)
    (h3 : t.rtcTicks = s.rtcTicks) : readReg t id = readReg s id := by
  cases id with
  | rambank => cases h
  | bootromOff => cases h
  | ioreg k => cases h
  | other n => cases h
  | rombank => unfold readReg; rw [h1]
  | rtcTicksLow => unfold readReg; rw [h3]
  | rtcTicksHigh => unfold readReg; rw [h3]
  | _ => unfold readReg; rw [h2]

/-- A write of one register leaves the others (R31; the halves of the tick accumulator, log entry 21). -/
theorem readReg_writeReg_other {id id' : RegId} (hf : isFsb id = true) (hne : id' ≠ id) (v : Word) (s : State) :
    readReg (writeReg id' v s) id = readReg s id := by
  cases id' with
  | rambank => exact readReg_of_fsb hf rfl rfl rfl
  | bootromOff => exact readReg_of_fsb hf rfl rfl rfl
  | other n => exact readReg_of_fsb hf rfl rfl rfl
  | ioreg k =>
    unfold writeReg
    dsimp only
    split
    · exact readReg_of_fsb hf rfl rfl rfl
    · rfl
  | rombank =>
    cases id with
    | rombank => exact absurd rfl hne
    | _ => rfl
  | rtcSec =>
    cases id with
    | rtcSec => exact absurd rfl hne
    | _ => rfl
  | rtcMin =>
    cases id with
    | rtcMin => exact absurd rfl hne
    | _ => rfl
  | rtcHour =>
    cases id with
    | rtcHour => exact absurd rfl hne
    | _ => rfl
  | rtcDay =>
    cases id with
    | rtcDay => exact absurd rfl hne
    | _ => rfl
  | rtcLatch =>
    cases id with
    | rtcLatch => exact absurd rfl hne
    | _ => rfl
  | rtcSel =>
    cases id with
    | rtcSel => exact absurd rfl hne
    | _ => rfl
  | rtcFlags =>
    cases id with
    | rtcFlags => exact absurd rfl hne
    | _ => rfl
  | rtcReg j =>
    cases id with
    | rtcReg k =>
      have hk : j.val ≠ k.val := fun e => hne (congrArg RegId.rtcReg (Fin.ext e))
      simp [readReg, writeReg, Vector.getElem_set_ne, hk]
    | _ => rfl
  | rtcTicksLow =>
    cases id with
    | rtcTicksLow => exact absurd rfl hne
    | rtcTicksHigh => exact BitVec.extractLsb'_append_eq_left
    | _ => rfl
  | rtcTicksHigh =>
    cases id with
    | rtcTicksHigh => exact absurd rfl hne
    | rtcTicksLow =>
      show (v ++ s.rtcTicks.setWidth 32).setWidth 32 = s.rtcTicks.setWidth 32
      exact BitVec.setWidth_append_eq_right
    | _ => rfl

/-! ### The memory-controller logic -/

/-- R24: it writes the clock's latch, select and shadow registers. -/
theorem controllerWrite_eq (r : ControllerReg) (v : Byte) (s : State) :
    ∃ latch sel regs,
      controllerWrite r v s = { s with rtc := { s.rtc with latch := latch, sel := sel, regs := regs } } := by
  cases r with
  | latch => exact ⟨_, _, _, rfl⟩
  | sel => exact ⟨_, _, _, rfl⟩
  | shadow j => exact ⟨_, _, _, rfl⟩

/-! ### ENV -/

/-- What ENV's actions can change: its inputs, machine registers, memory regions, and the quantum it ends. -/
def EnvOnly (s t : State) : Prop :=
  t = { s with
    ly := t.ly, lineCycles := t.lineCycles, lcdOn := t.lcdOn, mreg := t.mreg, bootromDisable := t.bootromDisable,
    rambank := t.rambank, rombank := t.rombank, rtc := t.rtc, rtcTicks := t.rtcTicks, wram := t.wram, vram := t.vram,
    wave := t.wave, ioregs := t.ioregs, pal := t.pal, oam := t.oam, run := t.run, env := t.env,
    freeCount := t.freeCount }

theorem writeReg_envOnly (id : RegId) (v : Word) (s : State) :
    EnvOnly s (writeReg id v s) ∧ (writeReg id v s).run = s.run := by
  obtain ⟨_, _, _, _, _, _, _, e⟩ := writeReg_regs id v s
  rw [e]
  exact ⟨rfl, rfl⟩

/-- ENV writes a register that REG_TABLE names, or one of its own (R163, log entry 21). -/
theorem envSetReg_eq {id : RegId} {v : Word} (hrun : envSetReg id v s = .next t) :
    ∃ v', t = writeReg id v' s ∧ ((∃ e ∈ s.cfg.regTable, e.id = id) ∨ isFsb id = false) := by
  unfold envSetReg at hrun
  split at hrun
  · rename_i w hw
    obtain ⟨e, he, hid, -⟩ := tableWidth_some hw
    exact ⟨_, (Host.Outcome.next.inj hrun).symm, .inl ⟨e, he, hid⟩⟩
  · split at hrun <;> cases hrun
    · exact ⟨v, rfl, .inr rfl⟩
    · exact ⟨v, rfl, .inr rfl⟩

theorem pokeRegion_envOnly (r : Region) (off : Nat) (b : Byte) (s : State) :
    EnvOnly s (pokeRegion r off b s) ∧ (pokeRegion r off b s).run = s.run ∧
    ∀ id, isFsb id = true → readReg (pokeRegion r off b s) id = readReg s id := by
  cases r <;> exact ⟨rfl, rfl, fun id hf => readReg_of_fsb hf rfl rfl rfl⟩

/-- What one action of ENV or of the memory-controller logic does (R24, R163). -/
structure EnvEffect (a : EnvAct) (s t : State) : Prop where
  only : EnvOnly s t
  returns : a = .done → t.run = none
  goesOn : a ≠ .done → t.run = s.run
  fsb : ∀ id, isFsb id = true → (∀ e ∈ s.cfg.regTable, e.id ≠ id) → (∀ r v, a ≠ .controller r v) →
    readReg t id = readReg s id
  controller : ∀ r v, a = .controller r v → t = controllerWrite r v s

theorem envAct_effect {a : EnvAct} (hbus : ∀ w, a ≠ .bus w) (hreset : a ≠ .reset) (hrun : envAct a s = .next t) :
    EnvEffect a s t := by
  cases a with
  | bus w => exact absurd rfl (hbus w)
  | reset => exact absurd rfl hreset
  | setLy v =>
    cases hrun
    exact ⟨rfl, nofun, fun _ => rfl, fun id hf _ _ => readReg_of_fsb hf rfl rfl rfl, nofun⟩
  | setLineCycles v =>
    cases hrun
    exact ⟨rfl, nofun, fun _ => rfl, fun id hf _ _ => readReg_of_fsb hf rfl rfl rfl, nofun⟩
  | setLcdOn v =>
    cases hrun
    exact ⟨rfl, nofun, fun _ => rfl, fun id hf _ _ => readReg_of_fsb hf rfl rfl rfl, nofun⟩
  | done =>
    cases hrun
    exact ⟨rfl, fun _ => rfl, fun h => absurd rfl h, fun id hf _ _ => readReg_of_fsb hf rfl rfl rfl, nofun⟩
  | setReg id v =>
    obtain ⟨v', rfl, hid⟩ := envSetReg_eq hrun
    obtain ⟨h1, h2⟩ := writeReg_envOnly id v' s
    refine ⟨h1, nofun, fun _ => h2, fun id' hf hn _ => readReg_writeReg_other hf ?_ v' s, nofun⟩
    rintro rfl
    rcases hid with ⟨e, he, hid⟩ | hid
    · exact hn e he hid
    · exact Bool.noConfusion (hid.symm.trans hf)
  | poke r off b =>
    unfold envAct envPoke at hrun
    dsimp only at hrun
    split at hrun <;> cases hrun
    obtain ⟨h1, h2, h3⟩ := pokeRegion_envOnly r off b s
    exact ⟨h1, nofun, fun _ => h2, fun id hf _ _ => h3 id hf, nofun⟩
  | controller r v =>
    cases hrun
    obtain ⟨_, _, _, e⟩ := controllerWrite_eq r v s
    refine ⟨by rw [e]; rfl, nofun, fun _ => by rw [e], fun id _ _ hc => absurd rfl (hc r v), fun r' v' h => ?_⟩
    cases h
    rfl

theorem isFsb_of_ne {id : RegId} (h1 : id ≠ .rambank) (h2 : id ≠ .bootromOff) (h3 : ∀ k, id ≠ .ioreg k)
    (h4 : ∀ k, id ≠ .other k) : isFsb id = true := by
  cases id with
  | rambank => exact absurd rfl h1
  | bootromOff => exact absurd rfl h2
  | ioreg k => exact absurd rfl (h3 k)
  | other k => exact absurd rfl (h4 k)
  | _ => rfl

/-- Settles O48: by the action ENV or the memory-controller logic takes. -/
theorem envWritesOnlyWhatItMay : Obligations.EnvWritesOnlyWhatItMay := by
  intro s t hq hb hbus hreset hstep
  rw [step_of_inQuantum hq hb] at hstep
  have heff : EnvEffect (nextEnv s) (envTaken s) t := envAct_effect hbus hreset hstep
  obtain ⟨e, f, he⟩ : ∃ e f, envTaken s = { s with env := e, freeCount := f } := ⟨_, _, envTaken_eq s⟩
  rw [he] at heff ⊢
  obtain ⟨honly, hdone, hon, hfsb, hctl⟩ := heff
  refine ⟨honly, ⟨fun hd hr => ?_, fun hr => ?_⟩, hdone, fun id h1 h2 h3 h4 => hfsb id (isFsb_of_ne h1 h2 h3 h4), ?_⟩
  · have hrun := hq.2.2
    rw [← hr, hdone hd] at hrun
    cases hrun
  · by_contra hd
    exact hr (hon hd)
  · intro r v hc
    obtain ⟨latch, sel, regs, hw⟩ := controllerWrite_eq r v { s with env := e, freeCount := f }
    exact ⟨latch, sel, regs, rfl, (hctl r v hc).trans hw⟩

end Sys2Proof.Machine
end

section
/-! PROOFS. The frames stay coherent with the cartridge file (R56, R108): a fill that does not stop the block leaves the
bank's bytes of the file in its frame, and no other operation writes a frame whose bank stays resident. -/

namespace Sys2Proof.Machine

variable {s t u : State}

/-! ### What coherence rests on -/

/-- The cartridge file's bytes are those of the same file under the same name. -/
theorem romByte_congr (hf : t.files = s.files) (hc : t.cfg = s.cfg) (hi : t.cartFileId = s.cartFileId) (n off : Nat) :
    romByte t n off = romByte s n off := by
  simp only [romByte, memByte, fileNamed, hi, fileKey_eq_of_cfg hc, hf]

/-- `t` has the frames of `s`, with the same banks in them, and the same cartridge file open. -/
structure SameFrames (s t : State) : Prop where
  cfg : t.cfg = s.cfg
  fileId : t.cartFileId = s.cartFileId
  pool : t.pool = s.pool
  slot : t.slot = s.slot

theorem SameFrames.trans (h₁ : SameFrames s t) (h₂ : SameFrames t u) : SameFrames s u :=
  ⟨h₂.cfg.trans h₁.cfg, h₂.fileId.trans h₁.fileId, h₂.pool.trans h₁.pool, h₂.slot.trans h₁.slot⟩

theorem FramesCoherent.of_same (h : FramesCoherent s) (hs : SameFrames s t) (hf : t.files = s.files) :
    FramesCoherent t := by
  intro n f off hn ho
  unfold slotOf at hn
  unfold readFrame
  rw [hs.slot] at hn
  rw [romByte_congr hf hs.cfg hs.fileId, hs.pool]
  exact h n f off hn ho

/-- With no bank resident there is nothing to agree. -/
theorem FramesCoherent.of_no_resident (h : t.slot = []) : FramesCoherent t := by
  intro n f off hn
  unfold slotOf at hn
  rw [h] at hn
  cases hn

/-- What O59 says of a run from `s` to `t`: with no file written and the block not stopped, the frames are coherent. -/
def StaysCoherent (s t : State) : Prop := t.files = s.files → stopped t = false → FramesCoherent t

theorem SameFrames.staysCoherent (hs : SameFrames s t) (h : FramesCoherent s) : StaysCoherent s t :=
  fun hf _ => h.of_same hs hf

theorem StaysCoherent.of_stops (h : stopped t = true ∨ FramesCoherent t) : StaysCoherent s t := fun _ hs =>
  h.resolve_left (by simp [hs])

theorem StaysCoherent.ended (h : StaysCoherent s u) (r : Word) : StaysCoherent s (endWith r u) := by
  unfold endWith
  split
  · exact h
  · exact h

/-! ### A fill under any storage -/

/-- A fill whose seek or read did not succeed halts or hangs the block (R107, R210). -/
theorem stopped_fillFailed (f : Nat) (s : State) : stopped (fillFailed f s) = true := by
  unfold fillFailed
  rcases unlessStalled_cases (fun t => raiseFatal .storage (spoilFrame f t)) s with ⟨hst, e⟩ | ⟨-, e⟩ <;> rw [e]
  · exact stopped_eq_true.2 (.inr hst)
  · rfl

/-- A seek that answers leaves the handle at the offset. -/
theorem stSeek_sought {h : HandleName} {off : Nat} (hok : (stSeek h off s).1 = true) :
    ∃ hd, getHandle h s = some hd ∧ getHandle h (stSeek h off s).2 = some { hd with pos := off } := by
  unfold stSeek at hok ⊢
  cases hh : getHandle h s with
  | none => rw [hh] at hok; cases hok
  | some hd =>
    rw [hh] at hok
    dsimp only at hok ⊢
    split
    · rename_i hfail; rw [if_pos hfail] at hok; cases hok
    · exact ⟨hd, rfl, getHandle_setHandle h _ _⟩

/-- A read fails, or delivers the bytes from the handle's position on, zeros beyond the end of the file (R51, R106). -/
theorem stRead_bytes {h : HandleName} {n : Nat} {hd : Handle} (hf : FilesOk s) (hh : getHandle h s = some hd) :
    (stRead h n s).1 = .fail ∨
    ∃ b, ((stRead h n s).1 = .full b ∨ ∃ k, (stRead h n s).1 = .eof k b) ∧
      ∀ i, i < n → b.read i = (fileOf hd s).data.read (hd.pos + i) := by
  rcases stRead_answer h n s with e | ⟨hd', hh', e⟩
  · exact .inl e
  · obtain rfl : hd' = hd := Option.some.inj (hh'.symm.trans hh)
    rw [e]
    rcases readAt_byte (hf.fileOf hd') hd'.pos n with ⟨b, hb, -, hr⟩ | ⟨b, hb, -, hr⟩
    · exact .inr ⟨b, .inl hb, hr⟩
    · exact .inr ⟨b, .inr ⟨_, hb⟩, hr⟩

/-- The frame takes what the read delivered, or the block stops (R105 to R107). -/
theorem fillRead_pool {f : Nat} {r : ReadAnswer × State} {b : Memory} (h : r.1 = .full b ∨ ∃ k, r.1 = .eof k b) :
    (fillRead f r).pool = r.2.pool.splice (frameOffset f) romPage b := by
  obtain ⟨a, u⟩ := r
  rcases h with rfl | ⟨k, rfl⟩
  · rfl
  · rfl

theorem stopped_fillRead {f : Nat} {r : ReadAnswer × State} (h : r.1 = .fail) : stopped (fillRead f r) = true := by
  obtain ⟨a, u⟩ := r
  obtain rfl : a = .fail := h
  exact stopped_fillFailed f u

/-- The fill's read, from a handle at bank `n` of its file: the frame holds the bank, or the block stops. -/
theorem fillSought_filled {hd : Handle} {n f : Nat} (hf : FilesOk u) (hh : u.cartHandle = some hd)
    (hp : hd.pos = n * 16384) :
    stopped (fillSought f (true, u)) = true ∨ FilledPool u hd n f (fillSought f (true, u)).pool := by
  have hpool := (stRead_pool .cart romPage u).1
  show stopped (fillRead f (stRead .cart romPage u)) = true ∨
    FilledPool u hd n f (fillRead f (stRead .cart romPage u)).pool
  rcases stRead_bytes (n := romPage) hf (show getHandle .cart u = some hd from hh) with h | ⟨b, h, hb⟩
  · exact .inl (stopped_fillRead h)
  · right
    intro a
    rw [fillRead_pool h, hpool, Memory.read_splice]
    unfold frameOffset romPage
    split
    · rw [hb _ (by unfold romPage; omega), hp]; rfl
    · rfl

/-- A fill leaves the bank's bytes of the file in the frame, or stops the block. -/
theorem fill_filled {hd : Handle} (n f : Nat) (hf : FilesOk s) (hh : s.cartHandle = some hd) :
    stopped (fill n f s) = true ∨ FilledPool s hd n f (fill n f s).pool := by
  have hbank := stSeek_bank (romOffset n) (clearFrame f s)
  have hpool := (stSeek_pool .cart (romOffset n) (clearFrame f s)).1
  have hsought := stSeek_sought (h := .cart) (off := romOffset n) (s := clearFrame f s)
  unfold fill
  generalize stSeek .cart (romOffset n) (clearFrame f s) = r at hbank hpool hsought
  obtain ⟨b, u⟩ := r
  cases b with
  | false => exact .inl (stopped_fillFailed f u)
  | true =>
    obtain ⟨hd', hh', hu⟩ := hsought rfl
    obtain rfl : hd' = hd := Option.some.inj (hh'.symm.trans hh)
    have hfile : fileNamed u hd'.id = fileNamed s hd'.id := by
      unfold fileNamed
      rw [fileKey_eq_of_cfg hbank.cfg, hbank.files]
      rfl
    refine (fillSought_filled (n := n) (hf.of_files hbank.files) hu rfl).imp_right fun h a => ?_
    rw [h a, hpool]
    dsimp only
    rw [hfile]
    split
    · rfl
    · rename_i ha
      exact (Memory.read_clear _ _ _ _).trans (if_neg ha)

/-! ### LOAD_BANK under any storage -/

/-- `t` is `s` with frame `f` taken for bank `n`, not yet filled (R103, R104). -/
structure FrameTaken (n f : Nat) (s t : State) : Prop where
  bank : BankOnly s t
  pool : t.pool = s.pool
  handle : t.cartHandle = s.cartHandle
  ftag : ftagOf t f = some n
  slot : ∀ m g, slotOf t m = some g → g = f ∨ slotOf s m = some g

theorem chooseFrom_slotOf (d : Nat) (xs : List Nat) (s : State) (m : Nat) :
    slotOf (chooseFrom d xs s).2 m = slotOf s m := by
  unfold slotOf; rw [(chooseFrom_pool d xs s).2.1]

theorem chooseFrom_cartHandle (d : Nat) (xs : List Nat) (s : State) :
    (chooseFrom d xs s).2.cartHandle = s.cartHandle := by
  unfold chooseFrom; split <;> rfl

/-- A free frame taken (R103). -/
theorem frameTaken_fresh (n f d : Nat) (xs : List Nat) (s : State) :
    FrameTaken n f s (assign n f (chooseFrom d xs s).2) where
  bank := (chooseFrom_bank d xs s).trans (assign_bank n f _)
  pool := (chooseFrom_pool d xs s).1
  handle := chooseFrom_cartHandle d xs s
  ftag := by rw [ftagOf_assign, if_pos rfl]
  slot m g h := by
    rw [slotOf_assign, chooseFrom_slotOf] at h
    split at h
    · exact .inl (Option.some.inj h).symm
    · exact .inr h

/-- A donor's frame taken (R104). -/
theorem frameTaken_donor (n f e d : Nat) (xs : List Nat) (s : State) :
    FrameTaken n f s (assign n f (vacate e (chooseFrom d xs s).2)) where
  bank := ((chooseFrom_bank d xs s).trans (vacate_bank e _)).trans (assign_bank n f _)
  pool := (chooseFrom_pool d xs s).1
  handle := chooseFrom_cartHandle d xs s
  ftag := by rw [ftagOf_assign, if_pos rfl]
  slot m g h := by
    rw [slotOf_assign, slotOf_vacate, chooseFrom_slotOf] at h
    split at h
    · exact .inl (Option.some.inj h).symm
    · split at h
      · cases h
      · exact .inr h

/-- LOAD_BANK hits, fills a frame it has taken, or halts with no frame to take (R102 to R104). -/
theorem loadBank_cases (n : Nat) (s : State) :
    loadBank n s = s ∨ (∃ f t, FrameTaken n f s t ∧ loadBank n s = fill n f t) ∨ (loadBank n s).halted = true := by
  unfold loadBank
  split_ifs
  · exact .inl rfl
  · exact .inr (.inl ⟨_, _, frameTaken_fresh n _ 0 (freeFrames s) s, rfl⟩)
  · unfold loadEvicting transplant
    split
    · exact .inr (.inl ⟨_, _, frameTaken_donor n _ _ 0 (residents s) s, rfl⟩)
    · exact .inr (.inr rfl)
  · exact .inr (.inr rfl)

/-- The frames are coherent, with what the next fill needs: the tag array agrees, and the cartridge's handle is open. -/
structure Fillable (s : State) : Prop where
  frames : FramesCoherent s
  tags : TagsAgree s
  handle : CartHandleOpen s
  files : FilesOk s

/-- The fill of a frame taken for a bank makes that frame coherent and leaves the others so. -/
theorem FrameTaken.fill_coherent {n f : Nat} (h : FrameTaken n f s t) (hs : Fillable s) (ht : TagsAgree (fill n f t)) :
    stopped (fill n f t) = true ∨ FramesCoherent (fill n f t) := by
  obtain ⟨hd, hhd, hid⟩ := Option.map_eq_some_iff.1 hs.handle
  have hk := h.bank.trans (fill_bank n f t)
  obtain ⟨hslot, hftag⟩ := fill_tags n f t
  refine (fill_filled n f (hs.files.of_files h.bank.files) (h.handle.trans hhd)).imp_right fun hfill m g off hm ho => ?_
  have hg' := (ht.iff m g).1 hm
  rw [hfill.frame g off ho, romByte_congr hk.files hk.cfg hk.cartFileId]
  have hm' : slotOf t m = some g := by rw [← hm]; unfold slotOf; rw [hslot]
  by_cases hg : g = f
  · subst hg
    have hmn : m = n := by
      unfold ftagOf at hg'
      rw [hftag] at hg'
      exact Option.some.inj (hg'.symm.trans h.ftag)
    rw [if_pos rfl, hmn, hid, ← romByte_congr h.bank.files h.bank.cfg h.bank.cartFileId, ← h.bank.cartFileId]
    rfl
  · rw [if_neg hg]
    unfold readFrame
    rw [h.pool]
    exact hs.frames m g off ((h.slot m g hm').resolve_left hg) ho

/-- LOAD_BANK keeps the frames coherent, or stops the block (R108). -/
theorem loadBank_fillable {n : Nat} (h : Fillable s) (hr : n < s.cart.romsize) :
    stopped (loadBank n s) = true ∨ Fillable (loadBank n s) := by
  have hb := loadBank_bank n s
  have ht := loadBank_tags h.tags hr
  have hframes : stopped (loadBank n s) = true ∨ FramesCoherent (loadBank n s) := by
    rcases loadBank_cases n s with e | ⟨f, t, hft, e⟩ | e
    · rw [e]; exact .inr h.frames
    · rw [e] at ht ⊢; exact hft.fill_coherent h ht
    · exact .inl (stopped_eq_true.2 (.inl e))
  refine hframes.imp_right fun hf => ⟨hf, ht, ?_, h.files.of_files hb.files⟩
  unfold CartHandleOpen
  rw [loadBank_handle, hb.cartFileId]
  exact h.handle

theorem preloadFrom_coherent {n k : Nat} (h : Fillable s) (hr : n + k ≤ s.cart.romsize) :
    stopped (preloadFrom n k s) = true ∨ FramesCoherent (preloadFrom n k s) := by
  induction k generalizing n s with
  | zero => exact .inr h.frames
  | succ k ih =>
    unfold preloadFrom
    split
    · exact .inl (by assumption)
    · rcases loadBank_fillable (n := n) h (by omega) with hs | hs
      · left
        cases k with
        | zero => exact hs
        | succ k => rw [preloadFrom, if_pos hs]; exact hs
      · exact ih hs (by rw [(loadBank_bank n s).cart]; omega)

/-! ### The commands -/

/-- A loaded cartridge's frames can be filled where the block runs (R214). -/
theorem LegalState.fillable (h : LegalState s) (hs : stopped s = false) (hl : s.cart.loaded = true) (hf : FilesOk s)
    (hc : FramesCoherent s) : Fillable s := by
  obtain ⟨hh, hst⟩ := stopped_eq_false.1 hs
  obtain ⟨-, -, hopen, -⟩ := h.handles hh hst
  exact ⟨hc, h.tags.agree, hopen hl, hf⟩

/-- A command that ends from a state with the same frames. -/
theorem SameFrames.ended (h : SameFrames s u) (hc : FramesCoherent s) (r : Word) : StaysCoherent s (endWith r u) :=
  (h.staysCoherent hc).ended r

theorem SaveBody.sameFrames {key : Nat} (h : SaveBody key s t) : SameFrames s t := by
  obtain ⟨⟨_, _, _, _, _, _, _, _, rfl, -⟩, -⟩ := h
  exact ⟨rfl, rfl, rfl, rfl⟩

theorem RestoreBody.sameFrames (h : RestoreBody s t) : SameFrames s t := by
  obtain ⟨⟨_, _, _, _, _, _, _, _, _, rfl, -⟩, -⟩ := h
  exact ⟨rfl, rfl, rfl, rfl⟩

theorem SnapshotStep.sameFrames {key : Nat} (h : SnapshotStep key s t) : SameFrames s t := by
  obtain ⟨_, _, _, _, _, _, _, rfl, -⟩ := h
  exact ⟨rfl, rfl, rfl, rfl⟩

theorem BulkStep.sameFrames (h : BulkStep s t) : SameFrames s t := by
  obtain ⟨_, _, _, _, _, _, _, _, _, rfl, -⟩ := h
  exact ⟨rfl, rfl, rfl, rfl⟩

theorem CartStep.sameFrames (h : CartStep s t) : SameFrames s t := by
  obtain ⟨_, _, _, _, _, rfl, -⟩ := h
  exact ⟨rfl, rfl, rfl, rfl⟩

theorem stateRestored_sameFrames (u : State) : SameFrames u (stateRestored u) := by
  obtain ⟨_, _, _, _, _, _, _, _, _, _, e, -⟩ := stateRestored_frame u
  rw [e]
  exact ⟨rfl, rfl, rfl, rfl⟩

theorem OpEnd.staysCoherent {Step : State → State → Prop} (h : OpEnd Step s t) (hc : FramesCoherent s)
    (hs : ∀ u, Step s u → SameFrames s u) : StaysCoherent s t := by
  obtain ⟨u, r, rfl, hu, -⟩ := h
  exact (hs u hu).ended hc r

theorem stateLoadOp_coherent (id : Half) (hs : stopped s = false) (hc : FramesCoherent s) :
    StaysCoherent s (stateLoadOp id s) := by
  cases hl : s.cart.loaded with
  | false =>
    have e : stateLoadOp id s = raiseError .inval s := if_pos hl
    rw [e]
    exact SameFrames.staysCoherent ⟨rfl, rfl, rfl, rfl⟩ hc
  | true =>
    rcases stateLoadOp_ends id hs hl with ⟨u, e, hu, -⟩ | ⟨u, e, hu, -, -, -⟩ <;> rw [e]
    · exact hu.sameFrames.ended hc _
    · exact (hu.sameFrames.trans (stateRestored_sameFrames u)).staysCoherent hc

theorem Accepted.bankLoad_coherent (h : Accepted s) (hf : FilesOk s) (hc : FramesCoherent s) (n : Nat) :
    StaysCoherent s (bankLoadOp n s) := by
  unfold bankLoadOp
  split
  · exact SameFrames.staysCoherent ⟨rfl, rfl, rfl, rfl⟩ hc
  · rename_i hl
    split
    · exact SameFrames.staysCoherent ⟨rfl, rfl, rfl, rfl⟩ hc
    · have hfill := h.toLegalState.fillable h.running (by simpa using hl) hf hc
      exact (StaysCoherent.of_stops ((loadBank_fillable hfill (by omega)).imp_right Fillable.frames)).ended 0

theorem Accepted.preload_coherent (h : Accepted s) (hf : FilesOk s) (hc : FramesCoherent s) (k : Nat) :
    StaysCoherent s (preloadOp k s) := by
  unfold preloadOp
  split
  · exact SameFrames.staysCoherent ⟨rfl, rfl, rfl, rfl⟩ hc
  · rename_i hl
    obtain ⟨hl, hk⟩ := not_or.1 hl
    have hfill := h.toLegalState.fillable h.running (by simpa using hl) hf hc
    exact (StaysCoherent.of_stops (preloadFrom_coherent (n := 0) hfill (by omega))).ended 0

/-- CART_LOAD finds no bank resident, and fills from the file it has opened (R89, R90). -/
theorem Accepted.cartLoad_coherent (h : Accepted s) (hf : FilesOk s) (hc : FramesCoherent s) (id : Half) :
    StaysCoherent s (cartLoadOp id s) := by
  rcases cartLoadOp_ends id h.running with ⟨u, r, e, hu, -⟩ | ⟨b, n, u, hl, hn, hu, hid, e⟩ <;> rw [e]
  · exact hu.sameFrames.ended hc r
  · refine StaysCoherent.ended ?_ 0
    have hbody := h.committed hl hu hn hid
    obtain ⟨wn, es, ha, -⟩ := cartAnnounced_frame id (headerFields b) n u
    cases hst : stopped (cartAnnounced id (headerFields b) n u) with
    | true => exact .of_stops (.inl (by rw [preloadBody_of_stopped hst]; exact hst))
    | false =>
      obtain ⟨hh, hs⟩ := stopped_eq_false.1 h.running
      obtain ⟨-, -, -, hnone⟩ := h.handles hh hs
      obtain ⟨-, hslot, -⟩ := hnone hl
      have hslot' : (cartAnnounced id (headerFields b) n u).slot = [] := by
        rw [ha]; exact hu.sameFrames.slot.trans hslot
      have hfiles : FilesOk (cartAnnounced id (headerFields b) n u) := by
        obtain ⟨_, _, _, _, _, rfl, -⟩ := hu
        exact hf.of_files (by rw [ha]; rfl)
      have hload : (cartAnnounced id (headerFields b) n u).cart = cartOf u.cfg (headerFields b) n := by rw [ha]; rfl
      have hfill := hbody.legal.fillable hst (by rw [hload]; rfl) hfiles (.of_no_resident hslot')
      refine .of_stops (preloadFrom_coherent (n := 0) hfill ?_)
      rw [hload, Nat.zero_add]
      exact preloadCount_le u.cfg n (headerFields b).title

/-- CART_UNLOAD leaves no bank resident (R110). -/
theorem cartUnloadOp_slot (hs : s.stalled = false) : (cartUnloadOp s).slot = [] := by
  unfold cartUnloadOp
  split
  · obtain ⟨fc, ⟨-, e⟩ | ⟨-, e⟩⟩ := closeThen_cases (s := { s with slot := [], ftag := [], ramPages := 0, sram := [] })
      .cart cartFileClosed hs <;> rw [e]
    · rfl
  · rfl

theorem requestQuantum_sameFrames (n : Nat) (k : QKind) (s : State) : SameFrames s (requestQuantum n k s) := by
  rw [requestQuantum_eq]
  exact ⟨rfl, rfl, rfl, rfl⟩

theorem frameOp_sameFrames (draw : Bool) (s : State) : SameFrames s (frameOp draw s) := by
  unfold frameOp
  split
  · exact ⟨rfl, rfl, rfl, rfl⟩
  · exact SameFrames.trans (t := { s with renderEnable := draw, frameCycles := 0, phase := .p1 }) ⟨rfl, rfl, rfl, rfl⟩
      (requestQuantum_sameFrames _ _ _)

/-! ### Bus requests, and every operation -/

theorem LegalBlock.rd_coherent (h : LegalBlock s) (hq : s.inQuantum) (hf : FilesOk s) (hc : FramesCoherent s)
    (addr : Half) : StaysCoherent s (rdOp addr s) := by
  obtain ⟨hh, hst, hr⟩ := hq
  obtain ⟨-, h2, h3, -⟩ := h.scheduler
  obtain ⟨-, hl⟩ := h3 hh hst (h2 hr).1
  have hfill := h.toLegalState.fillable (stopped_eq_false.2 ⟨hh, hst⟩) hl hf hc
  unfold rdOp
  split
  · rename_i n off _
    unfold readRom
    split
    · exact SameFrames.staysCoherent ⟨rfl, rfl, rfl, rfl⟩ hc
    · have hb := loadBank_fillable (n := n) hfill (by omega)
      split
      · exact .of_stops (.inl (by assumption))
      · rename_i hrun
        refine .of_stops (.inr ?_)
        have hframes := (hb.resolve_left hrun).frames
        unfold driveRom
        split
        · exact hframes
        · exact hframes
  · unfold readXram
    split
    · exact SameFrames.staysCoherent ⟨rfl, rfl, rfl, rfl⟩ hc
    · exact SameFrames.staysCoherent ⟨rfl, rfl, rfl, rfl⟩ hc
  · exact SameFrames.staysCoherent ⟨rfl, rfl, rfl, rfl⟩ hc

theorem wrOp_sameFrames (addr : Half) (data : Byte) (s : State) : SameFrames s (wrOp addr data s) := by
  unfold wrOp writeXram
  split
  · exact ⟨rfl, rfl, rfl, rfl⟩
  · split
    · exact ⟨rfl, rfl, rfl, rfl⟩
    · exact ⟨rfl, rfl, rfl, rfl⟩
  · exact ⟨rfl, rfl, rfl, rfl⟩

/-- Every operation, however it ends. -/
theorem exec_coherent {i : Instr} (h : LegalBlock s) (hf : FilesOk s) (hc : FramesCoherent s)
    (hrun : exec i s = .next t) : StaysCoherent s t := by
  have hcmd : ∀ {op : State → State}, acceptCommand op s = .next t →
      (∀ {u : State}, Accepted u → FilesOk u → FramesCoherent u → StaysCoherent u (op u)) → StaysCoherent s t :=
    fun hr hop => by
      obtain ⟨hready, rfl⟩ := acceptCommand_next hr
      exact hop (h.accepted hready) hf hc
  have hbus : ∀ {op : State → State}, acceptBus op s = .next t →
      (∀ {u : State}, LegalBlock u → u.inQuantum → FilesOk u → FramesCoherent u → StaysCoherent u (op u)) →
      StaysCoherent s t := fun hr hop => by
    obtain ⟨hq, rfl⟩ := acceptBus_next hr
    exact hop h.undriven hq hf hc
  cases i with
  | cartLoad id => exact hcmd hrun fun hu hf hc => hu.cartLoad_coherent hf hc id
  | cartUnload =>
    exact hcmd hrun fun hu _ _ _ _ => .of_no_resident (cartUnloadOp_slot (stopped_eq_false.1 hu.running).2)
  | bankLoad n => exact hcmd hrun fun hu hf hc => hu.bankLoad_coherent hf hc n
  | preload k => exact hcmd hrun fun hu hf hc => hu.preload_coherent hf hc k
  | sramSave id quick =>
    exact hcmd hrun fun hu _ hc => (sramSaveOp_ends id quick hu.running).staysCoherent hc fun _ h => h.sameFrames
  | sramLoad id =>
    exact hcmd hrun fun hu _ hc => (sramLoadOp_ends id hu.running).staysCoherent hc fun _ h => h.sameFrames
  | stateSave id =>
    exact hcmd hrun fun hu _ hc => (stateSaveOp_ends id hu.running).staysCoherent hc fun _ h => h.sameFrames
  | stateLoad id => exact hcmd hrun fun hu _ hc => stateLoadOp_coherent id hu.running hc
  | frame draw => exact hcmd hrun fun _ _ hc => (frameOp_sameFrames draw _).staysCoherent hc
  | rtcGet => exact hcmd hrun fun _ _ hc => SameFrames.staysCoherent ⟨rfl, rfl, rfl, rfl⟩ hc
  | rtcSet => exact hcmd hrun fun _ _ hc => SameFrames.staysCoherent ⟨rfl, rfl, rfl, rfl⟩ hc
  | rd addr => exact hbus hrun fun hu hq hf hc => hu.rd_coherent hq hf hc addr
  | wr addr data => exact hbus hrun fun _ _ _ hc => (wrOp_sameFrames addr data _).staysCoherent hc
  | selrom v =>
    exact hbus (op := fun t => { t with rombank := v }) hrun fun _ _ _ hc =>
      SameFrames.staysCoherent ⟨rfl, rfl, rfl, rfl⟩ hc
  | selram v =>
    exact hbus (op := fun t => { t with rambank := v }) hrun fun _ _ _ hc =>
      SameFrames.staysCoherent ⟨rfl, rfl, rfl, rfl⟩ hc

/-! ### The agents, and every step -/

theorem envTaken_sameFrames (s : State) : SameFrames s (envTaken s) := by
  rw [envTaken_eq]
  exact ⟨rfl, rfl, rfl, rfl⟩

theorem envTaken_files (s : State) : (envTaken s).files = s.files := by rw [envTaken_eq]

theorem EnvOnly.sameFrames (h : EnvOnly s t) : SameFrames s t := by
  rw [h]
  exact ⟨rfl, rfl, rfl, rfl⟩

theorem schedule_sameFrames (hrun : schedule s = .next t) : SameFrames s t := by
  unfold schedule at hrun
  split at hrun
  case h_1 => cases hrun
  case h_2 => cases hrun; exact ⟨rfl, rfl, rfl, rfl⟩
  case h_3 =>
    split at hrun <;> cases hrun
    · exact requestQuantum_sameFrames _ _ s
    · exact ⟨rfl, rfl, rfl, rfl⟩
  case h_4 =>
    split at hrun <;> cases hrun
    · exact ⟨rfl, rfl, rfl, rfl⟩
    · exact SameFrames.trans (t := { s with phase := .p4s }) ⟨rfl, rfl, rfl, rfl⟩ (requestQuantum_sameFrames _ _ _)
  case h_5 => cases hrun; exact ⟨rfl, rfl, rfl, rfl⟩
  case h_6 =>
    split at hrun <;> cases hrun
    · exact requestQuantum_sameFrames _ _ s
    · exact ⟨rfl, rfl, rfl, rfl⟩

theorem step_coherent (h : LegalBlock s) (hf : FilesOk s) (hc : FramesCoherent s) (hstep : step s = .next t) :
    StaysCoherent s t := by
  have he : FramesCoherent (envTaken s) := hc.of_same (envTaken_sameFrames s) (envTaken_files s)
  have hef : FilesOk (envTaken s) := hf.of_files (envTaken_files s)
  cases step_cases hstep with
  | stays ht => rw [ht]; exact fun _ _ => hc
  | resets u _ _ ht => rw [ht]; exact fun _ _ => .of_no_resident rfl
  | abandons w k rest an u _ ht => rw [ht]; exact fun _ _ => .of_no_resident rfl
  | command w rest i _ _ hrun =>
    exact exec_coherent (s := { s with host := rest, cw := w }) (h.presented rest w s.answers) hf hc hrun
  | reserved w rest _ ht => rw [ht]; exact SameFrames.staysCoherent ⟨rfl, rfl, rfl, rfl⟩ hc
  | window rest xd _ ht => rw [ht]; exact SameFrames.staysCoherent ⟨rfl, rfl, rfl, rfl⟩ hc
  | bus w i _ _ _ hrun =>
    exact fun hfiles => exec_coherent h.envTaken hef he hrun (hfiles.trans (envTaken_files s).symm)
  | busReserved _ _ ht =>
    rw [ht]
    exact SameFrames.staysCoherent ((envTaken_sameFrames s).trans
      (u := raiseFatal .range { envTaken s with rdata := none }) ⟨rfl, rfl, rfl, rfl⟩) hc
  | env _ _ hbus hreset hrun =>
    exact ((envTaken_sameFrames s).trans (envAct_effect hbus hreset hrun).only.sameFrames).staysCoherent hc
  | schedules hs _ _ _ _ hrun =>
    exact SameFrames.staysCoherent (SameFrames.trans (t := { s with host := hs }) ⟨rfl, rfl, rfl, rfl⟩
      (schedule_sameFrames hrun)) hc

/-- Settles O59: by the agent that acts; of the operations only a fill writes a frame, and it leaves the bank's bytes. -/
theorem framesStayCoherent : Obligations.FramesStayCoherent := by
  intro s t h hm hc hstep hfiles hh hst
  exact step_coherent h.legal hm.filesOk hc hstep hfiles (stopped_eq_false.2 ⟨hh, hst⟩)

end Sys2Proof.Machine
end

section
/-! PROOFS. What the persistence commands leave unchanged, however they end (R53, R120 to R132, R140 to R156, R210). -/

namespace Sys2Proof.Machine

variable {s t u : State}

/-- A command that cannot halt leaves `busy` set exactly where it hangs (R9, R210). -/
theorem endWith_of_running (r : Word) (hb : u.busy = true) (hh : u.halted = false) :
    endWith r u = { u with result := if u.stalled then u.result else r, busy := u.stalled } := by
  rw [endWith_eq hb, stopped, hh, Bool.false_or]

/-- Files with other keys are files that other identifiers name. -/
theorem OtherFilesKept.of_keys {id : Half} (hc : t.cfg = s.cfg)
    (h : ∀ k, k ≠ fileKey s id → Tab.get? t.files k = Tab.get? s.files k) : OtherFilesKept id s t := by
  intro id' hne
  unfold fileNamed
  rw [fileKey_eq_of_cfg hc, h _ hne]

theorem SaveStep.busy {key : Nat} (h : SaveStep key s t) : t.busy = s.busy := by
  obtain ⟨_, _, _, _, _, _, _, _, rfl, -⟩ := h; rfl

theorem LoadStep.busy (h : LoadStep s t) : t.busy = s.busy := by
  obtain ⟨_, _, _, _, _, _, _, _, rfl, -⟩ := h; rfl

theorem OpStep.busy {key : Nat} (h : OpStep key s t) : t.busy = s.busy := by
  obtain ⟨_, _, _, _, _, _, rfl, -⟩ := h; rfl

/-- SRAM_SAVE writes the per-bank bits and its own file. -/
theorem sramSave_frame {id : Half} {quick : Bool} (hrun : exec (.sramSave id quick) s = .next t) :
    t = { s with
      result := t.result, busy := t.stalled, stalled := t.stalled, sramDirty := t.sramDirty,
      sramSaved := t.sramSaved, files := t.files, trace := t.trace, answers := t.answers, opHandle := t.opHandle,
      freeCount := t.freeCount } ∧
    OtherFilesKept id s t ∧ OnlyStorageSince s t := by
  obtain ⟨⟨-, hh, hst⟩, rfl⟩ := acceptCommand_next hrun
  obtain ⟨u, r, e, ⟨hu, -⟩, -⟩ :=
    sramSaveOp_ends (s := { s with busy := true }) id quick (stopped_eq_false.2 ⟨hh, hst⟩)
  rw [e, endWith_of_running r hu.busy (hu.halted.trans hh)]
  obtain ⟨_, _, es, _, _, _, _, _, rfl, he, hk⟩ := hu
  exact ⟨rfl, .of_keys rfl hk, es, rfl, he⟩

/-- SRAM_LOAD writes the per-bank bits, the battery RAM and the clock. -/
theorem sramLoad_frame {id : Half} (hrun : exec (.sramLoad id) s = .next t) :
    t = { s with
      result := t.result, busy := t.stalled, stalled := t.stalled, sramDirty := t.sramDirty,
      sramSaved := t.sramSaved, sram := t.sram, rtc := t.rtc, trace := t.trace, answers := t.answers,
      opHandle := t.opHandle, freeCount := t.freeCount } ∧
    OnlyStorageSince s t := by
  obtain ⟨⟨-, hh, hst⟩, rfl⟩ := acceptCommand_next hrun
  obtain ⟨u, r, e, ⟨⟨d, hu⟩, -⟩, -⟩ :=
    sramLoadOp_ends (s := { s with busy := true }) id (stopped_eq_false.2 ⟨hh, hst⟩)
  rw [e, endWith_of_running r hu.busy (hu.halted.trans hh)]
  obtain ⟨_, _, _, es, _, _, _, _, rfl, he⟩ := hu
  exact ⟨rfl, es, rfl, he⟩

/-- STATE_SAVE writes the scratch `hdr` and its own file. -/
theorem stateSave_frame {id : Half} (hrun : exec (.stateSave id) s = .next t) :
    t = { s with
      result := t.result, busy := t.stalled, stalled := t.stalled, hdr := t.hdr, files := t.files, trace := t.trace,
      answers := t.answers, opHandle := t.opHandle, freeCount := t.freeCount } ∧
    OtherFilesKept id s t ∧ OnlyStorageSince s t := by
  obtain ⟨⟨-, hh, hst⟩, rfl⟩ := acceptCommand_next hrun
  obtain ⟨u, r, e, ⟨_, hu⟩, -⟩ :=
    stateSaveOp_ends (s := { s with busy := true }) id (stopped_eq_false.2 ⟨hh, hst⟩)
  rw [e, endWith_of_running r hu.busy (hu.halted.trans hh)]
  obtain ⟨es, _, _, _, _, _, rfl, he, hk⟩ := hu
  exact ⟨rfl, .of_keys rfl hk, es, rfl, he⟩

/-- What STATE_LOAD can change (R147 to R156). -/
def LoadFrame (s t : State) : Prop :=
  t = { s with
    result := t.result, busy := t.stalled, stalled := t.stalled, wram := t.wram, vram := t.vram, sram := t.sram,
    wave := t.wave, ioregs := t.ioregs, pal := t.pal, oam := t.oam, hdr := t.hdr,
    loadedVersion := t.loadedVersion, rambank := t.rambank, rombank := t.rombank, rtc := t.rtc,
    rtcTicks := t.rtcTicks, mreg := t.mreg, bootromDisable := t.bootromDisable, warn := t.warn, trace := t.trace,
    answers := t.answers, opHandle := t.opHandle, freeCount := t.freeCount }

/-- A STATE_LOAD that stops before the registers. -/
theorem LoadFrame.of_stopped (hs : s.ready) (hu : BulkStep { s with busy := true } u) (r : Word) :
    LoadFrame s (endWith r u) := by
  rw [endWith_of_running r hu.frame.2.1 (hu.halted.trans hs.2.1)]
  obtain ⟨_, _, _, _, _, _, _, _, _, rfl, -⟩ := hu
  rfl

/-- A STATE_LOAD that restores the machine. -/
theorem LoadFrame.of_restored (hu : BulkStep { s with busy := true } u) (hst : u.stalled = false) :
    LoadFrame s (stateRestored u) := by
  obtain ⟨_, _, _, _, _, _, _, _, _, _, e, -⟩ := stateRestored_frame u
  rw [e]
  obtain ⟨_, _, _, _, _, _, _, _, _, rfl, -⟩ := hu
  obtain rfl : _ = false := hst
  rfl

theorem stateLoad_frame {id : Half} (hrun : exec (.stateLoad id) s = .next t) : LoadFrame s t := by
  obtain ⟨hs, rfl⟩ := acceptCommand_next hrun
  have hrunning : stopped { s with busy := true } = false := stopped_eq_false.2 hs.2
  cases hl : s.cart.loaded with
  | false =>
    have e : stateLoadOp id { s with busy := true } = raiseError .inval { s with busy := true } := if_pos hl
    rw [e, raiseError_end _ hrunning]
    exact .of_stopped hs ((OpStep.refl 0 _).bulk rfl) _
  | true =>
    rcases stateLoadOp_ends id hrunning hl with ⟨u, e, hu, -⟩ | ⟨u, e, hu, hst, -, -⟩ <;> rw [e]
    · exact .of_stopped hs hu _
    · exact .of_restored hu hst

/-- Settles O53: from what the body of each command can change, and how it ends. -/
theorem persistenceCommandsKeepTheRest : Obligations.PersistenceCommandsKeepTheRest := fun _ _ _ =>
  ⟨fun _ => sramSave_frame, sramLoad_frame, stateSave_frame, stateLoad_frame⟩

end Sys2Proof.Machine
end

section
/-! PROOFS. What SRAM_SAVE's loop makes of each bank, whatever storage answers: its two bits, and its region of the file
(R53, R121 to R123, R210). -/

namespace Sys2Proof.Machine

variable {s t u : State} {key i j : Nat}

/-! ### One bank's bits and its region of the file -/

/-- Bank `j` has the dirty and the saved bit it had. -/
def SameBits (j : Nat) (s t : State) : Prop :=
  bitOf t.sramDirty j = bitOf s.sramDirty j ∧ bitOf t.sramSaved j = bitOf s.sramSaved j

theorem SameBits.trans (h₁ : SameBits j s t) (h₂ : SameBits j t u) : SameBits j s u :=
  ⟨h₂.1.trans h₁.1, h₂.2.trans h₁.2⟩

theorem SameBits.needsSave (h : SameBits j s t) : needsSave t j = needsSave s j := by
  unfold Machine.needsSave; rw [h.1, h.2]

theorem OpStep.sameBits (h : OpStep key s t) (j : Nat) : SameBits j s t := by
  unfold SameBits; rw [h.masks.1, h.masks.2]; exact ⟨rfl, rfl⟩

/-- The file's region for bank `j` holds the bytes it held. -/
def RegionKept (key j : Nat) (s t : State) : Prop :=
  ∀ off, off < 8192 → (fileAt key t).data.read (j * 8192 + off) = (fileAt key s).data.read (j * 8192 + off)

/-- The file's region for bank `j` holds the bank's bytes of the battery RAM. -/
def RegionCurrent (key j : Nat) (s : State) : Prop :=
  ∀ off, off < 8192 → (fileAt key s).data.read (j * 8192 + off) = s.sram.read (j * 8192 + off)

/-- A save left bank `j` alone, as yet. -/
structure BankKept (key j : Nat) (s t : State) : Prop where
  bits : SameBits j s t
  sram : t.sram = s.sram
  region : RegionKept key j s t

theorem BankKept.refl (key j : Nat) (s : State) : BankKept key j s s := ⟨⟨rfl, rfl⟩, rfl, fun _ _ => rfl⟩

theorem BankKept.trans (h₁ : BankKept key j s t) (h₂ : BankKept key j t u) : BankKept key j s u :=
  ⟨h₁.bits.trans h₂.bits, h₂.sram.trans h₁.sram, fun off ho => (h₂.region off ho).trans (h₁.region off ho)⟩

theorem OpStep.bankKept (h : OpStep key s t) (hr : RegionKept key j s t) : BankKept key j s t :=
  ⟨h.sameBits j, h.sram, hr⟩

/-- Primitives that write no file keep every bank. -/
theorem OpStep.bankKept_of_files (h : OpStep key s t) (hf : t.files = s.files) : BankKept key j s t :=
  h.bankKept fun _ _ => by rw [fileAt_of_files hf]

/-- What a save can make of bank `j` (R123): written, where it needed it, or its bits as they were; a bank that did not
need it keeps its region too. -/
structure SaveOutcome (key j : Nat) (s t : State) : Prop where
  bits : (needsSave s j = true ∧ bitOf t.sramDirty j = false ∧ bitOf t.sramSaved j = true ∧ RegionCurrent key j t) ∨
    SameBits j s t
  unneeded : needsSave s j = false → BankKept key j s t

theorem BankKept.outcome (h : BankKept key j s t) : SaveOutcome key j s t := ⟨.inr h.bits, fun _ => h⟩

theorem SaveOutcome.then_kept (h₁ : SaveOutcome key j s t) (h₂ : BankKept key j t u) : SaveOutcome key j s u where
  bits := by
    rcases h₁.bits with ⟨hn, hd, hv, hr⟩ | h
    · exact .inl ⟨hn, h₂.bits.1.trans hd, h₂.bits.2.trans hv, fun off ho => by
        rw [h₂.region off ho, h₂.sram]; exact hr off ho⟩
    · exact .inr (h.trans h₂.bits)
  unneeded hn := (h₁.unneeded hn).trans h₂

/-- The state compared with can be an earlier one, that has the bank's bits and, where it was not to be saved, its
region. -/
theorem SaveOutcome.of_start (h : SaveOutcome key j t u) (hb : SameBits j s t)
    (hk : needsSave s j = false → BankKept key j s t) : SaveOutcome key j s u where
  bits := by
    rcases h.bits with ⟨hn, hw⟩ | h
    · exact .inl ⟨hb.needsSave ▸ hn, hw⟩
    · exact .inr (hb.trans h)
  unneeded hn := (hk hn).trans (h.unneeded (hb.needsSave.trans hn))

theorem SaveOutcome.after_kept (h : SaveOutcome key j t u) (hk : BankKept key j s t) : SaveOutcome key j s u :=
  h.of_start hk.bits fun _ => hk

/-! ### The loop -/

/-- A seek and a write beside a bank's region keep the bank. -/
theorem seekWrite_bankKept (h : HandleOn key s) (hf : FilesOk s) {off n : Nat} {b : Memory} (hb : b.wf)
    (hout : (j + 1) * 8192 ≤ off ∨ off + n ≤ j * 8192) : BankKept key j s (seekWrite off n b s).2 :=
  (seekWrite_step h off n b).bankKept fun o ho => (seekWrite_file h hf off n hb).2.1 _ (by omega)

/-- A skipped bank leaves every other bank's region. -/
theorem skipBank_bankKept (h : HandleOn key s) (hf : FilesOk s) (hj : j ≠ i) :
    BankKept key j s (unlessStalled (spoilRegion i) s) := by
  obtain ⟨h1, -, h3⟩ := skipBank_law (i := i) h
  refine h1.bankKept fun off ho => (h3 hf).2.1 _ ?_
  show j * 8192 + off < i * 8192 ∨ i * 8192 + 8192 ≤ j * 8192 + off
  omega

theorem markWritten_bankKept (hj : j ≠ i) : BankKept key j s (markWritten i s) where
  bits := by
    refine ⟨(bitOf_clearBit s.sramDirty i j).trans ?_, (bitOf_setBit s.sramSaved i j).trans ?_⟩ <;> simp [hj]
  sram := rfl
  region _ _ := rfl

/-- A bank just written is clean, saved, and in the file (R123). -/
theorem saveBank_written (h : HandleOn key s) (hf : FilesOk s) (hs : s.sram.wf) (hi : i < 32)
    (hn : needsSave s i = true) (hw : (seekWrite (ramOffset i) ramPage (ramBank s i) s).1 = true) :
    SaveOutcome key i s (markWritten i (seekWrite (ramOffset i) ramPage (ramBank s i) s).2) where
  bits := by
    refine .inl ⟨hn, (bitOf_clearBit _ i i).trans (by simp), (bitOf_setBit _ i i).trans (by simp [hi]), fun off ho => ?_⟩
    obtain ⟨-, -, hfile, -⟩ := seekWrite_file h hf (ramOffset i) ramPage (b := ramBank s i) (Memory.wf_slice hs _ _)
    refine ((hfile hw).2 off ho).trans ?_
    rw [markWritten_sram, (seekWrite_step h (ramOffset i) ramPage (ramBank s i)).sram]
    exact (Memory.read_slice _ _ _ _).trans (if_pos ho)
  unneeded hk := Bool.noConfusion (hn.symm.trans hk)

/-- One bank of the save loop (R123), from a state whose files and battery RAM are in canonical form. -/
theorem saveBank_outcome (h : HandleOn key s) (hf : FilesOk s) (hs : s.sram.wf) (hi : i < 32) :
    (∀ j, j ≠ i → BankKept key j s (saveBank i s)) ∧ SaveOutcome key i s (saveBank i s) ∧ FilesOk (saveBank i s) := by
  unfold saveBank
  split
  · rename_i hn
    have hb : (ramBank s i).wf := Memory.wf_slice hs _ _
    have hstep := seekWrite_step h (ramOffset i) ramPage (ramBank s i)
    have hid := seekWrite_opHandle (ramOffset i) ramPage (ramBank s i) s
    obtain ⟨-, -, -, hf'⟩ := seekWrite_file h hf (ramOffset i) ramPage hb
    have hkept : ∀ j, j ≠ i → BankKept key j s (seekWrite (ramOffset i) ramPage (ramBank s i) s).2 := fun j hj =>
      seekWrite_bankKept h hf hb (by show (j + 1) * 8192 ≤ i * 8192 ∨ i * 8192 + 8192 ≤ j * 8192; omega)
    have hwritten := saveBank_written h hf hs hi hn
    generalize seekWrite (ramOffset i) ramPage (ramBank s i) s = r at hstep hid hf' hkept hwritten
    obtain ⟨b, w⟩ := r
    cases b with
    | true => exact ⟨fun j hj => (hkept j hj).trans (markWritten_bankKept hj), hwritten rfl, hf'⟩
    | false =>
      have hon : HandleOn key w := h.of_id hstep.cfg hid
      obtain ⟨h1, -, h3⟩ := skipBank_law (i := i) hon
      refine ⟨fun j hj => (hkept j hj).trans (skipBank_bankKept hon hf' hj), ⟨.inr ?_, fun hk => ?_⟩, (h3 hf').2.2⟩
      · exact (hstep.trans h1).sameBits i
      · exact Bool.noConfusion (hn.symm.trans hk)
  · exact ⟨fun j _ => .refl key j s, (BankKept.refl key i s).outcome, hf⟩

/-- The save loop over the banks from `i` on (R123, R210). -/
theorem saveBanks_outcome (k : Nat) (h : HandleOn key s) (hf : FilesOk s) (hs : s.sram.wf) (hi : i + k ≤ 32) :
    (∀ j, j < i ∨ i + k ≤ j → BankKept key j s (saveBanks i k s)) ∧
    (∀ j, i ≤ j → j < i + k → SaveOutcome key j s (saveBanks i k s)) ∧ FilesOk (saveBanks i k s) := by
  induction k generalizing i s with
  | zero => exact ⟨fun j _ => .refl key j s, fun j h1 h2 => absurd h2 (by omega), hf⟩
  | succ k ih =>
    cases hst : s.stalled with
    | true =>
      rw [saveBanks_stalled hst]
      exact ⟨fun j _ => .refl key j s, fun j _ _ => (BankKept.refl key j s).outcome, hf⟩
    | false =>
      rw [saveBanks_succ hst]
      obtain ⟨hbody, hid, -⟩ := saveBank_law (i := i) h (by omega)
      obtain ⟨hothers, hbank, hf'⟩ := saveBank_outcome (i := i) h hf hs (by omega)
      obtain ⟨hcfg, -, hsram, -⟩ := hbody.rest
      obtain ⟨hout, hin, hf''⟩ := ih (i := i + 1) (h.of_id hcfg hid) hf' (hsram ▸ hs) (by omega)
      refine ⟨fun j hj => (hothers j (by omega)).trans (hout j (by omega)), fun j h1 h2 => ?_, hf''⟩
      by_cases hj : j = i
      · subst hj; exact hbank.then_kept (hout j (by omega))
      · exact (hin j (by omega) (by omega)).after_kept (hothers j hj)

/-- The clock record (R124): it keeps the cartridge's banks, and where its write answers it is in the file. -/
theorem saveClock_law (h : HandleOn key s) (hf : FilesOk s) :
    (∀ j, j < s.cart.ramsize → BankKept key j s (saveClock s).2) ∧
    ((saveClock s).1 = true → s.cart.hasRtc = true →
      ClockRecordAt (fileAt key (saveClock s).2).data (s.cart.ramsize * 8192) s.cfg.rtcEpoch s.rtc) := by
  have hb := Memory.wf_ofBytes (rtcRecord s.cfg.rtcEpoch s.rtc)
  unfold saveClock
  split_ifs with hst hr
  · exact ⟨fun j _ => .refl key j s, fun h => (nomatch h)⟩
  · obtain ⟨-, -, hfile, -⟩ := seekWrite_file h hf (ramOffset s.cart.ramsize) rtcRecSize hb
    refine ⟨fun j hj => seekWrite_bankKept h hf hb (.inl ?_), fun hok _ => clockRecordAt_of (hfile hok).2⟩
    show (j + 1) * 8192 ≤ s.cart.ramsize * 8192
    omega
  · exact ⟨fun j _ => .refl key j s, fun _ h => absurd h hr⟩

/-- Without a clock the save goes on, unless it hangs already. -/
theorem saveClock_of_no_clock (hs : s.stalled = false) (hr : s.cart.hasRtc = false) : saveClock s = (true, s) := by
  simp [saveClock, hs, hr]

theorem saveClock_of_stalled (hs : s.stalled = true) : saveClock s = (false, s) := by simp [saveClock, hs]

end Sys2Proof.Machine
end

section
/-! PROOFS. How SRAM_SAVE ends, whatever storage answers (R53, R121 to R126, R210). -/

namespace Sys2Proof.Machine

variable {s t u m : State} {key : Nat} {id : Half} {quick : Bool}

/-! ### The open -/

/-- An open that does not answer changes no file (log entry 10). -/
theorem stOpen_failed_files {h : HandleName} {mode : Mode} (hn : (stOpen h id mode s).1 = false) :
    (stOpen h id mode s).2.files = s.files := by
  unfold stOpen at hn ⊢
  split
  · exact answerTaken_files _
  · rename_i hc; rw [if_neg hc] at hn; cases hn

/-- Opening a file to update it keeps its bytes (R51). -/
theorem stOpen_update_fileAt (id : Half) (s : State) :
    fileAt (fileKey s id) (stOpen .op id .writeUpdate s).2 = fileAt (fileKey s id) s := by
  have hi := issued_step (key := fileKey s id) (.stOpen .op id .writeUpdate) rfl s
  have hf : (answerTaken (emit (.stOpen .op id .writeUpdate) s)).files = s.files := answerTaken_files _
  unfold stOpen openedFiles
  split
  · exact fileAt_of_files hf _
  · dsimp only
    rw [hi.key id, hf]
    split
    · exact fileAt_of_files hf _
    · rename_i hnone
      have hnone : Tab.get? s.files (fileKey s id) = none := by simpa using hnone
      unfold fileAt
      show (Tab.get? (Tab.set _ (fileKey _ id) _) (fileKey s id)).getD _ = _
      rw [hi.key id, Tab.get?_set, if_pos rfl, hnone]
      rfl

/-- A save never needs its file to be there (R51, R122). -/
theorem missing_saveMode (id : Half) (quick : Bool) (s : State) : missing id (saveMode quick) s = false := by
  cases quick <;> rfl

/-! ### The end -/

/-- The end of a save that hangs, or closes its file and gives its code (R126, R210). -/
theorem saveEnded_cases (ok : Bool) (hh : u.halted = false) :
    (u.stalled = true ∧ saveEnded (ok, u) = u) ∨
    (u.stalled = false ∧ saveEnded (ok, u) = endWith (saveCode ok (stClose .op u)) (stClose .op u)) := by
  rcases unlessStalled_cases (closeThen .op (saveResult ok)) u with ⟨hst, e⟩ | ⟨hst, e⟩
  · exact .inl ⟨hst, e⟩
  · exact .inr ⟨hst, e.trans (closeThen_end hh fun v hv => saveResult_end ok hv)⟩

theorem saveCode_eq_zero {ok : Bool} : saveCode ok s = 0 ↔ s.sramDirty = 0 ∧ ok = true := by
  unfold saveCode
  split
  · rename_i h
    refine ⟨fun hz => absurd hz (by decide), fun ⟨hd, hok⟩ => ?_⟩
    rcases h with h | h
    · exact absurd hd h
    · exact Bool.noConfusion (hok.symm.trans h)
  · rename_i h
    obtain ⟨hd, hok⟩ := not_or.1 h
    exact ⟨fun _ => ⟨by simpa using hd, by simpa using hok⟩, fun _ => rfl⟩

theorem saveCode_cases (ok : Bool) (s : State) : saveCode ok s = 0 ∨ saveCode ok s = 0xFFFFFFFE := by
  unfold saveCode
  split
  · exact .inr rfl
  · exact .inl rfl

/-- The code rests on the dirty bits alone. -/
theorem saveCode_endWith (ok : Bool) (r : Word) (u : State) : saveCode ok (endWith r u) = saveCode ok u := by
  unfold saveCode endWith; split <;> rfl

/-- A command that did not stop shows its code. -/
theorem endWith_result (r : Word) (h : stopped (endWith r u) = false) : (endWith r u).result = r := by
  unfold endWith at h ⊢
  split
  · rename_i hs; rw [if_pos hs, hs] at h; cases h
  · rfl

theorem BankKept.ended {j : Nat} (r : Word) (u : State) : BankKept key j u (endWith r u) := by
  unfold endWith
  split
  · exact .refl key j u
  · exact ⟨⟨rfl, rfl⟩, rfl, fun _ _ => rfl⟩

theorem endWith_halted (r : Word) (u : State) : (endWith r u).halted = u.halted := by
  unfold endWith; split <;> rfl

theorem endWith_files (r : Word) (u : State) : (endWith r u).files = u.files := by
  unfold endWith; split <;> rfl

/-- A save that ends shows what the dirty bits and the clock's write have come to (R126). -/
theorem saveEnded_result {ok : Bool} (hh : u.halted = false) (hst : (saveEnded (ok, u)).stalled = false) :
    (saveEnded (ok, u)).result = saveCode ok (saveEnded (ok, u)) := by
  rcases saveEnded_cases ok hh with ⟨hs, e⟩ | ⟨-, e⟩ <;> rw [e] at hst ⊢
  · exact Bool.noConfusion (hs.symm.trans hst)
  · rw [saveCode_endWith]
    refine endWith_result _ (stopped_eq_false.2 ⟨?_, hst⟩)
    rw [endWith_halted, stClose_halted, hh]

/-- The end of a save touches no bank and no file. -/
theorem saveEnded_kept {ok : Bool} (hh : u.halted = false) :
    (∀ j, BankKept key j u (saveEnded (ok, u))) ∧ (saveEnded (ok, u)).files = u.files := by
  rcases saveEnded_cases ok hh with ⟨-, e⟩ | ⟨-, e⟩ <;> rw [e]
  · exact ⟨fun j => .refl key j u, rfl⟩
  · exact ⟨fun j => ((close_step u).bankKept_of_files (stClose_files .op u)).trans (.ended _ _),
      (endWith_files _ _).trans (stClose_files .op u)⟩

/-- How a save ends, from the state in which its banks are marked (R121 to R126). -/
structure SaveEnd (key : Nat) (s t : State) : Prop where
  bank : ∀ j, j < s.cart.ramsize → SaveOutcome key j s t
  beyond : ∀ j, s.cart.ramsize ≤ j → SameBits j s t
  code : t.stalled = false → t.result = 0 ∨ t.result = 0xFFFFFFFE
  clean : t.stalled = false → t.result = 0 → t.sramDirty = 0
  clock : t.stalled = false → t.result = 0 → s.cart.hasRtc = true →
    ClockRecordAt (fileAt key t).data (s.cart.ramsize * 8192) s.cfg.rtcEpoch s.rtc

/-- A save that hangs has no code to show. -/
theorem SaveEnd.of_stalled (hst : t.stalled = true) (hbank : ∀ j, j < s.cart.ramsize → SaveOutcome key j s t)
    (hbeyond : ∀ j, s.cart.ramsize ≤ j → SameBits j s t) : SaveEnd key s t := by
  have hno : ∀ {p : Prop}, t.stalled = false → p := fun hf => Bool.noConfusion (hst.symm.trans hf)
  exact ⟨hbank, hbeyond, hno, hno, hno⟩

/-- An open that does not answer writes no bank (log entry 10). -/
theorem SaveEnd.of_failed_open (hu : OpStep key s u) (hf : u.files = s.files) (hh : s.halted = false) :
    SaveEnd key s (unlessStalled (raiseError .storage) u) := by
  have hk : ∀ j, BankKept key j s u := fun j => hu.bankKept_of_files hf
  rcases unlessStalled_cases (raiseError .storage) u with ⟨hst, e⟩ | ⟨hst, e⟩ <;> rw [e]
  · exact .of_stalled hst (fun j _ => (hk j).outcome) fun j _ => (hk j).bits
  · rw [raiseError_end _ (stopped_eq_false.2 ⟨hu.halted.trans hh, hst⟩)]
    have hk' : ∀ j, BankKept key j s (endWith (ErrorCode.code .storage) u) := fun j => (hk j).trans (.ended _ u)
    have hr : (endWith (ErrorCode.code .storage) u).stalled = false →
        (endWith (ErrorCode.code .storage) u).result = 0xFFFFFFFE := fun hst =>
      endWith_result _ (stopped_eq_false.2 ⟨(endWith_halted _ u).trans (hu.halted.trans hh), hst⟩)
    have hno : ∀ {p : Prop}, (endWith (ErrorCode.code .storage) u).stalled = false →
        (endWith (ErrorCode.code .storage) u).result = 0 → p := fun hst hz =>
      absurd ((hr hst).symm.trans hz) (by decide)
    exact ⟨fun j _ => (hk' j).outcome, fun j _ => (hk' j).bits, fun h => .inr (hr h), hno, hno⟩

/-- The loop over the cartridge's banks, then the clock's write (R123, R124). -/
def saveBody (u : State) : Bool × State := saveClock (saveBanks 0 u.cart.ramsize u)

theorem saveOpened_true (u : State) : saveOpened (true, u) = saveEnded (saveBody u) := rfl

/-- What the loop and the clock's write leave, before the close (R123, R124). -/
theorem saveBody_law (hon : HandleOn key u) (hf : FilesOk u) (hs : u.sram.wf) (hr : u.cart.ramsize ≤ 32) :
    SaveStep key u (saveBody u).2 ∧
    (∀ j, j < u.cart.ramsize → SaveOutcome key j u (saveBody u).2) ∧
    (∀ j, u.cart.ramsize ≤ j → SameBits j u (saveBody u).2) ∧
    ((saveBody u).1 = true → u.cart.hasRtc = true →
      ClockRecordAt (fileAt key (saveBody u).2).data (u.cart.ramsize * 8192) u.cfg.rtcEpoch u.rtc) := by
  obtain ⟨hstep, hon', -⟩ := saveBanks_law (i := 0) u.cart.ramsize hon (by omega)
  obtain ⟨hout, hin, hf'⟩ := saveBanks_outcome (i := 0) u.cart.ramsize hon hf hs (by omega)
  obtain ⟨hcfg, hcart, -, hrtc⟩ := hstep.rest
  have hc := saveClock_step hon'
  obtain ⟨hkept, hclock⟩ := saveClock_law hon' hf'
  rw [hcart, hcfg, hrtc] at hclock
  rw [hcart] at hkept
  exact ⟨hstep.trans hc.save, fun j hj => (hin j (by omega) (by omega)).then_kept (hkept j hj),
    fun j hj => (hout j (by omega)).bits.trans (hc.sameBits j), hclock⟩

/-- A save whose file was opened (R122 to R126). -/
theorem SaveEnd.of_opened (hon : HandleOn key u) (hf : FilesOk u) (hs : u.sram.wf) (hr : u.cart.ramsize ≤ 32)
    (hh : u.halted = false) : SaveEnd key u (saveEnded (saveBody u)) := by
  obtain ⟨hstep, hin, hout, hclock⟩ := saveBody_law hon hf hs hr
  generalize saveBody u = r at hstep hin hout hclock
  obtain ⟨ok, w⟩ := r
  have hw : w.halted = false := hstep.halted.trans hh
  obtain ⟨hkept, hfiles⟩ := saveEnded_kept (key := key) (ok := ok) hw
  have hres := saveEnded_result (ok := ok) hw
  have hzero : (saveEnded (ok, w)).stalled = false → (saveEnded (ok, w)).result = 0 →
      (saveEnded (ok, w)).sramDirty = 0 ∧ ok = true := fun hst hz => saveCode_eq_zero.1 ((hres hst).symm.trans hz)
  exact {
    bank := fun j hj => (hin j hj).then_kept (hkept j)
    beyond := fun j hj => (hout j hj).trans (hkept j).bits
    code := fun hst => by rw [hres hst]; exact saveCode_cases ok _
    clean := fun hst hz => (hzero hst hz).1
    clock := fun hst hz hrtc => by rw [fileAt_of_files hfiles]; exact hclock (hzero hst hz).2 hrtc }

/-- A full save marks every bank, so that each needs saving (R121). -/
theorem needsSave_markAll (j : Nat) (s : State) : needsSave (markAll false s) j = true := by
  simp [needsSave, markAll, bitOf]

/-- The state before the open stands for the one after it: a quick save's file keeps its bytes (R51, R121, R122). -/
theorem SaveEnd.of_open (h : SaveEnd (fileKey s id) u t) (hu : OpStep (fileKey s id) s u)
    (hk : ∀ j, needsSave s j = false → RegionKept (fileKey s id) j s u) : SaveEnd (fileKey s id) s t := by
  obtain ⟨hbank, hbeyond, hcode, hclean, hclock⟩ := h
  rw [hu.cart] at hbank hbeyond hclock
  rw [hu.cfg, hu.rtc] at hclock
  exact ⟨fun j hj => (hbank j hj).of_start (hu.sameBits j) fun hn => hu.bankKept (hk j hn),
    fun j hj => (hu.sameBits j).trans (hbeyond j hj), hcode, hclean, hclock⟩

/-- The state in which SRAM_SAVE opens its file: accepted, the banks marked (R62, R121). -/
def marked (quick : Bool) (s : State) : State := markAll quick { s with busy := true }

/-- A command accepted, with these dirty and saved bits. -/
def withBits (d v : Word) (s : State) : State := { s with busy := true, sramDirty := d, sramSaved := v }

theorem marked_eq (quick : Bool) (s : State) :
    marked quick s = withBits (if quick then s.sramDirty else BitVec.ofNat 32 (2 ^ s.cart.ramsize - 1))
      (if quick then s.sramSaved else 0) s := by
  cases quick <;> rfl

/-- An SRAM_SAVE that is not refused (R120). -/
theorem sramSaveOp_eq (hl : s.cart.loaded = true) (hb : s.cart.hasBattery = true) :
    sramSaveOp id quick { s with busy := true } = saveOpened (stOpen .op id (saveMode quick) (marked quick s)) := by
  unfold sramSaveOp
  rw [if_neg (by simp [hl, hb])]
  rfl

/-- SRAM_SAVE ends so, whatever storage answers. -/
theorem sramSaveOp_saveEnd (hs : s.ready) (hl : s.cart.loaded = true) (hb : s.cart.hasBattery = true)
    (hr : s.cart.ramsize ≤ 32) (hm : MemoriesCanonical s) :
    SaveEnd (fileKey s id) (marked quick s) (sramSaveOp id quick { s with busy := true }) := by
  rw [sramSaveOp_eq hl hb]
  have he := marked_eq quick s
  have hkey : fileKey (marked quick s) id = fileKey s id := by rw [he]; rfl
  have hh : (marked quick s).halted = false := by rw [he]; exact hs.2.1
  have hr' : (marked quick s).cart.ramsize ≤ 32 := by rw [he]; exact hr
  have hf : FilesOk (marked quick s) := by rw [he]; exact hm.filesOk
  have hw : (marked quick s).sram.wf := by rw [he]; exact hm.sram
  have hregion : ∀ j, needsSave (marked quick s) j = false → RegionKept (fileKey s id) j (marked quick s)
      (stOpen .op id (saveMode quick) (marked quick s)).2 := fun j hn off _ => by
    cases quick with
    | true =>
      rw [← hkey]
      show (fileAt _ (stOpen .op id .writeUpdate (marked true s)).2).data.read _ = _
      rw [stOpen_update_fileAt]
    | false => exact Bool.noConfusion ((needsSave_markAll j _).symm.trans hn)
  have hu := open_step id (saveMode quick) (marked quick s)
  have hfu := hf.stOpen .op id (saveMode quick)
  have hfail := stOpen_failed_files (h := .op) (id := id) (mode := saveMode quick) (s := marked quick s)
  have hok := open_handle (id := id) (mode := saveMode quick) (s := marked quick s)
  rw [← hkey] at hregion ⊢
  generalize stOpen .op id (saveMode quick) (marked quick s) = r at hu hregion hfail hok hfu
  obtain ⟨b, u⟩ := r
  cases b with
  | false => exact .of_failed_open hu (hfail rfl) hh
  | true =>
    have hon : HandleOn (fileKey (marked quick s) id) u := fun hd hhd => by
      obtain rfl : _ = hd := Option.some.inj ((hok rfl).symm.trans hhd)
      exact hu.key id
    rw [saveOpened_true]
    exact (SaveEnd.of_opened hon hfu (hu.sram ▸ hw) (hu.cart ▸ hr') (hu.halted.trans hh)).of_open hu hregion

/-! ### A save without a failure -/

/-- The block runs, the operation's handle is open, and the next `c` primitives succeed. -/
structure CanIssue (c : Nat) (s : State) : Prop where
  runs : s.stalled = false
  handle : s.opHandle.isSome = true
  answers : s.storageOk c

theorem CanIssue.mono {c d : Nat} (h : CanIssue c s) (hd : d ≤ c) : CanIssue d s :=
  ⟨h.runs, h.handle, storageOk_mono h.answers hd⟩

theorem stSeek_issued {c : Nat} (h : CanIssue (c + 1) s) (off : Nat) :
    (stSeek .op off s).1 = true ∧ CanIssue c (stSeek .op off s).2 := by
  obtain ⟨hd, hh⟩ := Option.isSome_iff_exists.1 h.handle
  obtain ⟨rest, ha, hrest⟩ := storageOk_succ h.answers
  rw [stSeek_ok (h := .op) off hh ha]
  exact ⟨rfl, ⟨h.runs, rfl, hrest⟩⟩

theorem stWrite_issued {c : Nat} (h : CanIssue (c + 1) s) (n : Nat) (b : Memory) :
    (stWrite .op n b s).1 = true ∧ CanIssue c (stWrite .op n b s).2 := by
  obtain ⟨hd, hh⟩ := Option.isSome_iff_exists.1 h.handle
  obtain ⟨rest, ha, hrest⟩ := storageOk_succ h.answers
  rw [stWrite_ok (h := .op) n b hh ha]
  exact ⟨rfl, ⟨h.runs, rfl, hrest⟩⟩

theorem seekWrite_issued {c : Nat} (h : CanIssue (c + 2) s) (off n : Nat) (b : Memory) :
    (seekWrite off n b s).1 = true ∧ CanIssue c (seekWrite off n b s).2 := by
  obtain ⟨hok, hc⟩ := stSeek_issued (c := c + 1) h off
  unfold seekWrite
  rw [if_pos hok]
  exact stWrite_issued hc n b

/-- Bank `j` is clean and saved. -/
def Secured (j : Nat) (s : State) : Prop := bitOf s.sramDirty j = false ∧ bitOf s.sramSaved j = true

theorem Secured.of_sameBits {j : Nat} (h : Secured j s) (hb : SameBits j s t) : Secured j t :=
  ⟨hb.1.trans h.1, hb.2.trans h.2⟩

theorem saveBank_ok {c i : Nat} (h : CanIssue (c + 2) s) (hi : i < 32) :
    CanIssue c (saveBank i s) ∧ Secured i (saveBank i s) := by
  unfold saveBank
  split
  · obtain ⟨hok, hc⟩ := seekWrite_issued h (ramOffset i) ramPage (ramBank s i)
    generalize seekWrite (ramOffset i) ramPage (ramBank s i) s = r at hok hc
    obtain ⟨b, w⟩ := r
    obtain rfl : b = true := hok
    exact ⟨⟨hc.runs, hc.handle, hc.answers⟩, (bitOf_clearBit w.sramDirty i i).trans (by simp),
      (bitOf_setBit w.sramSaved i i).trans (by simp [hi])⟩
  · rename_i hn
    exact ⟨h.mono (by omega), by unfold Secured; simpa [needsSave, and_comm] using hn⟩

/-- The save loop with two answers for each bank. -/
theorem saveBanks_ok {c i : Nat} (k : Nat) (hon : HandleOn key s) (h : CanIssue (c + 2 * k) s) (hi : i + k ≤ 32) :
    CanIssue c (saveBanks i k s) ∧ ∀ j, i ≤ j → j < i + k → Secured j (saveBanks i k s) := by
  induction k generalizing i s with
  | zero => exact ⟨h, fun j h1 h2 => absurd h2 (by omega)⟩
  | succ k ih =>
    rw [saveBanks_succ h.runs]
    obtain ⟨hc, hbank⟩ := saveBank_ok (c := c + 2 * k) (i := i) h (by omega)
    obtain ⟨hstep, hid, -⟩ := saveBank_law (i := i) hon (by omega)
    have hon' : HandleOn key (saveBank i s) := hon.of_id hstep.rest.1 hid
    obtain ⟨hc', hrest⟩ := ih (i := i + 1) hon' hc (by omega)
    refine ⟨hc', fun j h1 h2 => ?_⟩
    by_cases hj : j = i
    · subst hj
      obtain ⟨-, -, -, hbits⟩ := saveBanks_law (i := j + 1) k hon' (by omega)
      rcases hbits j with ⟨hlt, -⟩ | hsame
      · omega
      · exact hbank.of_sameBits hsame
    · exact hrest j (by omega) (by omega)

theorem saveClock_ok {c : Nat} (h : CanIssue (c + (if s.cart.hasRtc then 2 else 0)) s) :
    (saveClock s).1 = true ∧ CanIssue c (saveClock s).2 := by
  cases hr : s.cart.hasRtc with
  | false =>
    rw [saveClock_of_no_clock h.runs hr]
    exact ⟨rfl, h.mono (by omega)⟩
  | true =>
    rw [hr] at h
    unfold saveClock
    rw [if_neg (by simp [h.runs]), if_pos hr]
    exact seekWrite_issued h _ _ _

/-- The whole of a save's primitives but the open, without a failure. -/
theorem saveEnded_ok (hon : HandleOn key u) (hr : u.cart.ramsize ≤ 32)
    (h : CanIssue (1 + (if u.cart.hasRtc then 2 else 0) + 2 * u.cart.ramsize) u) (hh : u.halted = false) :
    (saveEnded (saveBody u)).stalled = false ∧ (∀ j, j < u.cart.ramsize → Secured j (saveEnded (saveBody u))) ∧
    ((saveEnded (saveBody u)).sramDirty = 0 → (saveEnded (saveBody u)).result = 0) := by
  obtain ⟨hc, hbanks⟩ := saveBanks_ok (i := 0) u.cart.ramsize hon h (by omega)
  obtain ⟨hstep, hon', -⟩ := saveBanks_law (i := 0) u.cart.ramsize hon (by omega)
  have hck := saveClock_step hon'
  obtain ⟨hok, hc'⟩ := saveClock_ok (s := saveBanks 0 u.cart.ramsize u) (c := 1) (by rw [hstep.rest.2.1]; exact hc)
  unfold saveBody
  generalize saveClock (saveBanks 0 u.cart.ramsize u) = r at hck hok hc'
  obtain ⟨b, w⟩ := r
  obtain rfl : b = true := hok
  have hw : w.halted = false := hck.halted.trans (hstep.halted.trans hh)
  obtain ⟨hkept, -⟩ := saveEnded_kept (key := key) (ok := true) hw
  have hst : (saveEnded (true, w)).stalled = false := by
    obtain ⟨rest, ha, -⟩ := storageOk_succ (s := w) (k := 0) hc'.answers
    show (unlessStalled (closeThen .op (saveResult true)) w).stalled = false
    rw [unlessStalled_of_not _ hc'.runs, closeThen_returns .op _ hc'.runs ha (by decide)]
    unfold saveResult
    split
    · exact hc'.runs
    · exact hc'.runs
  refine ⟨hst, fun j hj => ?_, fun hd => ?_⟩
  · exact ((hbanks j (by omega) (by omega)).of_sameBits (hck.sameBits j)).of_sameBits (hkept j).bits
  · rw [saveEnded_result hw hst]
    exact saveCode_eq_zero.2 ⟨hd, rfl⟩

end Sys2Proof.Machine
end

section
/-! PROOFS. SRAM_SAVE under any storage, put together (R53, R121 to R126, R210). -/

namespace Sys2Proof.Machine

variable {s t : State} {id : Half} {quick : Bool}

/-! ### By the open's answer -/

theorem openedFiles_eq (id : Half) (mode : Mode) (s : State) :
    ∃ fs, openedFiles id mode s = { s with files := fs } := by
  unfold openedFiles
  split
  · exact ⟨s.files, rfl⟩
  · exact ⟨_, rfl⟩
  · split
    · exact ⟨s.files, rfl⟩
    · exact ⟨_, rfl⟩

/-- The open of a save that the oracle answers with `ok` (R51, R122). -/
theorem stOpen_save_ok {rest : List Answer} (ha : s.answers = .ok :: rest) :
    (stOpen .op id (saveMode quick) s).1 = true ∧ (stOpen .op id (saveMode quick) s).2.answers = rest ∧
    (stOpen .op id (saveMode quick) s).2.stalled = s.stalled := by
  rw [stOpen_ok .op id _ ha (missing_saveMode id quick s)]
  obtain ⟨fs, e⟩ := openedFiles_eq id (saveMode quick) { emit (.stOpen .op id (saveMode quick)) s with answers := rest }
  rw [e]
  exact ⟨rfl, rfl, rfl⟩

/-- An SRAM_SAVE whose open answers goes on from a state with the handle on its file. -/
theorem sramSaveOp_opened {rest : List Answer} (hl : s.cart.loaded = true) (hb : s.cart.hasBattery = true)
    (ha : s.answers = .ok :: rest) :
    ∃ u, sramSaveOp id quick { s with busy := true } = saveEnded (saveBody u) ∧
      OpStep (fileKey s id) (marked quick s) u ∧ u.opHandle = some ⟨id, saveMode quick, 0⟩ ∧ u.answers = rest ∧
      u.stalled = s.stalled := by
  have he := marked_eq quick s
  have hkey : fileKey (marked quick s) id = fileKey s id := by rw [he]; rfl
  have hst : (marked quick s).stalled = s.stalled := by rw [he]; rfl
  obtain ⟨hok, hrest, hstall⟩ := stOpen_save_ok (s := marked quick s) (id := id) (quick := quick) (by rw [he]; exact ha)
  have hu := open_step id (saveMode quick) (marked quick s)
  have hhd := open_handle hok
  rw [sramSaveOp_eq hl hb]
  rw [hkey] at hu
  generalize stOpen .op id (saveMode quick) (marked quick s) = r at hok hrest hstall hu hhd
  obtain ⟨b, u⟩ := r
  obtain rfl : b = true := hok
  exact ⟨u, rfl, hu, hhd, hrest, hstall.trans hst⟩

/-- Without a clock the result of a save whose file opens follows the dirty bits (R126). -/
theorem sramSaveOp_follows {rest : List Answer} (hs : s.ready) (hl : s.cart.loaded = true)
    (hb : s.cart.hasBattery = true) (hr : s.cart.ramsize ≤ 32) (hclock : s.cart.hasRtc = false)
    (ha : s.answers = .ok :: rest)
    (hst : (sramSaveOp id quick { s with busy := true }).stalled = false)
    (hd : (sramSaveOp id quick { s with busy := true }).sramDirty = 0) :
    (sramSaveOp id quick { s with busy := true }).result = 0 := by
  obtain ⟨u, e, hu, hhd, -⟩ := sramSaveOp_opened (id := id) (quick := quick) hl hb ha
  have he := marked_eq quick s
  have hcart : u.cart = s.cart := hu.cart.trans (by rw [he]; rfl)
  have hh : u.halted = false := hu.halted.trans (by rw [he]; exact hs.2.1)
  have hon : HandleOn (fileKey u id) u := fun hd' h' => by
    obtain rfl : _ = hd' := Option.some.inj (hhd.symm.trans h')
    rfl
  obtain ⟨hstep, -⟩ := saveBanks_law (i := 0) u.cart.ramsize hon (by rw [hcart]; omega)
  have hbh : (saveBanks 0 u.cart.ramsize u).halted = false := hstep.halted.trans hh
  have hrtc : (saveBanks 0 u.cart.ramsize u).cart.hasRtc = false := by rw [hstep.rest.2.1, hcart]; exact hclock
  rw [e] at hst hd ⊢
  unfold saveBody at hst hd ⊢
  generalize saveBanks 0 u.cart.ramsize u = w at hst hd hbh hrtc ⊢
  cases hw : w.stalled with
  | true =>
    rw [saveClock_of_stalled hw] at hst
    rcases saveEnded_cases false hbh with ⟨-, e'⟩ | ⟨hn, -⟩
    · rw [e', hw] at hst; cases hst
    · rw [hw] at hn; cases hn
  | false =>
    rw [saveClock_of_no_clock hw hrtc] at hst hd ⊢
    rw [saveEnded_result hbh hst]
    exact saveCode_eq_zero.2 ⟨hd, rfl⟩

/-- A save without a failure ends with every bank secured, and with 0 if no bit stands beyond them (R126). -/
theorem sramSaveOp_succeeds (hs : s.ready) (hl : s.cart.loaded = true) (hb : s.cart.hasBattery = true)
    (hr : s.cart.ramsize ≤ 32) (ha : s.storageOk (2 + 2 * s.cart.ramsize + (if s.cart.hasRtc then 2 else 0))) :
    (sramSaveOp id quick { s with busy := true }).stalled = false ∧
    (∀ j, j < s.cart.ramsize → Secured j (sramSaveOp id quick { s with busy := true })) ∧
    ((sramSaveOp id quick { s with busy := true }).sramDirty = 0 →
      (sramSaveOp id quick { s with busy := true }).result = 0) := by
  obtain ⟨rest, ha', hrest⟩ := storageOk_succ (s := s)
    (k := 1 + (if s.cart.hasRtc then 2 else 0) + 2 * s.cart.ramsize) (storageOk_mono ha (by omega))
  obtain ⟨u, e, hu, hhd, han, hst⟩ := sramSaveOp_opened (id := id) (quick := quick) hl hb ha'
  have he := marked_eq quick s
  have hcart : u.cart = s.cart := hu.cart.trans (by rw [he]; rfl)
  have hh : u.halted = false := hu.halted.trans (by rw [he]; exact hs.2.1)
  have hon : HandleOn (fileKey u id) u := fun hd h => by
    obtain rfl : _ = hd := Option.some.inj (hhd.symm.trans h)
    rfl
  have hc : CanIssue (1 + (if s.cart.hasRtc then 2 else 0) + 2 * s.cart.ramsize) u :=
    ⟨hst.trans hs.2.2, by rw [hhd]; rfl, by unfold State.storageOk; rw [han]; exact hrest⟩
  have hend := saveEnded_ok hon (by rw [hcart]; exact hr) (by rw [hcart]; exact hc) hh
  rw [hcart] at hend
  rw [e]
  exact hend

/-- A save whose open the oracle fails leaves the marks and writes no bank (R122, log entry 10). -/
theorem sramSaveOp_open_fails {rest : List Answer} (hs : s.ready) (hl : s.cart.loaded = true)
    (hb : s.cart.hasBattery = true) (ha : s.answers = .fail :: rest) :
    sramSaveOp id quick { s with busy := true } = { s with
      result := 0xFFFFFFFE, sramDirty := (if quick then s.sramDirty else BitVec.ofNat 32 (2 ^ s.cart.ramsize - 1)),
      sramSaved := (if quick then s.sramSaved else 0), answers := rest,
      trace := s.trace ++ [.stOpen .op id (if quick then .writeUpdate else .writeNew)] } := by
  have he := marked_eq quick s
  have hst : (marked quick s).stalled = false := by rw [he]; exact hs.2.2
  rw [sramSaveOp_eq hl hb, stOpen_fails (s := marked quick s) (rest := rest) .op id _ (by rw [he]; exact ha)]
  show unlessStalled (raiseError .storage) { emit _ (marked quick s) with answers := rest } = _
  rw [unlessStalled_of_not (s := { emit _ (marked quick s) with answers := rest }) _ hst, he, hs.1]
  rfl

/-! ### The end of the command -/

/-- An SRAM_SAVE closes its handle or hangs, with `result` as it was (R210). -/
theorem sramSaveOp_closes (hs : s.ready) :
    (s.opHandle = none → (sramSaveOp id quick { s with busy := true }).stalled = false →
      (sramSaveOp id quick { s with busy := true }).opHandle = none) ∧
    ((sramSaveOp id quick { s with busy := true }).stalled = true →
      (sramSaveOp id quick { s with busy := true }).result = s.result) := by
  obtain ⟨u, r, e, ⟨hu, -⟩, hc⟩ :=
    sramSaveOp_ends (s := { s with busy := true }) id quick (stopped_eq_false.2 hs.2)
  rw [e, endWith_of_running r hu.busy (hu.halted.trans hs.2.1)]
  refine ⟨hc, fun hst => ?_⟩
  dsimp only at hst ⊢
  rw [if_pos hst]
  obtain ⟨_, _, _, _, _, _, _, _, rfl, -⟩ := hu
  rfl

/-- No bit stands beyond the cartridge's banks once they are marked (R15, R121). -/
theorem marked_masks (hr : s.cart.ramsize ≤ 32) (hm : MasksInRange s) : MasksInRange (marked quick s) :=
  (markAll_body 0 quick { s with busy := true }).2 hr hm

/-- With every bank secured no bank is dirty. -/
theorem SaveEnd.all_clean {key : Nat} (h : SaveEnd key s t) (hm : MasksInRange s)
    (hsec : ∀ j, j < s.cart.ramsize → Secured j t) : t.sramDirty = 0 := by
  refine eq_of_bits fun j => ?_
  rw [show bitOf (0 : Word) j = false from BitVec.getLsbD_zero]
  by_cases hj : j < s.cart.ramsize
  · exact (hsec j hj).1
  · exact (h.beyond j (by omega)).1.trans (hm j (by omega)).1

/-- A save ends or hangs, and never halts (R9, R126, R210). -/
theorem SaveEnd.endsOrHangs {key : Nat} {m : State} (h : SaveEnd key m t) (hh : t.halted = false)
    (hb : t.busy = t.stalled) (hr : t.stalled = true → t.result = s.result) : EndsOrHangs s t := by
  refine ⟨hh, ?_⟩
  rw [hb]
  cases hst : t.stalled with
  | false => exact .inl ⟨rfl, rfl, h.code hst⟩
  | true => exact .inr ⟨rfl, rfl, hr hst⟩

/-- A bank is written, where its marks asked for it, or keeps them (R123). -/
theorem SaveEnd.written_or_left {key : Nat} {d v : Word} (h : SaveEnd key (withBits d v s) t) (hs : t.sram = s.sram)
    (i : Nat) :
    i < s.cart.ramsize ∧ (bitOf v i = false ∨ bitOf d i = true) ∧ bitOf t.sramDirty i = false ∧
      bitOf t.sramSaved i = true ∧
      (∀ off, off < 8192 → (fileAt key t).data.read (i * 8192 + off) = s.sram.read (i * 8192 + off)) ∨
    bitOf t.sramDirty i = bitOf d i ∧ bitOf t.sramSaved i = bitOf v i := by
  by_cases hi : i < s.cart.ramsize
  · rcases (h.bank i hi).bits with ⟨hn, hd, hv, hc⟩ | hsame
    · have hn : (!bitOf v i || bitOf d i) = true := hn
      exact .inl ⟨hi, by simpa using hn, hd, hv, fun off ho => by rw [hc off ho, hs]⟩
    · exact .inr hsame
  · exact .inr (h.beyond i (Nat.le_of_not_lt hi))

/-- A bank saved and not dirty is left with its region of the file (R123). -/
theorem SaveEnd.unneeded_left {key : Nat} {d v : Word} (h : SaveEnd key (withBits d v s) t) {i : Nat}
    (hi : i < s.cart.ramsize) (hv : bitOf v i = true) (hd : bitOf d i = false) :
    bitOf t.sramDirty i = false ∧ bitOf t.sramSaved i = true ∧
    ∀ off, off < 8192 → (fileAt key t).data.read (i * 8192 + off) = (fileAt key s).data.read (i * 8192 + off) := by
  have hn : (!bitOf v i || bitOf d i) = false := by rw [hv, hd]; rfl
  obtain ⟨⟨h1, h2⟩, -, hregion⟩ := (h.bank i hi).unneeded hn
  exact ⟨h1.trans hd, h2.trans hv, hregion⟩

/-- Settles O34: the loop by its outcome for each bank, the result by the dirty bits and the clock's write. -/
theorem saveResultFollowsTheDirtyBits : Obligations.SaveResultFollowsTheDirtyBits := by
  intro s id quick hs hl hb hr hm dirty saved
  have hrun : exec (.sramSave id quick) s = .next (sramSaveOp id quick { s with busy := true }) :=
    acceptCommand_ready hs _
  obtain ⟨hframe, hothers, hstorage⟩ := sramSave_frame hrun
  obtain ⟨hclose, hhung⟩ := sramSaveOp_closes (id := id) (quick := quick) hs
  have hend := sramSaveOp_saveEnd (id := id) (quick := quick) hs hl hb hr hm
  have hfollows := fun rest => sramSaveOp_follows (id := id) (quick := quick) (rest := rest) hs hl hb hr
  have hsucc := sramSaveOp_succeeds (id := id) (quick := quick) hs hl hb hr
  have hfail := fun rest => sramSaveOp_open_fails (id := id) (quick := quick) (rest := rest) hs hl hb
  have hmask := marked_masks (quick := quick) hr
  refine ⟨_, hrun, ?_⟩
  generalize sramSaveOp id quick { s with busy := true } = t at *
  have hbusy : t.busy = t.stalled := (congrArg State.busy hframe :)
  have hhalted : t.halted = s.halted := (congrArg State.halted hframe :)
  have hsram : t.sram = s.sram := (congrArg State.sram hframe :)
  have hcfg : t.cfg = s.cfg := (congrArg State.cfg hframe :)
  have hfile : fileNamed t id = fileAt (fileKey s id) t := by rw [fileNamed_eq, fileKey_eq_of_cfg hcfg]
  rw [marked_eq] at hend hmask
  refine ⟨by rw [hbusy]; exact hframe, hend.endsOrHangs (hhalted.trans hs.2.1) hbusy hhung, fun i => ?_,
    fun i hi hv hd => ?_, hend.clean, fun hst hz hrtc => by rw [hfile]; exact hend.clock hst hz hrtc,
    fun hst hrtc ⟨rest, ha⟩ => ⟨hend.clean hst, hfollows rest hrtc ha hst⟩, fun hin ha => ?_, hfail, hclose, hothers,
    hstorage⟩
  · simpa only [memByte, hfile] using hend.written_or_left hsram i
  · simpa only [memByte, hfile, fileNamed_eq s id] using hend.unneeded_left hi hv hd
  · obtain ⟨hst, hsec, hzero⟩ := hsucc ha
    have hclean := hend.all_clean (hmask hin) hsec
    exact ⟨hst, hzero hclean, hclean, fun i hi => (hsec i hi).2⟩

end Sys2Proof.Machine
end

section
/-! PROOFS. Encoding (R60 to R64, R71, R72, R74): the decoder of each port on a built word, the word of what it accepts,
and the words it rejects. -/

namespace Sys2Proof

/-! ### Decoding a built word -/

theorem decode_cmdWord {opc flg arg : Nat} (ho : opc < 256) (hf : flg < 2) (ha : arg < 65536) :
    decode .command (cmdWord opc flg arg) = decodeOpc opc flg arg := by
  have hf' : flg < 256 := by omega
  simp only [decode, decodeCommand, cmdOpc_cmdWord ho hf' ha, cmdFlg_cmdWord ho hf' ha, cmdArg_cmdWord ho hf' ha,
    if_pos hf]

theorem decode_busWord {kind addr data : Nat} (hk : kind < 8) (ha : addr < 65536) (hd : data < 256) :
    decode .bus (busWord kind addr data) = decodeKind kind addr data := by
  simp only [decode, decodeBus, busZero_busWord hk ha hd, busKind_busWord hk ha hd, busAddr_busWord hk ha hd,
    busData_busWord hk ha hd, if_pos]

/-- Settles O1: the word of each operation is built from fields that its port's table reads as that operation. -/
theorem decodeReadsEncodedOperation : Obligations.DecodeReadsEncodedOperation := by
  intro i hwf
  cases i with
  | cartLoad id =>
    exact (decode_cmdWord (by decide) (by decide) id.isLt).trans (by simp [decodeOpc, noFlag])
  | cartUnload => exact decode_cmdWord (by decide) (by decide) (by decide)
  | bankLoad n => exact decode_cmdWord (by decide) (by decide) (of_decide_eq_true hwf)
  | preload count => exact decode_cmdWord (by decide) (by decide) (of_decide_eq_true hwf)
  | sramSave id quick =>
    exact (decode_cmdWord (by decide) quick.toNat_lt id.isLt).trans (by simp [decodeOpc])
  | sramLoad id =>
    exact (decode_cmdWord (by decide) (by decide) id.isLt).trans (by simp [decodeOpc, noFlag])
  | stateSave id =>
    exact (decode_cmdWord (by decide) (by decide) id.isLt).trans (by simp [decodeOpc, noFlag])
  | stateLoad id =>
    exact (decode_cmdWord (by decide) (by decide) id.isLt).trans (by simp [decodeOpc, noFlag])
  | frame draw =>
    exact (decode_cmdWord (by decide) draw.toNat_lt (by decide)).trans (by simp [decodeOpc])
  | rtcGet => exact decode_cmdWord (by decide) (by decide) (by decide)
  | rtcSet => exact decode_cmdWord (by decide) (by decide) (by decide)
  | rd addr => exact (decode_busWord (by decide) addr.isLt (by decide)).trans (by simp [decodeKind])
  | wr addr data => exact (decode_busWord (by decide) addr.isLt data.isLt).trans (by simp [decodeKind])
  | selrom v => exact (decode_busWord (by decide) v.isLt (by decide)).trans (by simp [decodeKind])
  | selram v => exact (decode_busWord (by decide) (by decide) v.isLt).trans (by simp [decodeKind])

/-- A word that is an operation's decodes to it. -/
theorem decode_of_encode_eq {i : Instr} {p : Port} {w : Word} (hwf : i.wellFormed = true) (hp : i.port = p)
    (hw : encode i = w) : decode p w = .ok i := by
  subst hp hw; exact decodeReadsEncodedOperation i hwf

/-- Settles O5: each written-out word is its operation's. -/
theorem writtenWordsDecode : Obligations.WrittenWordsDecode :=
  ⟨decode_of_encode_eq rfl rfl rfl, decode_of_encode_eq rfl rfl rfl, decode_of_encode_eq rfl rfl rfl,
    decode_of_encode_eq rfl rfl rfl, decode_of_encode_eq rfl rfl rfl, decode_of_encode_eq rfl rfl rfl,
    decode_of_encode_eq rfl rfl rfl, decode_of_encode_eq rfl rfl rfl, decode_of_encode_eq rfl rfl rfl,
    decode_of_encode_eq rfl rfl rfl⟩

/-! ### The word of what a port accepts -/

theorem noFlag_eq_ok {flg : Nat} {i j : Instr} : noFlag flg i = .ok j ↔ flg = 0 ∧ i = j := by
  unfold noFlag; split <;> simp [*]

theorem noOperand_eq_ok {flg arg : Nat} {i j : Instr} :
    noOperand flg arg i = .ok j ↔ flg = 0 ∧ arg = 0 ∧ i = j := by
  unfold noOperand; split_ifs <;> simp [*]

theorem toNat_beq_one_of_lt {flg : Nat} (hf : flg < 2) : (flg == 1).toNat = flg := by
  interval_cases flg <;> rfl

/-- What the command table accepts has its fields in its word, the bank number and the count as wide as ARG (R60). -/
theorem encode_of_decodeOpc {opc flg arg : Nat} {i : Instr} (hf : flg < 2) (ha : arg < 65536)
    (h : decodeOpc opc flg arg = .ok i) : i.wellFormed = true ∧ encode i = cmdWord opc flg arg := by
  have harg : (BitVec.ofNat 16 arg).toNat = arg := by simpa using Nat.mod_eq_of_lt ha
  unfold decodeOpc at h
  split at h
  case h_3 =>
    obtain ⟨rfl, rfl⟩ := noFlag_eq_ok.mp h
    exact ⟨decide_eq_true ha, rfl⟩
  case h_4 =>
    obtain ⟨rfl, rfl⟩ := noFlag_eq_ok.mp h
    exact ⟨decide_eq_true ha, rfl⟩
  case h_5 =>
    cases h
    exact ⟨rfl, by rw [encode, toNat_beq_one_of_lt hf, harg]⟩
  case h_9 =>
    split at h <;> cases h
    next hz => exact ⟨rfl, by rw [encode, toNat_beq_one_of_lt hf, hz]⟩
  case h_12 => cases h
  case h_2 | h_10 | h_11 =>
    obtain ⟨rfl, rfl, rfl⟩ := noOperand_eq_ok.mp h
    exact ⟨rfl, rfl⟩
  all_goals
    obtain ⟨rfl, rfl⟩ := noFlag_eq_ok.mp h
    exact ⟨rfl, by rw [encode, harg]⟩

/-- What the bus table accepts has its fields in its word (R63). -/
theorem encode_of_decodeKind {kind addr data : Nat} {i : Instr} (ha : addr < 65536) (hd : data < 256)
    (h : decodeKind kind addr data = .ok i) : i.wellFormed = true ∧ encode i = busWord kind addr data := by
  have haddr : (BitVec.ofNat 16 addr).toNat = addr := by simpa using Nat.mod_eq_of_lt ha
  have hdata : (BitVec.ofNat 8 data).toNat = data := by simpa using Nat.mod_eq_of_lt hd
  unfold decodeKind at h
  split at h
  case h_2 =>
    cases h
    exact ⟨rfl, by rw [encode, haddr, hdata]⟩
  case h_5 => cases h
  all_goals
    split at h <;> cases h
    next hz => exact ⟨rfl, by simp only [encode, haddr, hdata, hz]⟩

/-- Settles O2: a word is built from its fields, and the operation's word is built from the same ones. -/
theorem encodeGivesBackDecodedWord : Obligations.EncodeGivesBackDecodedWord := by
  intro p w i h
  have hport := Machine.port_of_decode h
  cases p with
  | command =>
    simp only [decode, decodeCommand] at h
    split at h
    next hflg =>
      obtain ⟨hwf, henc⟩ := encode_of_decodeOpc hflg (cmdArg_lt w) h
      exact ⟨hwf, hport, henc.trans (cmdWord_fields w)⟩
    next => cases h
  | bus =>
    simp only [decode, decodeBus] at h
    split at h
    next hzero =>
      obtain ⟨hwf, henc⟩ := encode_of_decodeKind (busAddr_lt w) (busData_lt w) h
      exact ⟨hwf, hport, henc.trans (busWord_fields hzero)⟩
    next => cases h

/-! ### The reserved words (R71, R72) -/

theorem noFlag_eq_error {flg : Nat} {i : Instr} : (∃ e, noFlag flg i = .error e) ↔ flg ≠ 0 := by
  unfold noFlag; split <;> simp [*]

theorem noOperand_eq_error {flg arg : Nat} {i : Instr} :
    (∃ e, noOperand flg arg i = .error e) ↔ flg ≠ 0 ∨ arg ≠ 0 := by
  unfold noOperand; split_ifs <;> simp [*]

theorem ite_eq_error {P : Prop} [Decidable P] {i : Instr} {e : DecodeError} :
    (∃ e', (if P then .ok i else .error e : Except DecodeError Instr) = .error e') ↔ ¬ P := by
  split <;> simp [*]

/-- What the command table rejects (R71). -/
theorem decodeOpc_eq_error {opc flg arg : Nat} (hf : flg < 2) :
    (∃ e, decodeOpc opc flg arg = .error e) ↔
      (opc = 0 ∨ 0x0C ≤ opc) ∨ (flg = 1 ∧ opc ≠ 0x05 ∧ opc ≠ 0x09) ∨
      (arg ≠ 0 ∧ (opc = 0x02 ∨ opc = 0x09 ∨ opc = 0x0A ∨ opc = 0x0B)) := by
  unfold decodeOpc
  split
  case h_5 => simp
  case h_9 => rw [ite_eq_error]; omega
  case h_12 => exact iff_of_true ⟨_, rfl⟩ (by grind)
  case h_2 | h_10 | h_11 => rw [noOperand_eq_error]; omega
  all_goals rw [noFlag_eq_error]; omega

/-- What the bus table rejects (R72). -/
theorem decodeKind_eq_error {kind addr data : Nat} :
    (∃ e, decodeKind kind addr data = .error e) ↔
      4 ≤ kind ∨ (data ≠ 0 ∧ (kind = 0 ∨ kind = 2)) ∨ (addr ≠ 0 ∧ kind = 3) := by
  unfold decodeKind
  split
  case h_2 => simp
  case h_5 => exact iff_of_true ⟨_, rfl⟩ (by grind)
  all_goals rw [ite_eq_error]; omega

theorem bitSlice_high_flags (w : Word) : bitSlice w 23 17 = cmdFlg w / 2 := by
  simp only [cmdFlg, bitSlice]; omega

theorem bitSlice_flag (w : Word) : bitSlice w 16 16 = cmdFlg w % 2 := by
  simp only [cmdFlg, bitSlice]; omega

/-- The decoder rejects exactly the command words that R71 lists, FLG[7:1] among them. -/
theorem decode_command_eq_error (w : Word) :
    (∃ e, decode .command w = .error e) ↔ Machine.reservedCommand w := by
  simp only [decode, decodeCommand, Machine.reservedCommand, bitSlice_high_flags, bitSlice_flag]
  split
  next hflg => rw [decodeOpc_eq_error hflg]; omega
  next => exact iff_of_true ⟨_, rfl⟩ (by omega)

/-- The decoder rejects exactly the bus words that R72 lists, the zero field among them. -/
theorem decode_bus_eq_error (w : Word) : (∃ e, decode .bus w = .error e) ↔ Machine.reservedBus w := by
  simp only [decode, decodeBus, Machine.reservedBus]
  split
  next => rw [decodeKind_eq_error]; omega
  next hzero => exact iff_of_true ⟨_, rfl⟩ (.inr (.inl hzero))

end Sys2Proof
end

section
/-! PROOFS. Presenting a word or an operation (R62, R63, R71, R72, R173, R184, R189, R210): what a step makes of a word
that is presented, and when an operation is not accepted. -/

namespace Sys2Proof.Machine

variable {s : State} {w : Word} {i : Instr} {e : DecodeError}

/-! ### A step that takes a word -/

theorem step_of_ready (h : s.ready) : step s = hostTurn s := by
  obtain ⟨hb, hh, hst⟩ := h
  simp [step, turn, hb, hh, hst]

theorem step_of_command {rest : List HostAct} (h : s.ready) (hhost : s.host = .command w :: rest) :
    step s = present w { s with host := rest } := by
  rw [step_of_ready h, hostTurn, hhost]

theorem step_of_busWord (h : s.inQuantum) (hb : s.busy = true) (henv : nextEnv s = .bus w) :
    step s = presentBus w (envTaken s) := by
  rw [step_of_inQuantum h hb, envTurn, henv]; rfl

theorem present_of_ok (h : decode .command w = .ok i) : present w s = exec i { s with cw := w } := by
  rw [present, h]

theorem presentBus_of_ok (h : decode .bus w = .ok i) : presentBus w s = exec i s := by
  rw [presentBus, h]

theorem present_of_error (h : decode .command w = .error e) (hs : s.ready) :
    present w s = .next (raiseError .inval { s with cw := w, busy := true }) := by
  rw [present, h]; exact acceptCommand_ready (s := { s with cw := w }) hs _

theorem presentBus_of_error (h : decode .bus w = .error e) (hs : s.inQuantum) :
    presentBus w s = .next (raiseFatal .range { s with rdata := none }) := by
  rw [presentBus, h]; exact acceptBus_inQuantum hs _

/-- Settles O3: the decoder rejects R71's words, and the model latches the word it rejects (log entry 16). -/
theorem reservedCommandWordRefused : Obligations.ReservedCommandWordRefused := by
  refine fun w => ⟨decode_command_eq_error w, fun s rest hs hw hhost => ⟨w, .inl rfl, ?_⟩⟩
  obtain ⟨e, he⟩ := (decode_command_eq_error w).mpr hw
  calc step s = present w { s with host := rest } := step_of_command hs hhost
    _ = .next (raiseError .inval { s with host := rest, cw := w, busy := true }) := present_of_error he hs
    _ = .next { s with result := 0xFFFFFFFF, cw := w, host := rest } := by rw [hs.1]; rfl

/-- Settles O4: the decoder rejects R72's words, and the request drives no read data. -/
theorem reservedBusWordHalts : Obligations.ReservedBusWordHalts := by
  refine fun w => ⟨decode_bus_eq_error w, fun s rest hs hb hw henv => ⟨none, ?_⟩⟩
  obtain ⟨e, he⟩ := (decode_bus_eq_error w).mpr hw
  have hnext : nextEnv s = .bus w := by rw [nextEnv, henv]
  have htaken : envTaken s = { s with env := rest } := by rw [envTaken, henv]
  calc step s = presentBus w (envTaken s) := step_of_busWord hs hb hnext
    _ = presentBus w { s with env := rest } := by rw [htaken]
    _ = .next (raiseFatal .range { s with env := rest, rdata := none }) := presentBus_of_error he hs

/-- Settles O6: by the agent that presents the word. -/
theorem stepRunsTheDecodedOperation : Obligations.StepRunsTheDecodedOperation :=
  ⟨fun _ _ _ _ hs hhost hdec => (step_of_command hs hhost).trans (present_of_ok hdec),
    fun _ _ _ hs hb henv hdec => (step_of_busWord hs hb henv).trans (presentBus_of_ok hdec)⟩

/-! ### Operations that are not accepted -/

/-- An operation of the command port runs only once it is accepted (R62). -/
theorem exec_eq_acceptCommand (hp : i.port = .command) : ∃ op, ∀ s, exec i s = acceptCommand op s := by
  cases i with
  | rd addr => cases hp
  | wr addr data => cases hp
  | selrom v => cases hp
  | selram v => cases hp
  | _ => exact ⟨_, fun _ => rfl⟩

/-- An operation of the bus port runs only once it is accepted (R63). -/
theorem exec_eq_acceptBus (hp : i.port = .bus) : ∃ op, ∀ s, exec i s = acceptBus op s := by
  cases i with
  | rd addr => exact ⟨_, fun _ => rfl⟩
  | wr addr data => exact ⟨_, fun _ => rfl⟩
  | selrom v => exact ⟨fun t => { t with rombank := v }, fun _ => rfl⟩
  | selram v => exact ⟨fun t => { t with rambank := v }, fun _ => rfl⟩
  | _ => cases hp

theorem acceptCommand_refused (op : State → State) (h : s.busy = true ∨ s.halted = true ∨ s.stalled = true) :
    acceptCommand op s = .refused .notAccepted :=
  if_pos (by simpa using h)

theorem acceptBus_refused (op : State → State) (h : s.run = none ∨ s.halted = true ∨ s.stalled = true) :
    acceptBus op s = .refused .notInQuantum :=
  if_pos (by simpa using h.symm)

/-- Settles O7: every operation goes through its port's acceptance. -/
theorem operationsNotAccepted : Obligations.OperationsNotAccepted := by
  refine fun i s => ⟨fun hp h => ?_, fun hp h => ?_⟩
  · obtain ⟨op, hop⟩ := exec_eq_acceptCommand hp
    exact (hop s).trans (acceptCommand_refused op h)
  · obtain ⟨op, hop⟩ := exec_eq_acceptBus hp
    exact (hop s).trans (acceptBus_refused op h)

end Sys2Proof.Machine
end

section
/-! PROOFS. The recoverable refusals for the state of the block (R81, R100, R101, R111, R182, R183). -/

namespace Sys2Proof.Machine

variable {s : State}

/-- A command whose operation refuses changes nothing but `result` (R182, R183). -/
theorem acceptCommand_inval (hs : s.ready) {op : State → State}
    (h : op { s with busy := true } = raiseError .inval { s with busy := true }) :
    acceptCommand op s = .next { s with result := 0xFFFFFFFF } := by
  rw [acceptCommand_ready hs, h, raiseError, hs.1]; rfl

theorem bankLoadOp_beyond {n : Nat} (hl : s.cart.loaded = true) (hn : s.cart.romsize ≤ n) :
    bankLoadOp n s = raiseError .inval s := by simp [bankLoadOp, hl, hn]

/-- Settles O8: the check each operation makes first is the one that refuses. -/
theorem commandsRefusedInPresentState : Obligations.CommandsRefusedInPresentState := fun _ hs =>
  ⟨fun hl =>
    ⟨fun _ => acceptCommand_inval hs (if_pos hl), fun _ => acceptCommand_inval hs (if_pos (.inl hl)),
     fun _ _ => acceptCommand_inval hs (if_pos (.inl hl)), fun _ => acceptCommand_inval hs (if_pos (.inl hl)),
     fun _ => acceptCommand_inval hs (if_pos hl), fun _ => acceptCommand_inval hs (if_pos hl),
     fun _ => acceptCommand_inval hs (if_pos hl)⟩,
   fun hl =>
    ⟨fun _ => acceptCommand_inval hs (if_pos hl), fun _ hn => acceptCommand_inval hs (bankLoadOp_beyond hl hn),
     fun _ hc => acceptCommand_inval hs (if_pos (.inr hc)), fun hb =>
      ⟨fun _ _ => acceptCommand_inval hs (if_pos (.inr hb)), fun _ => acceptCommand_inval hs (if_pos (.inr hb))⟩⟩⟩

end Sys2Proof.Machine
end

section
/-! PROOFS. The classification tables of CART_LOAD (R84 to R88): the size codes, the family by priority, TYPE_MAP and
the two-stage color lookup. -/

namespace Sys2Proof.Machine

/-! ### Sizes and family (R84 to R86) -/

theorem romSize_eq (code : Byte) :
    romSize code =
      if code.toNat ≤ 8 then some (2 <<< code.toNat)
      else if code = 0x52 ∨ code = 0x53 ∨ code = 0x54 then some 128 else none := by
  have hcodes : (0x52 ≤ code.toNat ∧ code.toNat ≤ 0x54) ↔ (code = 0x52 ∨ code = 0x53 ∨ code = 0x54) := by bv_omega
  simp only [romSize, hcodes, Nat.shiftLeft_eq]

theorem ramSize_eq (code : Byte) :
    ramSize code =
      if code.toNat ≤ 5 then ([1, 1, 1, 4, 16, 8].getD code.toNat 0, false) else (1, true) := by
  by_cases h : code.toNat ≤ 5
  · rw [if_pos h, ramSize]
    interval_cases code.toNat <;> rfl
  · rw [if_neg h, ramSize]
    split
    case h_7 => rfl
    all_goals omega

/-! ### The first match in a table -/

/-- A search finds the entry before which none matches. -/
theorem find?_first {α : Type} {p : α → Bool} {pre post : List α} {e : α} (hpre : ∀ x ∈ pre, ¬ p x = true)
    (he : p e = true) : (pre ++ e :: post).find? p = some e :=
  List.find?_eq_some_iff_append.2 ⟨he, pre, post, rfl, fun x hx => by simpa using hpre x hx⟩

/-- TYPE_MAP's family is that of the first range that holds the type byte (R87). -/
theorem familyOf_first {m : TypeMap} {ty : Byte} {pre post : List FamilyRange} {e : FamilyRange}
    (hm : m.families = pre ++ e :: post) (hpre : ∀ r ∈ pre, ¬(r.lo.toNat ≤ ty.toNat ∧ ty.toNat ≤ r.hi.toNat))
    (hlo : e.lo.toNat ≤ ty.toNat) (hhi : ty.toNat ≤ e.hi.toNat) : familyOf m ty = e.family := by
  rw [familyOf, hm, find?_first (fun r hr => by simpa using hpre r hr) (by simp [hlo, hhi])]

theorem familyOf_none {m : TypeMap} {ty : Byte}
    (h : ∀ r ∈ m.families, ¬(r.lo.toNat ≤ ty.toNat ∧ ty.toNat ≤ r.hi.toNat)) : familyOf m ty = 0 := by
  rw [familyOf, List.find?_eq_none.2 fun r hr => by simpa using h r hr]

/-! ### The two-stage color lookup (R88) -/

variable {t : ColorTables} {title : List Byte}

theorem colorLookup_unlisted (h : titleSum t title ∉ t.sums) : colorLookup t title = 0 := by
  rw [colorLookup, List.idxOf?_eq_none_iff.2 h]

/-- The title sum's first place in the checksum table decides how the lookup goes on. -/
theorem colorLookup_listed {pre post : List Nat} (hsums : t.sums = pre ++ titleSum t title :: post)
    (hpre : titleSum t title ∉ pre) :
    colorLookup t title =
      if pre.length ≤ 0x40 then BitVec.ofNat 8 pre.length else disambiguate t pre.length (title.getD 3 0) := by
  have hidx : t.sums.idxOf? (titleSum t title) = some pre.length := by
    rw [hsums]
    refine List.idxOf?_eq_some_iff.2 ⟨by simp, by simp, fun j hj e => hpre ?_⟩
    rw [List.getElem_append_left hj] at e
    exact e ▸ List.getElem_mem hj
  rw [colorLookup, hidx]

theorem disambiguate_letter {i : Nat} {c k : Byte} {pre post : List (Nat × Byte × Byte)}
    (hl : t.letters = pre ++ (i, c, k) :: post) (hpre : ∀ x ∈ pre, ¬(x.1 = i ∧ x.2.1 = c)) :
    disambiguate t i c = k := by
  rw [disambiguate, hl, find?_first (fun x hx => by simpa using hpre x hx) (by simp)]

theorem disambiguate_through {i : Nat} {c k : Byte} {pre post : List (Nat × Byte)}
    (hl : ∀ x ∈ t.letters, ¬(x.1 = i ∧ x.2.1 = c)) (ht : t.through = pre ++ (i, k) :: post)
    (hpre : ∀ x ∈ pre, x.1 ≠ i) : disambiguate t i c = k := by
  rw [disambiguate, List.find?_eq_none.2 fun x hx => by simpa using hl x hx, ht,
    find?_first (fun x hx => by simpa using hpre x hx) (by simp)]

/-- Settles O29: each table by its own lemma. -/
theorem classificationTables : Obligations.ClassificationTables := by
  refine ⟨romSize_eq, ramSize_eq, fun _ _ => rfl, fun m ty => ?_, fun c hc => ?_, fun ct title => ?_⟩
  · exact ⟨List.contains_eq_mem .., List.contains_eq_mem .., List.contains_eq_mem .., List.contains_eq_mem ..,
      fun _ _ _ => familyOf_first, familyOf_none⟩
  · obtain ⟨-, -, -, -, -, -, -, -, -, -, -, hfamily, hbattery, -, -⟩ := hc
    exact ⟨hfamily, by simpa [typeInfo] using hbattery⟩
  · refine ⟨colorLookup_unlisted, fun pre post hsums hpre => ?_⟩
    have hlookup := colorLookup_listed hsums hpre
    refine ⟨fun hlow => hlookup.trans (if_pos hlow), fun hhigh => ?_⟩
    have hsecond := hlookup.trans (if_neg (by omega))
    exact ⟨fun _ _ _ hl hx => hsecond.trans (disambiguate_letter hl hx),
      fun hnone _ _ _ ht hx => hsecond.trans (disambiguate_through hnone ht hx)⟩

end Sys2Proof.Machine
end

section
/-! PROOFS. What BANK_LOAD, PRELOAD, RD, WR and CART_LOAD leave unchanged, however they end (R80 to R116, R210). -/

namespace Sys2Proof.Machine

variable {s t u : State}

/-! ### The bank manager's steps, with the cartridge's handle kept -/

/-- LOAD_BANK's changes, the cartridge's handle open on the file it was open on. -/
def BankKeeps (s t : State) : Prop := BankStep s t ∧ t.cartHandle.map (·.id) = s.cartHandle.map (·.id)

theorem BankKeeps.refl (s : State) : BankKeeps s s := ⟨⟨.refl s, .of_trace rfl⟩, rfl⟩

theorem raiseFatal_keeps (c : Cause) (s : State) : BankKeeps s (raiseFatal c s) :=
  ⟨⟨raiseFatal_bank c s, .of_trace rfl⟩, rfl⟩

theorem loadBank_keeps (n : Nat) (s : State) : BankKeeps s (loadBank n s) := ⟨loadBank_step n s, loadBank_handle n s⟩

theorem preloadBody_keeps (k : Nat) (s : State) : BankKeeps s (preloadBody k s) :=
  ⟨preloadBody_step k s, preloadFrom_handle 0 k s⟩

/-! ### BANK_LOAD and PRELOAD -/

/-- BANK_LOAD and PRELOAD end after LOAD_BANK's changes, or with none. -/
def BankEnd (s t : State) : Prop := ∃ u r, t = endWith r u ∧ BankKeeps s u

theorem BankEnd.refused (hs : stopped s = false) (e : ErrorCode) : BankEnd s (raiseError e s) :=
  ⟨s, _, raiseError_end e hs, .refl s⟩

theorem bankLoadOp_ends (hs : stopped s = false) (n : Nat) : BankEnd s (bankLoadOp n s) := by
  unfold bankLoadOp
  split_ifs
  · exact .refused hs _
  · exact .refused hs _
  · exact ⟨_, 0, rfl, loadBank_keeps n s⟩

theorem preloadOp_ends (hs : stopped s = false) (k : Nat) : BankEnd s (preloadOp k s) := by
  unfold preloadOp
  split_ifs
  · exact .refused hs _
  · exact ⟨_, 0, rfl, preloadBody_keeps k s⟩

/-- What an accepted BANK_LOAD or PRELOAD leaves unchanged. -/
theorem BankEnd.frame (h : BankEnd { s with busy := true } t) :
    t = { s with
      result := t.result, busy := (t.halted || t.stalled), halted := t.halted, hcause := t.hcause,
      stalled := t.stalled, slot := t.slot, ftag := t.ftag, pool := t.pool, cartHandle := t.cartHandle,
      trace := t.trace, answers := t.answers, choices := t.choices, freeCount := t.freeCount } ∧
    t.cartHandle.map (·.id) = s.cartHandle.map (·.id) ∧ OnlyStorageSince s t := by
  obtain ⟨u, r, rfl, ⟨hbank, htrace⟩, hid⟩ := h
  obtain ⟨_, _, _, _, _, _, _, _, _, _, _, rfl⟩ := hbank
  rw [endWith_eq rfl]
  exact ⟨rfl, hid, htrace⟩

/-! ### The bus requests -/

/-- Where a bus address points: a ROM window, the RAM window, or nothing (R114). -/
theorem windowOf_cases (s : State) (a : Half) :
    (a.toNat < 0x8000 ∧ ∃ n, windowOf s a = .rom n (a.toNat % 16384)) ∨
    windowOf s a = .ram s.rambank.toNat (a.toNat - 0xA000) ∨ windowOf s a = .outside := by
  by_cases h1 : a.toNat < 0x4000
  · exact .inl ⟨by omega, 0, windowOf_rom (.inl ⟨h1, rfl⟩)⟩
  by_cases h2 : a.toNat < 0x8000
  · exact .inl ⟨h2, _, windowOf_rom (.inr ⟨by omega, h2, rfl⟩)⟩
  by_cases h3 : 0xA000 ≤ a.toNat ∧ a.toNat < 0xC000
  · exact .inr (.inl (windowOf_ram h3.1 h3.2))
  · exact .inr (.inr (windowOf_outside (by omega)))

/-- RD ends after LOAD_BANK's changes, with what it drives. -/
def RdEnd (s t : State) : Prop := ∃ u d, t = { u with rdata := d } ∧ BankKeeps s u

theorem RdEnd.of_undriven (h : BankKeeps s u) : RdEnd s u := ⟨u, u.rdata, rfl, h⟩

theorem driveRom_ends (n off : Nat) (h : BankKeeps s u) : RdEnd s (driveRom n off u) := by
  unfold driveRom
  split
  · exact ⟨u, _, rfl, h⟩
  · exact .of_undriven h

theorem readRom_ends (n off : Nat) (s : State) : RdEnd s (readRom n off s) := by
  unfold readRom
  split_ifs
  · exact .of_undriven (raiseFatal_keeps .range s)
  · exact .of_undriven (loadBank_keeps n s)
  · exact driveRom_ends n off (loadBank_keeps n s)

/-- RD in the RAM window changes no bank. -/
theorem readXram_cases (i off : Nat) (s : State) :
    ∃ d ha hc, readXram i off s = { s with rdata := d, halted := ha, hcause := hc } := by
  unfold readXram
  split
  · exact ⟨s.rdata, true, .range, rfl⟩
  · exact ⟨_, s.halted, s.hcause, rfl⟩

/-- What an accepted RD leaves unchanged. -/
theorem rd_frame {a : Half} (hrun : exec (.rd a) s = .next t) :
    t = { s with
      rdata := t.rdata, halted := t.halted, hcause := t.hcause, stalled := t.stalled, slot := t.slot,
      ftag := t.ftag, pool := t.pool, cartHandle := t.cartHandle, trace := t.trace, answers := t.answers,
      choices := t.choices, freeCount := t.freeCount } ∧
    t.cartHandle.map (·.id) = s.cartHandle.map (·.id) ∧ OnlyStorageSince s t ∧
    (0x8000 ≤ a.toNat → t.pool = s.pool ∧ t.slot = s.slot ∧ t.ftag = s.ftag ∧ t.trace = s.trace) := by
  obtain ⟨-, rfl⟩ := acceptBus_next hrun
  unfold rdOp
  rcases windowOf_cases { s with rdata := none } a with ⟨hlow, n, hw⟩ | hw | hw <;> rw [hw] <;> dsimp only
  · obtain ⟨u, d, e, ⟨hbank, htrace⟩, hid⟩ := readRom_ends n (a.toNat % 16384) { s with rdata := none }
    rw [e]
    obtain ⟨_, _, _, _, _, _, _, _, _, _, _, rfl⟩ := hbank
    exact ⟨rfl, hid, htrace, fun hhigh => absurd hlow (by omega)⟩
  · obtain ⟨d, ha, hc, e⟩ := readXram_cases s.rambank.toNat (a.toNat - 0xA000) { s with rdata := none }
    rw [e]
    exact ⟨rfl, rfl, .of_trace rfl, fun _ => ⟨rfl, rfl, rfl, rfl⟩⟩
  · exact ⟨rfl, rfl, .of_trace rfl, fun _ => ⟨rfl, rfl, rfl, rfl⟩⟩

/-- WR in the RAM window halts, or writes one byte and the dirty bits (R109). -/
theorem writeXram_cases (i off : Nat) (b : Byte) (s : State) :
    writeXram i off b s = raiseFatal .range s ∨
    ∃ d, writeXram i off b s = { s with sram := s.sram.write (i * 8192 + off) b, sramDirty := d } := by
  unfold writeXram
  split
  · exact .inl rfl
  · exact .inr ⟨_, rfl⟩

/-- What an accepted WR leaves unchanged. -/
theorem wr_frame {a : Half} {d : Byte} (hrun : exec (.wr a d) s = .next t) :
    t = { s with
      rdata := t.rdata, halted := t.halted, hcause := t.hcause, sram := t.sram, sramDirty := t.sramDirty } ∧
    ∀ x, x ≠ s.rambank.toNat * 8192 + (a.toNat - 0xA000) → memByte t .sram x = memByte s .sram x := by
  obtain ⟨-, rfl⟩ := acceptBus_next hrun
  unfold wrOp
  rcases windowOf_cases { s with rdata := none } a with ⟨-, n, hw⟩ | hw | hw <;> rw [hw] <;> dsimp only
  · exact ⟨rfl, fun _ _ => rfl⟩
  · rcases writeXram_cases s.rambank.toNat (a.toNat - 0xA000) d { s with rdata := none } with e | ⟨dirty, e⟩ <;> rw [e]
    · exact ⟨rfl, fun _ _ => rfl⟩
    · exact ⟨rfl, fun x hx => Memory.read_write_ne s.sram d hx⟩
  · exact ⟨rfl, fun _ _ => rfl⟩

/-! ### CART_LOAD -/

/-- What an accepted CART_LOAD leaves unchanged. -/
theorem cartLoad_frame {id : Half} (hrun : exec (.cartLoad id) s = .next t) :
    t = { s with
      result := t.result, busy := (t.halted || t.stalled), halted := t.halted, hcause := t.hcause,
      stalled := t.stalled, cart := t.cart, cartFileOpen := t.cartFileOpen, cartFileId := t.cartFileId,
      ramPages := t.ramPages, sram := t.sram, sramDirty := t.sramDirty, sramSaved := t.sramSaved,
      rombank := t.rombank, rambank := t.rambank, rtc := t.rtc, rtcTicks := t.rtcTicks, warn := t.warn,
      slot := t.slot, ftag := t.ftag, pool := t.pool, cartHandle := t.cartHandle, trace := t.trace,
      answers := t.answers, choices := t.choices, freeCount := t.freeCount } := by
  obtain ⟨⟨-, hrunning⟩, rfl⟩ := acceptCommand_next hrun
  rcases cartLoadOp_ends (s := { s with busy := true }) id (stopped_eq_false.2 hrunning) with
    ⟨u, r, e, hu, -⟩ | ⟨b, n, u, -, -, hu, -, e⟩ <;> rw [e]
  · obtain ⟨_, _, _, _, _, rfl, -⟩ := hu
    rw [endWith_eq rfl]
    rfl
  · obtain ⟨wn, es, hannounced, -⟩ := cartAnnounced_frame id (headerFields b) n u
    obtain ⟨hbank, -⟩ :=
      preloadBody_step (preloadCount u.cfg n (headerFields b).title) (cartAnnounced id (headerFields b) n u)
    rw [hannounced] at hbank ⊢
    obtain ⟨_, _, _, _, _, rfl, -⟩ := hu
    obtain ⟨_, _, _, _, _, _, _, _, _, _, _, hpreload⟩ := hbank
    rw [hpreload, endWith_eq rfl]
    rfl

/-- Settles O54: from what each operation's body can change, and how it ends. -/
theorem bankOperationsKeepTheRest : Obligations.BankOperationsKeepTheRest := by
  refine fun s t => ⟨fun i hi hrun => ?_, fun _ => rd_frame, fun _ _ => wr_frame, fun _ => cartLoad_frame⟩
  refine BankEnd.frame ?_
  rcases hi with ⟨n, rfl⟩ | ⟨k, rfl⟩
  · obtain ⟨hs, rfl⟩ := acceptCommand_next hrun
    exact bankLoadOp_ends (s := { s with busy := true }) (stopped_eq_false.2 hs.2) n
  · obtain ⟨hs, rfl⟩ := acceptCommand_next hrun
    exact preloadOp_ends (s := { s with busy := true }) (stopped_eq_false.2 hs.2) k

end Sys2Proof.Machine
end

section
/-! PROOFS. CART_LOAD up to its checks (R80 to R84, R91, R187): the open, the header read, the four recoverable failures,
and the state the commit announces (R85, R88, R89). -/

namespace Sys2Proof.Machine

variable {s : State} {id : Half} {f : File} {rest : List Answer}

/-! ### The header read -/

theorem fileNamed_of_get? (hf : Tab.get? s.files (fileKey s id) = some f) : fileNamed s id = f := by
  rw [fileNamed, hf]; rfl

theorem Memory.bytes_slice {m : Memory} {n off k : Nat} (h : off + k ≤ n) :
    Memory.bytes (m.slice 0 n) off k = m.bytes off k := by
  refine List.map_congr_left fun i hi => ?_
  have hlt : off + i < n := by have := List.mem_range.1 hi; omega
  rw [Memory.read_slice, if_pos hlt, Nat.zero_add]

/-- The header fields lie in the 512 bytes read (R81, R82). -/
theorem headerFields_slice (m : Memory) : headerFields (m.slice 0 512) = headerFields m := by
  simp [headerFields, Memory.readLE, Memory.bytes_slice]

/-- `s` after the cartridge file's open and its header's read, the handle then at `pos` (R81). -/
def afterHeaderRead (id : Half) (pos : Nat) (rest : List Answer) (s : State) : State :=
  { s with
    trace := s.trace ++ [.stOpen .cart id .read, .stRead .cart 512], answers := rest,
    cartHandle := some ⟨id, .read, pos⟩ }

theorem cartLoadOp_unloaded (hl : s.cart.loaded = false) :
    cartLoadOp id s = cartOpened id (stOpen .cart id .read s) := if_neg (by simp [hl])

/-- A CART_LOAD whose open answers goes on with the header read. -/
theorem cartLoadOp_opened (hl : s.cart.loaded = false) (hf : Tab.get? s.files (fileKey s id) = some f)
    (ha : s.answers = .ok :: rest) :
    cartLoadOp id s = cartHeaderRead id (stRead .cart 512 { s with
      trace := s.trace ++ [.stOpen .cart id .read], answers := rest, cartHandle := some ⟨id, .read, 0⟩ }) := by
  have hm : missing id .read s = false := by rw [missing, hf]; rfl
  rw [cartLoadOp_unloaded hl, stOpen_ok .cart id .read ha hm]
  rfl

/-- A CART_LOAD whose header read does not fail: the checks on the header, or too short a file (R81). -/
theorem cartLoadOp_read (hl : s.cart.loaded = false) (hf : Tab.get? s.files (fileKey s id) = some f)
    (ha : s.answers = .ok :: .ok :: rest) :
    (512 ≤ f.len → cartLoadOp id s = cartClassify id (headerFields f.data) (afterHeaderRead id 512 rest s)) ∧
    (f.len < 512 → cartLoadOp id s = closeThen .cart (raiseError .storage) (afterHeaderRead id f.len rest s)) := by
  have hfile : fileOf ⟨id, .read, 0⟩ { s with
      trace := s.trace ++ [.stOpen .cart id .read], answers := .ok :: rest,
      cartHandle := some ⟨id, .read, 0⟩ } = f := fileNamed_of_get? hf
  rw [cartLoadOp_opened hl hf ha, stRead_ok (h := .cart) 512 rfl rfl, hfile, readAt]
  refine ⟨fun hlen => ?_, fun hlen => ?_⟩
  · rw [if_pos (by simpa using hlen), ← headerFields_slice f.data]
    simp [afterHeaderRead, cartHeaderRead, setHandle, emit, ReadAnswer.moved]
  · rw [if_neg (by simpa using hlen)]
    simp [afterHeaderRead, cartHeaderRead, setHandle, emit, ReadAnswer.moved]

theorem cartLoadOp_read_fails (hl : s.cart.loaded = false) (hst : s.stalled = false)
    (hf : Tab.get? s.files (fileKey s id) = some f) (ha : s.answers = .ok :: .fail :: rest) :
    cartLoadOp id s = closeThen .cart (raiseError .storage) (afterHeaderRead id 0 rest s) := by
  rw [cartLoadOp_opened hl hf ha, stRead_fails (h := .cart) 512 rfl rfl, cartHeaderRead,
    unlessStalled_of_not _ (by exact hst)]
  simp [afterHeaderRead, emit]

/-! ### The recoverable failures (R91) -/

/-- An open that does not answer: the file is missing, or the oracle fails it (R51, log entry 10). -/
theorem stOpen_read_unanswered {a : Answer} (ha : s.answers = a :: rest) (hn : a ≠ .never)
    (hx : Tab.get? s.files (fileKey s id) = none ∨ a = .fail) :
    stOpen .cart id .read s = (false, { emit (.stOpen .cart id .read) s with answers := rest }) := by
  rcases hx with hmiss | rfl
  · rw [stOpen_missing .cart id .read (Option.isNone_iff_eq_none.2 hmiss),
      answerTaken_of_answers (s := emit (.stOpen .cart id .read) s) ha hn]
  · exact stOpen_fails .cart id .read ha

theorem cartLoad_open_fails {a : Answer} (hs : s.ready) (hl : s.cart.loaded = false) (ha : s.answers = a :: rest)
    (hn : a ≠ .never) (hx : Tab.get? s.files (fileKey s id) = none ∨ a = .fail) :
    exec (.cartLoad id) s =
      .next { s with result := 0xFFFFFFFE, trace := s.trace ++ [.stOpen .cart id .read], answers := rest } := by
  refine (acceptCommand_ready hs _).trans (congrArg _ ?_)
  rw [cartLoadOp_unloaded (s := { s with busy := true }) hl,
    stOpen_read_unanswered (s := { s with busy := true }) ha hn hx, cartOpened,
    unlessStalled_of_not _ (by exact hs.2.2), raiseError, emit, hs.1]
  rfl

/-- How a CART_LOAD ends that closes the handle it has read the header with: the code in `result` and nothing else
written, or a hang in the close, the handle still open (R91, R210; log entry 37). -/
def CartLoadRejected (id : Half) (code : Word) (a : Answer) (rest : List Answer) (s : State) : Prop :=
  (a ≠ .never → exec (.cartLoad id) s = .next { s with
    result := code, trace := s.trace ++ [.stOpen .cart id .read, .stRead .cart 512, .stClose .cart],
    answers := rest }) ∧
  (a = .never → ∃ h, exec (.cartLoad id) s = .next { s with
    busy := true, stalled := true, cartHandle := some h,
    trace := s.trace ++ [.stOpen .cart id .read, .stRead .cart 512, .stClose .cart], answers := rest })

theorem cartLoadRejected_of_close {a : Answer} {pos : Nat} {e : ErrorCode} (hs : s.ready) (hh : s.cartHandle = none)
    (hop : cartLoadOp id { s with busy := true } =
      closeThen .cart (raiseError e) (afterHeaderRead id pos (a :: rest) { s with busy := true })) :
    CartLoadRejected id e.code a rest s := by
  have hexec : exec (.cartLoad id) s = .next _ := (acceptCommand_ready hs _).trans (congrArg _ hop)
  refine ⟨fun hn => hexec.trans (congrArg _ ?_), ?_⟩
  · rw [closeThen_returns .cart _ (by exact hs.2.2) rfl hn]
    simp [afterHeaderRead, raiseError, setHandle, hs.1, hh]
  · rintro rfl
    refine ⟨⟨id, .read, pos⟩, hexec.trans (congrArg _ ?_)⟩
    rw [closeThen_hangs .cart _ rfl]
    simp [afterHeaderRead]

/-- The header's checks in R187's order: the ROM size, then the RAM array's allocation (R84, R89). -/
theorem cartClassify_rejects (h : Header) (u : State) :
    (romSize h.romcode = none → cartClassify id h u = closeThen .cart (raiseError .romsize) u) ∧
    ((romSize h.romcode).isSome = true → u.cfg.ramCap < (ramSize h.ramcode).1 →
      cartClassify id h u = closeThen .cart (raiseError .alloc) u) := by
  refine ⟨fun hn => by rw [cartClassify, hn], fun hn hcap => ?_⟩
  obtain ⟨n, hn⟩ := Option.isSome_iff_exists.1 hn
  rw [cartClassify, hn]
  exact if_pos hcap

/-- Settles O31: the open, then the read, then the two checks on the header, each with its close. -/
theorem cartLoadFailsCleanly : Obligations.CartLoadFailsCleanly := by
  refine fun s id hs hl hh => ⟨fun a rest ha hn hx => cartLoad_open_fails hs hl ha hn hx, ?_⟩
  intro f b a rest hf ha
  have hread (hb : b = .ok) := cartLoadOp_read (s := { s with busy := true }) hl hf (by subst hb; exact ha)
  refine ⟨?_, ?_, ?_⟩
  · rintro (rfl | ⟨hb, hlen⟩)
    · exact cartLoadRejected_of_close hs hh (cartLoadOp_read_fails (s := { s with busy := true }) hl hs.2.2 hf ha)
    · exact cartLoadRejected_of_close hs hh ((hread hb).2 hlen)
  · intro hb hlen hrom
    exact cartLoadRejected_of_close hs hh (((hread hb).1 hlen).trans ((cartClassify_rejects _ _).1 hrom))
  · intro hb hlen hrom hcap
    exact cartLoadRejected_of_close hs hh (((hread hb).1 hlen).trans ((cartClassify_rejects _ _).2 hrom hcap))

end Sys2Proof.Machine
end

section
/-! PROOFS. CART_LOAD from its commit on (R84 to R90, R107, R184): what it announces, and its preload, without a storage
failure and with one. -/

namespace Sys2Proof.Machine

variable {s u : State} {id : Half} {f : File} {rest : List Answer} {rom k : Nat}

/-! ### The commit announced -/

theorem ramSize_warns (code : Byte) : (ramSize code).2 = true ↔ ¬ code.toNat ≤ 5 := by
  rw [ramSize_eq]; split <;> simp_all

/-- The warning and the palette event of a commit, in their order (R85, R88). -/
theorem cartAnnounced_eq (id : Half) (h : Header) (n : Nat) (s : State) :
    cartAnnounced id h n s = { commitCart id h n s with
      warn := s.warn ||| (if h.ramcode.toNat ≤ 5 then 0 else 2),
      trace := s.trace ++ (if h.ramcode.toNat ≤ 5 then [] else [.warn .ramsize]) ++
        (if hwFamily h.color h.adapt = .color then [] else [.palRebuild]) } := by
  unfold cartAnnounced notifyPalette warnRamsize
  simp only [ramSize_warns]
  split_ifs <;> simp [commitCart, raiseWarning, emit, warnBit]

/-- The state a CART_LOAD of `f` preloads from, `rest` being the answers left after the header read. -/
def announcedFrom (id : Half) (f : File) (rom : Nat) (rest : List Answer) (s : State) : State :=
  cartAnnounced id (headerFields f.data) rom (afterHeaderRead id 512 rest { s with busy := true })

/-- A CART_LOAD that passes its checks ends with its preload. -/
theorem exec_cartLoad_checked (hs : s.ready) (hl : s.cart.loaded = false)
    (hf : Tab.get? s.files (fileKey s id) = some f) (hlen : 512 ≤ f.len)
    (hrom : romSize (f.data.read 0x0148) = some rom) (hcap : (ramSize (f.data.read 0x0149)).1 ≤ s.cfg.ramCap)
    (ha : s.answers = .ok :: .ok :: rest) :
    exec (.cartLoad id) s = .next (completeUnlessStopped
      (preloadBody (preloadCount s.cfg rom (headerFields f.data).title) (announcedFrom id f rom rest s))) := by
  have hrom' : romSize (headerFields f.data).romcode = some rom := hrom
  refine (acceptCommand_ready hs _).trans (congrArg _ ?_)
  rw [(cartLoadOp_read (s := { s with busy := true }) hl hf ha).1 hlen, cartClassify, hrom']
  exact if_neg (Nat.not_lt.2 hcap)

/-- The state a CART_LOAD preloads from: it runs with the cartridge committed and its file open, and no bank is
resident. -/
structure Announced (id : Half) (rom : Nat) (s u : State) : Prop where
  runs : stopped u = false
  slot : u.slot = []
  ftag : u.ftag = []
  handle : CartHandleOpen u
  busy : u.busy = true
  result : u.result = s.result
  loaded : u.cart.loaded = true
  romsize : u.cart.romsize = rom
  fileOpen : u.cartFileOpen = true
  fileId : u.cartFileId = id
  cfg : u.cfg = s.cfg
  files : u.files = s.files

theorem announcedFrom_announced (hs : s.ready) (hl : s.cart.loaded = false) (hd : HandlesDisciplined s) :
    Announced id rom s (announcedFrom id f rom rest s) := by
  obtain ⟨-, -, -, hnone⟩ := hd hs.2.1 hs.2.2
  obtain ⟨-, hslot, hftag⟩ := hnone hl
  rw [announcedFrom, cartAnnounced_eq]
  exact ⟨stopped_eq_false.2 hs.2, hslot, hftag, rfl, rfl, rfl, rfl, rfl, rfl, rfl, rfl, rfl⟩

theorem announcedFrom_answers : (announcedFrom id f rom rest s).answers = rest := by
  rw [announcedFrom, cartAnnounced_eq]; rfl

theorem Announced.tags (h : Announced id rom s u) : TagsAgree u := (TagsPaired.of_nil h.slot h.ftag).agree

theorem Announced.freeFrames (h : Announced id rom s u) : (freeFrames u).length = s.cfg.poolSize := by
  simp [Machine.freeFrames, ftagOf, h.ftag, h.cfg]

/-! ### A preload without a storage failure -/

theorem preloadCount_pos (c : Config) (title : List Byte) {code : Byte} (h : romSize code = some rom) :
    1 ≤ preloadCount c rom title := by
  have := romSize_legal h
  simp only [preloadCount, preloadMax, preloadKeep]
  split <;> omega

theorem storageOk_two (h : s.storageOk (k + 2)) :
    ∃ rest, s.answers = .ok :: .ok :: rest ∧ rest.take k = List.replicate k .ok := by
  obtain ⟨r, ha, hr⟩ := storageOk_succ h
  obtain ⟨rest, hr', hrest⟩ := storageOk_succ (s := { s with answers := r }) hr
  exact ⟨rest, ha.trans (congrArg _ hr'), hrest⟩

/-- The checksum field is little-endian (R82). -/
theorem cksum_eq (m : Memory) :
    (headerFields m).cksum = BitVec.ofNat 16 ((m.read 0x014E).toNat + 256 * (m.read 0x014F).toNat) := by
  simp [headerFields, Memory.readLE, Memory.bytes, List.range_succ, unLE]

/-- Settles O30: the checks pass, the commit is announced, and the preload answers as PRELOAD's body does. -/
theorem cartLoadClassifiesAndPreloads : Obligations.CartLoadClassifiesAndPreloads := by
  intro s id f rom k hs hl hm hd hp hf hlen hrom hcap hk ha
  have hbyte : ∀ a, memByte s (.file id) a = f.data.read a := fun a => by rw [memByte, fileNamed_of_get? hf]
  simp only [hbyte] at hrom hcap ⊢
  obtain rfl : k = preloadCount s.cfg rom (headerFields f.data).title := hk
  obtain ⟨rest, han, hrest⟩ := storageOk_two (Nat.add_comm 2 _ ▸ ha)
  have hexec := exec_cartLoad_checked hs hl hf hlen hrom hcap han
  have hv : Announced id rom s (announcedFrom id f rom rest s) := announcedFrom_announced hs hl hd
  have hpos := preloadCount_pos s.cfg (headerFields f.data).title hrom
  have hle := preloadCount_le s.cfg rom (headerFields f.data).title
  generalize preloadCount s.cfg rom (headerFields f.data).title = k at *
  have hstorage : (announcedFrom id f rom rest s).storageOk (2 * k) := by
    rw [State.storageOk, announcedFrom_answers]; exact hrest
  obtain ⟨sl, ft, p, es, an, hh, co, fc, e, hes, htags, hframes, hopen, hlast, hall⟩ :=
    preloadFrom_ok k (n := 0) hv.runs (by rw [hv.romsize]; omega) (hm.filesOk.of_files hv.files) hv.tags
      (.of_no_resident hv.slot) hv.handle (by rw [hv.cfg]; exact hp) hstorage
  have hruns : stopped (preloadFrom 0 k (announcedFrom id f rom rest s)) = false := by rw [e]; exact hv.runs
  rw [preloadBody, completeUnlessStopped_of_not hruns] at hexec
  refine ⟨_, es, hexec, ?_, ?_, ?_, hes, hopen, htags.of_eq rfl rfl rfl rfl, hframes, ?_, ?_⟩
  · rw [complete_cart, (preloadFrom_bank 0 k _).cart, ← cksum_eq, announcedFrom, cartAnnounced_eq]
    rfl
  · rw [e, announcedFrom, cartAnnounced_eq, hs.1]
    rfl
  · rw [e, announcedFrom, cartAnnounced_eq]
    rfl
  · have := hlast hpos
    rwa [Nat.zero_add] at this
  · intro hk n hn
    exact (hall (by rw [hv.freeFrames]; exact hk)).1 n (Nat.zero_le n) (by omega)

/-! ### A preload that fails -/

/-- The block has halted for a storage failure, with `rest` the answers left (R107, R184). -/
structure StorageHalt (rest : List Answer) (s : State) : Prop where
  halted : s.halted = true
  cause : s.hcause = .storage
  answers : s.answers = rest

theorem fillFailed_halt (f : Nat) (hst : s.stalled = false) (ha : s.answers = rest) :
    StorageHalt rest (fillFailed f s) := by
  rw [fillFailed, unlessStalled_of_not _ hst]
  exact ⟨rfl, rfl, ha⟩

/-- A fill whose seek succeeds goes on with its read (R105). -/
theorem fill_sought {hd : Handle} (n f : Nat) (hh : s.cartHandle = some hd) (ha : s.answers = .ok :: rest) :
    fill n f s = fillRead f (stRead .cart romPage { clearFrame f s with
      trace := s.trace ++ [.stSeek .cart (romOffset n)], answers := rest,
      cartHandle := some { hd with pos := romOffset n } }) := by
  rw [fill, stSeek_ok (h := .cart) (s := clearFrame f s) (romOffset n) hh ha]
  rfl

theorem fillRead_runs (f : Nat) {r : ReadAnswer × State} (h : r.1 ≠ .fail) :
    stopped (fillRead f r) = stopped r.2 ∧ (fillRead f r).answers = r.2.answers := by
  obtain ⟨a, u⟩ := r
  cases a with
  | full b => exact ⟨rfl, rfl⟩
  | eof k b => exact ⟨rfl, rfl⟩
  | fail => exact absurd rfl h

theorem readAt_ne_fail (f : File) (pos n : Nat) : readAt f pos n ≠ .fail := by unfold readAt; split <;> nofun

/-- A fill whose seek and read succeed leaves the block running. -/
theorem fill_runs (n f : Nat) (hh : s.cartHandle.isSome = true) (ha : s.answers = .ok :: .ok :: rest) :
    stopped (fill n f s) = stopped s ∧ (fill n f s).answers = rest := by
  obtain ⟨hd, hh⟩ := Option.isSome_iff_exists.1 hh
  rw [fill_sought n f hh ha, stRead_ok (h := .cart) romPage rfl rfl]
  exact fillRead_runs f (readAt_ne_fail _ _ _)

/-- A fill whose seek or read fails halts the block (R107). -/
theorem fill_halts (n f : Nat) (hst : s.stalled = false) (hh : s.cartHandle.isSome = true)
    (ha : s.answers = .fail :: rest ∨ s.answers = .ok :: .fail :: rest) : StorageHalt rest (fill n f s) := by
  obtain ⟨hd, hh⟩ := Option.isSome_iff_exists.1 hh
  rcases ha with ha | ha
  · rw [fill, stSeek_fails (h := .cart) (s := clearFrame f s) (romOffset n) hh ha]
    exact fillFailed_halt f hst rfl
  · rw [fill_sought n f hh ha, stRead_fails (h := .cart) romPage rfl rfl]
    exact fillFailed_halt f hst rfl

/-- A handle that is open on a file is open. -/
theorem isSome_of_id {h : Option Handle} {id : Half} (hid : h.map (·.id) = some id) : h.isSome = true := by
  obtain ⟨hd, rfl, -⟩ := Option.map_eq_some_iff.1 hid; rfl

/-- PRELOAD's body before bank `n` of a cartridge just committed: the block runs with the file open, a miss finds a
frame or a donor, and no bank from `n` on is resident. -/
structure Preloading (n : Nat) (s : State) : Prop where
  runs : stopped s = false
  handle : s.cartHandle.isSome = true
  tags : TagsAgree s
  pool : 1 ≤ s.cfg.poolSize
  absent : ∀ m, n ≤ m → slotOf s m = none

/-- A miss that finds a frame or a donor tags a frame and fills it; no bank but `n` becomes resident (R103, R104). -/
theorem loadBank_fills {n : Nat} (hn : slotOf s n = none) (hx : freeFrames s ≠ [] ∨ residents s ≠ []) :
    ∃ f sl ft co fc, loadBank n s = fill n f { s with slot := sl, ftag := ft, choices := co, freeCount := fc } ∧
      ∀ m, m ≠ n → slotOf s m = none → Tab.get? sl m = none := by
  unfold loadBank
  rw [if_neg (by simp [hn])]
  by_cases hfree : freeFrames s ≠ []
  · obtain ⟨co, fc, hc⟩ := chooseFrom_eq 0 (freeFrames s) s
    rw [if_pos hfree, loadFresh, hc]
    exact ⟨_, _, _, co, fc, rfl, fun m hm ha => by rw [Tab.get?_set, if_neg hm]; exact ha⟩
  · have hres := hx.resolve_left hfree
    obtain ⟨co, fc, hc⟩ := chooseFrom_eq 0 (residents s) s
    obtain ⟨f, hf⟩ := Option.isSome_iff_exists.1 (mem_residents.1 (chooseFrom_mem (d := 0) (s := s) hres))
    rw [if_neg hfree, if_pos hres, loadEvicting, hc, transplant,
      show slotOf { s with choices := co, freeCount := fc } _ = some f from hf]
    refine ⟨f, Tab.set (Tab.erase s.slot _) n f, _, co, fc, rfl, fun m hm ha => ?_⟩
    rw [Tab.get?_set, if_neg hm, Tab.get?_erase]
    split
    · rfl
    · exact ha

/-- LOAD_BANK of the next bank, with two answers that succeed. -/
theorem Preloading.next {n : Nat} (h : Preloading n s) (hr : n < s.cart.romsize)
    (ha : s.answers = .ok :: .ok :: rest) : Preloading (n + 1) (loadBank n s) ∧ (loadBank n s).answers = rest := by
  obtain ⟨f, sl, ft, co, fc, e, habsent⟩ := loadBank_fills (h.absent n le_rfl) (frame_or_donor h.tags h.pool)
  have hrun := fill_runs (s := { s with slot := sl, ftag := ft, choices := co, freeCount := fc }) n f h.handle ha
  rw [← e] at hrun
  refine ⟨⟨hrun.1.trans h.runs, ?_, loadBank_tags h.tags hr, ?_, fun m hm => ?_⟩, hrun.2⟩
  · obtain ⟨hd, hh⟩ := Option.isSome_iff_exists.1 h.handle
    exact isSome_of_id ((loadBank_handle n s).trans (congrArg _ hh))
  · rw [(loadBank_bank n s).cfg]; exact h.pool
  · rw [e, slotOf, (fill_tags n f _).1]
    exact habsent m (by omega) (h.absent m (by omega))

/-- LOAD_BANK of the next bank, its seek or its read failing (R107). -/
theorem Preloading.halts {n : Nat} (h : Preloading n s)
    (ha : s.answers = .fail :: rest ∨ s.answers = .ok :: .fail :: rest) : StorageHalt rest (loadBank n s) := by
  obtain ⟨f, sl, ft, co, fc, e, -⟩ := loadBank_fills (h.absent n le_rfl) (frame_or_donor h.tags h.pool)
  rw [e]
  exact fill_halts (s := { s with slot := sl, ftag := ft, choices := co, freeCount := fc }) n f
    (stopped_eq_false.1 h.runs).2 h.handle ha

theorem preloadFrom_of_stopped (h : stopped s = true) (n k : Nat) : preloadFrom n k s = s := by
  cases k with
  | zero => rfl
  | succ k => exact if_pos h

theorem preloadFrom_succ (h : stopped s = false) (n k : Nat) :
    preloadFrom n (k + 1) s = preloadFrom (n + 1) k (loadBank n s) := if_neg (by simp [h])

/-- PRELOAD's body with a failure at primitive `j`, two primitives to a bank: it halts there (R90, R107). -/
theorem Preloading.preload_halts {n j : Nat} (h : Preloading n s) (hr : n + k ≤ s.cart.romsize) (hj : j < 2 * k)
    (ha : s.answers = List.replicate j .ok ++ .fail :: rest) : StorageHalt rest (preloadFrom n k s) := by
  induction k generalizing n j s with
  | zero => omega
  | succ k ih =>
    rw [preloadFrom_succ h.runs]
    have stays (hhalt : StorageHalt rest (loadBank n s)) : StorageHalt rest (preloadFrom (n + 1) k (loadBank n s)) := by
      rwa [preloadFrom_of_stopped (stopped_eq_true.2 (.inl hhalt.halted))]
    match j with
    | 0 => exact stays (h.halts (.inl ha))
    | 1 => exact stays (h.halts (.inr ha))
    | j + 2 =>
      obtain ⟨hnext, hans⟩ := h.next (by omega) ha
      exact ih hnext (by rw [(loadBank_bank n s).cart]; omega) (by omega) hans

theorem Announced.preloading (h : Announced id rom s u) (hp : 1 ≤ s.cfg.poolSize) : Preloading 0 u where
  runs := h.runs
  handle := isSome_of_id h.handle
  tags := h.tags
  pool := by rw [h.cfg]; exact hp
  absent m _ := by rw [slotOf, h.slot]; rfl

/-- Settles O32: the commit comes before the preload, which halts at the primitive that fails. -/
theorem cartLoadPreloadFailureHalts : Obligations.CartLoadPreloadFailureHalts := by
  intro s id f rom k j rest hs hl hd hp hf hlen hrom hcap hk hj ha
  obtain rfl : k = preloadCount s.cfg rom (headerFields f.data).title := hk
  have hexec := exec_cartLoad_checked hs hl hf hlen hrom hcap (Nat.add_comm 2 j ▸ ha)
  have hv := announcedFrom_announced (id := id) (f := f) (rom := rom) (rest := List.replicate j .ok ++ .fail :: rest)
    hs hl hd
  have hans := announcedFrom_answers (id := id) (f := f) (rom := rom) (rest := List.replicate j .ok ++ .fail :: rest)
    (s := s)
  generalize announcedFrom id f rom _ s = u at hexec hv hans
  have hle := preloadCount_le s.cfg rom (headerFields f.data).title
  generalize preloadCount s.cfg rom (headerFields f.data).title = k at hexec hj hle
  have hhalt := (hv.preloading hp).preload_halts (by rw [hv.romsize]; omega) hj hans
  rw [preloadBody, completeUnlessStopped_of_stopped (stopped_eq_true.2 (.inl hhalt.halted))] at hexec
  have hhandle := isSome_of_id ((preloadFrom_handle 0 k u).trans hv.handle)
  obtain ⟨_, _, _, _, _, _, _, _, _, _, _, e⟩ := preloadFrom_bank 0 k u
  rw [e] at hexec hhalt hhandle
  exact ⟨_, hexec, hhalt.halted, hhalt.cause, hv.busy, hv.result, hv.loaded, hv.romsize, hv.fileOpen, hv.fileId,
    hhandle, hhalt.answers⟩

end Sys2Proof.Machine
end

section
/-! PROOFS. The bus requests (R101, R108, R109, R112 to R116): the selectors, the RAM window, and what a request changes
that needs no fill. -/

namespace Sys2Proof.Machine

variable {s : State} {addr : Half} {n : Nat}

/-- Settles O17: either request stores its selector, driving nothing. -/
theorem selectorsAreStoredRaw : Obligations.SelectorsAreStoredRaw := fun _ hs =>
  ⟨fun v => ⟨none, acceptBus_inQuantum hs fun t => { t with rombank := v }⟩,
   fun v => ⟨none, acceptBus_inQuantum hs fun t => { t with rambank := v }⟩⟩

/-! ### A request in a window -/

/-- RD in a ROM window (R108, R114). -/
theorem exec_rd_rom (hs : s.inQuantum)
    (h : addr.toNat < 0x4000 ∧ n = 0 ∨ 0x4000 ≤ addr.toNat ∧ addr.toNat < 0x8000 ∧ n = s.rombank.toNat) :
    exec (.rd addr) s = .next (readRom n (addr.toNat % 16384) { s with rdata := none }) := by
  rw [exec_rd hs, rdOp, windowOf_rom (s := { s with rdata := none }) h]

/-- RD in the RAM window (R109, R114). -/
theorem exec_rd_ram (hs : s.inQuantum) (h : 0xA000 ≤ addr.toNat) (h' : addr.toNat < 0xC000) :
    exec (.rd addr) s = .next (readXram s.rambank.toNat (addr.toNat - 0xA000) { s with rdata := none }) := by
  rw [exec_rd hs, rdOp, windowOf_ram h h']

/-- WR in the RAM window (R109, R114). -/
theorem exec_wr_ram (hs : s.inQuantum) (d : Byte) (h : 0xA000 ≤ addr.toNat) (h' : addr.toNat < 0xC000) :
    exec (.wr addr d) s = .next (writeXram s.rambank.toNat (addr.toNat - 0xA000) d { s with rdata := none }) := by
  rw [exec_wr hs, wrOp, windowOf_ram h h']

/-- Settles O18: by the window the address lies in. -/
theorem requestsOutsideTheBlockChangeNothing : Obligations.RequestsOutsideTheBlockChangeNothing := by
  refine fun s addr d hs => ⟨fun hrom => ⟨none, ?_⟩, fun hout => ⟨?_, ?_⟩⟩
  · have hw : ∃ n, windowOf { s with rdata := none } addr = .rom n (addr.toNat % 16384) := by
      by_cases h : addr.toNat < 0x4000
      · exact ⟨0, windowOf_rom (.inl ⟨h, rfl⟩)⟩
      · exact ⟨_, windowOf_rom (.inr ⟨by omega, hrom, rfl⟩)⟩
    obtain ⟨n, hw⟩ := hw
    rw [exec_wr hs, wrOp, hw]
  · rw [exec_wr hs, wrOp, windowOf_outside hout]
  · rw [exec_rd hs, rdOp, windowOf_outside hout]

/-- Settles O19: a selector inside the cartridge's RAM reads or writes one byte; one beyond it halts the block. -/
theorem batteryRamWindow : Obligations.BatteryRamWindow := by
  intro s addr d hs hm hlo hhi
  rw [exec_rd_ram hs hlo hhi, exec_wr_ram hs d hlo hhi, readXram, writeXram]
  refine ⟨fun hin => ?_, fun hbeyond => ?_⟩
  · rw [if_neg (Nat.not_le.2 hin), if_neg (Nat.not_le.2 hin)]
    exact ⟨rfl, _, rfl, rfl, Memory.read_write_same hm.sram _ _, fun a ha => Memory.read_write_ne _ _ ha⟩
  · rw [if_pos hbeyond, if_pos hbeyond]
    exact ⟨⟨none, rfl⟩, none, rfl⟩

/-! ### A ROM window without a fill -/

/-- A hit (R102). -/
theorem loadBank_hit (h : (slotOf s n).isSome = true) : loadBank n s = s := if_pos h

/-- Settles O20: LOAD_BANK leaves a hit as it is, and the range check comes before it. -/
theorem romWindowHitAndRange : Obligations.RomWindowHitAndRange := by
  intro s addr n hs hw
  rw [exec_rd_rom hs hw, readRom]
  refine ⟨fun f hn hf => ?_, fun hn => ⟨none, ?_⟩⟩
  · have hhit : loadBank n { s with rdata := none } = { s with rdata := none } :=
      loadBank_hit (by rw [show slotOf { s with rdata := none } n = some f from hf]; rfl)
    have hrun : stopped { s with rdata := none } = false := stopped_eq_false.2 ⟨hs.1, hs.2.1⟩
    rw [if_neg (Nat.not_le.2 hn), hhit, hrun, if_neg Bool.false_ne_true, driveRom,
      show slotOf { s with rdata := none } n = some f from hf]
    rfl
  · rw [if_pos hn]; rfl

end Sys2Proof.Machine
end

section
/-! PROOFS. The bank manager without a storage failure (R102 to R106, R108, R110, R111): BANK_LOAD hit and miss, the ROM
read, PRELOAD, and CART_UNLOAD. -/

namespace Sys2Proof.Machine

variable {s t u : State} {n k f : Nat} {rest : List Answer}

/-! ### Commands that reach their body -/

/-- BANK_LOAD of a bank of the cartridge ends after its LOAD_BANK (R100, R101). -/
theorem exec_bankLoad (hs : s.ready) (hl : s.cart.loaded = true) (hn : n < s.cart.romsize) :
    exec (.bankLoad n) s = .next (endWith 0 (loadBank n { s with busy := true })) := by
  refine (acceptCommand_ready hs _).trans (congrArg _ ?_)
  rw [bankLoadOp, if_neg (by simp [hl]), if_neg (Nat.not_le.2 hn)]
  rfl

/-- PRELOAD of a count the cartridge has ends after PRELOAD_BODY (R111). -/
theorem exec_preload (hs : s.ready) (hl : s.cart.loaded = true) (hk : k ≤ s.cart.romsize) :
    exec (.preload k) s = .next (endWith 0 (preloadFrom 0 k { s with busy := true })) := by
  refine (acceptCommand_ready hs _).trans (congrArg _ ?_)
  rw [preloadOp, if_neg (by simp [hl, hk])]
  rfl

/-- Settles O22: a hit leaves the accepted state, and the command completes. -/
theorem bankLoadHitChangesNothing : Obligations.BankLoadHitChangesNothing := by
  intro s n hs hl hn hhit
  have hrun : stopped { s with busy := true } = false := stopped_eq_false.2 hs.2
  rw [exec_bankLoad hs hl hn, loadBank_hit (s := { s with busy := true }) hhit, endWith_of_not 0 hrun, ← hs.1]

/-! ### The frame a miss takes -/

/-- Bank `n` has taken frame `f`, a free one, or with none free that of the resident donor chosen (R103, R104). -/
def Placed (n f : Nat) (s t : State) : Prop :=
  (∀ g, ftagOf t g = if g = f then some n else ftagOf s g) ∧
  ((f ∈ freeFrames s ∧ ∀ m, slotOf t m = if m = n then some f else slotOf s m) ∨
    freeFrames s = [] ∧ ∃ d, slotOf s d = some f ∧
      (∀ c rest, s.choices = c :: rest → d = (residents s).getD (c % (residents s).length) 0) ∧
      ∀ m, slotOf t m = if m = n then some f else if m = d then none else slotOf s m)

theorem Placed.of_tags (h : Placed n f s t) (hsl : u.slot = t.slot) (hft : u.ftag = t.ftag) : Placed n f s u := by
  unfold Placed slotOf ftagOf
  rw [hsl, hft]
  exact h

theorem chooseFrom_of_choices {d c : Nat} {xs cs : List Nat} (h : s.choices = c :: cs) :
    (chooseFrom d xs s).1 = xs.getD (c % xs.length) d := by rw [chooseFrom, h]

/-- A miss that finds a frame or a donor places the bank and fills its frame (R103, R104). -/
theorem loadBank_places (hn : slotOf s n = none) (hx : freeFrames s ≠ [] ∨ residents s ≠ []) :
    ∃ f sl ft co fc, loadBank n s = fill n f { s with slot := sl, ftag := ft, choices := co, freeCount := fc } ∧
      Placed n f s { s with slot := sl, ftag := ft, choices := co, freeCount := fc } := by
  rw [loadBank, if_neg (by simp [hn])]
  by_cases hfree : freeFrames s ≠ []
  · obtain ⟨co, fc, hc⟩ := chooseFrom_eq 0 (freeFrames s) s
    rw [if_pos hfree, loadFresh, hc]
    exact ⟨_, _, _, co, fc, rfl, fun g => ftagOf_assign n _ g s,
      .inl ⟨chooseFrom_mem hfree, fun m => slotOf_assign n _ m s⟩⟩
  · have hres := hx.resolve_left hfree
    obtain ⟨co, fc, hc⟩ := chooseFrom_eq 0 (residents s) s
    obtain ⟨f, hf⟩ := Option.isSome_iff_exists.1 (mem_residents.1 (chooseFrom_mem (d := 0) (s := s) hres))
    have hchoice (c cs) := chooseFrom_of_choices (d := 0) (xs := residents s) (s := s) (c := c) (cs := cs)
    rw [if_neg hfree, if_pos hres, loadEvicting, hc]
    generalize (chooseFrom 0 (residents s) s).1 = d at hf hchoice
    rw [transplant, show slotOf { s with choices := co, freeCount := fc } d = some f from hf]
    refine ⟨f, _, _, co, fc, rfl, fun g => ftagOf_assign n f g (vacate d s),
      .inr ⟨by simpa using hfree, d, hf, hchoice, fun m => ?_⟩⟩
    exact (slotOf_assign n f m (vacate d s)).trans (by rw [slotOf_vacate])

/-! ### BANK_LOAD of an absent bank -/

/-- BANK_LOAD of an absent bank, its seek and its read succeeding, has left `t`: frame `f` holds the bank's bytes of the
file, and nothing but the tag array, that frame, the handle's position, the trace and the oracles has changed. -/
structure BankLoaded (n f : Nat) (s t : State) : Prop where
  placed : Placed n f s t
  frame : t = { s with
    result := 0, slot := t.slot, ftag := t.ftag, pool := t.pool, cartHandle := t.cartHandle,
    trace := s.trace ++ [.stSeek .cart (n * 16384), .stRead .cart 16384], answers := s.answers.drop 2,
    choices := t.choices, freeCount := t.freeCount }
  handle : CartHandleOpen t
  frames : ∀ g off, off < 16384 → readFrame t g off = if g = f then romByte s n off else readFrame s g off

theorem exec_bankLoad_miss (hs : s.ready) (hl : s.cart.loaded = true) (hr : n < s.cart.romsize) (hf : FilesOk s)
    (hh : CartHandleOpen s) (ha : s.storageOk 2) (hn : slotOf s n = none)
    (hx : freeFrames s ≠ [] ∨ residents s ≠ []) :
    ∃ f t, exec (.bankLoad n) s = .next t ∧ BankLoaded n f s t := by
  obtain ⟨hd, hhd, hid⟩ := Option.map_eq_some_iff.1 hh
  obtain ⟨rest, han, -⟩ := storageOk_two ha
  obtain ⟨f, sl, ft, co, fc, e, hplaced⟩ := loadBank_places (s := { s with busy := true }) hn hx
  obtain ⟨p, pos, hfill, hpool⟩ := fill_ok
    (s := { s with busy := true, slot := sl, ftag := ft, choices := co, freeCount := fc }) n f hhd han hf
  have hrun : stopped (loadBank n { s with busy := true }) = false := by
    rw [e, hfill]; exact stopped_eq_false.2 hs.2
  refine ⟨f, _, (exec_bankLoad hs hl hr).trans (congrArg _ (endWith_of_not 0 hrun)), ?_⟩
  rw [e, hfill]
  refine ⟨hplaced.of_tags rfl rfl, ?_, congrArg some hid, fun g off ho => ?_⟩
  · rw [han, hs.1]; rfl
  · rw [romByte, ← hid]
    exact FilledPool.frame hpool g off ho

/-- Settles O23: with a frame free no donor is taken. -/
theorem bankLoadFillsAFreeFrame : Obligations.BankLoadFillsAFreeFrame := by
  rintro s n hs hl hr hm hh ha hn ⟨g, hg, hfree⟩
  have hx : freeFrames s ≠ [] := List.ne_nil_of_mem (mem_freeFrames.2 ⟨hg, hfree⟩)
  obtain ⟨f, t, hexec, hload⟩ := exec_bankLoad_miss hs hl hr hm.filesOk hh ha hn (.inl hx)
  obtain ⟨⟨hftag, hplaced⟩, hframe, hopen, hframes⟩ := hload
  rcases hplaced with ⟨hf, hslot⟩ | ⟨hnone, -⟩
  · obtain ⟨hfp, hft⟩ := mem_freeFrames.1 hf
    exact ⟨f, t, hexec, hfp, hft, hframe, hopen, hslot, hftag, hframes⟩
  · exact absurd hnone hx

/-- Every resident bank is the donor of some choice (R104). -/
theorem exists_choice {d : Nat} (h : d ∈ residents s) :
    ∃ c, (residents s).getD (c % (residents s).length) 0 = d := by
  obtain ⟨c, hc, rfl⟩ := List.getElem_of_mem h
  exact ⟨c, by rw [Nat.mod_eq_of_lt hc, List.getD_eq_getElem _ 0 hc]⟩

/-- Settles O24: with no frame free a donor is taken, the one the choice names. -/
theorem bankLoadEvictsOneResident : Obligations.BankLoadEvictsOneResident := by
  intro s n hs hl hr hm ht hh ha hn hp hfull
  have hfree : freeFrames s = [] := List.eq_nil_iff_forall_not_mem.2 fun g hg => by
    obtain ⟨hgp, hgf⟩ := mem_freeFrames.1 hg
    exact hfull g hgp hgf
  have hx := frame_or_donor ht hp
  have hne {d f : Nat} (hd : slotOf s d = some f) : d ≠ n := fun e => by rw [e, hn] at hd; cases hd
  refine ⟨?_, fun d f hd => ?_⟩
  · obtain ⟨f, t, hexec, hload⟩ := exec_bankLoad_miss hs hl hr hm.filesOk hh ha hn hx
    obtain ⟨⟨hftag, hplaced⟩, hframe, hopen, hframes⟩ := hload
    rcases hplaced with ⟨hf, -⟩ | ⟨-, d, hd, -, hslot⟩
    · rw [hfree] at hf; cases hf
    · exact ⟨d, f, t, hexec, hd, hne hd, hframe, hopen, hslot, hftag, hframes⟩
  · obtain ⟨c, hc⟩ := exists_choice (mem_residents.2 (Option.isSome_of_eq_some hd))
    obtain ⟨f', t, hexec, hload⟩ :=
      exec_bankLoad_miss (s := { s with choices := [c] }) hs hl hr hm.filesOk hh ha hn hx
    obtain ⟨⟨-, hplaced⟩, -⟩ := hload
    rcases hplaced with ⟨hf, -⟩ | ⟨-, d', hd', hchoice, hslot⟩
    · rw [show freeFrames { s with choices := [c] } = [] from hfree] at hf; cases hf
    · obtain rfl : d' = d := (hchoice c [] rfl).trans hc
      obtain rfl : f' = f := Option.some.inj (hd'.symm.trans hd)
      exact ⟨c, t, hexec, by rw [hslot, if_neg (hne hd), if_pos rfl], by rw [hslot, if_pos rfl]⟩

/-! ### RD in a ROM window, and PRELOAD -/

/-- A resident bank's byte is driven (R108). -/
theorem driveRom_of_resident (off : Nat) (h : slotOf s n = some f) :
    driveRom n off s = { s with rdata := some (readFrame s f off) } := by rw [driveRom, h]

/-- Settles O21: LOAD_BANK leaves the bank resident and the frames coherent, so its frame has the file's byte. -/
theorem romReadGivesTheFileByte : Obligations.RomReadGivesTheFileByte := by
  intro s addr n hs hm ht hc hh hp ha hw hr
  obtain ⟨rest, han, -⟩ := storageOk_two ha
  obtain ⟨sl, ft, p, es, an, hd, co, fc, e, -, htags, hcoherent, hopen, hres, -⟩ :=
    loadBank_ok (s := { s with rdata := none }) (n := n) hr hm.filesOk (ht.of_eq rfl rfl rfl rfl) hc hh hp han
  have hstorage := loadBank_storage n { s with rdata := none }
  have hrun : stopped (loadBank n { s with rdata := none }) = false := by
    rw [e]; exact stopped_eq_false.2 ⟨hs.1, hs.2.1⟩
  obtain ⟨f, hf⟩ := Option.isSome_iff_exists.1 hres
  have hbyte : readFrame (loadBank n { s with rdata := none }) f (addr.toNat % 16384) =
      romByte s n (addr.toNat % 16384) := by
    rw [hcoherent n f _ hf (Nat.mod_lt _ (by decide)), e]; rfl
  refine ⟨{ loadBank n { s with rdata := none } with rdata := some (romByte s n (addr.toNat % 16384)) }, ?_, rfl, hres,
    htags.of_eq rfl rfl rfl rfl, hcoherent, hopen, hstorage, ?_⟩
  · rw [exec_rd_rom hs hw, readRom, if_neg (Nat.not_le.2 hr), hrun, if_neg Bool.false_ne_true,
      driveRom_of_resident _ hf, hbyte]
  · rw [e]

/-- Settles O26: from what PRELOAD_BODY leaves, and the pool's bound. -/
theorem preloadMakesBanksResident : Obligations.PreloadMakesBanksResident := by
  intro s count hs hl hk hm ht hc hh hp ha
  have hrun : stopped { s with busy := true } = false := stopped_eq_false.2 hs.2
  obtain ⟨sl, ft, p, es, an, hd, co, fc, e, -, htags, hcoherent, hopen, hlast, hall⟩ :=
    preloadFrom_ok (s := { s with busy := true }) (n := 0) count hrun (by simpa using hk) hm.filesOk
      (ht.of_eq rfl rfl rfl rfl) hc hh hp ha
  have hstorage := preloadFrom_storage 0 count { s with busy := true }
  have hpool := preloadFrom_poolOk (s := { s with busy := true }) hm.filesOk hm.poolOk 0 count
  have hend : stopped (preloadFrom 0 count { s with busy := true }) = false := by rw [e]; exact hrun
  have hbound := htags.residents_length_le (residents_nodup hpool.2.1)
  refine ⟨_, (exec_preload hs hl hk).trans (congrArg _ (endWith_of_not 0 hend)), ?_, ?_, ?_, ?_, ?_,
    htags.of_eq rfl rfl rfl rfl, hcoherent, hopen, hstorage⟩
  · rw [e, hs.1]
  · intro h1
    have := hlast h1
    rwa [Nat.zero_add] at this
  · rw [e] at hbound ⊢; exact hbound
  · intro hfree
    obtain ⟨hres, hkept⟩ := hall hfree
    exact ⟨fun m hm => hres m (Nat.zero_le m) (by omega), hkept⟩
  · rintro rfl
    rw [preloadFrom, hs.1]

/-! ### CART_UNLOAD -/

/-- Settles O27: by whether the file is open, and whether its close answers. -/
theorem cartUnloadFreesEverything : Obligations.CartUnloadFreesEverything := by
  intro s hs
  have hexec : exec .cartUnload s = .next (cartUnloadOp { s with busy := true }) := acceptCommand_ready hs _
  rw [hexec, cartUnloadOp]
  obtain ⟨fc, hclose⟩ := closeThen_cases
    (s := { s with busy := true, slot := [], ftag := [], ramPages := 0, sram := [] }) .cart cartFileClosed hs.2.2
  refine ⟨fun hopen hanswers => ?_, fun hopen hnever => ?_, fun hshut => ?_⟩
  · rcases hclose with ⟨hnever, -⟩ | ⟨-, e⟩
    · exact absurd hnever hanswers
    · rw [if_pos hopen, e]
      refine ⟨_, rfl, ?_⟩
      simp [cartFileClosed, cartForgotten, complete, setHandle, hs.1]
  · rcases hclose with ⟨-, e⟩ | ⟨hanswers, -⟩
    · rw [if_pos hopen, e]
      exact ⟨_, rfl, rfl⟩
    · exact absurd hnever hanswers
  · rw [if_neg (by simp [hshut]), cartForgotten, complete, hs.1]

end Sys2Proof.Machine
end

section
/-! PROOFS. A fill whose seek or read does not succeed (R107, R210): what it leaves, and that BANK_LOAD, PRELOAD and RD
end with it. -/

namespace Sys2Proof.Machine

variable {s t u : State} {n f : Nat} {a : Answer} {rest : List Answer}

/-! ### A primitive on an open handle that does not succeed -/

theorem answerTaken_cons (h : s.answers = a :: rest) :
    answerTaken s = { s with answers := rest, stalled := s.stalled || decide (a = .never) } := by
  rw [answerTaken, h]

theorem stSeek_unanswered {h : HandleName} {hd : Handle} (off : Nat) (hh : getHandle h s = some hd)
    (ha : s.answers = a :: rest) (hn : a ≠ .ok) :
    stSeek h off s = (false, answerTaken (emit (.stSeek h off) s)) := by
  rw [stSeek, hh]
  exact if_pos (nextFails_of_not_ok ha hn)

theorem stRead_unanswered {h : HandleName} {hd : Handle} (k : Nat) (hh : getHandle h s = some hd)
    (ha : s.answers = a :: rest) (hn : a ≠ .ok) :
    stRead h k s = (.fail, answerTaken (emit (.stRead h k) s)) := by
  rw [stRead, hh]
  exact if_pos (nextFails_of_not_ok ha hn)

/-! ### What the fill leaves -/

/-- Every frame but `f` holds in `t` what it held in `s`. -/
def OtherFramesKept (f : Nat) (s t : State) : Prop :=
  ∀ g off, g ≠ f → off < 16384 → readFrame t g off = readFrame s g off

theorem OtherFramesKept.trans (h₁ : OtherFramesKept f s t) (h₂ : OtherFramesKept f t u) : OtherFramesKept f s u :=
  fun g off hg ho => (h₂ g off hg ho).trans (h₁ g off hg ho)

theorem OtherFramesKept.of_splice {b : Memory} (h : t.pool = s.pool.splice (frameOffset f) romPage b) :
    OtherFramesKept f s t := by
  intro g off hg ho
  rw [readFrame, h, Memory.read_splice, if_neg, readFrame]
  unfold frameOffset romPage
  omega

/-- The answer `a`, the last one taken, stopped a fill of frame `f`: the block halts where `a` failed and hangs where it
never came, and of the pool only frame `f` is written (R107, R184, R210). -/
structure FillStopped (f : Nat) (a : Answer) (rest : List Answer) (s t : State) : Prop where
  frame : t = { s with
    halted := decide (a = .fail), hcause := (if a = .fail then .storage else s.hcause),
    stalled := decide (a = .never), pool := t.pool, cartHandle := t.cartHandle, trace := t.trace, answers := rest,
    freeCount := t.freeCount }
  others : OtherFramesKept f s t

/-- The end of a fill after the primitive that took the answer (R107). -/
theorem FillStopped.of_failed (hs : stopped s = false) (hn : a ≠ .ok) (hp : OtherFramesKept f s u)
    (hu : u = { s with
      stalled := decide (a = .never), pool := u.pool, cartHandle := u.cartHandle, trace := u.trace, answers := rest }) :
    FillStopped f a rest s (fillFailed f u) := by
  obtain ⟨hh, -⟩ := stopped_eq_false.1 hs
  cases a with
  | ok => exact absurd rfl hn
  | never =>
    have hstalled : u.stalled = true := by rw [hu]; rfl
    rw [fillFailed, unlessStalled_of_stalled _ hstalled]
    refine ⟨?_, hp⟩
    rw [hu]
    simp [hh]
  | fail =>
    have hstalled : u.stalled = false := by rw [hu]; rfl
    rw [fillFailed, unlessStalled_of_not _ hstalled]
    refine ⟨?_, hp.trans (OtherFramesKept.of_splice rfl)⟩
    rw [hu]
    rfl

/-- A fill with an open handle, stopped at its seek or at its read (R105, R107, R210). -/
theorem fill_stops (n f : Nat) (hs : stopped s = false) (hh : s.cartHandle.isSome = true) (hn : a ≠ .ok)
    (ha : s.answers = a :: rest ∨ s.answers = .ok :: a :: rest) : FillStopped f a rest s (fill n f s) := by
  obtain ⟨hd, hh⟩ := Option.isSome_iff_exists.1 hh
  obtain ⟨-, hst⟩ := stopped_eq_false.1 hs
  rcases ha with ha | ha
  · rw [fill, stSeek_unanswered (h := .cart) (s := clearFrame f s) (romOffset n) hh ha hn, fillSought,
      answerTaken_cons (s := emit _ (clearFrame f s)) ha]
    refine .of_failed hs hn (OtherFramesKept.of_splice rfl) ?_
    simp [clearFrame, emit, hst]
  · rw [fill_sought n f hh ha, stRead_unanswered (h := .cart) romPage rfl rfl hn, fillRead, answerTaken_cons rfl]
    refine .of_failed hs hn (OtherFramesKept.of_splice rfl) ?_
    simp [clearFrame, emit, hst]

/-! ### LOAD_BANK stopped -/

/-- The answer `a` stopped the LOAD_BANK of bank `n`, absent in `s`: the bank is placed, and its fill stopped. -/
def LoadStopped (n : Nat) (a : Answer) (rest : List Answer) (s t : State) : Prop :=
  t = { s with
    halted := decide (a = .fail), hcause := (if a = .fail then .storage else s.hcause),
    stalled := decide (a = .never), slot := t.slot, ftag := t.ftag, pool := t.pool, cartHandle := t.cartHandle,
    trace := t.trace, answers := rest, choices := t.choices, freeCount := t.freeCount } ∧
  t.cartHandle.isSome = true ∧ OnlyStorageSince s t ∧ ∃ f, Placed n f s t ∧ OtherFramesKept f s t

theorem loadBank_stops (hs : stopped s = false) (hh : s.cartHandle.isSome = true) (habsent : slotOf s n = none)
    (hx : freeFrames s ≠ [] ∨ residents s ≠ []) (hn : a ≠ .ok)
    (ha : s.answers = a :: rest ∨ s.answers = .ok :: a :: rest) : LoadStopped n a rest s (loadBank n s) := by
  have hopen : (loadBank n s).cartHandle.isSome = true := by
    rw [← Option.isSome_map, loadBank_handle, Option.isSome_map]; exact hh
  obtain ⟨f, sl, ft, co, fc, e, hplaced⟩ := loadBank_places habsent hx
  obtain ⟨hsl, hft⟩ := fill_tags n f { s with slot := sl, ftag := ft, choices := co, freeCount := fc }
  obtain ⟨hframe, hothers⟩ :=
    fill_stops (s := { s with slot := sl, ftag := ft, choices := co, freeCount := fc }) n f hs hh hn ha
  rw [← e] at hsl hft hframe hothers
  refine ⟨?_, hopen, loadBank_storage n s, f, hplaced.of_tags hsl hft, hothers⟩
  rw [hframe]

/-- A LOAD_BANK that stopped has stopped the block. -/
theorem LoadStopped.stopped (h : LoadStopped n a rest s t) (hn : a ≠ .ok) : stopped t = true := by
  obtain ⟨e, -⟩ := h
  rw [e, stopped_eq_true]
  cases a with
  | ok => exact absurd rfl hn
  | fail => exact .inl rfl
  | never => exact .inr rfl

/-- PRELOAD's body passes over resident banks (R102, R111). -/
theorem preloadFrom_hits (hs : stopped s = false) (j k m : Nat)
    (hres : ∀ i, m ≤ i → i < m + j → (slotOf s i).isSome = true) :
    preloadFrom m (j + k) s = preloadFrom (m + j) k s := by
  induction j generalizing m with
  | zero => rw [Nat.zero_add, Nat.add_zero]
  | succ j ih =>
    rw [Nat.add_right_comm, preloadFrom_succ hs, loadBank_hit (hres m le_rfl (by omega)),
      ih (m + 1) fun i hlo hhi => hres i (by omega) (by omega), Nat.add_right_comm, Nat.add_assoc]

/-- PRELOAD's body stops in the LOAD_BANK of its first absent bank (R107, R111). -/
theorem preloadFrom_stops {c : Nat} (hs : stopped s = false) (hc : n < c)
    (hres : ∀ m, m < n → (slotOf s m).isSome = true) (hstop : stopped (loadBank n s) = true) :
    preloadFrom 0 c s = loadBank n s := by
  obtain ⟨k, rfl⟩ : ∃ k, c = n + (k + 1) := ⟨c - n - 1, by omega⟩
  rw [preloadFrom_hits hs n (k + 1) 0 (fun i _ hi => hres i (by omega)), Nat.zero_add, preloadFrom_succ hs,
    preloadFrom_of_stopped hstop]

/-- Settles O25: each operation ends in the state its LOAD_BANK stopped in. -/
theorem fillFailureHalts : Obligations.FillFailureHalts := by
  intro s n a rest hr hh habsent hx hn ha left
  have hx' : freeFrames s ≠ [] ∨ residents s ≠ [] := hx.imp
    (fun ⟨g, hg, hfree⟩ => List.ne_nil_of_mem (mem_freeFrames.2 ⟨hg, hfree⟩))
    (fun ⟨d, hd⟩ => List.ne_nil_of_mem (mem_residents.2 hd))
  have hleft (t : State) (hcart : t.cartHandle.isSome = true) (htrace : OnlyStorageSince s t)
      (hplaced : ∃ f, Placed n f s t ∧ OtherFramesKept f s t) : left t := by
    obtain ⟨f, ⟨hftag, hslot⟩, hothers⟩ := hplaced
    refine ⟨hcart, htrace, f, hslot.imp (fun ⟨hf, h⟩ => ⟨(mem_freeFrames.1 hf).2, h⟩) ?_, hftag, hothers⟩
    rintro ⟨-, d, hd, -, h⟩
    exact ⟨d, hd, h⟩
  refine ⟨fun i hi hs hl => ?_, fun addr hq hw => ?_⟩
  · have hrun : stopped { s with busy := true } = false := stopped_eq_false.2 hs.2
    have hload : LoadStopped n a rest { s with busy := true } (loadBank n { s with busy := true }) :=
      loadBank_stops hrun hh habsent hx' hn ha
    have hstop := hload.stopped hn
    obtain ⟨e, hcart, htrace, hplaced⟩ := hload
    refine ⟨loadBank n { s with busy := true }, ?_, e, hleft _ hcart htrace hplaced⟩
    rcases hi with rfl | ⟨c, rfl, hnc, hc, hres⟩
    · rw [exec_bankLoad hs hl hr, endWith_of_stopped 0 hstop]
    · rw [exec_preload hs hl hc, preloadFrom_stops hrun hnc hres hstop, endWith_of_stopped 0 hstop]
  · have hload : LoadStopped n a rest { s with rdata := none } (loadBank n { s with rdata := none }) :=
      loadBank_stops (stopped_eq_false.2 ⟨hq.1, hq.2.1⟩) hh habsent hx' hn ha
    have hstop := hload.stopped hn
    obtain ⟨e, hcart, htrace, hplaced⟩ := hload
    refine ⟨loadBank n { s with rdata := none }, ?_, e, hleft _ hcart htrace hplaced⟩
    rw [exec_rd_rom hq hw, readRom, if_neg (Nat.not_le.2 hr), if_pos hstop]

end Sys2Proof.Machine
end

section
/-! PROOFS. What a fatal error leaves (R14, R107, R173, R184): which operations can halt the block, and that the halt
writes nothing but its two registers. -/

namespace Sys2Proof.Machine

variable {s t u : State} {n f : Nat}

/-! ### A halt has a cause, and the block that has halted does not hang -/

/-- Where the block has halted it has a cause, and it does not hang. -/
def HaltClean (s : State) : Prop := s.halted = true → s.hcause ≠ .none ∧ s.stalled = false

theorem HaltClean.of_running (h : s.halted = false) : HaltClean s := fun hh => by rw [h] at hh; cases hh

theorem fillFailed_clean (f : Nat) (h : s.halted = false) : HaltClean (fillFailed f s) := by
  rcases unlessStalled_cases (fun t => raiseFatal .storage (spoilFrame f t)) s with ⟨-, e⟩ | ⟨hst, e⟩ <;>
    rw [fillFailed, e]
  · exact .of_running h
  · exact fun _ => ⟨Cause.noConfusion, hst⟩

theorem StorageOnly.halted (h : StorageOnly s t) : t.halted = s.halted := by
  obtain ⟨_, _, _, _, _, _, _, rfl⟩ := h; rfl

theorem fillRead_clean (f : Nat) {r : ReadAnswer × State} (h : r.2.halted = false) : HaltClean (fillRead f r) := by
  obtain ⟨a, u⟩ := r
  cases a with
  | full b => exact .of_running h
  | eof k b => exact .of_running h
  | fail => exact fillFailed_clean f h

theorem fill_clean (n f : Nat) (h : s.halted = false) : HaltClean (fill n f s) := by
  have hsought := (stSeek_only .cart (romOffset n) (clearFrame f s)).halted.trans h
  rw [fill]
  generalize stSeek .cart (romOffset n) (clearFrame f s) = r at hsought
  obtain ⟨b, u⟩ := r
  cases b with
  | false => exact fillFailed_clean f hsought
  | true => exact fillRead_clean f ((stRead_only .cart romPage u).halted.trans hsought)

/-- A LOAD_BANK halts in its fill, or for want of a frame (R104, R107). -/
theorem loadBank_clean (n : Nat) (hs : stopped s = false) : HaltClean (loadBank n s) := by
  obtain ⟨hh, hst⟩ := stopped_eq_false.1 hs
  cases hn : slotOf s n with
  | some f => rw [loadBank_hit (by rw [hn]; rfl)]; exact .of_running hh
  | none =>
    by_cases hx : freeFrames s ≠ [] ∨ residents s ≠ []
    · obtain ⟨f, sl, ft, co, fc, e, -⟩ := loadBank_places hn hx
      rw [e]
      exact fill_clean n f hh
    · obtain ⟨hfree, hres⟩ := not_or.1 hx
      rw [loadBank, if_neg (by simp [hn]), if_neg hfree, if_neg hres]
      exact fun _ => ⟨Cause.noConfusion, hst⟩

theorem preloadFrom_clean (k n : Nat) (h : HaltClean s) : HaltClean (preloadFrom n k s) := by
  induction k generalizing n s with
  | zero => exact h
  | succ k ih =>
    cases hs : stopped s with
    | true => rw [preloadFrom_of_stopped hs]; exact h
    | false => rw [preloadFrom_succ hs]; exact ih (n + 1) (loadBank_clean n hs)

/-- A body that halts has not been entered hanging. -/
theorem preloadFrom_halted_runs {k : Nat} (hh : s.halted = false) (h : (preloadFrom n k s).halted = true) :
    s.stalled = false := by
  by_contra hst
  rw [preloadFrom_of_stopped (stopped_eq_true.2 (.inr (by simpa using hst))), hh] at h
  cases h

/-! ### What the bank manager's halts write -/

/-- LOAD_BANK's changes and a halt with its cause, in a block that does not hang. -/
structure BankHalted (s t : State) : Prop where
  step : BankStep s t
  halted : t.halted = true
  cause : t.hcause ≠ .none
  runs : t.stalled = false

theorem BankHalted.of_clean (hb : BankStep s t) (hc : HaltClean t) (h : t.halted = true) : BankHalted s t :=
  ⟨hb, h, (hc h).1, (hc h).2⟩

theorem raiseFatal_bankHalted {c : Cause} (hc : c ≠ .none) (hst : s.stalled = false) :
    BankHalted s (raiseFatal c s) :=
  ⟨⟨raiseFatal_bank c s, .of_trace rfl⟩, rfl, hc, hst⟩

theorem BankHalted.frame (h : BankHalted s t) (hst : s.stalled = false) :
    t = { s with
      halted := true, hcause := t.hcause, slot := t.slot, ftag := t.ftag, pool := t.pool, cartHandle := t.cartHandle,
      trace := t.trace, answers := t.answers, choices := t.choices, freeCount := t.freeCount } := by
  obtain ⟨⟨⟨_, _, _, _, _, _, _, _, _, _, _, rfl⟩, -⟩, hh, -, hruns⟩ := h
  obtain rfl : _ = true := hh
  obtain rfl : _ = false := hruns
  rw [← hst]

/-- A command that has halted ends where it halted (R184). -/
theorem endWith_of_halted {r : Word} (h : (endWith r u).halted = true) : endWith r u = u :=
  endWith_of_stopped r (stopped_eq_true.2 (.inl (endWith_halted r u ▸ h)))

theorem BankHalted.of_end {r : Word} (hb : BankStep s u) (hc : HaltClean u) (h : (endWith r u).halted = true) :
    BankHalted s (endWith r u) := by
  rw [endWith_of_halted h]
  exact .of_clean hb hc (endWith_halted r u ▸ h)

theorem bankLoadOp_bankHalted (hs : stopped s = false) (h : (bankLoadOp n s).halted = true) :
    BankHalted s (bankLoadOp n s) := by
  have hh := (stopped_eq_false.1 hs).1
  unfold bankLoadOp at h ⊢
  split_ifs at h ⊢
  · exact absurd (hh.symm.trans h) Bool.false_ne_true
  · exact absurd (hh.symm.trans h) Bool.false_ne_true
  · exact .of_end (r := 0) (loadBank_step n s) (loadBank_clean n hs) h

theorem preloadOp_bankHalted {k : Nat} (hs : stopped s = false) (h : (preloadOp k s).halted = true) :
    BankHalted s (preloadOp k s) := by
  have hh := (stopped_eq_false.1 hs).1
  unfold preloadOp at h ⊢
  split_ifs at h ⊢
  · exact absurd (hh.symm.trans h) Bool.false_ne_true
  · exact .of_end (r := 0) (preloadBody_step k s) (preloadFrom_clean k 0 (.of_running hh)) h

theorem driveRom_halted (n off : Nat) (s : State) : (driveRom n off s).halted = s.halted := by
  unfold driveRom; split <;> rfl

/-- RD halts for the range, or in its LOAD_BANK, having driven nothing (R101, R107, R109). -/
theorem rdOp_bankHalted {addr : Half} (hs : stopped s = false) (h : (rdOp addr s).halted = true) :
    BankHalted s (rdOp addr s) := by
  obtain ⟨hh, hst⟩ := stopped_eq_false.1 hs
  unfold rdOp readRom readXram at h ⊢
  split at h
  · rename_i n off hw
    split_ifs at h ⊢ with hrange hstop
    · exact raiseFatal_bankHalted Cause.noConfusion hst
    · exact .of_clean (loadBank_step n s) (loadBank_clean n hs) h
    · rw [driveRom_halted, (stopped_eq_false.1 (Bool.not_eq_true _ ▸ hstop)).1] at h; cases h
  · split_ifs at h ⊢ with hrange
    · exact raiseFatal_bankHalted Cause.noConfusion hst
    · exact absurd (hh.symm.trans h) Bool.false_ne_true
  · exact absurd (hh.symm.trans h) Bool.false_ne_true

/-- WR halts for the range only (R109). -/
theorem wrOp_bankHalted {addr : Half} {d : Byte} (hs : stopped s = false) (h : (wrOp addr d s).halted = true) :
    BankHalted s (wrOp addr d s) := by
  obtain ⟨hh, hst⟩ := stopped_eq_false.1 hs
  unfold wrOp writeXram at h ⊢
  split at h
  · exact absurd (hh.symm.trans h) Bool.false_ne_true
  · split_ifs at h ⊢ with hrange
    · exact raiseFatal_bankHalted Cause.noConfusion hst
    · exact absurd (hh.symm.trans h) Bool.false_ne_true
  · exact absurd (hh.symm.trans h) Bool.false_ne_true

/-! ### What CART_LOAD's halt writes -/

/-- An entry CART_LOAD can make in the trace: a storage primitive, or one of its two events (R85, R88). -/
def CartLoadEvent (e : Event) : Prop := e.isStorage = true ∨ e = .warn .ramsize ∨ e = .palRebuild

theorem cartAnnounced_events (id : Half) (h : Header) (n : Nat) (s : State) :
    ∃ es, (cartAnnounced id h n s).trace = s.trace ++ es ∧ ∀ e ∈ es, CartLoadEvent e := by
  rw [cartAnnounced_eq]
  refine ⟨_, List.append_assoc _ _ _, fun e he => ?_⟩
  rcases List.mem_append.1 he with he | he
  · split at he
    · cases he
    · exact .inr (.inl (List.mem_singleton.1 he))
  · split at he
    · cases he
    · exact .inr (.inr (List.mem_singleton.1 he))

/-- A CART_LOAD that halts has passed its checks and preloads, from a state that does not hang. -/
theorem cartLoad_halts {id : Half} (hrun : exec (.cartLoad id) s = .next t) (h : t.halted = true) :
    ∃ b n u, CartStep { s with busy := true } u ∧ u.stalled = false ∧
      BankHalted (cartAnnounced id (headerFields b) n u) t := by
  obtain ⟨hs, e⟩ := acceptCommand_next hrun
  rcases cartLoadOp_ends (s := { s with busy := true }) id (stopped_eq_false.2 hs.2) with
    ⟨u, r, e', hu, -⟩ | ⟨b, n, u, -, -, hu, -, e'⟩
  · rw [e, e', endWith_halted, hu.halted] at h
    exact absurd (hs.2.1.symm.trans h) Bool.false_ne_true
  · rw [e, e'] at h ⊢
    have hh : (cartAnnounced id (headerFields b) n u).halted = false := by
      rw [cartAnnounced_eq]; exact hu.halted.trans hs.2.1
    have hst := preloadFrom_halted_runs hh (endWith_halted _ _ ▸ h)
    rw [cartAnnounced_eq] at hst
    exact ⟨b, n, u, hu, hst, .of_end (preloadBody_step _ _) (preloadFrom_clean _ 0 (.of_running hh)) h⟩

theorem cartLoad_halt_frame {id : Half} (hrun : exec (.cartLoad id) s = .next t) (h : t.halted = true) :
    t.hcause ≠ .none ∧ (∃ es, t.trace = s.trace ++ es ∧ ∀ e ∈ es, CartLoadEvent e) ∧
      t = { s with
        busy := true, halted := true, hcause := t.hcause, cart := t.cart, cartFileOpen := true,
        cartFileId := t.cartFileId, ramPages := t.ramPages, sram := [], sramDirty := 0, sramSaved := 0, rombank := 1,
        rambank := 0, rtc := Rtc.zero, rtcTicks := 0, warn := t.warn, slot := t.slot, ftag := t.ftag,
        pool := t.pool, cartHandle := t.cartHandle, trace := t.trace, answers := t.answers, choices := t.choices,
        freeCount := t.freeCount } := by
  obtain ⟨⟨-, -, hst⟩, -⟩ := acceptCommand_next hrun
  obtain ⟨b, n, u, ⟨es, ch, an, fc, sd, rfl, hes⟩, hsd, hhalt⟩ := cartLoad_halts hrun h
  obtain rfl : sd = false := hsd
  obtain ⟨es', hannounced, hes'⟩ := cartAnnounced_events id (headerFields b) n
    { s with busy := true, trace := s.trace ++ es, cartHandle := ch, answers := an, freeCount := fc, stalled := false }
  obtain ⟨es'', hpreload, hes''⟩ := hhalt.step.2
  refine ⟨hhalt.cause, ⟨es ++ es' ++ es'', ?_, ?_⟩, ?_⟩
  · rw [hpreload, hannounced, List.append_assoc, List.append_assoc, List.append_assoc]
  · intro e he
    rcases List.mem_append.1 he with he | he
    · rcases List.mem_append.1 he with he | he
      · exact .inl (hes e he)
      · exact hes' e he
    · exact .inl (hes'' e he)
  · have hframe := hhalt.frame (by rw [cartAnnounced_eq]; rfl)
    rw [cartAnnounced_eq] at hframe
    rw [hframe, hst]
    rfl

/-! ### Which operations halt -/

/-- The operations that fill a bank or check a range, and so can halt the block (R101, R104, R107, R109). -/
def canHalt : Instr → Bool
  | .cartLoad _ => true
  | .bankLoad _ => true
  | .preload _ => true
  | .rd _ => true
  | .wr _ _ => true
  | _ => false

theorem cartUnloadOp_halted (hst : s.stalled = false) : (cartUnloadOp s).halted = s.halted := by
  unfold cartUnloadOp
  split
  · obtain ⟨fc, ⟨-, e⟩ | ⟨-, e⟩⟩ := closeThen_cases (s := { s with slot := [], ftag := [], ramPages := 0, sram := [] })
      .cart cartFileClosed hst
    · rw [e]
    · rw [e]; rfl
  · rfl

theorem frameOp_halted (draw : Bool) (s : State) : (frameOp draw s).halted = s.halted := by
  unfold frameOp
  split
  · rfl
  · rw [requestQuantum_eq]

/-- Every other operation leaves `halted` as it was, whatever storage answers. -/
theorem exec_keeps_halted {i : Instr} (hi : canHalt i = false) (hrun : exec i s = .next t) : t.halted = s.halted := by
  cases i with
  | cartUnload =>
    obtain ⟨hs, rfl⟩ := acceptCommand_next hrun
    exact cartUnloadOp_halted (s := { s with busy := true }) hs.2.2
  | sramSave id quick => rw [(sramSave_frame hrun).1]
  | sramLoad id => rw [(sramLoad_frame hrun).1]
  | stateSave id => rw [(stateSave_frame hrun).1]
  | stateLoad id => rw [stateLoad_frame hrun]
  | frame draw =>
    obtain ⟨-, rfl⟩ := acceptCommand_next hrun
    exact frameOp_halted draw _
  | rtcGet => obtain ⟨-, rfl⟩ := acceptCommand_next hrun; rfl
  | rtcSet => obtain ⟨-, rfl⟩ := acceptCommand_next hrun; rfl
  | selrom v => obtain ⟨-, rfl⟩ := acceptBus_next (op := fun u => { u with rombank := v }) hrun; rfl
  | selram v => obtain ⟨-, rfl⟩ := acceptBus_next (op := fun u => { u with rambank := v }) hrun; rfl
  | _ => cases hi

/-- A block that answers an operation has not halted before it. -/
theorem exec_runs {i : Instr} (hrun : exec i s = .next t) : s.halted = false := by
  cases hp : i.port with
  | command =>
    obtain ⟨op, e⟩ := exec_eq_acceptCommand hp
    exact (acceptCommand_next ((e s).symm.trans hrun)).1.2.1
  | bus =>
    obtain ⟨op, e⟩ := exec_eq_acceptBus hp
    exact (acceptBus_next ((e s).symm.trans hrun)).1.1

theorem exec_halted_canHalt {i : Instr} (hrun : exec i s = .next t) (h : t.halted = true) : canHalt i = true := by
  by_contra hi
  rw [exec_keeps_halted (by simpa using hi) hrun, exec_runs hrun] at h
  cases h

/-- Settles O10: by the operation that halts. -/
theorem fatalErrorWritesOnlyTheHalt : Obligations.FatalErrorWritesOnlyTheHalt := by
  intro i s t hrun h
  have hi := exec_halted_canHalt hrun h
  cases i with
  | cartLoad id =>
    obtain ⟨hcause, htrace, hframe⟩ := cartLoad_halt_frame hrun h
    exact ⟨hcause, .inr (.inl ⟨⟨id, rfl⟩, htrace, hframe⟩)⟩
  | bankLoad n =>
    obtain ⟨hs, rfl⟩ := acceptCommand_next hrun
    have hhalt := bankLoadOp_bankHalted (s := { s with busy := true }) (stopped_eq_false.2 hs.2) h
    exact ⟨hhalt.cause, .inl ⟨.inl ⟨n, rfl⟩, hhalt.step.2, hhalt.frame hs.2.2⟩⟩
  | preload c =>
    obtain ⟨hs, rfl⟩ := acceptCommand_next hrun
    have hhalt := preloadOp_bankHalted (s := { s with busy := true }) (stopped_eq_false.2 hs.2) h
    exact ⟨hhalt.cause, .inl ⟨.inr ⟨c, rfl⟩, hhalt.step.2, hhalt.frame hs.2.2⟩⟩
  | rd addr =>
    obtain ⟨hq, rfl⟩ := acceptBus_next hrun
    have hhalt := rdOp_bankHalted (s := { s with rdata := none }) (stopped_eq_false.2 ⟨hq.1, hq.2.1⟩) h
    refine ⟨hhalt.cause, .inr (.inr ⟨rfl, hhalt.step.2, ?_⟩)⟩
    rw [hhalt.frame hq.2.1]
  | wr addr d =>
    obtain ⟨hq, rfl⟩ := acceptBus_next hrun
    have hhalt := wrOp_bankHalted (s := { s with rdata := none }) (stopped_eq_false.2 ⟨hq.1, hq.2.1⟩) h
    refine ⟨hhalt.cause, .inr (.inr ⟨rfl, hhalt.step.2, ?_⟩)⟩
    rw [hhalt.frame hq.2.1]
  | _ => cases hi

end Sys2Proof.Machine
end

section
/-! PROOFS. The clock (R133 to R135): one second on fields of any value, the seconds due on a clock in range, and the
commands RTC_GET and RTC_SET. -/

namespace Sys2Proof.Machine

variable {r q p : Rtc} {s : State}

/-! ### RTC_GET and RTC_SET -/

/-- Settles O13: the window is the ten fields in order, and the completion writes `result` alone. -/
theorem rtcGetFillsTheWindow : Obligations.RtcGetFillsTheWindow := by
  intro s hs
  refine ⟨{ s with result := 0, xd := rtcWindow s.rtc }, ?_, rfl, rfl, rfl, rfl, rfl, rfl, fun j => ?_⟩
  · exact (acceptCommand_ready hs rtcGetOp).trans (by rw [rtcGetOp, complete, hs.1])
  · match j with
    | 0 | 1 | 2 | 3 | 4 => rfl

/-- Settles O14: the clock is the low bits of the window, and the completion writes `result` alone. -/
theorem rtcSetTakesTheWindow : Obligations.RtcSetTakesTheWindow := by
  intro s hs
  refine ⟨{ s with result := 0, rtc := rtcFromWindow s.xd s.rtc }, ?_, rfl, rfl, rfl, rfl, rfl, rfl, fun j => ?_, rfl,
    rfl⟩
  · exact (acceptCommand_ready hs rtcSetOp).trans (by rw [rtcSetOp, complete, hs.1])
  · match j with
    | 0 | 1 | 2 | 3 | 4 => rfl

/-! ### RTC_ADVANCE -/

theorem rtcAdvance_runs (old n : Nat) (hc : s.cart.hasRtc = true) (hh : s.rtc.flags.getLsbD 6 = false) :
    rtcAdvance old n s = { s with rtc := seconds (secondsDue s.cfg.ticksPerSec old n) s.rtc } :=
  if_pos (by rw [rtcHalted, hc, hh]; rfl)

theorem rtcAdvance_drops (old n : Nat) (h : s.cart.hasRtc = false ∨ s.rtc.flags.getLsbD 6 = true) :
    rtcAdvance old n s = s := by
  rcases h with h | h <;> simp [rtcAdvance, rtcHalted, h]

theorem seconds_eq_iterate (k : Nat) (r : Rtc) : seconds k r = nextSecond^[k] r := by
  induction k generalizing r with
  | zero => rfl
  | succ k ih => exact ih (nextSecond r)

/-- A byte counter goes on to the next value, or wraps to 0 from 255. -/
theorem toNat_succ_byte (b : Byte) : (b + 1).toNat = if b.toNat = 255 then 0 else b.toNat + 1 := by
  have := b.isLt
  rw [BitVec.toNat_add]
  split <;> simp <;> omega

/-- Below the last value, or at 255, a byte counter does not carry (R133's `>=` tests). -/
theorem byte_succ_lt_iff (b : Byte) {m : Nat} (h1 : 1 ≤ m) (h2 : m ≤ 255) :
    (b + 1).toNat < m ↔ b.toNat < m - 1 ∨ b.toNat = 255 := by
  rw [toNat_succ_byte]; split <;> omega

/-- Settles O16: RTC_ADVANCE by its guard, one second by the first field that does not carry; the premises of every
other clause then contradict one another. -/
theorem clockDropsSecondsAndClampsFields : Obligations.ClockDropsSecondsAndClampsFields := by
  refine ⟨fun s old n => rtcAdvance_drops old n, fun s old n hc hh => ?_, fun r => ?_⟩
  · rw [rtcAdvance_runs old n hc hh, seconds_eq_iterate]; rfl
  · have hsec := byte_succ_lt_iff r.sec (m := 60) (by omega) (by omega)
    have hmin := byte_succ_lt_iff r.min (m := 60) (by omega) (by omega)
    have hhour := byte_succ_lt_iff r.hour (m := 24) (by omega) (by omega)
    rcases nextSecond_cases r with ⟨h, e⟩ | ⟨h, h', e⟩ | ⟨h, h', h'', e⟩ | ⟨h, h', h'', h3, e⟩ | ⟨h, h', h'', h3, e⟩
    · refine ⟨fun _ => e, fun _ _ => ?_⟩; omega
    · refine ⟨fun _ => ?_, fun _ _ => ⟨fun _ => e, fun _ _ => ?_⟩⟩ <;> omega
    · refine ⟨fun _ => ?_, fun _ _ => ⟨fun _ => ?_, fun _ _ => ⟨fun _ => e, fun _ _ => ?_⟩⟩⟩ <;> omega
    · refine ⟨fun _ => ?_, fun _ _ => ⟨fun _ => ?_, fun _ _ => ⟨fun _ => ?_, fun _ _ => ⟨fun _ => e,
        fun _ => ?_⟩⟩⟩⟩ <;> omega
    · refine ⟨fun _ => ?_, fun _ _ => ⟨fun _ => ?_, fun _ _ => ⟨fun _ => ?_, fun _ _ => ⟨fun _ => ?_,
        fun _ => e⟩⟩⟩⟩ <;> omega

/-! ### A clock in range -/

/-- `q` is the clock `r`, `k` seconds on in the calendar of 366 days (R24, R133). -/
structure SecondsOn (k : Nat) (r q : Rtc) : Prop where
  range : ClockInRange q
  seconds : clockSeconds q = (clockSeconds r + k) % 31622400
  flags : q.flags = if 31622400 ≤ clockSeconds r + k then r.flags ||| 0x80 else r.flags
  latch : q.latch = r.latch
  sel : q.sel = r.sel
  regs : q.regs = r.regs

theorem ClockInRange.clockSeconds_lt (h : ClockInRange r) : clockSeconds r < 31622400 := by
  obtain ⟨h1, h2, h3, h4⟩ := h
  unfold clockSeconds; omega

theorem SecondsOn.zero (h : ClockInRange r) : SecondsOn 0 r r := by
  have hlt := h.clockSeconds_lt
  exact ⟨h, by omega, by rw [if_neg (by omega)], rfl, rfl, rfl⟩

/-- The carry bit, once set, stays. -/
theorem SecondsOn.trans {j k : Nat} (h₁ : SecondsOn j r q) (h₂ : SecondsOn k q p) : SecondsOn (j + k) r p where
  range := h₂.range
  seconds := by rw [h₂.seconds, h₁.seconds]; omega
  flags := by
    have hcarry : (r.flags ||| 0x80) ||| 0x80 = r.flags ||| 0x80 := by rw [BitVec.or_assoc, BitVec.or_self]
    rw [h₂.flags, h₁.flags, h₁.seconds]
    by_cases hj : 31622400 ≤ clockSeconds r + j
    · rw [if_pos hj, hcarry, ite_self, if_pos (by omega)]
    · rw [if_neg hj, Nat.mod_eq_of_lt (by omega), Nat.add_assoc]
  latch := h₂.latch.trans h₁.latch
  sel := h₂.sel.trans h₁.sel
  regs := h₂.regs.trans h₁.regs

/-- A second that does not leave the last one of the calendar. -/
theorem SecondsOn.of_succ (hq : ClockInRange q) (hs : clockSeconds q = clockSeconds r + 1) (hf : q.flags = r.flags)
    (hl : q.latch = r.latch) (hsel : q.sel = r.sel) (hr : q.regs = r.regs) : SecondsOn 1 r q := by
  have hlt := hq.clockSeconds_lt
  exact ⟨hq, by omega, by rw [if_neg (by omega), hf], hl, hsel, hr⟩

/-- One second of the cascade is one second of the calendar. -/
theorem nextSecond_secondsOn (h : ClockInRange r) : SecondsOn 1 r (nextSecond r) := by
  obtain ⟨hs, hm, hh, hd⟩ := h
  have hsec := toNat_succ_byte r.sec
  have hmin := toNat_succ_byte r.min
  have hhour := toNat_succ_byte r.hour
  have hzero : (0 : Byte).toNat = 0 := rfl
  rw [if_neg (by omega)] at hsec hmin hhour
  rcases nextSecond_cases r with ⟨h1, e⟩ | ⟨h1, h2, e⟩ | ⟨h1, h2, h3, e⟩ | ⟨h1, h2, h3, h4, e⟩ | ⟨h1, h2, h3, h4, e⟩ <;>
    rw [e]
  · refine .of_succ ⟨h1, hm, hh, hd⟩ ?_ rfl rfl rfl rfl
    simp only [clockSeconds, hsec]; omega
  · refine .of_succ ⟨Nat.succ_pos _, h2, hh, hd⟩ ?_ rfl rfl rfl rfl
    simp only [clockSeconds, hmin, hzero]; omega
  · refine .of_succ ⟨Nat.succ_pos _, Nat.succ_pos _, h3, hd⟩ ?_ rfl rfl rfl rfl
    simp only [clockSeconds, hhour, hzero]; omega
  · have hday : (r.day + 1).toNat = r.day.toNat + 1 := by bv_omega
    refine .of_succ ⟨Nat.succ_pos _, Nat.succ_pos _, Nat.succ_pos _, hday.trans_le h4⟩ ?_ rfl rfl rfl rfl
    simp only [clockSeconds, hday, hzero]; omega
  · have hlast : clockSeconds r + 1 = 31622400 := by unfold clockSeconds; omega
    refine ⟨⟨Nat.succ_pos _, Nat.succ_pos _, Nat.succ_pos _, Nat.zero_le _⟩, ?_, (if_pos hlast.ge).symm, rfl, rfl, rfl⟩
    rw [hlast, Nat.mod_self, clockSeconds]
    simp only [hzero, show (0 : Half).toNat = 0 from rfl]

theorem seconds_secondsOn (k : Nat) (h : ClockInRange r) : SecondsOn k r (seconds k r) := by
  induction k generalizing r with
  | zero => exact .zero h
  | succ k ih =>
    have h1 := nextSecond_secondsOn h
    have hk := h1.trans (ih h1.range)
    rwa [Nat.add_comm] at hk

/-- Settles O15: each second due is one second of the calendar, by induction on their number. -/
theorem clockCountsTheSecondsDue : Obligations.ClockCountsTheSecondsDue := by
  intro s old n hc hh hr
  have hk := seconds_secondsOn (secondsDue s.cfg.ticksPerSec old n) hr
  dsimp only
  rw [rtcAdvance_runs old n hc hh]
  exact ⟨rfl, hk.range, hk.seconds, hk.flags, hk.latch, hk.sel, hk.regs⟩

end Sys2Proof.Machine
end

section
/-! PROOFS. How SRAM_LOAD ends, whatever storage answers (R127 to R132, R210). -/

namespace Sys2Proof.Machine

variable {s t u : State} {key : Nat} {id : Half}

/-! ### The end -/

/-- The end of a load that hangs, or closes its file and gives its code (R132, R210). -/
theorem loadEnded_cases (hh : u.halted = false) :
    (u.stalled = true ∧ loadEnded u = u) ∨
    (u.stalled = false ∧ loadEnded u = endWith (loadCode (stClose .op u)) (stClose .op u)) := by
  rcases unlessStalled_cases (closeThen .op loadResult) u with ⟨hst, e⟩ | ⟨hst, e⟩
  · exact .inl ⟨hst, e⟩
  · exact .inr ⟨hst, e.trans (closeThen_end hh fun v hv => loadResult_end hv)⟩

/-- A load has the code 0 exactly where it marked a bank (R132). -/
theorem loadCode_eq_zero : loadCode s = 0 ↔ ∃ i, bitOf s.sramSaved i = true := by
  unfold loadCode
  split
  · rename_i h
    refine ⟨fun hz => absurd hz (by decide), fun ⟨i, hi⟩ => ?_⟩
    rw [h] at hi
    exact Bool.noConfusion (BitVec.getLsbD_zero.symm.trans hi)
  · rename_i h
    refine ⟨fun _ => by_contra fun hn => h (eq_of_bits fun i => ?_), fun _ => rfl⟩
    rw [show bitOf (0 : Word) i = false from BitVec.getLsbD_zero]
    exact Bool.eq_false_iff.2 fun hi => hn ⟨i, hi⟩

theorem loadCode_cases (s : State) : loadCode s = 0 ∨ loadCode s = 0xFFFFFFFE := by
  unfold loadCode
  split
  · exact .inr rfl
  · exact .inl rfl

/-- The battery RAM, its marks and the clock are those of `s`. -/
structure SameRam (s t : State) : Prop where
  dirty : t.sramDirty = s.sramDirty
  saved : t.sramSaved = s.sramSaved
  sram : t.sram = s.sram
  rtc : t.rtc = s.rtc

theorem SameRam.trans (h₁ : SameRam s t) (h₂ : SameRam t u) : SameRam s u :=
  ⟨h₂.dirty.trans h₁.dirty, h₂.saved.trans h₁.saved, h₂.sram.trans h₁.sram, h₂.rtc.trans h₁.rtc⟩

theorem OpStep.sameRam (h : OpStep key s t) : SameRam s t := ⟨h.masks.1, h.masks.2, h.sram, h.rtc⟩

theorem endWith_sameRam (r : Word) (u : State) : SameRam u (endWith r u) := by
  unfold endWith; split <;> exact ⟨rfl, rfl, rfl, rfl⟩

/-- The end of a load touches neither battery RAM nor clock. -/
theorem loadEnded_sameRam (hh : u.halted = false) : SameRam u (loadEnded u) := by
  rcases loadEnded_cases hh with ⟨-, e⟩ | ⟨-, e⟩ <;> rw [e]
  · exact ⟨rfl, rfl, rfl, rfl⟩
  · exact (close_step (key := 0) u).sameRam.trans (endWith_sameRam _ _)

/-- A command that ended with a load's code shows it. -/
theorem loadCode_endWith (r : Word) (u : State) : loadCode (endWith r u) = loadCode u := by
  unfold loadCode; rw [(endWith_sameRam r u).saved]

theorem loadEnded_result (hh : u.halted = false) (hst : (loadEnded u).stalled = false) :
    (loadEnded u).result = loadCode (loadEnded u) := by
  rcases loadEnded_cases hh with ⟨hs, e⟩ | ⟨-, e⟩ <;> rw [e] at hst ⊢
  · exact Bool.noConfusion (hs.symm.trans hst)
  · rw [loadCode_endWith]
    exact endWith_result _ (stopped_eq_false.2 ⟨(endWith_halted _ _).trans ((stClose_halted .op u).trans hh), hst⟩)

/-! ### The banks and the clock -/

/-- How a load ends, from the state `s` in which its marks are cleared (R128 to R132). -/
structure LoadEnd (key : Nat) (s t : State) : Prop where
  code : t.stalled = false → t.result = loadCode t
  dirty : t.sramDirty = s.sramDirty
  marks : ∀ i, bitOf t.sramSaved i = true → i < s.cart.ramsize ∧ (i + 1) * 8192 ≤ (fileAt key s).len
  bytes : ∀ i off, off < 8192 → t.sram.read (i * 8192 + off) =
    if bitOf t.sramSaved i = true then (fileAt key s).data.read (i * 8192 + off) else s.sram.read (i * 8192 + off)
  clock : t.rtc = s.rtc ∨ s.cart.hasRtc = true ∧
    ClockLoadedFrom (fileAt key s).data (s.cart.ramsize * 8192) s.rtc t.rtc

/-- The loop over the cartridge's banks, then the clock's read (R129, R130). -/
def loadBody (u : State) : State := loadClock (loadRamBanks 0 u.cart.ramsize u)

theorem loadOpened_true (u : State) : loadOpened (true, u) = loadEnded (loadBody u) := rfl

/-- A load that fails or hangs before its first read takes nothing. -/
theorem LoadEnd.of_sameRam (h : SameRam s t) (hn : s.sramSaved = 0)
    (hcode : t.stalled = false → t.result = loadCode t) : LoadEnd key s t := by
  have hoff : ∀ i, bitOf t.sramSaved i = false := fun i => by rw [h.saved, hn]; exact BitVec.getLsbD_zero
  exact ⟨hcode, h.dirty, fun i hi => Bool.noConfusion ((hoff i).symm.trans hi),
    fun i off _ => by simp [hoff, h.sram], .inl h.rtc⟩

/-- An open that does not answer (R128, R129). -/
theorem failedOpen_code (hn : u.sramSaved = 0) :
    SameRam u (unlessStalled (raiseError .storage) u) ∧
    ((unlessStalled (raiseError .storage) u).stalled = false →
      (unlessStalled (raiseError .storage) u).result = loadCode (unlessStalled (raiseError .storage) u)) := by
  rcases unlessStalled_cases (raiseError .storage) u with ⟨hst, e⟩ | ⟨-, e⟩ <;> rw [e]
  · exact ⟨⟨rfl, rfl, rfl, rfl⟩, fun h => Bool.noConfusion (hst.symm.trans h)⟩
  · exact ⟨⟨rfl, rfl, rfl, rfl⟩, fun _ => (if_pos hn).symm⟩

/-- A load whose file was opened (R129 to R132). -/
theorem LoadEnd.of_opened (hon : HandleOn key u) (hr : u.cart.ramsize ≤ 32) (hn : u.sramSaved = 0)
    (hh : u.halted = false) : LoadEnd key u (loadEnded (loadBody u)) := by
  have hoff : ∀ i, bitOf u.sramSaved i = false := fun i => by rw [hn]; exact BitVec.getLsbD_zero
  obtain ⟨hloop, hid, hrtc, hout, hmarks, hbytes⟩ :=
    loadRamBanks_law (i := 0) u.cart.ramsize hon (by omega) fun i _ => hoff i
  obtain ⟨hcfg, hcart, hfiles, hdirty⟩ := hloop.rest
  obtain ⟨hlast, -, hsaved, hsram, hclock⟩ := loadClock_law (hon.of_id hcfg hid)
  have hb : (loadBody u).halted = false := hlast.halted.trans (hloop.halted.trans hh)
  have hend := loadEnded_sameRam hb
  have hsaved' : (loadEnded (loadBody u)).sramSaved = (loadRamBanks 0 u.cart.ramsize u).sramSaved :=
    hend.saved.trans hsaved
  have hsram' : (loadEnded (loadBody u)).sram = (loadRamBanks 0 u.cart.ramsize u).sram := hend.sram.trans hsram
  rw [hcart, hrtc, fileAt_of_files hfiles] at hclock
  refine ⟨loadEnded_result hb, hend.dirty.trans (hlast.rest.2.2.2.trans hdirty), fun i hi => ?_, fun i off ho => ?_, ?_⟩
  · rw [hsaved'] at hi
    obtain ⟨h1, h2⟩ := hmarks i (Nat.zero_le i) hi
    exact ⟨by omega, h2⟩
  · rw [hsaved', hsram', hbytes i off ho]
    simp
  · rw [hend.rtc]
    exact hclock.imp_right fun ⟨h1, _, h2⟩ => ⟨h1, h2⟩

/-- The state in which SRAM_LOAD opens its file: accepted, the marks cleared (R62, R128). -/
def cleared (s : State) : State := { s with busy := true, sramDirty := 0, sramSaved := 0 }

/-- An SRAM_LOAD that is not refused (R127, R128). -/
theorem sramLoadOp_eq (hl : s.cart.loaded = true) (hb : s.cart.hasBattery = true) :
    sramLoadOp id { s with busy := true } = loadOpened (stOpen .op id .read (cleared s)) := by
  unfold sramLoadOp
  rw [if_neg (by simp [hl, hb])]
  rfl

/-- What the state after the open has of the state before it. -/
theorem LoadEnd.of_open (h : LoadEnd key u t) (hu : OpStep key s u) (hf : u.files = s.files) : LoadEnd key s t := by
  obtain ⟨hcode, hdirty, hmarks, hbytes, hclock⟩ := h
  rw [hu.cart, fileAt_of_files hf] at hmarks
  rw [fileAt_of_files hf, hu.sram] at hbytes
  rw [fileAt_of_files hf, hu.cart, hu.rtc] at hclock
  exact ⟨hcode, hdirty.trans hu.masks.1, hmarks, hbytes, hclock⟩

/-- SRAM_LOAD ends so, whatever storage answers. -/
theorem sramLoadOp_loadEnd (hs : s.ready) (hl : s.cart.loaded = true) (hb : s.cart.hasBattery = true)
    (hr : s.cart.ramsize ≤ 32) :
    LoadEnd (fileKey s id) (cleared s) (sramLoadOp id { s with busy := true }) := by
  rw [sramLoadOp_eq hl hb]
  have hu := open_step id .read (cleared s)
  have hf := stOpen_read_files .op id (cleared s)
  have hok := open_handle (id := id) (mode := .read) (s := cleared s)
  generalize stOpen .op id .read (cleared s) = q at hu hf hok
  obtain ⟨b, u⟩ := q
  have hh : u.halted = false := hu.halted.trans hs.2.1
  have hn : u.sramSaved = 0 := hu.masks.2
  cases b with
  | false =>
    obtain ⟨hsame, hcode⟩ := failedOpen_code hn
    exact .of_sameRam (hu.sameRam.trans hsame) rfl hcode
  | true =>
    have hon : HandleOn (fileKey s id) u := Opened.on (s := cleared s) (mode := .read) ⟨hu, hok rfl, fun _ => hf⟩
    rw [loadOpened_true]
    exact (LoadEnd.of_opened hon (hu.cart ▸ hr) hn hh).of_open hu hf

/-- A load whose file is not there, or whose open the oracle does not answer with `ok`, takes nothing (R129, R210). -/
theorem sramLoadOp_open_fails (hl : s.cart.loaded = true) (hb : s.cart.hasBattery = true)
    (h : Tab.get? s.files (fileKey s id) = none ∨ ∃ a rest, s.answers = a :: rest ∧ a ≠ .ok) :
    SameRam (cleared s) (sramLoadOp id { s with busy := true }) ∧
    (sramLoadOp id { s with busy := true }).trace = s.trace ++ [.stOpen .op id .read] := by
  have hopen : stOpen .op id .read (cleared s) = (false, answerTaken (emit (.stOpen .op id .read) (cleared s))) := by
    refine if_pos ?_
    rcases h with h | ⟨a, rest, ha, hn⟩
    · rw [show missing id .read (cleared s) = true from Option.isNone_iff_eq_none.2 h, Bool.true_or]
    · rw [nextFails_of_not_ok (s := cleared s) ha hn, Bool.or_true]
  rw [sramLoadOp_eq hl hb, hopen]
  have hu := issued_step (key := 0) (.stOpen .op id .read) rfl (cleared s)
  have htr : (answerTaken (emit (.stOpen .op id .read) (cleared s))).trace = s.trace ++ [.stOpen .op id .read] :=
    answerTaken_trace _
  generalize answerTaken (emit (.stOpen .op id .read) (cleared s)) = u at hu htr
  show SameRam _ (unlessStalled (raiseError .storage) u) ∧ (unlessStalled (raiseError .storage) u).trace = _
  rcases unlessStalled_cases (raiseError .storage) u with ⟨-, e⟩ | ⟨-, e⟩ <;> rw [e]
  · exact ⟨hu.sameRam, htr⟩
  · exact ⟨hu.sameRam.trans ⟨rfl, rfl, rfl, rfl⟩, htr⟩

/-- An SRAM_LOAD closes its handle or hangs, with `result` as it was (R210). -/
theorem sramLoadOp_closes (hs : s.ready) :
    (s.opHandle = none → (sramLoadOp id { s with busy := true }).stalled = false →
      (sramLoadOp id { s with busy := true }).opHandle = none) ∧
    ((sramLoadOp id { s with busy := true }).stalled = true →
      (sramLoadOp id { s with busy := true }).result = s.result) := by
  obtain ⟨u, r, e, ⟨⟨d, hu⟩, -⟩, hc⟩ :=
    sramLoadOp_ends (s := { s with busy := true }) id (stopped_eq_false.2 hs.2)
  rw [e, endWith_of_running r hu.busy (hu.halted.trans hs.2.1)]
  refine ⟨hc, fun hst => ?_⟩
  dsimp only at hst ⊢
  rw [if_pos hst]
  obtain ⟨_, _, _, _, _, _, _, _, rfl, -⟩ := hu
  rfl

/-- Settles O37: the load's marks, bytes and clock by how it ends, the rest by its frame. -/
theorem sramLoadKeepsBanksItCannotRead : Obligations.SramLoadKeepsBanksItCannotRead := by
  intro s id hs hl hb hr hm
  have hrun : exec (.sramLoad id) s = .next (sramLoadOp id { s with busy := true }) := acceptCommand_ready hs _
  obtain ⟨hframe, hstorage⟩ := sramLoad_frame hrun
  obtain ⟨hclose, hhung⟩ := sramLoadOp_closes (id := id) hs
  obtain ⟨hcode, hdirty, hmarks, hbytes, hclock⟩ := sramLoadOp_loadEnd (id := id) hs hl hb hr
  have hfail := sramLoadOp_open_fails (id := id) hl hb
  refine ⟨_, hrun, ?_⟩
  generalize sramLoadOp id { s with busy := true } = t at *
  have hbusy : t.busy = t.stalled := (congrArg State.busy hframe :)
  have hhalted : t.halted = s.halted := (congrArg State.halted hframe :)
  have hends : EndsOrHangs s t := by
    refine ⟨hhalted.trans hs.2.1, ?_⟩
    rw [hbusy]
    cases hst : t.stalled with
    | false => exact .inl ⟨rfl, rfl, by rw [hcode hst]; exact loadCode_cases t⟩
    | true => exact .inr ⟨rfl, rfl, hhung hst⟩
  have hdirty : t.sramDirty = 0 := hdirty
  rw [hdirty] at hframe
  refine ⟨by rw [hbusy]; exact hframe, hends, fun hst => by rw [hcode hst]; exact loadCode_eq_zero, hmarks, hbytes,
    hclock, fun h => ?_, hclose, hstorage⟩
  obtain ⟨hsame, htrace⟩ := hfail h
  exact ⟨hsame.saved, hsame.sram, hsame.rtc, htrace⟩

end Sys2Proof.Machine
end

section
/-! PROOFS. Storage primitives that all answer with `ok` (R51, R52): what a run of them leaves, from the open to the
close. -/

namespace Sys2Proof.Machine

variable {s t u : State} {key c : Nat} {id : Half}

/-- `t` is `s` after the primitives `es`, which all answered; the operation's handle is open on its file, and the next
`c` primitives will answer too. -/
structure Served (key c : Nat) (es : List Event) (s t : State) : Prop where
  trace : t.trace = s.trace ++ es
  freeCount : t.freeCount = s.freeCount
  on : HandleOn key t
  issue : CanIssue c t

theorem Served.none (hon : HandleOn key s) (h : CanIssue c s) : Served key c [] s s :=
  ⟨(List.append_nil _).symm, rfl, hon, h⟩

theorem Served.trans {d : Nat} {es es' : List Event} (h₁ : Served key d es s t) (h₂ : Served key c es' t u) :
    Served key c (es ++ es') s u :=
  ⟨by rw [h₂.trace, h₁.trace, List.append_assoc], h₂.freeCount.trans h₁.freeCount, h₂.on, h₂.issue⟩

/-- Two primitives that answer, on an open handle. -/
theorem CanIssue.two (hon : HandleOn key s) (h : CanIssue (c + 2) s) :
    ∃ hd rest, s.opHandle = some hd ∧ fileKey s hd.id = key ∧ s.answers = .ok :: .ok :: rest ∧
      rest.take c = List.replicate c .ok := by
  obtain ⟨hd, hh⟩ := Option.isSome_iff_exists.1 h.handle
  obtain ⟨r, ha, hr⟩ := storageOk_succ (k := c + 1) h.answers
  obtain ⟨rest, ha', hrest⟩ := storageOk_succ (s := { s with answers := r }) (k := c) hr
  exact ⟨hd, rest, hh, hon hd hh, by rw [ha]; exact congrArg _ ha', hrest⟩

/-- What a command does with the bytes and its marks leaves STORAGE and its answers. -/
theorem Served.marking {es : List Event} (h : Served key c es s t) (d v : Word) (m : Memory) (r : Rtc) :
    Served key c es s { t with sramDirty := d, sramSaved := v, sram := m, rtc := r } :=
  ⟨h.trace, h.freeCount, h.on, h.issue.runs, h.issue.handle, h.issue.answers⟩

/-- The open of a file that may be opened (R51). -/
theorem stOpen_served {mode : Mode} (hst : s.stalled = false) (ha : s.storageOk (c + 1))
    (hm : missing id mode s = false) :
    (stOpen .op id mode s).1 = true ∧
    Served (fileKey s id) c [.stOpen .op id mode] s (stOpen .op id mode s).2 := by
  obtain ⟨rest, ha', hrest⟩ := storageOk_succ ha
  have hkey := (open_step id mode s).key id
  rw [stOpen_ok .op id mode ha' hm] at hkey ⊢
  obtain ⟨fs, e⟩ := openedFiles_eq id mode { emit (.stOpen .op id mode) s with answers := rest }
  rw [e] at hkey ⊢
  refine ⟨rfl, rfl, rfl, fun hd hhd => ?_, hst, rfl, hrest⟩
  obtain rfl : _ = hd := Option.some.inj hhd
  exact hkey

/-- Seek-and-read gives what the file has there. -/
theorem seekRead_served (hon : HandleOn key s) (h : CanIssue (c + 2) s) (off n : Nat) :
    (seekRead off n s).1 = readAt (fileAt key s) off n ∧
    Served key c [.stSeek .op off, .stRead .op n] s (seekRead off n s).2 := by
  obtain ⟨hd, rest, hh, hk, ha, hrest⟩ := h.two hon
  obtain ⟨p, e⟩ := seekRead_ok hh hk ha off n
  have hon' := hon.of_id (seekRead_step (key := key) off n s).cfg (seekRead_opHandle off n s)
  rw [e] at hon' ⊢
  exact ⟨rfl, rfl, rfl, hon', h.runs, rfl, hrest⟩

@[simp] theorem setFile_trace (id : Half) (f : File) (s : State) : (setFile id f s).trace = s.trace := rfl

@[simp] theorem stWrite_trace (h : HandleName) (n : Nat) (b : Memory) (s : State) :
    (stWrite h n b s).2.trace = s.trace ++ [.stWrite h n b] := by
  unfold stWrite
  split
  · rfl
  · split <;> (simp only [setHandle_trace, setFile_trace, answerTaken_trace]; rfl)

/-- Seek-and-write leaves the bytes in the file. -/
theorem seekWrite_served (hon : HandleOn key s) (h : CanIssue (c + 2) s) (off n : Nat) (b : Memory) :
    (seekWrite off n b s).1 = true ∧
    fileAt key (seekWrite off n b s).2 = (fileAt key s).written off n b ∧
    Served key c [.stSeek .op off, .stWrite .op n b] s (seekWrite off n b s).2 := by
  obtain ⟨hd, rest, hh, hk, ha, -⟩ := h.two hon
  obtain ⟨hok, hc⟩ := seekWrite_issued h off n b
  have hon' := hon.of_id (seekWrite_step hon off n b).cfg (seekWrite_opHandle off n b s)
  have hseek := stSeek_ok (h := .op) off hh ha
  have e : seekWrite off n b s = stWrite .op n b (stSeek .op off s).2 := if_pos (by rw [hseek])
  rw [e] at hok hc hon' ⊢
  refine ⟨hok, ?_, ?_, ?_, hon', hc⟩
  · rcases write_fileAt (key := key) (hd := { hd with pos := off }) (s := (stSeek .op off s).2) (by rw [hseek]; rfl)
      (by rw [hseek]; exact hk) n b with ⟨hno, -⟩ | ⟨-, hfile⟩
    · exact Bool.noConfusion (hno.symm.trans hok)
    · rw [hfile, fileAt_of_files (stSeek_files .op off s)]
  · rw [stWrite_trace, stSeek_trace, List.append_assoc]; rfl
  · rw [hseek, stWrite_ok (h := .op) n b rfl rfl]
    simp only [setHandle, setFile, emit]

/-- The close that ends a command (R126, R132). -/
theorem closing_served {f : State → State} {r : State → Word} (h : CanIssue 1 s) (hh : s.halted = false)
    (hf : ∀ v, stopped v = false → f v = endWith (r v) v) :
    ∃ rest, unlessStalled (closeThen .op f) s = { s with
      result := r { s with trace := s.trace ++ [.stClose .op], answers := rest, opHandle := none }, busy := false,
      trace := s.trace ++ [.stClose .op], answers := rest, opHandle := none } := by
  obtain ⟨rest, ha, -⟩ := storageOk_succ (k := 0) h.answers
  rw [unlessStalled_of_not _ h.runs, closeThen_returns .op f h.runs ha (by decide)]
  have hrun : stopped (setHandle .op none { s with trace := s.trace ++ [.stClose .op], answers := rest }) = false :=
    stopped_eq_false.2 ⟨hh, h.runs⟩
  rw [hf _ hrun, endWith_of_not _ hrun]
  exact ⟨rest, rfl⟩

end Sys2Proof.Machine
end

section
/-! PROOFS. SRAM_LOAD without a storage failure (R128 to R132). -/

namespace Sys2Proof.Machine

variable {s t u : State} {key c i : Nat} {id : Half} {f : File}

/-- One bank of the load loop: marked where the file holds it in full, and no mark is lost (R129). -/
theorem loadRamBank_served (hon : HandleOn key s) (h : CanIssue (c + 2) s) (hi : i < 32) :
    Served key c [.stSeek .op (i * 8192), .stRead .op 8192] s (loadRamBank i s) ∧
    ((i + 1) * 8192 ≤ (fileAt key s).len → bitOf (loadRamBank i s).sramSaved i = true) ∧
    ∀ j, bitOf s.sramSaved j = true → bitOf (loadRamBank i s).sramSaved j = true := by
  obtain ⟨hans, hserved⟩ := seekRead_served hon h (ramOffset i) ramPage
  obtain ⟨-, -, -, hlaw⟩ := loadRamBank_law (i := i) hon
  refine ⟨?_, fun hlen => ?_, fun j hj => ?_⟩
  · unfold loadRamBank
    generalize seekRead (ramOffset i) ramPage s = q at hserved
    obtain ⟨a, v⟩ := q
    cases a with
    | full b => exact hserved.marking _ _ _ _
    | eof k b => exact hserved
    | fail => exact hserved
  · unfold loadRamBank
    rw [readAt, if_pos (by show i * 8192 + 8192 ≤ _; omega)] at hans
    generalize seekRead (ramOffset i) ramPage s = q at hans
    obtain ⟨a, v⟩ := q
    obtain rfl : a = _ := hans
    exact (bitOf_setBit _ i i).trans (by simp [hi])
  · rcases hlaw with ⟨e, -⟩ | ⟨-, e, -⟩ <;> rw [e]
    · exact hj
    · rw [bitOf_setBit, hj, Bool.true_or]

/-- The load loop with two answers for each bank. -/
theorem loadRamBanks_served (k : Nat) (hon : HandleOn key s) (h : CanIssue (c + 2 * k) s) (hi : i + k ≤ 32) :
    (∃ es, Served key c es s (loadRamBanks i k s)) ∧
    (∀ j, i ≤ j → j < i + k → (j + 1) * 8192 ≤ (fileAt key s).len →
      bitOf (loadRamBanks i k s).sramSaved j = true) ∧
    ∀ j, bitOf s.sramSaved j = true → bitOf (loadRamBanks i k s).sramSaved j = true := by
  induction k generalizing i s with
  | zero => exact ⟨⟨[], .none hon h⟩, fun j h1 h2 => absurd h2 (by omega), fun _ h => h⟩
  | succ k ih =>
    rw [loadRamBanks_succ h.runs]
    obtain ⟨hbank, hmark, hkeep⟩ := loadRamBank_served (c := c + 2 * k) (i := i) hon h (by omega)
    have hfile := fileAt_of_files (loadRamBank_law (i := i) hon).1.rest.2.2.1 key
    obtain ⟨⟨es, hrest⟩, hmarks, hkeeps⟩ := ih (i := i + 1) hbank.on hbank.issue (by omega)
    refine ⟨⟨_, hbank.trans hrest⟩, fun j h1 h2 hlen => ?_, fun j hj => hkeeps j (hkeep j hj)⟩
    by_cases hj : j = i
    · subst hj; exact hkeeps j (hmark hlen)
    · exact hmarks j (by omega) (by omega) (by rw [hfile]; exact hlen)

/-- The clock takes the record where the file holds it in full, and else stays (R130). -/
theorem loadClock_served (hon : HandleOn key s) (h : CanIssue (c + (if s.cart.hasRtc then 2 else 0)) s) :
    (∃ es, Served key c es s (loadClock s)) ∧
    if s.cart.hasRtc = true ∧ s.cart.ramsize * 8192 + 48 ≤ (fileAt key s).len
    then ClockLoadedFrom (fileAt key s).data (s.cart.ramsize * 8192) s.rtc (loadClock s).rtc
    else (loadClock s).rtc = s.rtc := by
  unfold loadClock
  rw [if_neg (by simp [h.runs])]
  cases hr : s.cart.hasRtc with
  | false =>
    rw [if_neg (by simp), if_neg (by simp)]
    exact ⟨⟨[], .none hon (h.mono (by omega))⟩, rfl⟩
  | true =>
    rw [hr] at h
    obtain ⟨hans, hserved⟩ := seekRead_served hon h (ramOffset s.cart.ramsize) rtcRecSize
    have hrtc := (seekRead_step (key := key) (ramOffset s.cart.ramsize) rtcRecSize s).rtc
    rw [if_pos rfl]
    generalize seekRead (ramOffset s.cart.ramsize) rtcRecSize s = q at hans hserved hrtc
    obtain ⟨a, v⟩ := q
    have hrtc : v.rtc = s.rtc := hrtc
    by_cases hlen : s.cart.ramsize * 8192 + 48 ≤ (fileAt key s).len
    · rw [readAt, if_pos (show ramOffset s.cart.ramsize + rtcRecSize ≤ _ from hlen)] at hans
      obtain rfl : a = _ := hans
      rw [if_pos ⟨rfl, hlen⟩]
      refine ⟨⟨_, hserved.marking _ _ _ _⟩, ?_⟩
      show ClockLoadedFrom _ _ _ (rtcUnpack _ v.rtc)
      rw [hrtc]
      exact clockLoadedFrom_of _ _ _
    · rw [readAt, if_neg (show ¬ ramOffset s.cart.ramsize + rtcRecSize ≤ _ from hlen)] at hans
      obtain rfl : a = _ := hans
      rw [if_neg fun h => hlen h.2]
      exact ⟨⟨_, hserved⟩, hrtc⟩

/-- An SRAM_LOAD whose primitives all answer: it closes its handle, has marked every bank the file holds in full, and
has loaded the clock where the file holds the record in full (R128 to R132). -/
structure LoadServed (f : File) (s t : State) : Prop where
  runs : t.stalled = false
  freeCount : t.freeCount = s.freeCount
  closed : t.opHandle = none
  marks : ∀ i, i < s.cart.ramsize → (i + 1) * 8192 ≤ f.len → bitOf t.sramSaved i = true
  clock : if s.cart.hasRtc = true ∧ s.cart.ramsize * 8192 + 48 ≤ f.len
    then ClockLoadedFrom f.data (s.cart.ramsize * 8192) s.rtc t.rtc else t.rtc = s.rtc

/-- From the state after the open, no bank being marked. -/
theorem loadEnded_served (hon : HandleOn key u) (hr : u.cart.ramsize ≤ 32) (hh : u.halted = false)
    (hn : u.sramSaved = 0)
    (h : CanIssue (1 + (if u.cart.hasRtc then 2 else 0) + 2 * u.cart.ramsize) u) :
    LoadServed (fileAt key u) u (loadEnded (loadBody u)) := by
  obtain ⟨⟨es, hloop⟩, hmarks, -⟩ := loadRamBanks_served (i := 0) u.cart.ramsize hon h (by omega)
  obtain ⟨hstep, hid, hrtc, -⟩ := loadRamBanks_law (i := 0) u.cart.ramsize hon (by omega) fun j _ => by
    rw [hn]; exact BitVec.getLsbD_zero
  obtain ⟨hcfg, hcart, hfiles, -⟩ := hstep.rest
  have hon' := hon.of_id hcfg hid
  obtain ⟨⟨es', hlast⟩, hclock⟩ := loadClock_served (c := 1) hon' (by rw [hcart]; exact hloop.issue)
  obtain ⟨hlaw, -, hsaved, -⟩ := loadClock_law hon'
  rw [hcart, hrtc, fileAt_of_files hfiles] at hclock
  have hw := hlaw.halted.trans (hstep.halted.trans hh)
  obtain ⟨rest, e⟩ := closing_served hlast.issue hw fun v hv => loadResult_end hv
  have e : loadEnded (loadBody u) = _ := e
  rw [e]
  exact ⟨hlast.issue.runs, hlast.freeCount.trans hloop.freeCount, rfl,
    fun i hi hlen => by rw [← hmarks i (Nat.zero_le i) (by omega) hlen]; exact congrArg (bitOf · i) hsaved, hclock⟩

/-- The same from the state in which the command is accepted. -/
theorem sramLoadOp_served (hs : s.ready) (hl : s.cart.loaded = true) (hb : s.cart.hasBattery = true)
    (hr : s.cart.ramsize ≤ 32) (hf : Tab.get? s.files (fileKey s id) = some f)
    (ha : s.storageOk (2 + 2 * s.cart.ramsize + (if s.cart.hasRtc then 2 else 0))) :
    LoadServed f s (sramLoadOp id { s with busy := true }) := by
  obtain ⟨hok, hopen⟩ := stOpen_served (s := cleared s) (id := id) (mode := .read)
    (c := 1 + (if s.cart.hasRtc then 2 else 0) + 2 * s.cart.ramsize) hs.2.2 (storageOk_mono (s := s) ha (by omega))
    (by rw [missing, show Tab.get? (cleared s).files (fileKey (cleared s) id) = some f from hf]; rfl)
  have hu := open_step id .read (cleared s)
  have hfiles := stOpen_read_files .op id (cleared s)
  rw [sramLoadOp_eq hl hb]
  generalize stOpen .op id .read (cleared s) = q at hok hopen hu hfiles
  obtain ⟨b, u⟩ := q
  obtain rfl : b = true := hok
  have hcart : u.cart = s.cart := hu.cart
  have hrtc : u.rtc = s.rtc := hu.rtc
  have hfile : fileAt (fileKey (cleared s) id) u = f :=
    (fileAt_of_files hfiles _).trans (fileNamed_of_get? (s := cleared s) hf)
  have hfree : u.freeCount = s.freeCount := hopen.freeCount
  have hend := loadEnded_served hopen.on (hcart ▸ hr) (hu.halted.trans hs.2.1)
    hu.masks.2 (by rw [hcart]; exact hopen.issue)
  rw [hfile] at hend
  obtain ⟨hruns, hfc, hclosed, hmarks, hclock⟩ := hend
  rw [hcart] at hmarks hclock
  rw [hrtc] at hclock
  exact ⟨hruns, hfc.trans hfree, hclosed, hmarks, hclock⟩

/-- Settles O36: what SRAM_LOAD does under any storage, with every bank marked that the file holds in full. -/
theorem sramLoadRestoresTheBanksOfTheFile : Obligations.SramLoadRestoresTheBanksOfTheFile := by
  intro s id f hs hl hb hone hr hm hf ha
  obtain ⟨t, hrun, hframe, hends, hresult, hmarks, hbytes, -, -, -, hstorage⟩ :=
    sramLoadKeepsBanksItCannotRead s id hs hl hb hr hm
  obtain ⟨hruns, hfree, hclosed, hmarked, hclock⟩ : LoadServed f s t := by
    obtain ⟨-, rfl⟩ := acceptCommand_next hrun
    exact sramLoadOp_served hs hl hb hr hf ha
  have hfile : fileNamed s id = f := fileNamed_of_get? hf
  rw [hfile] at hmarks
  have hbit : ∀ i, bitOf t.sramSaved i = true ↔ i < s.cart.ramsize ∧ (i + 1) * 8192 ≤ f.len := fun i =>
    ⟨hmarks i, fun h => hmarked i h.1 h.2⟩
  obtain ⟨-, ⟨-, hbusy, hcode⟩ | ⟨hno, -⟩⟩ := hends
  swap
  · exact Bool.noConfusion (hruns.symm.trans hno)
  have hres : t.result = if 8192 ≤ f.len then 0 else 0xFFFFFFFE := by
    split
    · exact (hresult hruns).2 ⟨0, (hbit 0).2 (by omega)⟩
    · refine hcode.resolve_left fun hz => ?_
      obtain ⟨i, hi⟩ := (hresult hruns).1 hz
      obtain ⟨-, hlen⟩ := (hbit i).1 hi
      omega
  refine ⟨t, hrun, ?_, fun i => ?_, fun i off ho => ?_, hclock, hstorage⟩
  · rwa [hres, hbusy.trans hs.1.symm, hruns.trans hs.2.2.symm, hfree, hclosed] at hframe
  · rw [Bool.eq_iff_iff, decide_eq_true_iff, hbit i]
  · rw [hbytes i off ho, memByte, hfile]
    simp only [hbit i]

end Sys2Proof.Machine
end

section
/-! PROOFS. SRAM_SAVE without a storage failure: the primitives in order, and what the file then is (R120 to R126). -/

namespace Sys2Proof.Machine

variable {s t u : State} {key c i : Nat} {id : Half}

/-! ### The loop and the clock's write -/

/-- The primitives that write bank `i` of the battery RAM `m` (R123). -/
def bankWrites (m : Memory) (i : Nat) : List Event :=
  [.stSeek .op (i * 8192), .stWrite .op 8192 (m.slice (i * 8192) 8192)]

/-- The bytes of the clock record (R124). -/
def clockBytes (s : State) : Memory := Memory.ofBytes (rtcRecord s.cfg.rtcEpoch s.rtc)

/-- The primitives that write the clock record, where the cartridge has a clock (R124). -/
def clockWrites (s : State) : List Event :=
  if s.cart.hasRtc then [.stSeek .op (s.cart.ramsize * 8192), .stWrite .op 48 (clockBytes s)] else []

/-- A bank that needs it is written at its place. -/
theorem saveBank_served (hon : HandleOn key s) (h : CanIssue (c + 2) s) (hn : needsSave s i = true) :
    Served key c (bankWrites s.sram i) s (saveBank i s) ∧
    (fileAt key (saveBank i s)).len = max (fileAt key s).len ((i + 1) * 8192) := by
  obtain ⟨hok, hfile, hserved⟩ := seekWrite_served hon h (ramOffset i) ramPage (ramBank s i)
  unfold saveBank
  rw [if_pos hn]
  generalize seekWrite (ramOffset i) ramPage (ramBank s i) s = q at hok hfile hserved
  obtain ⟨b, v⟩ := q
  obtain rfl : b = true := hok
  refine ⟨hserved.marking _ _ _ _, ?_⟩
  show (fileAt key v).len = _
  rw [hfile, Nat.add_mul, Nat.one_mul]
  rfl

/-- The save loop where every bank to come needs it, and the file ends where the first of them goes. -/
theorem saveBanks_served (k : Nat) (hon : HandleOn key s) (h : CanIssue (c + 2 * k) s) (hi : i + k ≤ 32)
    (hn : ∀ j, i ≤ j → needsSave s j = true) (hlen : (fileAt key s).len = i * 8192) :
    Served key c ((List.range' i k).flatMap (bankWrites s.sram)) s (saveBanks i k s) ∧
    (fileAt key (saveBanks i k s)).len = (i + k) * 8192 := by
  induction k generalizing i s with
  | zero => exact ⟨.none hon h, hlen⟩
  | succ k ih =>
    rw [saveBanks_succ h.runs]
    obtain ⟨hbank, hlen'⟩ := saveBank_served (c := c + 2 * k) hon h (hn i (Nat.le_refl i))
    obtain ⟨hstep, -, hothers, -⟩ := saveBank_law (i := i) hon (by omega)
    obtain ⟨hrest, hlast⟩ := ih (i := i + 1) hbank.on hbank.issue (by omega)
      (fun j hj => by
        rw [needsSave, (hothers j (by omega)).1, (hothers j (by omega)).2]; exact hn j (by omega))
      (by rw [hlen', hlen]; omega)
    rw [hstep.rest.2.2.1] at hrest
    exact ⟨hbank.trans hrest, by rw [hlast]; omega⟩

/-- A loop in which no bank needs saving (R123). -/
theorem saveBanks_unneeded (k : Nat) (hn : ∀ j, i ≤ j → j < i + k → needsSave s j = false) : saveBanks i k s = s := by
  induction k generalizing i with
  | zero => rfl
  | succ k ih =>
    cases hst : s.stalled with
    | true => exact saveBanks_stalled hst
    | false =>
      rw [saveBanks_succ hst, saveBank, if_neg (by rw [hn i (Nat.le_refl i) (by omega)]; decide)]
      exact ih fun j h1 h2 => hn j (by omega) (by omega)

/-- The clock record is written behind the banks. -/
theorem saveClock_served (hon : HandleOn key s) (h : CanIssue (c + (if s.cart.hasRtc then 2 else 0)) s) :
    (saveClock s).1 = true ∧ Served key c (clockWrites s) s (saveClock s).2 ∧
    fileAt key (saveClock s).2 = if s.cart.hasRtc then (fileAt key s).written (s.cart.ramsize * 8192) 48 (clockBytes s)
      else fileAt key s := by
  cases hr : s.cart.hasRtc with
  | false =>
    rw [saveClock_of_no_clock h.runs hr, clockWrites, hr]
    exact ⟨rfl, .none hon (h.mono (by omega)), rfl⟩
  | true =>
    rw [hr] at h
    obtain ⟨hok, hfile, hserved⟩ := seekWrite_served hon h (s.cart.ramsize * 8192) 48 (clockBytes s)
    have e : saveClock s = seekWrite (s.cart.ramsize * 8192) 48 (clockBytes s) s := by
      unfold saveClock; rw [if_neg (by simp [h.runs]), if_pos hr]; rfl
    rw [e, clockWrites, hr]
    exact ⟨hok, hserved, hfile⟩

/-! ### The open and the end -/

/-- Opening a file anew empties it (R51). -/
theorem stOpen_new_fileAt (hok : (stOpen .op id .writeNew s).1 = true) :
    fileAt (fileKey s id) (stOpen .op id .writeNew s).2 = ⟨0, []⟩ := by
  have hkey := (issued_step (key := fileKey s id) (.stOpen .op id .writeNew) rfl s).key id
  unfold stOpen at hok ⊢
  split
  · rename_i hc; rw [if_pos hc] at hok; cases hok
  · show (Tab.get? (Tab.set _ (fileKey _ id) _) (fileKey s id)).getD _ = _
    rw [hkey, Tab.get?_set, if_pos rfl, Option.getD_some]

/-- A save whose open answers goes on from a state whose file is empty, or for a quick save as it was (R121, R122). -/
theorem sramSaveOp_open_served {quick : Bool} (hs : s.ready) (hl : s.cart.loaded = true)
    (hb : s.cart.hasBattery = true) (ha : s.storageOk (c + 1)) :
    ∃ u, sramSaveOp id quick { s with busy := true } = saveEnded (saveBody u) ∧
      OpStep (fileKey s id) (marked quick s) u ∧
      Served (fileKey s id) c [.stOpen .op id (saveMode quick)] (marked quick s) u ∧
      fileAt (fileKey s id) u = if quick then fileAt (fileKey s id) s else ⟨0, []⟩ := by
  have he := marked_eq quick s
  have hkey : fileKey (marked quick s) id = fileKey s id := by rw [he]; rfl
  have hfs : (marked quick s).files = s.files := by rw [he]; rfl
  obtain ⟨hok, hopen⟩ := stOpen_served (s := marked quick s) (id := id) (mode := saveMode quick) (c := c)
    (by rw [he]; exact hs.2.2) (by rw [he]; exact ha) (missing_saveMode id quick _)
  have hu := open_step id (saveMode quick) (marked quick s)
  have hfile : fileAt (fileKey (marked quick s) id) (stOpen .op id (saveMode quick) (marked quick s)).2 =
      if quick then fileAt (fileKey (marked quick s) id) (marked quick s) else ⟨0, []⟩ := by
    cases quick with
    | true => exact stOpen_update_fileAt id _
    | false => exact stOpen_new_fileAt hok
  rw [sramSaveOp_eq hl hb]
  rw [hkey] at hu hopen hfile
  rw [fileAt_of_files hfs] at hfile
  generalize stOpen .op id (saveMode quick) (marked quick s) = q at hok hopen hu hfile
  obtain ⟨b, u⟩ := q
  obtain rfl : b = true := hok
  exact ⟨u, rfl, hu, hopen, hfile⟩

/-- An SRAM_SAVE whose primitives all answer, `es` those between its open and its close, and `w` the state before the
close. -/
structure SaveServed (es : List Event) (id : Half) (quick : Bool) (s w t : State) : Prop where
  runs : t.stalled = false
  freeCount : t.freeCount = s.freeCount
  closed : t.opHandle = none
  trace : t.trace = s.trace ++ [.stOpen .op id (saveMode quick)] ++ es ++ [.stClose .op]
  code : t.result = saveCode true w
  dirty : t.sramDirty = w.sramDirty
  saved : t.sramSaved = w.sramSaved
  files : t.files = w.files

/-- From the states after the open and before the close. -/
theorem SaveServed.of_body {quick : Bool} {es : List Event} {w : State} (hh : w.halted = false)
    (hu : Served key c [.stOpen .op id (saveMode quick)] (marked quick s) u) (hw : Served key 1 es u w) :
    SaveServed es id quick s w (saveEnded (true, w)) := by
  obtain ⟨rest, e⟩ := closing_served hw.issue hh fun v hv => saveResult_end true hv
  have e : saveEnded (true, w) = _ := e
  have htrace := hu.trace
  have hfree := hu.freeCount
  rw [marked_eq] at htrace hfree
  rw [e]
  exact ⟨hw.issue.runs, hw.freeCount.trans hfree, rfl, by show w.trace ++ _ = _; rw [hw.trace, htrace]; rfl, rfl, rfl,
    rfl, rfl⟩

/-! ### A full save -/

/-- A full save issues the writes of every bank and of the clock record, and the file ends behind them (R121 to
R126). -/
theorem fullSave_served (hs : s.ready) (hl : s.cart.loaded = true) (hb : s.cart.hasBattery = true)
    (hr : s.cart.ramsize ≤ 32) (ha : s.storageOk (2 + 2 * s.cart.ramsize + (if s.cart.hasRtc then 2 else 0))) :
    ∃ w, SaveServed ((List.range s.cart.ramsize).flatMap (bankWrites s.sram) ++ clockWrites s) id false s w
        (sramSaveOp id false { s with busy := true }) ∧
      (fileAt (fileKey s id) w).len = s.cart.ramsize * 8192 + (if s.cart.hasRtc then 48 else 0) := by
  obtain ⟨u, e, hu, hopen, hfile⟩ := sramSaveOp_open_served (id := id) (quick := false)
    (c := 1 + (if s.cart.hasRtc then 2 else 0) + 2 * s.cart.ramsize) hs hl hb (storageOk_mono ha (by omega))
  have hcart : u.cart = s.cart := hu.cart
  have hsram : u.sram = s.sram := hu.sram
  have hneed : ∀ j, 0 ≤ j → needsSave u j = true := fun j _ => by
    rw [(hu.sameBits j).needsSave]; exact needsSave_markAll j _
  obtain ⟨hloop, hlen⟩ := saveBanks_served (i := 0) s.cart.ramsize hopen.on hopen.issue (by omega) hneed
    (by rw [hfile]; rfl)
  obtain ⟨hstep, hon, -⟩ := saveBanks_law (i := 0) s.cart.ramsize hopen.on (by omega)
  obtain ⟨hcfg', hcart', -, hrtc'⟩ := hstep.rest
  obtain ⟨hok, hclock, hfile'⟩ := saveClock_served (c := 1) hon (by rw [hcart', hcart]; exact hloop.issue)
  have hwrites : clockWrites (saveBanks 0 s.cart.ramsize u) = clockWrites s := by
    unfold clockWrites clockBytes
    rw [hcart', hcart, hcfg', hrtc', hu.cfg, hu.rtc]; rfl
  have hhalt := (saveClock_step hon).halted.trans (hstep.halted.trans (hu.halted.trans hs.2.1))
  have hbody : saveBody u = (true, (saveBody u).2) := by
    unfold saveBody; rw [hcart]; exact Prod.ext hok rfl
  rw [hsram] at hloop
  rw [hwrites] at hclock
  have hw := hloop.trans hclock
  rw [e, hbody]
  unfold saveBody
  rw [hcart, List.range_eq_range']
  refine ⟨_, .of_body hhalt hopen hw, ?_⟩
  rw [hfile', hcart', hcart]
  split
  · simp only [File.written, hlen]; omega
  · rw [hlen]; omega

/-- A bank that a full save marked saved is in the file (R121, R123). -/
theorem SaveEnd.saved_current (h : SaveEnd key (marked false s) t) {j : Nat} (hj : bitOf t.sramSaved j = true) :
    j < s.cart.ramsize ∧ RegionCurrent key j t := by
  have hno : ¬ SameBits j (marked false s) t := fun hsame =>
    Bool.noConfusion ((hsame.2.trans BitVec.getLsbD_zero).symm.trans hj)
  have hlt : j < s.cart.ramsize := by_contra fun hge => hno (h.beyond j (Nat.le_of_not_lt hge))
  obtain ⟨-, -, -, hcurrent⟩ := (h.bank j hlt).bits.resolve_right hno
  exact ⟨hlt, hcurrent⟩

/-- Settles O33: the primitives in order from a run in which each answers, the file's bytes and the marks from what a
save makes of each bank. -/
theorem fullSaveWritesEveryBank : Obligations.FullSaveWritesEveryBank := by
  intro s id hs hl hb hr hm ha
  have hrun : exec (.sramSave id false) s = .next (sramSaveOp id false { s with busy := true }) :=
    acceptCommand_ready hs _
  obtain ⟨hframe, hothers, -⟩ := sramSave_frame hrun
  have hend := sramSaveOp_saveEnd (id := id) (quick := false) hs hl hb hr hm
  obtain ⟨-, hsecured, hzero⟩ := sramSaveOp_succeeds (id := id) (quick := false) hs hl hb hr ha
  obtain ⟨w, hserved, hlen⟩ := fullSave_served (id := id) hs hl hb hr ha
  refine ⟨_, clockBytes s, hrun, ?_⟩
  generalize sramSaveOp id false { s with busy := true } = t at *
  have hmarks : MasksInRange (marked false s) := fun j hj =>
    ⟨(bitOf_allBanks hr j).trans (decide_eq_false (Nat.not_lt.2 hj)), BitVec.getLsbD_zero⟩
  have hclean := hend.all_clean hmarks hsecured
  have hresult := hzero hclean
  have hsram : t.sram = s.sram := (congrArg State.sram hframe :)
  have hcfg : t.cfg = s.cfg := (congrArg State.cfg hframe :)
  have hfile : fileNamed t id = fileAt (fileKey s id) t := by rw [fileNamed_eq, fileKey_eq_of_cfg hcfg]
  have hclock := hend.clock hserved.runs hresult
  refine ⟨?_, fun i => ?_, ?_, fun a haddr => ?_, fun hrtc => ?_, hothers, ?_⟩
  · rw [hresult, hclean, hserved.runs, hserved.freeCount, hserved.closed] at hframe
    rw [hs.1, hs.2.2]
    exact hframe
  · by_cases hi : i < s.cart.ramsize
    · rw [(hsecured i hi).2, decide_eq_true hi]
    · rw [(hend.beyond i (Nat.le_of_not_lt hi)).2, decide_eq_false hi]
      exact BitVec.getLsbD_zero
  · rw [hfile, fileAt_of_files hserved.files]
    exact hlen
  · have hcurrent := (hend.saved_current (hsecured (a / 8192) (by omega)).2).2 (a % 8192) (Nat.mod_lt a (by decide))
    rw [hsram, Nat.div_add_mod'] at hcurrent
    rw [memByte, hfile]
    exact hcurrent
  · rw [hfile]
    exact hclock hrtc
  · rw [hserved.trace, clockWrites]
    simp only [List.append_assoc]
    rfl

/-! ### A quick save with nothing to write -/

/-- With no bank to write a save issues the clock's writes only, and changes no mark (R123, R124, R126). -/
theorem idleSave_served (hs : s.ready) (hl : s.cart.loaded = true) (hb : s.cart.hasBattery = true)
    (hn : ∀ j, j < s.cart.ramsize → needsSave s j = false) (ha : s.storageOk 4) :
    ∃ w, SaveServed (clockWrites s) id true s w (sramSaveOp id true { s with busy := true }) ∧
      w.sramDirty = s.sramDirty ∧ w.sramSaved = s.sramSaved ∧
      ∀ a, a < s.cart.ramsize * 8192 →
        (fileAt (fileKey s id) w).data.read a = (fileAt (fileKey s id) s).data.read a := by
  obtain ⟨u, e, hu, hopen, hfile⟩ := sramSaveOp_open_served (id := id) (quick := true) (c := 3) hs hl hb ha
  have hcart : u.cart = s.cart := hu.cart
  have hloop : saveBanks 0 u.cart.ramsize u = u := saveBanks_unneeded _ fun j _ hj => by
    rw [(hu.sameBits j).needsSave]
    exact hn j (by rw [← hcart]; omega)
  obtain ⟨hok, hclock, hfile'⟩ := saveClock_served (c := 1) hopen.on (hopen.issue.mono (by split <;> omega))
  have hstep := saveClock_step hopen.on
  have hwrites : clockWrites u = clockWrites s := by
    unfold clockWrites clockBytes
    rw [hcart, hu.cfg, hu.rtc]; rfl
  have hbody : saveBody u = (true, (saveClock u).2) := by
    unfold saveBody; rw [hloop]; exact Prod.ext hok rfl
  rw [hwrites] at hclock
  rw [e, hbody]
  refine ⟨_, .of_body (hstep.halted.trans (hu.halted.trans hs.2.1)) hopen hclock, hstep.masks.1.trans hu.masks.1,
    hstep.masks.2.trans hu.masks.2, fun a haddr => ?_⟩
  rw [hfile', hcart, hfile]
  split
  · rw [File.written, Memory.read_splice, if_neg (by omega)]; rfl
  · rfl

/-- Settles O35: every bank is passed over, so only the clock's writes stand between the open and the close. -/
theorem quickSaveWithNothingToWrite : Obligations.QuickSaveWithNothingToWrite := by
  intro s id hs hl hb hd hv ha
  have hrun : exec (.sramSave id true) s = .next (sramSaveOp id true { s with busy := true }) :=
    acceptCommand_ready hs _
  obtain ⟨hframe, -, -⟩ := sramSave_frame hrun
  have hn : ∀ j, j < s.cart.ramsize → needsSave s j = false := fun j hj => by
    rw [needsSave, hv j hj, hd]; exact BitVec.getLsbD_zero
  obtain ⟨w, hserved, hdirty, hsaved, hbytes⟩ := idleSave_served (id := id) hs hl hb hn ha
  refine ⟨_, clockBytes s, hrun, ?_⟩
  generalize sramSaveOp id true { s with busy := true } = t at *
  have hcfg : t.cfg = s.cfg := (congrArg State.cfg hframe :)
  have hresult : t.result = 0 := hserved.code.trans (saveCode_eq_zero.2 ⟨hdirty.trans hd, rfl⟩)
  refine ⟨?_, ?_, fun a haddr => ?_⟩
  · rw [hresult, hserved.runs, hserved.freeCount, hserved.closed, hserved.dirty.trans hdirty,
      hserved.saved.trans hsaved] at hframe
    rw [hs.1, hs.2.2]
    exact hframe
  · rw [hserved.trace, clockWrites]
    rfl
  · rw [memByte, fileNamed_eq, fileKey_eq_of_cfg hcfg, fileAt_of_files hserved.files]
    exact hbytes a haddr

end Sys2Proof.Machine
end

section
/-! PROOFS. The round trip of the battery RAM and the clock through a full save and a load (R136). -/

namespace Sys2Proof.Machine

variable {s t u : State} {key : Nat} {id : Half}

/-! ### How far the file of a full save reaches -/

/-- The file reaches to the end of every bank marked saved, and of the clock record where a save has succeeded (R123,
R124, R126). -/
structure FileReaches (key : Nat) (c : Cart) (t : State) : Prop where
  banks : ∀ j, bitOf t.sramSaved j = true → (j + 1) * 8192 ≤ (fileAt key t).len
  record : t.stalled = false → t.result = 0 → c.hasRtc = true → c.ramsize * 8192 + 48 ≤ (fileAt key t).len

/-- The loop's banks and the clock's write, from a state with no bank marked saved. -/
theorem saveBody_reaches (hon : HandleOn key u) (hf : FilesOk u) (hs : u.sram.wf) (hr : u.cart.ramsize ≤ 32)
    (hn : u.sramSaved = 0) :
    (∀ j, bitOf (saveBody u).2.sramSaved j = true → (j + 1) * 8192 ≤ (fileAt key (saveBody u).2).len) ∧
    ((saveBody u).1 = true → u.cart.hasRtc = true →
      u.cart.ramsize * 8192 + 48 ≤ (fileAt key (saveBody u).2).len) := by
  have hoff : ∀ j, bitOf u.sramSaved j = false := fun j => by rw [hn]; exact BitVec.getLsbD_zero
  obtain ⟨hsaved, hf', -⟩ := saveBanks_inFile (i := 0) u.cart.ramsize hon hf hs (by omega) (fun j _ => hoff j)
    fun j hj => Bool.noConfusion ((hoff j).symm.trans hj)
  obtain ⟨hstep, hon', -⟩ := saveBanks_law (i := 0) u.cart.ramsize hon (by omega)
  have hcart := hstep.rest.2.1
  have hmasks := (saveClock_step hon').masks.2
  obtain ⟨hgrows, hrecord⟩ : (fileAt key (saveBanks 0 u.cart.ramsize u)).len ≤ (fileAt key (saveBody u).2).len ∧
      ((saveBody u).1 = true → u.cart.hasRtc = true →
        u.cart.ramsize * 8192 + 48 ≤ (fileAt key (saveBody u).2).len) := by
    unfold saveBody saveClock
    rw [hcart]
    split_ifs with hst hrtc
    · exact ⟨Nat.le_refl _, fun h => (nomatch h)⟩
    · obtain ⟨hle, -, hok, -⟩ := seekWrite_file hon' hf' (ramOffset u.cart.ramsize) rtcRecSize
        (Memory.wf_ofBytes (rtcRecord (saveBanks 0 u.cart.ramsize u).cfg.rtcEpoch (saveBanks 0 u.cart.ramsize u).rtc))
      exact ⟨hle, fun h _ => (hok h).1⟩
    · exact ⟨Nat.le_refl _, fun _ h => absurd h hrtc⟩
  refine ⟨fun j hj => ?_, hrecord⟩
  have hj : bitOf (saveClock (saveBanks 0 u.cart.ramsize u)).2.sramSaved j = true := hj
  rw [hmasks] at hj
  exact (hsaved j hj).1.trans hgrows

/-- A full save, whatever storage answers (R121 to R126, R210). -/
theorem fullSave_reaches (hs : s.ready) (hl : s.cart.loaded = true) (hb : s.cart.hasBattery = true)
    (hr : s.cart.ramsize ≤ 32) (hm : MemoriesCanonical s) :
    FileReaches (fileKey s id) s.cart (sramSaveOp id false { s with busy := true }) := by
  rw [sramSaveOp_eq hl hb]
  have hu := open_step id (saveMode false) (marked false s)
  have hfu := FilesOk.stOpen (s := marked false s) hm.filesOk .op id (saveMode false)
  have hok := open_handle (id := id) (mode := saveMode false) (s := marked false s)
  generalize stOpen .op id (saveMode false) (marked false s) = q at hu hfu hok
  obtain ⟨b, u⟩ := q
  have hh : u.halted = false := hu.halted.trans hs.2.1
  have hn : u.sramSaved = 0 := hu.masks.2
  cases b with
  | false =>
    have hoff : ∀ {p : Prop} j, bitOf u.sramSaved j = true → p := fun j hj => by
      rw [hn] at hj; exact Bool.noConfusion (BitVec.getLsbD_zero.symm.trans hj)
    show FileReaches _ _ (unlessStalled (raiseError .storage) u)
    rcases unlessStalled_cases (raiseError .storage) u with ⟨hst, e⟩ | ⟨-, e⟩ <;> rw [e]
    · exact ⟨fun j => hoff j, fun h => Bool.noConfusion (hst.symm.trans h)⟩
    · exact ⟨fun j => hoff j, fun _ h => absurd (show ErrorCode.code .storage = 0 from h) (by decide)⟩
  | true =>
    have hcart : u.cart = s.cart := hu.cart
    have hon : HandleOn (fileKey s id) u :=
      Opened.on (s := marked false s) (mode := saveMode false) ⟨hu, hok rfl, nofun⟩
    have hw : u.sram.wf := hu.sram ▸ hm.sram
    have hr : u.cart.ramsize ≤ 32 := hcart ▸ hr
    obtain ⟨hbanks, hrecord⟩ := saveBody_reaches hon hfu hw hr hn
    have hbh := (saveBody_law hon hfu hw hr).1.halted.trans hh
    rw [saveOpened_true]
    generalize saveBody u = q at hbanks hrecord hbh
    obtain ⟨ok, w⟩ := q
    obtain ⟨hkept, hfiles⟩ := saveEnded_kept (key := fileKey s id) (ok := ok) hbh
    have hfile := fileAt_of_files hfiles (fileKey s id)
    refine ⟨fun j hj => ?_, fun hst hz hrtc => ?_⟩
    · rw [hfile]
      exact hbanks j ((hkept j).bits.2.symm.trans hj)
    · rw [hfile]
      rw [hcart] at hrecord
      exact hrecord (saveCode_eq_zero.1 ((saveEnded_result hbh hst).symm.trans hz)).2 hrtc

/-! ### The way back -/

/-- A clock loaded from the record of `r` is `r`, but for latch and select (R125, R130, R131). -/
theorem clock_of_record {m : Memory} {off : Nat} {epoch : Dword} {r old q : Rtc} (h₁ : ClockRecordAt m off epoch r)
    (h₂ : ClockLoadedFrom m off old q) : q = { r with latch := old.latch, sel := old.sel } := by
  obtain ⟨hsec, hmin, hhour, hday, hflags, hregs, -⟩ := h₁
  obtain ⟨hsec', hmin', hhour', hday', hflags', hregs', hlatch, hsel⟩ := h₂
  have hbyte : ∀ {x y : Byte} {n : Nat}, x.toNat = n % 256 → n = y.toNat → x = y := fun {x y n} hx hn =>
    BitVec.eq_of_toNat_eq (by rw [hx, hn]; exact Nat.mod_eq_of_lt y.isLt)
  have hd : q.day = r.day := BitVec.eq_of_toNat_eq (by rw [hday', hday]; exact Nat.mod_eq_of_lt r.day.isLt)
  have hr : q.regs = r.regs := Vector.ext fun j hj => hbyte (hregs' ⟨j, hj⟩) (hregs ⟨j, hj⟩)
  cases q
  simp only [Rtc.mk.injEq]
  exact ⟨hbyte hsec' hsec, hbyte hmin' hmin, hbyte hhour' hhour, hd, hlatch, hsel, hbyte hflags' hflags, hr⟩

/-- A file with a byte is there. -/
theorem get?_of_fileAt_len (h : 0 < (fileAt key s).len) : Tab.get? s.files key = some (fileAt key s) := by
  unfold fileAt at h ⊢
  cases hg : Tab.get? s.files key with
  | none => rw [hg] at h; exact absurd h (by decide)
  | some f => rfl

/-- Settles O38: what a full save leaves of a marked bank and of the record in the file, a load without a failure
takes. -/
theorem sramRoundTrip : Obligations.SramRoundTrip := by
  intro s t u v id hsave hm hl hb hone hr hu hmu hcfg hcart hfiles ha hload
  obtain ⟨hframe, -, -⟩ := sramSave_frame hsave
  obtain ⟨hs, ht⟩ := acceptCommand_next hsave
  have hend : SaveEnd (fileKey s id) (marked false s) t := by rw [ht]; exact sramSaveOp_saveEnd hs hl hb hr hm
  have hreach : FileReaches (fileKey s id) s.cart t := by rw [ht]; exact fullSave_reaches hs hl hb hr hm
  have hsram : t.sram = s.sram := (congrArg State.sram hframe :)
  have hcart : u.cart = s.cart := hcart.trans (congrArg State.cart hframe :)
  have hkey : fileKey u id = fileKey s id := fileKey_eq_of_cfg (hcfg.trans (congrArg State.cfg hframe :)) id
  have hfile : fileAt (fileKey s id) u = fileAt (fileKey s id) t := fileAt_of_files hfiles _
  have htaken : 0 < (fileAt (fileKey s id) t).len → _ := fun hlen =>
    sramLoadRestoresTheBanksOfTheFile u id (fileAt (fileKey s id) t) hu (hcart ▸ hl) (hcart ▸ hb) (hcart ▸ hone)
      (hcart ▸ hr) hmu (by rw [hkey, ← hfile]; exact get?_of_fileAt_len (hfile ▸ hlen)) ha
  refine ⟨fun i off hi ho => ?_, fun hrtc hst hz => ?_⟩
  · have hlen := hreach.banks i hi
    obtain ⟨hlt, hcurrent⟩ := hend.saved_current hi
    obtain ⟨v', hload', -, hbits, hbytes, -⟩ := htaken (by omega)
    obtain rfl : v' = v := Host.Outcome.next.inj (hload'.symm.trans hload)
    have hin : i < u.cart.ramsize ∧ (i + 1) * 8192 ≤ (fileAt (fileKey s id) t).len := ⟨hcart ▸ hlt, hlen⟩
    refine ⟨(hbits i).trans (decide_eq_true hin), ?_⟩
    rw [hbytes i off ho, if_pos hin, hcurrent off ho, hsram]
    rfl
  · have hlen := hreach.record hst hz hrtc
    obtain ⟨v', hload', -, -, -, hclock, -⟩ := htaken (by omega)
    obtain rfl : v' = v := Host.Outcome.next.inj (hload'.symm.trans hload)
    rw [hcart, if_pos ⟨hrtc, hlen⟩] at hclock
    exact clock_of_record (hend.clock hst hz hrtc) hclock

end Sys2Proof.Machine
end

section
/-! PROOFS. The header block (R67, R68, R142, R143, R151): what FIND answers, and which bytes, records and regions the
block that STATE_SAVE builds has. -/

namespace Sys2Proof.Machine

variable {m m' hdr : Memory} {t : Tag} {s : State}

/-! ### FIND -/

/-- What FIND answers from slot `k` on, `n` slots (R151). -/
theorem findFrom_found (ht : t ≠ Tag.zero) (n k : Nat) :
    (∃ j, k ≤ j ∧ j < k + n ∧ recordTag hdr j = t ∧ findFrom hdr t k n = recordValue hdr j ∧
      ∀ i, k ≤ i → i < j → recordTag hdr i ≠ t ∧ recordTag hdr i ≠ Tag.zero) ∨
    (findFrom hdr t k n = 0 ∧ ∀ j, k ≤ j → j < k + n → recordTag hdr j = t →
      ∃ i, k ≤ i ∧ i < j ∧ recordTag hdr i = Tag.zero) := by
  induction n generalizing k with
  | zero => exact .inr ⟨rfl, fun j h1 h2 => by omega⟩
  | succ n ih =>
    unfold findFrom
    split_ifs with hzero hmatch
    · refine .inr ⟨rfl, fun j hkj _ hj => ⟨k, Nat.le_refl k, ?_, hzero⟩⟩
      exact lt_of_le_of_ne hkj fun h => ht (by rw [← hj, ← h, hzero])
    · exact .inl ⟨k, Nat.le_refl k, by omega, hmatch, rfl, fun i h1 h2 => by omega⟩
    · have hpast : ∀ {i}, k ≤ i → ¬ k + 1 ≤ i → i = k := fun h1 h2 => by omega
      rcases ih (k + 1) with ⟨j, h1, h2, h3, h4, h5⟩ | ⟨h1, h2⟩
      · refine .inl ⟨j, by omega, by omega, h3, h4, fun i hi hij => ?_⟩
        by_cases hik : k + 1 ≤ i
        · exact h5 i hik hij
        · rw [hpast hi hik]; exact ⟨hmatch, hzero⟩
      · refine .inr ⟨h1, fun j hkj hjn hj => ?_⟩
        by_cases hjk : k + 1 ≤ j
        · obtain ⟨i, hi, hij, hiz⟩ := h2 j hjk (by omega) hj
          exact ⟨i, by omega, hij, hiz⟩
        · rw [hpast hkj hjk] at hj; exact absurd hj hmatch

/-- Settles O41: by the slots in order, the zero tag first, then a match. -/
theorem findAnswersTheFirstMatch : Obligations.FindAnswersTheFirstMatch := by
  intro hdr t ht
  rcases findFrom_found (hdr := hdr) ht maxRecords 0 with ⟨j, -, hj, htag, hval, hbefore⟩ | ⟨hz, hnone⟩
  · exact .inl ⟨j, by omega, htag, hval, fun i hi => hbefore i (Nat.zero_le i) hi⟩
  · refine .inr ⟨hz, fun j hj htag => ?_⟩
    obtain ⟨i, -, hij, hi⟩ := hnone j (Nat.zero_le j) (by omega) htag
    exact ⟨i, hij, hi⟩

/-- FIND answers the value of the first slot with the tag. -/
theorem findRecord_of_first {k : Nat} (ht : t ≠ Tag.zero) (hk : k < 414) (htag : recordTag hdr k = t)
    (hbefore : ∀ j, j < k → recordTag hdr j ≠ t ∧ recordTag hdr j ≠ Tag.zero) :
    findRecord hdr t = recordValue hdr k := by
  rcases findAnswersTheFirstMatch hdr t ht with ⟨i, hi, hitag, hval, hibefore⟩ | ⟨-, hnone⟩
  · rcases Nat.lt_trichotomy i k with hlt | rfl | hgt
    · exact absurd hitag (hbefore i hlt).1
    · exact hval
    · exact absurd htag (hibefore k hgt).1
  · obtain ⟨j, hj, hjz⟩ := hnone k hk htag
    exact absurd hjz (hbefore j hj).2

/-! ### Records -/

/-- The eight bytes of a slot give its record. -/
theorem record_congr {k : Nat} (h : ∀ i, i < 8 → m.read (8 * k + i) = m'.read (8 * k + i)) :
    recordTag m k = recordTag m' k ∧ recordValue m k = recordValue m' k := by
  have hvalue : m.bytes (8 * k + 4) 4 = m'.bytes (8 * k + 4) 4 :=
    List.map_congr_left fun i hi => by
      have hi := List.mem_range.1 hi
      rw [Nat.add_assoc]; exact h _ (by omega)
  unfold recordTag recordValue recordOffset Memory.readLE
  rw [h 1 (by omega), h 2 (by omega), h 3 (by omega), hvalue]
  exact ⟨by rw [show m.read (8 * k) = m'.read (8 * k) from h 0 (by omega)], rfl⟩

/-- FIND reads the slots alone. -/
theorem findFrom_congr (n k : Nat) (h : ∀ a, a < 8 * (k + n) → m.read a = m'.read a) :
    findFrom m t k n = findFrom m' t k n := by
  induction n generalizing k with
  | zero => rfl
  | succ n ih =>
    obtain ⟨htag, hvalue⟩ := record_congr (m := m) (m' := m') (k := k) fun i _ => h _ (by omega)
    unfold findFrom
    rw [htag, hvalue, ih (k + 1) fun a ha => h a (by omega)]

theorem findRecord_congr (h : ∀ a, a < 4096 → m.read a = m'.read a) (t : Tag) : findRecord m t = findRecord m' t :=
  findFrom_congr maxRecords 0 fun a ha => h a (Nat.lt_trans ha (by decide))

theorem putRecord_read (k : Nat) (t : Tag) (v : Word) (hdr : Memory) {a : Nat} (h : a < 8 * k ∨ 8 * k + 8 ≤ a) :
    (putRecord k t v hdr).read a = hdr.read a := by
  unfold putRecord recordOffset
  rw [Memory.read_splice, if_neg (by omega)]

/-- A slot written has the record (R140). -/
theorem putRecord_same (k : Nat) (t : Tag) (v : Word) (hdr : Memory) :
    recordTag (putRecord k t v hdr) k = t ∧ recordValue (putRecord k t v hdr) k = v := by
  have hread : ∀ i, i < 8 → (putRecord k t v hdr).read (8 * k + i) = (tagBytes t ++ leBytes 4 v.toNat).getD i 0 :=
    fun i hi => by
      unfold putRecord recordOffset
      rw [Memory.read_splice, if_pos (by omega), Memory.read_ofBytes, Nat.add_sub_cancel_left]
  have hvalue : (putRecord k t v hdr).bytes (8 * k + 4) 4 = leBytes 4 v.toNat := by
    have := Memory.bytes_eq (m := putRecord k t v hdr) (off := 8 * k + 4) (bs := leBytes 4 v.toNat) fun i hi => by
      rw [leBytes_length] at hi
      rw [Nat.add_assoc, hread _ (by omega), List.getD_append_right _ _ _ _ (by simp [tagBytes])]
      simp [tagBytes]
    rwa [leBytes_length] at this
  constructor
  · unfold recordTag recordOffset
    rw [hread 1 (by omega), hread 2 (by omega), hread 3 (by omega),
      show (putRecord k t v hdr).read (8 * k) = _ from hread 0 (by omega)]
    rfl
  · unfold recordValue recordOffset Memory.readLE
    rw [hvalue, unLE_leBytes]
    rw [Nat.mod_eq_of_lt (show v.toNat < 256 ^ 4 from v.isLt), BitVec.ofNat_toNat, BitVec.setWidth_eq]

/-- The table's records touch their own slots alone (R142). -/
theorem putRegisters_read (s : State) (es : List RegEntry) (k : Nat) (hdr : Memory) {a : Nat}
    (h : a < 8 * k ∨ 8 * (k + es.length) ≤ a) : (putRegisters s k es hdr).read a = hdr.read a := by
  induction es generalizing k hdr with
  | nil => rfl
  | cons e es ih =>
    rw [List.length_cons] at h
    unfold putRegisters
    rw [ih (k + 1) _ (by omega), putRecord_read _ _ _ _ (by omega)]

/-- Each entry of the table has its record, in table order (R142). -/
theorem putRegisters_record (s : State) (es : List RegEntry) (k : Nat) (hdr : Memory) {j : Nat} {e : RegEntry}
    (h : es[j]? = some e) :
    recordTag (putRegisters s k es hdr) (k + j) = e.tag ∧
    recordValue (putRegisters s k es hdr) (k + j) = narrow e.width (readReg s e.id) := by
  induction es generalizing k j hdr with
  | nil => simp at h
  | cons e' es ih =>
    unfold putRegisters
    cases j with
    | zero =>
      obtain rfl : e' = e := by simpa using h
      obtain ⟨htag, hvalue⟩ := putRecord_same k e'.tag (narrow e'.width (readReg s e'.id)) hdr
      obtain ⟨htag', hvalue'⟩ := record_congr (k := k) fun i hi => putRegisters_read s es (k + 1)
        (putRecord k e'.tag (narrow e'.width (readReg s e'.id)) hdr) (a := 8 * k + i) (by omega)
      exact ⟨htag'.trans htag, hvalue'.trans hvalue⟩
    | succ j =>
      rw [show k + (j + 1) = k + 1 + j by omega]
      exact ih (k + 1) _ (by simpa using h)

/-! ### The block STATE_SAVE builds -/

/-- The embedded regions lie above the records (R76, R143). -/
theorem putRegions_low (s : State) (hdr : Memory) {a : Nat} (h : a < 0x0CF0) :
    (putRegions s hdr).read a = hdr.read a := by
  unfold putRegions offWave lenWave offIo lenIo offPal lenPal offOam lenOam
  simp only [Memory.read_splice]
  rw [if_neg (by omega), if_neg (by omega), if_neg (by omega), if_neg (by omega)]

theorem buildHeader_low (s : State) {a : Nat} (h : a < 0x0CF0) :
    (buildHeader s).read a =
      (putRegisters s 1 s.cfg.regTable (putRecord 0 s.cfg.versionTag s.cfg.formatVersion [])).read a :=
  putRegions_low s _ h

/-- Nothing is written between the records and the regions (R141). -/
theorem buildHeader_unused (s : State) {a : Nat} (h : 8 * (1 + s.cfg.regTable.length) ≤ a) (h' : a < 0x0CF0) :
    (buildHeader s).read a = 0 := by
  rw [buildHeader_low s h', putRegisters_read _ _ _ _ (.inr h), putRecord_read _ _ _ _ (by omega)]
  rfl

/-- The version record is the first (R142). -/
theorem buildHeader_version (s : State) :
    recordTag (buildHeader s) 0 = s.cfg.versionTag ∧ recordValue (buildHeader s) 0 = s.cfg.formatVersion := by
  obtain ⟨htag, hvalue⟩ := putRecord_same 0 s.cfg.versionTag s.cfg.formatVersion []
  obtain ⟨htag', hvalue'⟩ := record_congr (k := 0) (m := buildHeader s)
    (m' := putRecord 0 s.cfg.versionTag s.cfg.formatVersion []) fun i hi => by
      rw [buildHeader_low s (by omega), putRegisters_read _ _ _ _ (by omega)]
  exact ⟨htag'.trans htag, hvalue'.trans hvalue⟩

/-- The registers follow in table order (R142). -/
theorem buildHeader_register (hlen : s.cfg.regTable.length ≤ 412) {j : Nat} {e : RegEntry}
    (h : s.cfg.regTable[j]? = some e) :
    recordTag (buildHeader s) (1 + j) = e.tag ∧
    recordValue (buildHeader s) (1 + j) = narrow e.width (readReg s e.id) := by
  have hj : j < s.cfg.regTable.length := (List.getElem?_eq_some_iff.1 h).1
  obtain ⟨htag, hvalue⟩ := putRegisters_record s s.cfg.regTable 1
    (putRecord 0 s.cfg.versionTag s.cfg.formatVersion []) h
  obtain ⟨htag', hvalue'⟩ := record_congr (k := 1 + j) (m := buildHeader s) fun i hi =>
    buildHeader_low s (a := 8 * (1 + j) + i) (by omega)
  exact ⟨htag'.trans htag, hvalue'.trans hvalue⟩

/-- The bytes of the block from the first region on (R143). -/
theorem buildHeader_high (hlen : s.cfg.regTable.length ≤ 412) {a : Nat} (h : 0x0CF0 ≤ a) :
    (buildHeader s).read a =
      if 0x0F00 ≤ a ∧ a < 0x0FA0 then s.oam.read (a - 0x0F00)
      else if 0x0E00 ≤ a ∧ a < 0x0E80 then s.pal.read (a - 0x0E00)
      else if 0x0D00 ≤ a ∧ a < 0x0E00 then s.ioregs.read (a - 0x0D00)
      else if 0x0CF0 ≤ a ∧ a < 0x0D00 then s.wave.read (a - 0x0CF0) else 0 := by
  have hz : (putRegisters s 1 s.cfg.regTable (putRecord 0 s.cfg.versionTag s.cfg.formatVersion [])).read a = 0 := by
    rw [putRegisters_read _ _ _ _ (by omega), putRecord_read _ _ _ _ (by omega)]; rfl
  unfold buildHeader putRegions
  simp only [Memory.read_splice, hz]
  rfl

/-- Each region at its offset, and zeros up to the next (R76, R143). -/
theorem buildHeader_regions (hlen : s.cfg.regTable.length ≤ 412) {a : Nat} :
    (a < 16 → (buildHeader s).read (0x0CF0 + a) = s.wave.read a) ∧
    (a < 256 → (buildHeader s).read (0x0D00 + a) = s.ioregs.read a) ∧
    (a < 256 → (buildHeader s).read (0x0E00 + a) = if a < 128 then s.pal.read a else 0) ∧
    (a < 256 → (buildHeader s).read (0x0F00 + a) = if a < 160 then s.oam.read a else 0) := by
  refine ⟨fun ha => ?_, fun ha => ?_, fun ha => ?_, fun ha => ?_⟩ <;>
    rw [buildHeader_high hlen (by omega), Nat.add_sub_cancel_left]
  · rw [if_neg (by omega), if_neg (by omega), if_neg (by omega), if_pos (by omega)]
  · rw [if_neg (by omega), if_neg (by omega), if_pos (by omega)]
  · rw [if_neg (by omega)]
    by_cases h : a < 128
    · rw [if_pos h, if_pos (by omega)]
    · rw [if_neg h, if_neg (by omega), if_neg (by omega), if_neg (by omega)]
  · by_cases h : a < 160
    · rw [if_pos h, if_pos (by omega)]
    · rw [if_neg h, if_neg (by omega), if_neg (by omega), if_neg (by omega), if_neg (by omega)]

end Sys2Proof.Machine
end

section
/-! PROOFS. The units of a snapshot (R144, R147, R148): the bytes of a list of units, and the units of the file
STATE_SAVE writes. -/

namespace Sys2Proof.Machine

variable {s : State} {m : Memory} {us vs : List Memory} {u : Memory} {a k : Nat} {f : File}

/-- Byte `a` of units laid one behind another. -/
def unitByte (us : List Memory) (a : Nat) : Byte := (us.getD (a / 4096) []).read (a % 4096)

theorem unitByte_append_left (h : a < 4096 * us.length) : unitByte (us ++ vs) a = unitByte us a := by
  unfold unitByte
  rw [List.getD_append _ _ _ _ (by omega)]

theorem unitByte_append_right (us vs : List Memory) (a : Nat) :
    unitByte (us ++ vs) (4096 * us.length + a) = unitByte vs a := by
  unfold unitByte
  rw [List.getD_append_right _ _ _ _ (by omega), Nat.mul_add_mod, Nat.mul_add_div (by decide), Nat.add_sub_cancel_left]

theorem unitByte_single (h : a < 4096) : unitByte [u] a = u.read a := by
  unfold unitByte
  rw [Nat.div_eq_of_lt h, Nat.mod_eq_of_lt h]; rfl

theorem unitByte_head (h : a < 4096) : unitByte (u :: us) a = u.read a :=
  (unitByte_append_left (us := [u]) (by simpa using h)).trans (unitByte_single h)

theorem unitByte_tail (u : Memory) (us : List Memory) (a : Nat) : unitByte (u :: us) (4096 + a) = unitByte us a :=
  unitByte_append_right [u] us a

theorem unitByte_take (h : a < 4096 * k) : unitByte (us.take k) a = unitByte us a := by
  unfold unitByte
  rw [List.getD_eq_getElem?_getD, List.getElem?_take_of_lt (by omega), List.getD_eq_getElem?_getD]

theorem unitByte_drop (us : List Memory) (k a : Nat) : unitByte (us.drop k) a = unitByte us (4096 * k + a) := by
  unfold unitByte
  rw [List.getD_eq_getElem?_getD, List.getElem?_drop, Nat.mul_add_mod, Nat.mul_add_div (by decide),
    List.getD_eq_getElem?_getD]

@[simp] theorem units_length (m : Memory) (k : Nat) : (units m k).length = k := by simp [units]

/-- The units of a block hold its bytes (R144). -/
theorem unitByte_units (h : a < 4096 * k) : unitByte (units m k) a = m.read a := by
  unfold unitByte units
  rw [List.getD_eq_getElem?_getD, List.getElem?_map, List.getElem?_range (by omega), Option.map_some, Option.getD_some,
    Memory.read_slice, if_pos (Nat.mod_lt a (by decide))]
  exact congrArg m.read (Nat.div_add_mod' a 4096)

/-- The units that STATE_SAVE writes, the header block first (R144). -/
def snapshot (s : State) : List Memory := stateUnits { s with hdr := buildHeader s }

theorem snapshot_eq (s : State) :
    snapshot s = buildHeader s :: (units s.wram (wramUnits s.cart.hwfamily) ++
      units s.vram (vramUnits s.cart.hwfamily) ++ units s.sram (2 * s.cart.ramsize)) := rfl

theorem snapshot_length (s : State) : (snapshot s).length = unitCount s.cart := by
  rw [snapshot_eq]
  simp only [List.length_cons, List.length_append, units_length]
  unfold unitCount
  omega

theorem unitByte_snapshot_header (h : a < 4096) : unitByte (snapshot s) a = (buildHeader s).read a := unitByte_head h

theorem unitByte_snapshot_wram (h : a < 4096 * wramUnits s.cart.hwfamily) :
    unitByte (snapshot s) (4096 + a) = s.wram.read a := by
  rw [snapshot_eq, unitByte_tail, List.append_assoc, unitByte_append_left (by rwa [units_length]), unitByte_units h]

theorem unitByte_snapshot_vram (h : a < 4096 * vramUnits s.cart.hwfamily) :
    unitByte (snapshot s) (4096 * (1 + wramUnits s.cart.hwfamily) + a) = s.vram.read a := by
  have hright := unitByte_append_right (units s.wram (wramUnits s.cart.hwfamily))
    (units s.vram (vramUnits s.cart.hwfamily) ++ units s.sram (2 * s.cart.ramsize)) a
  rw [units_length] at hright
  rw [snapshot_eq, Nat.mul_add, Nat.add_assoc, unitByte_tail, List.append_assoc, hright,
    unitByte_append_left (by rwa [units_length]), unitByte_units h]

theorem unitByte_snapshot_sram (h : a < 8192 * s.cart.ramsize) :
    unitByte (snapshot s) (4096 * (1 + wramUnits s.cart.hwfamily + vramUnits s.cart.hwfamily) + a) = s.sram.read a := by
  have hright := unitByte_append_right (units s.wram (wramUnits s.cart.hwfamily) ++
    units s.vram (vramUnits s.cart.hwfamily)) (units s.sram (2 * s.cart.ramsize)) a
  rw [List.length_append, units_length, units_length] at hright
  rw [snapshot_eq, Nat.add_assoc 1, Nat.mul_add, Nat.add_assoc, unitByte_tail, hright, unitByte_units (by omega)]

/-- The file is the units, one behind another. -/
structure HoldsUnits (us : List Memory) (f : File) : Prop where
  len : f.len = 4096 * us.length
  byte : ∀ a, a < 4096 * us.length → f.data.read a = unitByte us a

theorem HoldsUnits.empty : HoldsUnits [] ⟨0, []⟩ := ⟨rfl, fun _ h => absurd h (Nat.not_lt_zero _)⟩

/-- One more unit written at the end (R144). -/
theorem HoldsUnits.written (h : HoldsUnits us f) (u : Memory) :
    HoldsUnits (us ++ [u]) (f.written (4096 * us.length) 4096 u) := by
  unfold File.written
  rw [h.len]
  refine ⟨by rw [List.length_append, List.length_singleton]; simp only; omega, fun a ha => ?_⟩
  rw [List.length_append, List.length_singleton] at ha
  rw [Memory.read_splice]
  split_ifs with hin
  · obtain ⟨b, rfl⟩ := Nat.exists_eq_add_of_le hin.1
    rw [Nat.add_sub_cancel_left, unitByte_append_right, unitByte_single (by omega)]
  · rw [h.byte a (by omega), unitByte_append_left (by omega)]

/-- A write that fails at the end keeps the units before it (R50). -/
theorem HoldsUnits.torn (h : HoldsUnits us f) (stamp : Nat) (ha : a < 4096 * us.length) :
    (f.torn (4096 * us.length) 4096 stamp).data.read a = unitByte us a := by
  unfold File.torn
  rw [h.len]
  simp only [Memory.read_below, Memory.read_splice]
  rw [if_pos (by split <;> omega), if_neg (by omega), h.byte a ha]

end Sys2Proof.Machine
end

section
/-! PROOFS. STATE_SAVE's primitives in order (R140, R144, R145, R210): the open, the writes up to the first that fails,
the close. -/

namespace Sys2Proof.Machine

variable {s t u v : State} {id : Half} {us : List Memory} {a : Answer} {rest : List Answer} {n : Nat}

/-! ### What the header block is built from -/

theorem putRegisters_congr (h : ∀ id, readReg s id = readReg t id) (es : List RegEntry) (k : Nat) (hdr : Memory) :
    putRegisters s k es hdr = putRegisters t k es hdr := by
  induction es generalizing k hdr with
  | nil => rfl
  | cons e es ih => unfold putRegisters; rw [h, ih]

/-- The snapshot is of the registers and memories, not of STORAGE's answers. -/
theorem snapshot_answers (s : State) (b : Bool) (an : List Answer) :
    snapshot { s with busy := b, answers := an } = snapshot s := by
  have hheader : buildHeader { s with busy := b, answers := an } = buildHeader s :=
    congrArg (putRegions s) (putRegisters_congr (fun id => by cases id <;> rfl) _ _ _)
  rw [snapshot_eq, hheader]; rfl

/-! ### A save in flight -/

/-- STATE_SAVE in flight from `s`: the units `us` are written, and the oracle goes on with `rest`. -/
structure Saving (id : Half) (us : List Memory) (rest : List Answer) (s v : State) : Prop where
  frame : v = { s with
    hdr := buildHeader s, trace := v.trace, files := v.files, answers := rest,
    opHandle := some ⟨id, .writeNew, 4096 * us.length⟩ }
  traced : v.trace.length = s.trace.length + 1 + us.length
  file : HoldsUnits us (fileAt (fileKey s id) v)

theorem Saving.handle (h : Saving id us rest s v) : v.opHandle = some ⟨id, .writeNew, 4096 * us.length⟩ :=
  (congrArg State.opHandle h.frame :)

theorem Saving.answers (h : Saving id us rest s v) : v.answers = rest := (congrArg State.answers h.frame :)

theorem Saving.stalled (h : Saving id us rest s v) : v.stalled = s.stalled := (congrArg State.stalled h.frame :)

theorem Saving.key (h : Saving id us rest s v) : fileKey v id = fileKey s id :=
  fileKey_eq_of_cfg (congrArg State.cfg h.frame :) id

theorem Saving.units (h : Saving id us rest s v) : stateUnits v = snapshot s := by rw [h.frame]; rfl

/-- The open leaves an empty file (R51, R144). -/
theorem Saving.opened (ha : s.answers = .ok :: rest) :
    ∃ v, stOpen .op id .writeNew { s with hdr := buildHeader s } = (true, v) ∧ Saving id [] rest s v := by
  refine ⟨_, stOpen_ok .op id .writeNew ha rfl, rfl, List.length_append, ?_⟩
  show HoldsUnits [] ((Tab.get? (Tab.set s.files (fileKey s id) ⟨0, []⟩) (fileKey s id)).getD _)
  rw [Tab.get?_set, if_pos rfl]
  exact .empty

/-- One unit more (R144). -/
theorem Saving.write (h : Saving id us (.ok :: rest) s v) (b : Memory) :
    ∃ w, stWrite .op unitSize b v = (true, w) ∧ Saving id (us ++ [b]) rest s w := by
  have e := stWrite_ok (h := .op) unitSize b h.handle h.answers
  refine ⟨_, e, ?_, ?_, ?_⟩
  · rw [List.length_append, Nat.mul_add, h.frame]; rfl
  · rw [List.length_append]
    show (v.trace ++ [_]).length = _
    rw [List.length_append, h.traced]; rfl
  · rcases write_fileAt h.handle h.key unitSize b with ⟨hno, -⟩ | ⟨-, hfile⟩
    · rw [e] at hno; cases hno
    · rw [e] at hfile
      rw [hfile]
      exact h.file.written b

/-- A run of writes that answer, and what is left to write (R144). -/
theorem Saving.write_all (bs : List Memory) (h : Saving id us (List.replicate bs.length .ok ++ rest) s v) :
    ∃ w, Saving id (us ++ bs) rest s w ∧ ∀ cs, writeUnits (bs ++ cs) v = writeUnits cs w := by
  induction bs generalizing us v with
  | nil => exact ⟨v, by rwa [List.append_nil], fun _ => rfl⟩
  | cons b bs ih =>
    obtain ⟨w, e, hw⟩ := Saving.write (rest := List.replicate bs.length .ok ++ rest) h b
    obtain ⟨x, hx, hcs⟩ := ih hw
    refine ⟨x, by rwa [List.append_assoc] at hx, fun cs => ?_⟩
    rw [List.cons_append, writeUnits, e]
    exact hcs cs

/-- A write that fails (R50, R145). -/
theorem stWrite_fails {h : HandleName} {hd : Handle} (m : Memory) (hh : getHandle h s = some hd)
    (ha : s.answers = .fail :: rest) :
    stWrite h n m s =
      (false, { setHandle h (some { hd with pos := hd.pos + Config.freeNat s.freeCount % (n + 1) })
        (setFile hd.id ((fileOf hd s).torn hd.pos n s.freeCount) { emit (.stWrite h n m) s with answers := rest })
        with freeCount := s.freeCount + 2 }) := by
  unfold stWrite
  simp only [hh]
  rw [if_pos (nextFails_of_not_ok ha (by decide)), answerTaken_of_answers (s := emit _ s) ha (by decide)]

/-- The write that fails leaves the units before it, and takes one answer. -/
theorem Saving.write_fails (h : Saving id us (.fail :: rest) s v) (b : Memory) :
    ∃ w, stWrite .op unitSize b v = (false, w) ∧ w.result = s.result ∧ w.stalled = s.stalled ∧ w.answers = rest ∧
      w.trace.length = s.trace.length + us.length + 2 ∧
      ∀ x, x < 4096 * us.length → (fileAt (fileKey s id) w).data.read x = unitByte us x := by
  have e := stWrite_fails (h := .op) (n := unitSize) b h.handle h.answers
  refine ⟨_, e, (congrArg State.result h.frame :), h.stalled, rfl, ?_, fun x hx => ?_⟩
  · show (v.trace ++ [_]).length = _
    rw [List.length_append, h.traced, List.length_singleton]; omega
  · rcases write_fileAt h.handle h.key unitSize b with ⟨-, hfile⟩ | ⟨hyes, -⟩
    · rw [e] at hfile
      rw [hfile]
      exact h.file.torn _ hx
    · rw [e] at hyes; cases hyes

/-! ### The whole command -/

/-- The answers of a command that opens, issues `n` primitives and closes. -/
theorem storageOk_open_close (ha : s.storageOk (2 + n)) :
    ∃ rest, s.answers = .ok :: (List.replicate n .ok ++ .ok :: rest) := by
  refine ⟨s.answers.drop (2 + n), ?_⟩
  conv_lhs => rw [← List.take_append_drop (2 + n) s.answers, ha]
  rw [Nat.add_comm 2, List.replicate_succ, List.replicate_succ', List.cons_append, List.append_assoc]
  rfl

/-- Where the open answers, the units are to be written. -/
theorem stateSaveOp_opened (hl : s.cart.loaded = true) (ha : s.answers = .ok :: rest) :
    ∃ v, Saving id [] rest s v ∧ stateSaveOp id s = saveStateWritten (writeUnits (snapshot s) v) := by
  obtain ⟨v, e, hv⟩ := Saving.opened (id := id) ha
  refine ⟨v, hv, ?_⟩
  unfold stateSaveOp
  rw [if_neg (by simp [hl]), e, ← hv.units]
  rfl

/-- What a STATE_SAVE leaves whose primitives all answer. -/
structure Saved (id : Half) (s t : State) : Prop where
  result : t.result = 0
  runs : t.stalled = false
  freeCount : t.freeCount = s.freeCount
  closed : t.opHandle = none
  file : HoldsUnits (snapshot s) (fileAt (fileKey s id) t)

theorem stateSaveOp_saved (hst : s.stalled = false) (hl : s.cart.loaded = true)
    (ha : s.storageOk (2 + unitCount s.cart)) : Saved id s (stateSaveOp id s) := by
  obtain ⟨rest, hans⟩ := storageOk_open_close ha
  rw [← snapshot_length] at hans
  obtain ⟨v, hv, e⟩ := stateSaveOp_opened (id := id) hl hans
  obtain ⟨w, hw, hcs⟩ := hv.write_all (snapshot s)
  have e' := hcs []
  rw [List.append_nil] at e'
  rw [e, e']
  show Saved id s (closeThen .op complete w)
  rw [closeThen_returns .op complete (hw.stalled.trans hst) hw.answers (by decide)]
  exact ⟨rfl, hw.stalled.trans hst, (congrArg State.freeCount hw.frame :), rfl, hw.file⟩

/-- What a STATE_SAVE leaves whose write behind `n` units fails, `a` and `rest` the answers after that. -/
structure SaveTorn (id : Half) (n : Nat) (a : Answer) (rest : List Answer) (s t : State) : Prop where
  result : t.result = if a = .never then s.result else 0xFFFFFFFE
  stalled : t.stalled = decide (a = .never)
  closed : a ≠ .never → t.opHandle = none
  answers : t.answers = rest
  traced : t.trace.length = s.trace.length + n + 3
  last : t.trace.getLast? = some (.stClose .op)
  kept : ∀ x, x < 4096 * n → (fileAt (fileKey s id) t).data.read x = unitByte (snapshot s) x

/-- The close after the write that failed returns with the error, or hangs (R145, R210). -/
theorem SaveTorn.of_failed (hr : v.result = s.result) (hst : v.stalled = false) (ha : v.answers = a :: rest)
    (htr : v.trace.length = s.trace.length + n + 2)
    (hk : ∀ x, x < 4096 * n → (fileAt (fileKey s id) v).data.read x = unitByte (snapshot s) x) :
    SaveTorn id n a rest s (saveStateWritten (false, v)) := by
  show SaveTorn id n a rest s (unlessStalled (closeThen .op (raiseError .storage)) v)
  rw [unlessStalled_of_not _ hst]
  have htr' : (v.trace ++ [Event.stClose .op]).length = s.trace.length + n + 3 := by
    rw [List.length_append, htr]; rfl
  by_cases hn : a = .never
  · subst hn
    rw [closeThen_hangs .op _ ha]
    exact ⟨hr, rfl, absurd rfl, rfl, htr', List.getLast?_concat, hk⟩
  · rw [closeThen_returns .op _ hst ha hn]
    exact ⟨(if_neg hn).symm, hst.trans (decide_eq_false hn).symm, fun _ => rfl, rfl, htr', List.getLast?_concat, hk⟩

theorem stateSaveOp_torn (hst : s.stalled = false) (hl : s.cart.loaded = true) (hn : n < unitCount s.cart)
    (ha : s.answers = .ok :: (List.replicate n .ok ++ .fail :: a :: rest)) :
    SaveTorn id n a rest s (stateSaveOp id s) := by
  have hlen : ((snapshot s).take n).length = n := by rw [List.length_take, snapshot_length]; omega
  have hsplit : snapshot s = (snapshot s).take n ++ (snapshot s).drop n := (List.take_append_drop n _).symm
  obtain ⟨b, bs, hdrop⟩ : ∃ b bs, (snapshot s).drop n = b :: bs :=
    ⟨_, _, List.drop_eq_getElem_cons (by rw [snapshot_length]; exact hn)⟩
  obtain ⟨v, hv, e⟩ := stateSaveOp_opened (id := id) hl ha
  obtain ⟨w, hw, hcs⟩ := Saving.write_all ((snapshot s).take n) (rest := .fail :: a :: rest) (by rwa [hlen])
  obtain ⟨x, ex, hresult, hstalled, hans, htraced, hkept⟩ := hw.write_fails b
  rw [e, hsplit, hcs, hdrop, writeUnits, ex]
  rw [List.nil_append, hlen] at htraced hkept
  exact .of_failed hresult (hstalled.trans hst) hans htraced fun y hy => (hkept y hy).trans (unitByte_take hy)

/-- Where the open fails nothing is written (R145; log entry 10). -/
theorem stateSaveOp_open_fails (hst : s.stalled = false) (hl : s.cart.loaded = true)
    (ha : s.answers = .fail :: rest) :
    stateSaveOp id s = { s with
      result := 0xFFFFFFFE, busy := false, hdr := buildHeader s, trace := s.trace ++ [.stOpen .op id .writeNew],
      answers := rest } := by
  unfold stateSaveOp
  rw [if_neg (by simp [hl]), stOpen_fails (s := { s with hdr := buildHeader s }) .op id .writeNew ha]
  exact unlessStalled_of_not (s := { s with
    hdr := buildHeader s, trace := s.trace ++ [.stOpen .op id .writeNew], answers := rest }) (raiseError .storage) hst

end Sys2Proof.Machine
end

section
/-! PROOFS. STATE_SAVE: the file it writes without a failure, and where it stops at one (R140 to R146, R210). -/

namespace Sys2Proof.Machine

variable {s t : State} {id : Half} {f : File}

/-- A snapshot begins with the header block. -/
theorem HoldsUnits.header (h : HoldsUnits (snapshot s) f) {x : Nat} (hx : x < 4096) :
    f.data.read x = (buildHeader s).read x := by
  rw [h.byte x (by rw [snapshot_length]; unfold unitCount; omega), unitByte_snapshot_header hx]

theorem HoldsUnits.header_record (h : HoldsUnits (snapshot s) f) {k : Nat} (hk : k < 414) :
    recordTag f.data k = recordTag (buildHeader s) k ∧ recordValue f.data k = recordValue (buildHeader s) k :=
  record_congr fun _ _ => h.header (by omega)

/-- How many primitives a STATE_SAVE or a STATE_LOAD issues: the open, the units, the close. -/
theorem primitives_eq (c : Cart) :
    2 + unitCount c = 3 + wramUnits c.hwfamily + vramUnits c.hwfamily + 2 * c.ramsize := by
  unfold unitCount; omega

theorem storageOk_replicate (s : State) {k n : Nat} (h : k ≤ n) :
    State.storageOk { s with answers := List.replicate n .ok } k := by
  show List.take k (List.replicate n Answer.ok) = _
  rw [List.take_replicate, Nat.min_eq_left h]

/-- What a STATE_SAVE leaves that no storage failure stops. -/
theorem stateSave_saved (hrun : exec (.stateSave id) s = .next t) (hs : s.ready) (hl : s.cart.loaded = true)
    (ha : s.storageOk (2 + unitCount s.cart)) :
    t.result = 0 ∧ t.stalled = false ∧ t.freeCount = s.freeCount ∧ t.opHandle = none ∧
    HoldsUnits (snapshot s) (fileNamed t id) := by
  have hcfg : t.cfg = s.cfg := (congrArg State.cfg (stateSave_frame hrun).1 :)
  obtain ⟨-, ht⟩ := acceptCommand_next hrun
  have hsaved : Saved id { s with busy := true } t := ht ▸ stateSaveOp_saved hs.2.2 hl ha
  have hfile := hsaved.file
  rw [snapshot_answers s true s.answers] at hfile
  refine ⟨hsaved.result, hsaved.runs, hsaved.freeCount, hsaved.closed, ?_⟩
  rw [fileNamed_eq, fileKey_eq_of_cfg hcfg]
  exact hfile

/-- Settles O39: the file holds the units in order, and each block, record and region lies in its own. -/
theorem stateSaveWritesTheSnapshot : Obligations.StateSaveWritesTheSnapshot := by
  intro s id hs hl hcfg _ ha
  have hrun : exec (.stateSave id) s = .next (stateSaveOp id { s with busy := true }) := acceptCommand_ready hs _
  obtain ⟨hframe, hothers, htrace⟩ := stateSave_frame hrun
  obtain ⟨hresult, hruns, hfree, hclosed, hfile⟩ :=
    stateSave_saved hrun hs hl (storageOk_mono ha (primitives_eq s.cart).le)
  refine ⟨_, hrun, ?_⟩
  generalize stateSaveOp id { s with busy := true } = t at *
  have hlen : s.cfg.regTable.length ≤ 412 := by obtain ⟨-, -, -, -, -, h, -⟩ := hcfg; exact h
  have hbyte : ∀ x, x < 4096 * unitCount s.cart →
      memByte t (.file id) x = unitByte (snapshot s) x := fun x hx => hfile.byte x (by rwa [snapshot_length])
  have hhead : ∀ x, x < 4096 → memByte t (.file id) x = (buildHeader s).read x := fun _ => hfile.header
  unfold unitCount at hbyte
  obtain ⟨hversion, hnumber⟩ := hfile.header_record (k := 0) (by omega)
  obtain ⟨hversion', hnumber'⟩ := buildHeader_version s
  refine ⟨?_, hothers, htrace, ?_, by cases s.cart.hwfamily <;> rfl, by cases s.cart.hwfamily <;> rfl,
    hversion.trans hversion', hnumber.trans hnumber', fun j e he => ?_, fun x hx hx' => ?_, fun x hx => ?_,
    fun x hx => ?_, fun x hx => ?_, fun x hx => ?_, fun x hx => ?_, fun x hx => ?_, fun x hx => ?_⟩
  · rw [hresult, hruns, hfree, hclosed] at hframe
    rw [hs.1, hs.2.2]
    exact hframe
  · rw [hfile.len, snapshot_length]; rfl
  · have hj := (List.getElem?_eq_some_iff.1 he).1
    obtain ⟨htag, hvalue⟩ := hfile.header_record (k := 1 + j) (by omega)
    obtain ⟨htag', hvalue'⟩ := buildHeader_register hlen he
    exact ⟨htag.trans htag', hvalue.trans hvalue'⟩
  · rw [hhead x (by omega), buildHeader_unused s hx hx']
  · rw [hhead _ (by omega), (buildHeader_regions hlen).1 hx]; rfl
  · rw [hhead _ (by omega), (buildHeader_regions hlen).2.1 hx]; rfl
  · rw [hhead _ (by omega), (buildHeader_regions hlen).2.2.1 hx]; rfl
  · rw [hhead _ (by omega), (buildHeader_regions hlen).2.2.2 hx]; rfl
  · rw [hbyte _ (by omega), unitByte_snapshot_wram hx]; rfl
  · rw [hbyte _ (by omega), unitByte_snapshot_vram hx]; rfl
  · rw [hbyte _ (by omega), unitByte_snapshot_sram hx]; rfl

/-- Settles O40: by the primitive that fails, the open or a write. -/
theorem stateSaveStopsAtTheFirstFailure : Obligations.StateSaveStopsAtTheFirstFailure := by
  intro s id k a rest hs hl _ hk ha
  have hrun : exec (.stateSave id) s = .next (stateSaveOp id { s with busy := true }) := acceptCommand_ready hs _
  obtain ⟨hframe, hothers, htrace⟩ := stateSave_frame hrun
  cases k with
  | zero =>
    have e := stateSaveOp_open_fails (s := { s with busy := true }) (id := id) hs.2.2 hl ha
    refine ⟨_, hrun, ?_, hothers, htrace, fun _ => by rw [e]; exact ⟨rfl, rfl, rfl⟩, fun h => absurd h (by decide)⟩
    have hresult : (stateSaveOp id { s with busy := true }).result = 0xFFFFFFFE := by rw [e]
    have hruns : (stateSaveOp id { s with busy := true }).stalled = false := by rw [e]; exact hs.2.2
    rw [hresult, hruns] at hframe
    rw [decide_eq_false fun h => absurd h.1 (by decide)]
    exact hframe
  | succ n =>
    have hn : n < unitCount s.cart := by unfold unitCount; omega
    have htorn : SaveTorn id n a rest { s with busy := true } (stateSaveOp id { s with busy := true }) :=
      stateSaveOp_torn hs.2.2 hl hn ha
    refine ⟨_, hrun, ?_, hothers, htrace, fun h => absurd h (Nat.succ_ne_zero n), fun _ =>
      ⟨htorn.closed, htorn.answers, htorn.traced, htorn.last, fun t' hrun' x hx => ?_⟩⟩
    · have hhangs : decide (1 ≤ n + 1 ∧ a = .never) = decide (a = .never) := by simp
      rw [htorn.result, htorn.stalled] at hframe
      rw [hhangs]
      simp only [decide_eq_true_eq]
      exact hframe
    · have hcfg : (stateSaveOp id { s with busy := true }).cfg = s.cfg := (congrArg State.cfg hframe :)
      obtain ⟨-, -, -, -, hfile⟩ :=
        stateSave_saved hrun' hs hl (storageOk_replicate s (primitives_eq s.cart).le)
      rw [snapshot_answers s s.busy] at hfile
      have hkept := htorn.kept x hx
      rw [snapshot_answers s true s.answers] at hkept
      rw [memByte, memByte, fileNamed_eq, fileKey_eq_of_cfg hcfg, hfile.byte x (by rw [snapshot_length]; omega)]
      exact hkept

end Sys2Proof.Machine
end

section
/-! PROOFS. What a machine register reads as after registers are written, and after STATE_LOAD's register walk (R31,
R69, R150, R151). -/

namespace Sys2Proof.Machine

variable {s : State} {id id' : RegId} {es pre post : List RegEntry} {e : RegEntry}

/-! ### One register -/

theorem writeReg_ioreg (k : Nat) (v : Word) (s : State) :
    ∃ m, writeReg (.ioreg k) v s = { s with ioregs := m } := by
  unfold writeReg
  dsimp only
  split <;> exact ⟨_, rfl⟩

/-- A write of one register leaves every other (R31). -/
theorem readReg_writeReg_ne (hne : id' ≠ id) (v : Word) (s : State) :
    readReg (writeReg id' v s) id = readReg s id := by
  cases id with
  | rambank =>
    cases id' with
    | rambank => exact absurd rfl hne
    | ioreg k => obtain ⟨m, e⟩ := writeReg_ioreg k v s; rw [e]; rfl
    | _ => rfl
  | bootromOff =>
    cases id' with
    | bootromOff => exact absurd rfl hne
    | ioreg k => obtain ⟨m, e⟩ := writeReg_ioreg k v s; rw [e]; rfl
    | _ => rfl
  | ioreg k =>
    cases id' with
    | ioreg j =>
      have hjk : k ≠ j := fun h => hne (congrArg RegId.ioreg h.symm)
      unfold writeReg
      dsimp only
      split
      · exact congrArg (BitVec.setWidth 32) (Memory.read_write_ne s.ioregs _ hjk)
      · rfl
    | _ => rfl
  | other n =>
    cases id' with
    | other j => exact (getD_put s.mreg j n v).trans (if_neg fun h => hne (congrArg RegId.other h.symm))
    | ioreg k => obtain ⟨m, e⟩ := writeReg_ioreg k v s; rw [e]; rfl
    | _ => rfl
  | _ => exact readReg_writeReg_other rfl hne v s

/-- A value that fits survives the way through a narrower register. -/
theorem setWidth_of_lt {v : Word} {k : Nat} (h : v.toNat < 2 ^ k) : (v.setWidth k).setWidth 32 = v :=
  BitVec.eq_of_toNat_eq (by
    rw [BitVec.toNat_setWidth, BitVec.toNat_setWidth, Nat.mod_eq_of_lt h, Nat.mod_eq_of_lt v.isLt])

/-- A register written at the width REG_TABLE gives it reads back (R31, R69). -/
theorem readReg_writeReg_same {w : Nat} (h : id.widthOk w = true) (hb : id ≠ .bootromOff) (hm : s.ioregs.wf)
    (v : Word) : readReg (writeReg id (narrow w v) s) id = narrow w v := by
  have hv := narrow_lt w v
  cases id with
  | bootromOff => exact absurd rfl hb
  | rtcReg j =>
    obtain rfl := eq_of_beq h
    unfold readReg writeReg
    simp only [Fin.getElem_fin, Vector.getElem_set_self]
    exact setWidth_of_lt hv
  | rtcTicksLow =>
    show (s.rtcTicks.extractLsb' 32 32 ++ narrow w v).setWidth 32 = narrow w v
    exact BitVec.setWidth_append_eq_right
  | rtcTicksHigh => exact BitVec.extractLsb'_append_eq_left
  | ioreg k =>
    obtain ⟨hw, hk⟩ := Bool.and_eq_true_iff.1 h
    obtain rfl := eq_of_beq hw
    unfold readReg writeReg
    dsimp only
    rw [if_pos (show k < lenIo from of_decide_eq_true hk), Memory.read_write_same hm]
    exact setWidth_of_lt hv
  | other n => exact (getD_put s.mreg n n _).trans (if_pos rfl)
  | _ =>
    obtain rfl := eq_of_beq h
    exact setWidth_of_lt hv

theorem setWidth_back (b : Byte) : (b.setWidth 32).setWidth 8 = b := by
  rw [BitVec.setWidth_setWidth_of_le b (by decide), BitVec.setWidth_eq]

theorem rambank_eq (s : State) : s.rambank = (readReg s .rambank).setWidth 8 := (setWidth_back _).symm

theorem ioregs_read (s : State) (k : Nat) : s.ioregs.read k = (readReg s (.ioreg k)).setWidth 8 :=
  (setWidth_back _).symm

/-! ### The walk -/

theorem walkRegisters_append (es es' : List RegEntry) (s : State) :
    walkRegisters (es ++ es') s = walkRegisters es' (walkRegisters es s) := by
  induction es generalizing s with
  | nil => rfl
  | cons e es ih => exact ih _

theorem walkRegisters_hdr (es : List RegEntry) (s : State) : (walkRegisters es s).hdr = s.hdr := by
  obtain ⟨_, _, _, _, _, _, _, h⟩ := walkRegisters_regs es s; rw [h]

/-- A register the entries do not name keeps its value (R151). -/
theorem readReg_walk_unnamed (h : ∀ e ∈ es, e.id ≠ id) (s : State) :
    readReg (walkRegisters es s) id = readReg s id := by
  induction es generalizing s with
  | nil => rfl
  | cons e es ih =>
    exact (ih (fun e' he' => h e' (List.mem_cons_of_mem _ he')) _).trans
      (readReg_writeReg_ne (h e (List.mem_cons_self ..)) _ s)

/-- A register takes what FIND gives for the last entry that names it (R151). -/
theorem readReg_walk_last (hm : MemoriesCanonical s) (hw : e.id.widthOk e.width = true) (hb : e.id ≠ .bootromOff)
    (hpost : ∀ e' ∈ post, e'.id ≠ e.id) :
    readReg (walkRegisters (pre ++ e :: post) s) e.id = narrow e.width (findRecord s.hdr e.tag) := by
  rw [walkRegisters_append, walkRegisters, readReg_walk_unnamed hpost,
    readReg_writeReg_same hw hb (hm.walkRegisters pre).ioregs, walkRegisters_hdr]

end Sys2Proof.Machine
end

section
/-! PROOFS. STATE_LOAD without a storage failure (R147 to R150, R152 to R155): the units it reads, where it stores them,
and the state it ends in. -/

namespace Sys2Proof.Machine

variable {s t u : State} {id : Half} {f : File} {rest : List Answer} {hd : Handle}

/-! ### The reads -/

/-- Reads that all answer, of a file long enough, deliver its bytes from the handle's position on (R148). -/
theorem readUnits_full (k : Nat) (hh : s.opHandle = some hd) (hlen : hd.pos + 4096 * k ≤ (fileOf hd s).len)
    (hf : (fileOf hd s).data.wf) (ha : s.answers = List.replicate k .ok ++ rest) :
    ∃ us es, readUnits k s = (some us, { s with
        trace := s.trace ++ es, answers := rest, opHandle := some { hd with pos := hd.pos + 4096 * k } }) ∧
      (∀ e ∈ es, e.isStorage = true) ∧ (∀ u ∈ us, Memory.wf u) ∧ us.length = k ∧
      ∀ a, a < 4096 * k → unitByte us a = (fileOf hd s).data.read (hd.pos + a) := by
  induction k generalizing s hd with
  | zero =>
    refine ⟨[], [], ?_, nofun, nofun, rfl, fun a h => absurd h (Nat.not_lt_zero a)⟩
    rw [List.append_nil, ← show s.answers = rest from ha, Nat.mul_zero, Nat.add_zero, ← hh]
    rfl
  | succ k ih =>
    have hfit : hd.pos + unitSize ≤ (fileOf hd s).len :=
      (Nat.add_le_add_left (Nat.le_mul_of_pos_right unitSize (Nat.succ_pos k)) _).trans hlen
    have hread : readAt (fileOf hd s) hd.pos unitSize = .full ((fileOf hd s).data.slice hd.pos unitSize) :=
      if_pos hfit
    have e := stRead_ok (h := .op) unitSize hh (rest := List.replicate k Answer.ok ++ rest) ha
    rw [hread] at e
    obtain ⟨us, es, hus, hes, hwf, hcount, hbytes⟩ := ih (s := (stRead .op unitSize s).2)
      (hd := { hd with pos := hd.pos + 4096 }) (by rw [e]; rfl)
      (by rw [e]; show hd.pos + 4096 + 4096 * k ≤ (fileOf hd s).len; omega)
      (by rw [e]; exact hf) (by rw [e]; rfl)
    rw [e] at hus hbytes
    refine ⟨(fileOf hd s).data.slice hd.pos unitSize :: us, .stRead .op unitSize :: es, ?_,
      List.forall_mem_cons.2 ⟨rfl, hes⟩, List.forall_mem_cons.2 ⟨Memory.wf_slice hf _ _, hwf⟩, ?_, fun a ha => ?_⟩
    · rw [readUnits, e]
      simp only [hus]
      rw [Nat.mul_add, Nat.add_comm (4096 * k), ← Nat.add_assoc, List.append_cons]
      rfl
    · rw [List.length_cons, hcount]
    · by_cases hin : a < 4096
      · rw [unitByte_head hin, Memory.read_slice, if_pos hin]
      · obtain ⟨b, rfl⟩ := Nat.exists_eq_add_of_le (Nat.le_of_not_lt hin)
        rw [unitByte_tail, hbytes b (by omega), ← Nat.add_assoc]
        rfl

/-- Units stored lie where they belong, and the rest of the memory is as before (R147). -/
theorem read_storeUnits (us : List Memory) (k : Nat) (m : Memory) (a : Nat) :
    (storeUnits k us m).read a =
      if 4096 * k ≤ a ∧ a < 4096 * (k + us.length) then unitByte us (a - 4096 * k) else m.read a := by
  induction us generalizing k m with
  | nil => rw [if_neg (by simp only [List.length_nil]; omega)]; rfl
  | cons b us ih =>
    have hoff : unitOffset k = 4096 * k := Nat.mul_comm k 4096
    rw [storeUnits, ih, List.length_cons, Memory.read_splice, hoff]
    by_cases hlow : 4096 * k ≤ a
    · obtain ⟨d, rfl⟩ := Nat.exists_eq_add_of_le hlow
      rw [Nat.add_sub_cancel_left]
      by_cases hd : d < 4096
      · rw [if_neg (by omega), if_pos (by show _ ∧ _ < 4096 * k + 4096; omega), if_pos (by omega), unitByte_head hd]
      · obtain ⟨d, rfl⟩ := Nat.exists_eq_add_of_le (Nat.le_of_not_lt hd)
        rw [unitByte_tail, if_neg (show ¬ (_ ∧ _ < 4096 * k + 4096) by omega),
          show 4096 * k + (4096 + d) - 4096 * (k + 1) = d by omega]
        exact if_congr (by omega) rfl rfl
    · rw [if_neg (by omega), if_neg (by omega), if_neg (by omega)]

theorem read_storeUnits_front {us : List Memory} {a : Nat} (m : Memory) (h : a < 4096 * us.length) :
    (storeUnits 0 us m).read a = unitByte us a := by
  rw [read_storeUnits, if_pos (by omega)]; rfl

/-! ### The state before the registers -/

/-- `u` is `s` with the snapshot in `f` read and its blocks stored, and the handle closed (R147 to R149). -/
structure Loaded (f : File) (s u : State) : Prop where
  frame : u = { s with
    wram := u.wram, vram := u.vram, sram := u.sram, hdr := u.hdr, trace := u.trace, answers := u.answers,
    opHandle := none }
  events : OnlyStorageSince s u
  canonical : MemoriesCanonical u
  header : ∀ a, a < 4096 → u.hdr.read a = f.data.read a
  wram : ∀ a, a < 4096 * wramUnits s.cart.hwfamily → u.wram.read a = f.data.read (4096 + a)
  vram : ∀ a, a < 4096 * vramUnits s.cart.hwfamily →
    u.vram.read a = f.data.read (4096 * (1 + wramUnits s.cart.hwfamily) + a)
  sram : ∀ a, a < 8192 * s.cart.ramsize →
    u.sram.read a = f.data.read (4096 * (1 + wramUnits s.cart.hwfamily + vramUnits s.cart.hwfamily) + a)

/-- Storing the units of `f`, the header apart, makes the blocks what `f` has (R147, R148). -/
theorem Loaded.of_units {h : Memory} {us : List Memory} {tr : List Event} (hm : MemoriesCanonical s)
    (hev : OnlyStorageSince s { s with trace := tr }) (hwf : ∀ m ∈ h :: us, Memory.wf m)
    (hlen : (h :: us).length = unitCount s.cart)
    (hbyte : ∀ a, a < 4096 * unitCount s.cart → unitByte (h :: us) a = f.data.read a) :
    Loaded f s (storeBlocks us { s with hdr := h, trace := tr, answers := rest, opHandle := none }) := by
  obtain ⟨hh, hus⟩ := List.forall_mem_cons.1 hwf
  have htail : ∀ a, 4096 + a < 4096 * unitCount s.cart → unitByte us a = f.data.read (4096 + a) := fun a ha => by
    rw [← unitByte_tail h, hbyte _ ha]
  rw [List.length_cons] at hlen
  unfold unitCount at hlen hbyte htail
  have hcanon : MemoriesCanonical
      { s with hdr := h, trace := tr, answers := rest, opHandle := none } := { hm with hdr := hh }
  refine ⟨rfl, hev, hcanon.storeBlocks hus, fun a ha => ?_, fun a ha => ?_, fun a ha => ?_,
    fun a ha => ?_⟩
  · exact (unitByte_head ha).symm.trans (hbyte a (by omega))
  · show (storeUnits 0 (us.take (wramUnits s.cart.hwfamily)) s.wram).read a = _
    rw [read_storeUnits_front _ (by rw [List.length_take]; omega), unitByte_take ha, htail a (by omega)]
  · show (storeUnits 0 ((us.drop (wramUnits s.cart.hwfamily)).take (vramUnits s.cart.hwfamily)) s.vram).read a = _
    rw [read_storeUnits_front _ (by rw [List.length_take, List.length_drop]; omega), unitByte_take ha, unitByte_drop,
      htail _ (by omega)]
    congr 1; omega
  · show (storeUnits 0 (us.drop (wramUnits s.cart.hwfamily + vramUnits s.cart.hwfamily)) s.sram).read a = _
    rw [read_storeUnits_front _ (by rw [List.length_drop]; omega), unitByte_drop, htail _ (by omega)]
    congr 1; omega

/-- The units read are stored, then the handle is closed (R148). -/
theorem loadStateRead_closed {h : Memory} {us : List Memory} (hst : s.stalled = false)
    (ha : s.answers = .ok :: rest) :
    loadStateRead (some (h :: us), s) = stateRestored (storeBlocks us
      { s with hdr := h, trace := s.trace ++ [.stClose .op], answers := rest, opHandle := none }) :=
  closeThen_returns (s := storeBlocks us { s with hdr := h }) .op stateRestored hst ha (by decide)

theorem stateLoadOp_loaded (hst : s.stalled = false) (hl : s.cart.loaded = true) (hm : MemoriesCanonical s)
    (hf : Tab.get? s.files (fileKey s id) = some f) (hlen : 4096 * unitCount s.cart ≤ f.len)
    (ha : s.storageOk (2 + unitCount s.cart)) :
    ∃ u, stateLoadOp id s = stateRestored u ∧ Loaded f s u := by
  obtain ⟨rest, hans⟩ := storageOk_open_close ha
  have hopen := stOpen_ok .op id .read hans (by unfold missing; rw [hf]; rfl)
  have hfile : fileNamed s id = f := fileNamed_of_get? hf
  obtain ⟨us, es, hread, hes, hwf, hcount, hbyte⟩ := readUnits_full (s := { s with
      trace := s.trace ++ [.stOpen .op id .read], answers := List.replicate (unitCount s.cart) .ok ++ .ok :: rest,
      opHandle := some ⟨id, .read, 0⟩ }) (hd := ⟨id, .read, 0⟩) (rest := .ok :: rest) (unitCount s.cart) rfl
    (by show 0 + _ ≤ (fileNamed s id).len; rw [hfile, Nat.zero_add]; exact hlen)
    (hm.filesOk.fileAt (fileKey s id)).1 rfl
  obtain ⟨h, us, rfl⟩ : ∃ h vs, us = h :: vs := List.exists_cons_of_length_pos (by rw [hcount]; unfold unitCount; omega)
  have hevents : OnlyStorageSince s { s with
      trace := s.trace ++ [.stOpen .op id .read] ++ es ++ [.stClose .op] } :=
    ⟨.stOpen .op id .read :: (es ++ [.stClose .op]),
      by simp only [List.append_assoc, List.cons_append, List.nil_append],
      List.forall_mem_cons.2 ⟨rfl, List.forall_mem_append.2 ⟨hes, List.forall_mem_singleton.2 rfl⟩⟩⟩
  refine ⟨_, ?_, Loaded.of_units (rest := rest) hm hevents hwf hcount fun a ha => ?_⟩
  · unfold stateLoadOp
    rw [if_neg (by simp [hl]), hopen]
    show loadStateRead (readUnits (unitCount s.cart) _) = _
    exact (congrArg loadStateRead hread).trans (loadStateRead_closed hst rfl)
  · rw [hbyte a ha]
    show (fileNamed s id).data.read (0 + a) = _
    rw [hfile, Nat.zero_add]

end Sys2Proof.Machine
end

section
/-! PROOFS. STATE_LOAD without a storage failure: the machine it restores (R147 to R156). -/

namespace Sys2Proof.Machine

variable {s u : State} {id : Half} {f : File} {r : RegId} {pre post : List RegEntry} {e : RegEntry}

/-! ### The end of the load -/

/-- Whether the snapshot's version is another than the block's (R152). -/
def versionDiffers (v : State) : Bool := decide (v.loadedVersion ≠ v.cfg.formatVersion)

/-- The rest of a STATE_LOAD, the version check by its outcome (R152 to R155). -/
theorem finished_eq (v : State) :
    finished v = { v with
      rambank := v.rambank &&& BitVec.ofNat 8 (v.cart.ramsize - 1), bootromDisable := true,
      warn := if versionDiffers v then v.warn ||| 1 else v.warn, result := 0, busy := false,
      trace := v.trace ++ (if versionDiffers v then [.warn .version] else []) ++
        [.palRebuild, .sndDirty, .memRemap] } := by
  unfold finished checkVersion versionDiffers
  by_cases h : v.loadedVersion ≠ v.cfg.formatVersion
  · rw [if_pos h, decide_eq_true h]
    simp only [complete, notifyLoaded, emit, maskRambank, raiseWarning, warnBit, List.append_assoc, List.cons_append,
      List.nil_append, if_true]
  · rw [if_neg h, decide_eq_false h]
    simp only [complete, notifyLoaded, emit, maskRambank, List.append_assoc, List.cons_append, List.nil_append,
      List.append_nil, if_false, Bool.false_eq_true]

/-- The state in which the register walk begins (R147, R150). -/
def walkStart (u : State) : State := { takeRegions u with loadedVersion := findRecord u.hdr u.cfg.versionTag }

/-- The restored state field by field, the registers being those the walk leaves (R150 to R155). -/
theorem stateRestored_fields (u : State) :
    stateRestored u = { walkStart u with
      rambank := (walked u).rambank &&& BitVec.ofNat 8 (u.cart.ramsize - 1), bootromDisable := true,
      rombank := (walked u).rombank, rtc := (walked u).rtc, rtcTicks := (walked u).rtcTicks,
      ioregs := (walked u).ioregs, mreg := (walked u).mreg,
      warn := if versionDiffers (walkStart u) then u.warn ||| 1 else u.warn, result := 0, busy := false,
      trace := u.trace ++ (if versionDiffers (walkStart u) then [.warn .version] else []) ++
        [.palRebuild, .sndDirty, .memRemap] } := by
  obtain ⟨ra, bo, ro, rt, tk, io, mr, e⟩ : RegsOnly (walkStart u) (walked u) := walkRegisters_regs _ _
  rw [stateRestored_eq, finished_eq, e]
  rfl

/-- The mask and the boot-ROM flag are the only registers written after the walk (R153, R154). -/
theorem readReg_stateRestored (h : r ≠ .rambank) (h' : r ≠ .bootromOff) (u : State) :
    readReg (stateRestored u) r = readReg (walked u) r := by
  rw [stateRestored_fields]
  cases r with
  | rambank => exact absurd rfl h
  | bootromOff => exact absurd rfl h'
  | _ => rfl

/-- Only the registers that are bytes of IOREGS change with the regions (R150). -/
theorem readReg_walkStart (h : ∀ k, r ≠ .ioreg k) (u : State) : readReg (walkStart u) r = readReg u r := by
  cases r with
  | ioreg k => exact absurd rfl (h k)
  | _ => rfl

theorem walkStart_canonical (h : MemoriesCanonical u) : MemoriesCanonical (walkStart u) := { h.takeRegions with }

/-! ### The restored registers -/

/-- The state a load reaches before its registers has the registers it started with. -/
theorem Loaded.register (h : Loaded f s u) (r : RegId) : readReg u r = readReg s r := by
  rw [h.frame]
  cases r <;> rfl

theorem Loaded.find (h : Loaded f s u) (t : Tag) : findRecord u.hdr t = findRecord f.data t :=
  findRecord_congr h.header t

theorem Loaded.cfg (h : Loaded f s u) : u.cfg = s.cfg := (congrArg State.cfg h.frame :)

/-- A register REG_TABLE names holds its record after the walk (R151). -/
theorem Loaded.walked_named (h : Loaded f s u) (hcfg : Config.wf s.cfg) (htab : s.cfg.regTable = pre ++ e :: post)
    (hpost : ∀ e' ∈ post, e'.id ≠ e.id) (hb : e.id ≠ .bootromOff) :
    readReg (walked u) e.id = narrow e.width (findRecord f.data e.tag) := by
  obtain ⟨-, -, -, -, -, -, hentry, -⟩ := hcfg
  have hw := (hentry e (by rw [htab]; simp)).2.2
  rw [← h.cfg] at htab
  rw [← h.find]
  unfold walked
  rw [htab]
  exact readReg_walk_last (walkStart_canonical h.canonical) hw hb hpost

/-- REG_TABLE gives the RAM-bank selector one byte (R17, R31). -/
theorem rambank_width {c : Config} (hcfg : Config.wf c) (he : e ∈ c.regTable) (hid : e.id = .rambank) :
    e.width = 1 := by
  obtain ⟨-, -, -, -, -, -, hentry, -⟩ := hcfg
  have hw := (hentry e he).2.2
  rw [hid] at hw
  exact eq_of_beq hw

theorem narrow_one_setWidth (v : Word) : (narrow 1 v).setWidth 8 = v.setWidth 8 :=
  BitVec.eq_of_toNat_eq (by
    unfold narrow
    rw [BitVec.toNat_setWidth, BitVec.toNat_ofNat, BitVec.toNat_setWidth]
    omega)

/-- A register REG_TABLE does not name is as the walk found it (R151). -/
theorem Loaded.walked_unnamed (h : Loaded f s u) (hr : ∀ e ∈ s.cfg.regTable, e.id ≠ r) :
    readReg (walked u) r = readReg (walkStart u) r :=
  readReg_walk_unnamed (by rwa [h.cfg]) _

/-- The four regions as the header block has them (R150). -/
theorem Loaded.regions (h : Loaded f s u) (a : Nat) :
    (a < 16 → (walkStart u).wave.read a = f.data.read (0x0CF0 + a)) ∧
    (a < 256 → (walkStart u).ioregs.read a = f.data.read (0x0D00 + a)) ∧
    (a < 128 → (walkStart u).pal.read a = f.data.read (0x0E00 + a)) ∧
    (a < 160 → (walkStart u).oam.read a = f.data.read (0x0F00 + a)) := by
  have hslice : ∀ off n, off + n ≤ 4096 → a < n → (u.hdr.slice off n).read a = f.data.read (off + a) :=
    fun off n hfit ha => by rw [Memory.read_slice, if_pos ha, h.header _ (by omega)]
  exact ⟨hslice offWave lenWave (by decide), hslice offIo lenIo (by decide), hslice offPal lenPal (by decide),
    hslice offOam lenOam (by decide)⟩

theorem stateLoad_loaded (hs : s.ready) (hl : s.cart.loaded = true) (hm : MemoriesCanonical s)
    (hf : Tab.get? s.files (fileKey s id) = some f) (hlen : 4096 * unitCount s.cart ≤ f.len)
    (ha : s.storageOk (2 + unitCount s.cart)) :
    ∃ u, exec (.stateLoad id) s = .next (stateRestored u) ∧ Loaded f { s with busy := true } u := by
  obtain ⟨u, e, hu⟩ := stateLoadOp_loaded (s := { s with busy := true }) (id := id) hs.2.2 hl { hm with } hf hlen ha
  exact ⟨u, (acceptCommand_ready hs _).trans (congrArg _ e), hu⟩

/-- Settles O43: the blocks from the units read, the regions from the header block, the registers by the walk. -/
theorem stateLoadRestoresTheMachine : Obligations.StateLoadRestoresTheMachine := by
  intro s id f hs hl hcfg hm hf hlen ha
  obtain ⟨u, hrun, hu⟩ := stateLoad_loaded hs hl hm hf hlen (storageOk_mono ha (primitives_eq s.cart).le)
  obtain ⟨es, htrace, hes⟩ := hu.events
  have hcfgu : u.cfg = s.cfg := hu.cfg
  have hcart : u.cart = s.cart := (congrArg State.cart hu.frame :)
  have hversion : (walkStart u).loadedVersion = findRecord f.data s.cfg.versionTag := by
    show findRecord u.hdr u.cfg.versionTag = _
    rw [hu.find, hcfgu]
  have hdiffers : versionDiffers (walkStart u) = decide (findRecord f.data s.cfg.versionTag ≠ s.cfg.formatVersion) := by
    unfold versionDiffers
    rw [hversion, ← hcfgu]; rfl
  have hfields := stateRestored_fields u
  rw [hdiffers] at hfields
  have hregions := hu.regions
  have hnamed := fun {pre e post} => hu.walked_named (pre := pre) (e := e) (post := post) hcfg
  have hunnamed := fun {r} => hu.walked_unnamed (r := r)
  have hsame : ∀ r, readReg u r = readReg s r := fun r => (hu.register r).trans (by cases r <;> rfl)
  have hrambank : (stateRestored u).rambank = (walked u).rambank &&& BitVec.ofNat 8 (s.cart.ramsize - 1) :=
    hcart ▸ (congrArg State.rambank hfields :)
  refine ⟨stateRestored u, es, hrun, ?_, fun a ha => ?_, fun a ha => ?_, fun a ha => ?_, fun a ha => ?_, fun a ha => ?_,
    fun a ha => ?_, fun a ha hnot => ?_, fun pre e post htab hpost hra hbo => ?_, fun pre e post htab hpost hra => ?_,
    fun hnot => ?_, fun r hra hbo hio hnot => ?_, ?_, hes⟩
  · have hframe := stateLoad_frame hrun
    unfold LoadFrame at hframe
    have hresult : (stateRestored u).result = 0 := (congrArg State.result hfields :)
    have hruns : (stateRestored u).stalled = false :=
      ((congrArg State.stalled hfields :).trans (congrArg State.stalled hu.frame :)).trans hs.2.2
    have hfree : (stateRestored u).freeCount = s.freeCount :=
      (congrArg State.freeCount hfields :).trans (congrArg State.freeCount hu.frame :)
    have hclosed : (stateRestored u).opHandle = none :=
      (congrArg State.opHandle hfields :).trans (congrArg State.opHandle hu.frame :)
    have hloaded : (stateRestored u).loadedVersion = _ := (congrArg State.loadedVersion hfields :).trans hversion
    have hboot : (stateRestored u).bootromDisable = true := (congrArg State.bootromDisable hfields :)
    have hwarn : (stateRestored u).warn = _ := (congrArg State.warn hfields :)
    have hwarnu : u.warn = s.warn := (congrArg State.warn hu.frame :)
    rw [hresult, hruns, hfree, hclosed, hloaded, hboot, hwarn, hwarnu] at hframe
    rw [hs.1, hs.2.2]
    exact hframe
  · exact (congrArg (fun t => t.wram.read a) hfields).trans (hu.wram a ha)
  · exact (congrArg (fun t => t.vram.read a) hfields).trans (hu.vram a ha)
  · exact (congrArg (fun t => t.sram.read a) hfields).trans (hu.sram a ha)
  · exact (congrArg (fun t => t.wave.read a) hfields).trans ((hregions a).1 ha)
  · exact (congrArg (fun t => t.pal.read a) hfields).trans ((hregions a).2.2.1 ha)
  · exact (congrArg (fun t => t.oam.read a) hfields).trans ((hregions a).2.2.2 ha)
  · refine (congrArg (fun t => t.ioregs.read a) hfields).trans ?_
    show (walked u).ioregs.read a = _
    rw [ioregs_read, hunnamed hnot, ← ioregs_read]
    exact (hregions a).2.1 ha
  · rw [readReg_stateRestored hra hbo]
    exact hnamed htab hpost hbo
  · have hread := hnamed htab (hra ▸ hpost) (by rw [hra]; decide)
    rw [hra, rambank_width hcfg (by rw [htab]; simp) hra] at hread
    rw [hrambank, rambank_eq (walked u), hread, narrow_one_setWidth]
  · rw [hrambank, rambank_eq (walked u), hunnamed hnot, readReg_walkStart (by simp), hsame, ← rambank_eq]
  · rw [readReg_stateRestored hra hbo, hunnamed hnot, readReg_walkStart hio, hsame]
  · exact (congrArg State.trace hfields).trans (by rw [htrace])

end Sys2Proof.Machine
end

section
/-! PROOFS. The round trip of a snapshot (R158). -/

namespace Sys2Proof.Machine

variable {m : Memory} {c : Config} {e : RegEntry} {id : RegId}

/-- FIND answers the version record with the version (R142, R152). -/
theorem find_version (hcfg : Config.wf c) (htag : recordTag m 0 = c.versionTag) :
    findRecord m c.versionTag = recordValue m 0 := by
  obtain ⟨-, -, -, -, hv, -⟩ := hcfg
  exact findRecord_of_first hv (by decide) htag fun j hj => absurd hj (Nat.not_lt_zero j)

/-- FIND answers an entry's record with its value: no record before it has its tag or the zero tag (R142, R151). -/
theorem find_entry (hcfg : Config.wf c) (hversion : recordTag m 0 = c.versionTag)
    (htags : ∀ j e, c.regTable[j]? = some e → recordTag m (1 + j) = e.tag) {j : Nat} (he : c.regTable[j]? = some e) :
    findRecord m e.tag = recordValue m (1 + j) := by
  obtain ⟨-, -, -, -, hv, hlen, hentry, hnodup, -⟩ := hcfg
  obtain ⟨hj, hej⟩ := List.getElem?_eq_some_iff.1 he
  obtain ⟨hz, hne, -⟩ := hentry e (List.mem_of_getElem? he)
  refine findRecord_of_first hz (by omega) (htags j e he) fun i hi => ?_
  cases i with
  | zero => rw [hversion]; exact ⟨hne.symm, hv⟩
  | succ i =>
    have hi' : i < c.regTable.length := by omega
    rw [Nat.add_comm i 1, htags i c.regTable[i] (List.getElem?_eq_getElem hi')]
    have hpair := List.pairwise_iff_getElem.1 (List.pairwise_map.1 hnodup) i j hi' hj (by omega)
    rw [hej] at hpair
    exact ⟨hpair, (hentry _ (List.getElem_mem hi')).1⟩

/-- Of the entries that name a register one is the last. -/
theorem exists_last_entry {es : List RegEntry} (h : ∃ e ∈ es, e.id = id) :
    ∃ pre e post, es = pre ++ e :: post ∧ e.id = id ∧ ∀ e' ∈ post, e'.id ≠ id := by
  induction es with
  | nil => simp at h
  | cons x es ih =>
    by_cases hrest : ∃ e ∈ es, e.id = id
    · obtain ⟨pre, e, post, rfl, he, hpost⟩ := ih hrest
      exact ⟨x :: pre, e, post, rfl, he, hpost⟩
    · obtain ⟨e, he, hid⟩ := h
      obtain rfl | he := List.mem_cons.1 he
      · exact ⟨[], e, es, rfl, hid, fun e' he' hid' => hrest ⟨e', he', hid'⟩⟩
      · exact absurd ⟨e, he, hid⟩ hrest

/-- Settles O44: the file of the save holds a record for every entry, and FIND gives each its own. -/
theorem stateRoundTrip : Obligations.StateRoundTrip := by
  intro s t u id hs hl hcfg hm hfit ha hsave hu hcart hcfgu hfiles hmu hau
  obtain ⟨t', hsave', hframe, -, -, hlen, -, -, hvtag, hvalue, hrecords, -, hwave, hioregs, hpal, hoam, hwram, hvram,
    hsram⟩ := stateSaveWritesTheSnapshot s id hs hl hcfg hm ha
  obtain rfl : t' = t := Host.Outcome.next.inj (hsave'.symm.trans hsave)
  have hpos : 0 < (fileNamed t' id).len := by rw [hlen]; omega
  have hfile : Tab.get? u.files (fileKey u id) = some (fileNamed t' id) := by
    rw [hfiles, fileKey_eq_of_cfg hcfgu]
    exact get?_of_fileAt_len hpos
  have hcart : u.cart = s.cart := hcart.trans (congrArg State.cart hframe :)
  have hcfgu : u.cfg = s.cfg := hcfgu.trans (congrArg State.cfg hframe :)
  have hmain := stateLoadRestoresTheMachine u id (fileNamed t' id) hu
  rw [hcart, hcfgu] at hmain
  obtain ⟨v, es, hload, hv, hwram', hvram', hsram', hwave', hpal', hoam', hioregs', hnamed, hrambank, -⟩ :=
    hmain hl hcfg hmu hfile hlen.ge hau
  have hfind : ∀ e ∈ s.cfg.regTable, findRecord (fileNamed t' id).data e.tag = readReg s e.id := fun e he => by
    obtain ⟨j, hj⟩ := List.mem_iff_getElem?.1 he
    rw [find_entry hcfg hvtag (fun j e he => (hrecords j e he).1) hj, (hrecords j e hj).2, hfit e he]
  have hread : ∀ e ∈ s.cfg.regTable, e.id ≠ .rambank → e.id ≠ .bootromOff → readReg v e.id = readReg s e.id := by
    intro e he hra hbo
    obtain ⟨pre, e', post, htab, hid, hpost⟩ := exists_last_entry ⟨e, he, rfl⟩
    have he' : e' ∈ s.cfg.regTable := by rw [htab]; simp
    rw [← hid] at hra hbo hpost ⊢
    rw [hnamed pre e' post htab hpost hra hbo, hfind e' he', hfit e' he']
  have hversion : findRecord (fileNamed t' id).data s.cfg.versionTag = s.cfg.formatVersion :=
    (find_version hcfg hvtag).trans hvalue
  have hsame : decide (findRecord (fileNamed t' id).data s.cfg.versionTag ≠ s.cfg.formatVersion) = false :=
    decide_eq_false fun h => h hversion
  rw [hsame, hversion] at hv
  refine ⟨v, hload, (congrArg State.result hv :), (congrArg State.warn hv :), (congrArg State.loadedVersion hv :),
    (congrArg State.bootromDisable hv :), fun e he hbo hra => hread e he hra hbo, fun e he hid => ?_,
    fun a h => (hwram' a h).trans (hwram a h), fun a h => (hvram' a h).trans (hvram a h),
    fun a h => (hsram' a h).trans (hsram a h), fun a h => (hwave' a h).trans (hwave a h), fun a h => ?_,
    fun a h => ((hpal' a h).trans (hpal a (by omega))).trans (if_pos h),
    fun a h => ((hoam' a h).trans (hoam a (by omega))).trans (if_pos h)⟩
  · obtain ⟨pre, e', post, htab, hid', hpost⟩ := exists_last_entry ⟨e, he, hid⟩
    rw [hrambank pre e' post htab hpost hid', hfind e' (by rw [htab]; simp), hid', ← rambank_eq]
  · by_cases hnamed : ∃ e ∈ s.cfg.regTable, e.id = .ioreg a
    · obtain ⟨e, he, hid⟩ := hnamed
      have hreg := hread e he (by rw [hid]; simp) (by rw [hid]; simp)
      rw [hid] at hreg
      show v.ioregs.read a = s.ioregs.read a
      rw [ioregs_read, hreg, ← ioregs_read]
    · exact (hioregs' a h fun e he hid => hnamed ⟨e, he, hid⟩).trans (hioregs a h)

end Sys2Proof.Machine
end

section
/-! PROOFS. The cycle counters (R28, R29, R164, R192): a request adds to both, FRAME's HEAD quantum starts the frame
counter again, and nothing else writes them or emits a quantum. -/

namespace Sys2Proof.Machine

variable {s t : State}

/-! ### Sums over a trace -/

/-- A quantum's request, as against every other entry of the trace (R186). -/
def Event.isQuantum : Event → Bool
  | .run _ _ => true
  | _ => false

theorem Event.cycles_of_not_quantum {e : Event} (h : e.isQuantum = false) : e.cycles = 0 ∧ e.isHead = false := by
  cases e with
  | run n k => cases h
  | _ => exact ⟨rfl, rfl⟩

theorem Event.not_quantum_of_storage {e : Event} (h : e.isStorage = true) : e.isQuantum = false := by
  cases e with
  | run n k => cases h
  | _ => rfl

theorem cyclesSinceHead_append_one (tr : List Event) (e : Event) :
    cyclesSinceHead (tr ++ [e]) = if e.isHead then e.cycles else cyclesSinceHead tr + e.cycles := by
  simp [cyclesSinceHead]

theorem cyclesSinceHead_append_quiet (tr : List Event) {es : List Event} (h : ∀ e ∈ es, e.isQuantum = false) :
    cyclesSinceHead (tr ++ es) = cyclesSinceHead tr := by
  induction es generalizing tr with
  | nil => rw [List.append_nil]
  | cons e es ih =>
    obtain ⟨hc, hh⟩ := Event.cycles_of_not_quantum (h e List.mem_cons_self)
    calc cyclesSinceHead (tr ++ e :: es)
      _ = cyclesSinceHead (tr ++ [e] ++ es) := by rw [List.append_assoc]; rfl
      _ = cyclesSinceHead (tr ++ [e]) := ih _ fun x hx => h x (List.mem_cons_of_mem e hx)
      _ = cyclesSinceHead tr := by rw [cyclesSinceHead_append_one, hh, hc]; rfl

theorem requestedCycles_quiet {es : List Event} (h : ∀ e ∈ es, e.isQuantum = false) : requestedCycles es = 0 := by
  refine List.sum_eq_zero fun n hn => ?_
  obtain ⟨e, he, rfl⟩ := List.mem_map.1 hn
  exact (Event.cycles_of_not_quantum (h e he)).1

/-! ### Steps that request nothing -/

/-- No quantum was requested, and the counters are as before. -/
structure Quiet (s t : State) : Prop where
  frame : t.frameCycles = s.frameCycles
  total : t.totalCycles = s.totalCycles
  trace : ∃ es, t.trace = s.trace ++ es ∧ ∀ e ∈ es, e.isQuantum = false

theorem Quiet.of_trace (hf : t.frameCycles = s.frameCycles) (ht : t.totalCycles = s.totalCycles)
    (h : t.trace = s.trace) : Quiet s t :=
  ⟨hf, ht, [], by rw [h, List.append_nil], by simp⟩

theorem Quiet.of_storage (hf : t.frameCycles = s.frameCycles) (ht : t.totalCycles = s.totalCycles)
    (h : OnlyStorageSince s t) : Quiet s t := by
  obtain ⟨es, e, hes⟩ := h
  exact ⟨hf, ht, es, e, fun x hx => Event.not_quantum_of_storage (hes x hx)⟩

theorem Quiet.trans {u : State} (h₁ : Quiet s t) (h₂ : Quiet t u) : Quiet s u := by
  obtain ⟨f1, t1, es, e1, h1⟩ := h₁
  obtain ⟨f2, t2, es', e2, h2⟩ := h₂
  refine ⟨f2.trans f1, t2.trans t1, es ++ es', by rw [e2, e1, List.append_assoc], fun e he => ?_⟩
  exact (List.mem_append.1 he).elim (h1 e) (h2 e)

theorem Quiet.ended (h : Quiet s t) (r : Word) : Quiet s (endWith r t) := by
  unfold endWith
  split
  · exact h
  · exact ⟨h.frame, h.total, h.trace⟩

theorem BankStep.quiet (h : BankStep s t) : Quiet s t := by
  obtain ⟨⟨_, _, _, _, _, _, _, _, _, _, _, rfl⟩, ht⟩ := h
  exact .of_storage rfl rfl ht

theorem CartStep.quiet (h : CartStep s t) : Quiet s t := by
  obtain ⟨es, _, _, _, _, rfl, he⟩ := h
  exact .of_storage rfl rfl ⟨es, rfl, he⟩

theorem SaveBody.quiet {key : Nat} (h : SaveBody key s t) : Quiet s t := by
  obtain ⟨⟨_, _, es, _, _, _, _, _, rfl, he, -⟩, -⟩ := h
  exact .of_storage rfl rfl ⟨es, rfl, he⟩

theorem RestoreBody.quiet (h : RestoreBody s t) : Quiet s t := by
  obtain ⟨⟨_, _, _, _, es, _, _, _, _, rfl, he⟩, -⟩ := h
  exact .of_storage rfl rfl ⟨es, rfl, he⟩

theorem SnapshotStep.quiet {key : Nat} (h : SnapshotStep key s t) : Quiet s t := by
  obtain ⟨_, es, _, _, _, _, _, rfl, he, -⟩ := h
  exact .of_storage rfl rfl ⟨es, rfl, he⟩

theorem BulkStep.quiet (h : BulkStep s t) : Quiet s t := by
  obtain ⟨_, _, _, _, es, _, _, _, _, rfl, he⟩ := h
  exact .of_storage rfl rfl ⟨es, rfl, he⟩

theorem EnvOnly.quiet (h : EnvOnly s t) : Quiet s t := by
  rw [EnvOnly] at h
  rw [h]
  exact .of_trace rfl rfl rfl

theorem OpEnd.quiet {Step : State → State → Prop} (h : OpEnd Step s t) (hq : ∀ u, Step s u → Quiet s u) :
    Quiet s t := by
  obtain ⟨u, r, rfl, hu, -⟩ := h
  exact (hq u hu).ended r

/-! ### Commands -/

theorem BankEnd.quiet (h : BankEnd s t) : Quiet s t := by
  obtain ⟨u, r, rfl, hu, -⟩ := h
  exact hu.quiet.ended r

theorem cartUnloadOp_quiet (hs : s.stalled = false) : Quiet s (cartUnloadOp s) := by
  unfold cartUnloadOp
  split
  · have hclose : ∀ e ∈ [Event.stClose .cart], e.isQuantum = false := by simp [Event.isQuantum]
    obtain ⟨fc, ⟨-, e⟩ | ⟨-, e⟩⟩ := closeThen_cases (s := { s with slot := [], ftag := [], ramPages := 0, sram := [] })
      .cart cartFileClosed hs <;> rw [e] <;> exact ⟨rfl, rfl, _, rfl, hclose⟩
  · exact .of_trace rfl rfl rfl

theorem cartAnnounced_quiet (id : Half) (h : Header) (n : Nat) (s : State) : Quiet s (cartAnnounced id h n s) := by
  obtain ⟨es, he, hes⟩ := cartAnnounced_events id h n s
  refine ⟨by rw [cartAnnounced_eq]; rfl, by rw [cartAnnounced_eq]; rfl, es, he, fun e hmem => ?_⟩
  rcases hes e hmem with hst | rfl | rfl
  · exact Event.not_quantum_of_storage hst
  · rfl
  · rfl

theorem cartLoadOp_quiet (id : Half) (hs : stopped s = false) : Quiet s (cartLoadOp id s) := by
  rcases cartLoadOp_ends id hs with ⟨u, r, e, hu, -⟩ | ⟨b, n, u, -, -, hu, -, e⟩ <;> rw [e]
  · exact hu.quiet.ended r
  · exact ((hu.quiet.trans (cartAnnounced_quiet id (headerFields b) n u)).trans (preloadBody_step _ _).quiet).ended 0

theorem stateRestored_quiet (s : State) : Quiet s (stateRestored s) := by
  rw [stateRestored_fields]
  refine ⟨rfl, rfl, _, List.append_assoc _ _ _, fun e he => ?_⟩
  rcases List.mem_append.1 he with he | he
  · split at he
    · rw [List.mem_singleton.1 he]; rfl
    · cases he
  · simp only [List.mem_cons, List.not_mem_nil, or_false] at he
    rcases he with rfl | rfl | rfl <;> rfl

theorem stateLoadOp_quiet (id : Half) (hs : stopped s = false) : Quiet s (stateLoadOp id s) := by
  cases hl : s.cart.loaded with
  | false =>
    rw [stateLoadOp, if_pos hl]
    exact .of_trace rfl rfl rfl
  | true =>
    rcases stateLoadOp_ends id hs hl with ⟨u, e, hu, -⟩ | ⟨u, e, hu, -, -, -⟩ <;> rw [e]
    · exact hu.quiet.ended _
    · exact hu.quiet.trans (stateRestored_quiet u)

/-! ### The invariant -/

/-- The counters agree with the trace (R164, R192). -/
def CountersAgree (s : State) : Prop :=
  s.frameCycles = BitVec.ofNat 32 (cyclesSinceHead s.trace) ∧ s.totalCycles = BitVec.ofNat 64 (requestedCycles s.trace)

theorem CountersAgree.quiet (h : CountersAgree s) (hq : Quiet s t) : CountersAgree t := by
  obtain ⟨hf, ht⟩ := h
  obtain ⟨qf, qt, es, e, hes⟩ := hq
  refine ⟨?_, ?_⟩
  · rw [qf, hf, e, cyclesSinceHead_append_quiet _ hes]
  · rw [qt, ht, e, requestedCycles_append, requestedCycles_quiet hes, Nat.add_zero]

theorem CountersAgree.of_resetValues (h : ResetValues t) : CountersAgree t := by
  unfold CountersAgree
  rw [h.frameCycles, h.totalCycles, h.trace]
  exact ⟨rfl, rfl⟩

/-- A request counts in both counters; the HEAD quantum's counts from a cleared frame counter (R161, R164). -/
theorem CountersAgree.requestQuantum (ht : s.totalCycles = BitVec.ofNat 64 (requestedCycles s.trace))
    (n : Nat) (k : QKind)
    (hf : s.frameCycles = if k = .head then 0 else BitVec.ofNat 32 (cyclesSinceHead s.trace)) :
    CountersAgree (requestQuantum n k s) := by
  rw [requestQuantum_eq]
  refine ⟨?_, ?_⟩
  · show s.frameCycles + BitVec.ofNat 32 n = BitVec.ofNat 32 (cyclesSinceHead (s.trace ++ [.run n k]))
    rw [hf, cyclesSinceHead_append_one]
    cases k with
    | head => exact BitVec.zero_add _
    | line => exact (BitVec.ofNat_add _ _).symm
    | skip => exact (BitVec.ofNat_add _ _).symm
  · show s.totalCycles + BitVec.ofNat 64 n = BitVec.ofNat 64 (requestedCycles (s.trace ++ [.run n k]))
    rw [ht, requestedCycles_append, BitVec.ofNat_add]
    rfl

theorem CountersAgree.frameOp (h : CountersAgree s) (draw : Bool) : CountersAgree (frameOp draw s) := by
  unfold Machine.frameOp
  split
  · exact h
  · exact .requestQuantum (s := { s with renderEnable := draw, frameCycles := 0, phase := .p1 }) h.2 _ .head rfl

theorem CountersAgree.schedule (h : CountersAgree s) (hrun : schedule s = .next t) : CountersAgree t := by
  obtain ⟨hf, ht⟩ := h
  unfold Machine.schedule at hrun
  split at hrun
  case h_1 => cases hrun
  case h_2 => cases hrun; exact ⟨hf, ht⟩
  case h_3 =>
    split at hrun <;> cases hrun
    · exact .requestQuantum ht _ .line hf
    · exact .quiet ⟨hf, ht⟩ ⟨rfl, rfl, [.vblank], rfl, by simp [Event.isQuantum]⟩
  case h_4 =>
    split at hrun <;> cases hrun
    · exact ⟨hf, ht⟩
    · exact .requestQuantum (s := { s with phase := .p4s }) ht _ .skip hf
  case h_5 => cases hrun; exact ⟨hf, ht⟩
  case h_6 =>
    split at hrun <;> cases hrun
    · exact .requestQuantum ht _ .line hf
    · exact ⟨hf, ht⟩

theorem CountersAgree.exec_command {i : Instr} (h : CountersAgree s) (hp : i.port = .command)
    (hrun : exec i s = .next t) : CountersAgree t := by
  have hcmd : ∀ {op : State → State}, acceptCommand op s = .next t →
      (∀ u, stopped u = false → Quiet u (op u)) → CountersAgree t := by
    intro op hr hop
    obtain ⟨hready, rfl⟩ := acceptCommand_next hr
    exact CountersAgree.quiet (s := { s with busy := true }) h (hop _ (stopped_eq_false.2 hready.2))
  cases i with
  | cartLoad id => exact hcmd hrun fun _ hs => cartLoadOp_quiet id hs
  | cartUnload => exact hcmd hrun fun _ hs => cartUnloadOp_quiet (stopped_eq_false.1 hs).2
  | bankLoad n => exact hcmd hrun fun _ hs => (bankLoadOp_ends hs n).quiet
  | preload k => exact hcmd hrun fun _ hs => (preloadOp_ends hs k).quiet
  | sramSave id quick => exact hcmd hrun fun _ hs => (sramSaveOp_ends id quick hs).quiet fun _ hu => hu.quiet
  | sramLoad id => exact hcmd hrun fun _ hs => (sramLoadOp_ends id hs).quiet fun _ hu => hu.quiet
  | stateSave id => exact hcmd hrun fun _ hs => (stateSaveOp_ends id hs).quiet fun _ hu => hu.quiet
  | stateLoad id => exact hcmd hrun fun _ hs => stateLoadOp_quiet id hs
  | frame draw =>
    obtain ⟨-, rfl⟩ := acceptCommand_next hrun
    exact CountersAgree.frameOp (s := { s with busy := true }) h draw
  | rtcGet => exact hcmd hrun fun _ _ => .of_trace rfl rfl rfl
  | rtcSet => exact hcmd hrun fun _ _ => .of_trace rfl rfl rfl
  | rd addr => cases hp
  | wr addr data => cases hp
  | selrom v => cases hp
  | selram v => cases hp

/-! ### Bus requests, and every step -/

theorem exec_bus_quiet {i : Instr} (hp : i.port = .bus) (hrun : exec i s = .next t) : Quiet s t := by
  cases i with
  | rd addr =>
    obtain ⟨e, -, htrace, -⟩ := rd_frame hrun
    exact .of_storage (by rw [e]) (by rw [e]) htrace
  | wr addr data =>
    obtain ⟨e, -⟩ := wr_frame hrun
    exact .of_trace (by rw [e]) (by rw [e]) (by rw [e])
  | selrom v =>
    obtain ⟨-, rfl⟩ := acceptBus_next (op := fun u => { u with rombank := v }) hrun
    exact .of_trace rfl rfl rfl
  | selram v =>
    obtain ⟨-, rfl⟩ := acceptBus_next (op := fun u => { u with rambank := v }) hrun
    exact .of_trace rfl rfl rfl
  | _ => cases hp

theorem envTaken_quiet (s : State) : Quiet s (envTaken s) := by
  rw [envTaken_eq]
  exact .of_trace rfl rfl rfl

/-- Reset empties the trace and clears both counters; any other step is quiet, or requests a quantum and counts it. -/
theorem CountersAgree.step (h : CountersAgree s) (hstep : step s = .next t) : CountersAgree t := by
  cases step_cases hstep with
  | stays e => rw [e]; exact h
  | resets u _ _ e => rw [e]; exact .of_resetValues (resetInput_resetValues u)
  | abandons w k rest an u _ e => rw [e]; exact .of_resetValues (resetInput_resetValues _)
  | command w rest i _ hdec hrun =>
    exact CountersAgree.exec_command (s := { s with host := rest, cw := w }) h (port_of_decode hdec) hrun
  | reserved w rest _ e => rw [e]; exact h
  | window rest xd _ e => rw [e]; exact h
  | bus w i _ _ hdec hrun => exact h.quiet ((envTaken_quiet s).trans (exec_bus_quiet (port_of_decode hdec) hrun))
  | busReserved _ _ e =>
    rw [e]
    exact h.quiet ((envTaken_quiet s).trans (.of_trace rfl rfl rfl))
  | env _ _ hbus hreset hrun => exact h.quiet ((envTaken_quiet s).trans (envAct_effect hbus hreset hrun).only.quiet)
  | schedules hs _ _ _ _ hrun => exact CountersAgree.schedule (s := { s with host := hs }) h hrun

/-- Settles O50: by what the step was. -/
theorem countersCountTheRequestedCycles : Obligations.CountersCountTheRequestedCycles :=
  fun _ _ hstep h => CountersAgree.step h hstep

end Sys2Proof.Machine
end

section
/-! PROOFS. The draw flag and the latched command word are never read (R16, R169): every function of the model commutes
with writing them. How functions put together from such functions do, and the storage port. -/

namespace Sys2Proof.Machine

/-! ### Functions that do not read the draw flag or the command word -/

/-- Another draw flag and another latched command word. -/
def redraw (d : Bool) (w : Word) (s : State) : State := { s with renderEnable := d, cw := w }

/-- The same of the state that comes with an answer. -/
def redrawAnswer {α : Type} (d : Bool) (w : Word) (r : α × State) : α × State := (r.1, redraw d w r.2)

/-- `f` neither reads nor writes the draw flag and the command word: on states that differ in them its values differ by
`act`. -/
def Inert {β : Type} (act : Bool → Word → β → β) (f : State → β) : Prop := ∀ d w s, f (redraw d w s) = act d w (f s)

section
variable {α β γ : Type} {act : Bool → Word → β → β}

theorem Inert.comp {g : State → β} {f : State → State} (hg : Inert act g) (hf : Inert redraw f) :
    Inert act fun s => g (f s) := by
  intro d w s
  show g (f (redraw d w s)) = _
  rw [hf, hg]

/-- A branch on a condition that does not read them. -/
theorem Inert.ite {c : State → Prop} {dec : ∀ s, Decidable (c s)} {f g : State → β}
    (hc : ∀ d w s, c (redraw d w s) ↔ c s) (hf : Inert act f) (hg : Inert act g) :
    Inert act fun s => if c s then f s else g s := by
  intro d w s
  show (if c (redraw d w s) then f (redraw d w s) else g (redraw d w s)) = act d w (if c s then f s else g s)
  by_cases h : c s
  · rw [if_pos h, if_pos ((hc d w s).2 h), hf]
  · rw [if_neg h, if_neg (mt (hc d w s).1 h), hg]

/-- A function that goes on from an answer. -/
theorem Inert.after {f : State → α × State} {g : α × State → β} (hf : Inert redrawAnswer f)
    (hg : ∀ a, Inert act fun s => g (a, s)) : Inert act fun s => g (f s) := by
  intro d w s
  show g (f (redraw d w s)) = _
  rw [hf]
  exact hg (f s).1 d w (f s).2

/-- A function of a value that is read from the state, and not from them. -/
theorem Inert.reads {v : State → γ} {g : γ → State → β} (hv : ∀ d w s, v (redraw d w s) = v s)
    (hg : ∀ a, Inert act (g a)) : Inert act fun s => g (v s) s := by
  intro d w s
  show g (v (redraw d w s)) (redraw d w s) = _
  rw [hv]
  exact hg (v s) d w s

theorem Inert.answer {f : State → State} (a : α) (hf : Inert redraw f) : Inert redrawAnswer fun s => (a, f s) :=
  fun d w s => congrArg (Prod.mk a) (hf d w s)

theorem Inert.keep : Inert redraw fun s => s := fun _ _ _ => rfl

end

/-! ### How an operation goes on and ends -/

theorem unlessStalled_inert {f : State → State} (hf : Inert redraw f) : Inert redraw (unlessStalled f) :=
  .ite (fun _ _ _ => .rfl) .keep hf

theorem completeUnlessStopped_inert : Inert redraw completeUnlessStopped :=
  .ite (fun _ _ _ => .rfl) .keep fun _ _ _ => rfl

theorem raiseError_inert (e : ErrorCode) : Inert redraw (raiseError e) := fun _ _ _ => rfl

/-! ### Storage primitives -/

theorem answerTaken_inert : Inert redraw answerTaken := by
  intro d w s
  cases h : s.answers <;> simp [answerTaken, redraw, h]

theorem issued_inert (e : Event) : Inert redraw fun s => answerTaken (emit e s) :=
  answerTaken_inert.comp fun _ _ _ => rfl

theorem setHandle_inert (h : HandleName) (v : Option Handle) : Inert redraw (setHandle h v) := by
  intro d w s
  cases h <;> rfl

theorem openedFiles_inert (id : Half) (mode : Mode) : Inert redraw (openedFiles id mode) := by
  cases mode with
  | read => exact .keep
  | writeNew => exact fun _ _ _ => rfl
  | writeUpdate => exact .ite (fun _ _ _ => .rfl) .keep fun _ _ _ => rfl

theorem missing_redraw (id : Half) (mode : Mode) (d : Bool) (w : Word) (s : State) :
    missing id mode (redraw d w s) = missing id mode s := by
  cases mode <;> rfl

theorem getHandle_redraw (h : HandleName) (d : Bool) (w : Word) (s : State) :
    getHandle h (redraw d w s) = getHandle h s := by
  cases h <;> rfl

theorem stOpen_inert (h : HandleName) (id : Half) (mode : Mode) : Inert redrawAnswer (stOpen h id mode) := by
  refine .ite (fun d w s => ?_) (.answer _ (issued_inert _))
    (.answer _ ((setHandle_inert h _).comp ((openedFiles_inert id mode).comp (issued_inert _))))
  rw [missing_redraw]
  rfl

/-- A primitive on an open handle does one thing where the oracle lets it succeed and another where it does not. -/
theorem Inert.primitive {α : Type} {f g : State → α × State} (hf : Inert redrawAnswer f) (hg : Inert redrawAnswer g) :
    Inert redrawAnswer fun s => if nextFails s = true then f s else g s :=
  .ite (fun _ _ _ => .rfl) hf hg

theorem stSeek_inert (h : HandleName) (off : Nat) : Inert redrawAnswer (stSeek h off) := by
  intro d w s
  unfold stSeek
  rw [getHandle_redraw]
  cases getHandle h s with
  | none => rfl
  | some hd =>
    have hmoved := (setHandle_inert h (some { hd with pos := off })).comp (issued_inert (.stSeek h off))
    exact Inert.primitive (.answer false (issued_inert _)) (.answer true hmoved) d w s

theorem stRead_inert (h : HandleName) (n : Nat) : Inert redrawAnswer (stRead h n) := by
  intro d w s
  unfold stRead
  rw [getHandle_redraw]
  cases getHandle h s with
  | none => rfl
  | some hd =>
    have hmoved := fun k : Nat => (setHandle_inert h (some { hd with pos := hd.pos + k })).comp
      (issued_inert (.stRead h n))
    exact Inert.primitive (.answer .fail (issued_inert _))
      (.reads (v := fileOf hd) (fun _ _ _ => rfl) fun f => .answer (readAt f hd.pos n) (hmoved _)) d w s

theorem stWrite_inert (h : HandleName) (n : Nat) (bytes : Memory) : Inert redrawAnswer (stWrite h n bytes) := by
  intro d w s
  unfold stWrite
  rw [getHandle_redraw]
  cases getHandle h s with
  | none => rfl
  | some hd =>
    have hfile : ∀ f, Inert redraw fun s => setFile hd.id f (answerTaken (emit (.stWrite h n bytes) s)) := fun f =>
      Inert.comp (g := setFile hd.id f) (fun _ _ _ => rfl) (issued_inert _)
    have hmoved := fun (f : File) (k : Nat) => (setHandle_inert h (some { hd with pos := hd.pos + k })).comp (hfile f)
    have htorn := fun (f : File) (k : Nat) => Inert.answer false <|
      Inert.comp (g := fun u => { u with freeCount := k + 2 }) (fun _ _ _ => rfl)
        (hmoved (f.torn hd.pos n k) (Config.freeNat k % (n + 1)))
    exact Inert.primitive
      (.reads (v := fileOf hd) (fun _ _ _ => rfl) fun f => .reads (v := State.freeCount) (fun _ _ _ => rfl) (htorn f))
      (.reads (v := fileOf hd) (fun _ _ _ => rfl) fun f => .answer true (hmoved (f.written hd.pos n bytes) n)) d w s

theorem stClose_inert (h : HandleName) : Inert redraw (stClose h) :=
  .ite (fun _ _ _ => .rfl) (issued_inert _) ((setHandle_inert h none).comp (issued_inert _))

theorem closeThen_inert (h : HandleName) {f : State → State} (hf : Inert redraw f) : Inert redraw (closeThen h f) :=
  (unlessStalled_inert hf).comp (stClose_inert h)

/-! ### The bank manager -/

theorem chooseFrom_inert (k : Nat) (xs : List Nat) : Inert redrawAnswer (chooseFrom k xs) := by
  intro d w s
  cases h : s.choices <;> simp [chooseFrom, redraw, redrawAnswer, h]

theorem fillFailed_inert (f : Nat) : Inert redraw (fillFailed f) := unlessStalled_inert fun _ _ _ => rfl

theorem fillRead_inert (f : Nat) (a : ReadAnswer) : Inert redraw fun s => fillRead f (a, s) := by
  cases a with
  | full b => exact fun _ _ _ => rfl
  | eof k b => exact fun _ _ _ => rfl
  | fail => exact fillFailed_inert f

theorem fillSought_inert (f : Nat) (b : Bool) : Inert redraw fun s => fillSought f (b, s) := by
  cases b with
  | true => exact (stRead_inert .cart romPage).after (fillRead_inert f)
  | false => exact fillFailed_inert f

theorem fill_inert (n f : Nat) : Inert redraw (fill n f) :=
  Inert.after ((stSeek_inert .cart (romOffset n)).comp (f := clearFrame f) fun _ _ _ => rfl) (fillSought_inert f)

theorem loadFresh_inert (n : Nat) : Inert redraw (loadFresh n) :=
  Inert.after (f := fun s => chooseFrom 0 (freeFrames s) s) (g := fun r => fill n r.1 (assign n r.1 r.2))
    (.reads (v := freeFrames) (fun _ _ _ => rfl) (chooseFrom_inert 0))
    fun f => (fill_inert n f).comp (f := assign n f) fun _ _ _ => rfl

theorem transplant_inert (n k : Nat) : Inert redraw (transplant n k) := by
  intro d w s
  unfold transplant
  rw [show slotOf (redraw d w s) k = slotOf s k from rfl]
  cases slotOf s k with
  | none => rfl
  | some f => exact (fill_inert n f).comp (f := fun s => assign n f (vacate k s)) (fun _ _ _ => rfl) d w s

theorem loadEvicting_inert (n : Nat) : Inert redraw (loadEvicting n) :=
  Inert.after (f := fun s => chooseFrom 0 (residents s) s) (g := fun r => transplant n r.1 r.2)
    (.reads (v := residents) (fun _ _ _ => rfl) (chooseFrom_inert 0)) (transplant_inert n)

theorem loadBank_inert (n : Nat) : Inert redraw (loadBank n) :=
  .ite (fun _ _ _ => .rfl) .keep <| .ite (fun _ _ _ => .rfl) (loadFresh_inert n) <|
    .ite (fun _ _ _ => .rfl) (loadEvicting_inert n) fun _ _ _ => rfl

theorem preloadFrom_inert (n k : Nat) : Inert redraw (preloadFrom n k) := by
  induction k generalizing n with
  | zero => exact .keep
  | succ k ih => exact .ite (fun _ _ _ => .rfl) .keep ((ih (n + 1)).comp (loadBank_inert n))

theorem bankLoadOp_inert (n : Nat) : Inert redraw (bankLoadOp n) :=
  .ite (fun _ _ _ => .rfl) (raiseError_inert _) <| .ite (fun _ _ _ => .rfl) (raiseError_inert _) <|
    completeUnlessStopped_inert.comp (loadBank_inert n)

theorem preloadOp_inert (k : Nat) : Inert redraw (preloadOp k) :=
  .ite (fun _ _ _ => .rfl) (raiseError_inert _) (completeUnlessStopped_inert.comp (preloadFrom_inert 0 k))

theorem cartUnloadOp_inert : Inert redraw cartUnloadOp :=
  .ite (fun _ _ _ => .rfl)
    ((closeThen_inert .cart (f := cartFileClosed) fun _ _ _ => rfl).comp
      (f := fun s => { s with slot := [], ftag := [], ramPages := 0, sram := [] }) fun _ _ _ => rfl)
    fun _ _ _ => rfl

/-! ### The bus -/

theorem driveRom_inert (n off : Nat) : Inert redraw (driveRom n off) := by
  intro d w s
  unfold driveRom
  rw [show slotOf (redraw d w s) n = slotOf s n from rfl]
  cases slotOf s n <;> rfl

theorem readRom_inert (n off : Nat) : Inert redraw (readRom n off) :=
  .ite (fun _ _ _ => .rfl) (fun _ _ _ => rfl) <|
    Inert.comp (g := fun u => if stopped u then u else driveRom n off u)
      (.ite (fun _ _ _ => .rfl) .keep (driveRom_inert n off)) (loadBank_inert n)

theorem readXram_inert (i off : Nat) : Inert redraw (readXram i off) :=
  .ite (fun _ _ _ => .rfl) (fun _ _ _ => rfl) fun _ _ _ => rfl

theorem writeXram_inert (i off : Nat) (b : Byte) : Inert redraw (writeXram i off b) :=
  .ite (fun _ _ _ => .rfl) (fun _ _ _ => rfl) fun _ _ _ => rfl

theorem rdOp_inert (addr : Half) : Inert redraw (rdOp addr) := by
  intro d w s
  unfold rdOp
  rw [show windowOf (redraw d w s) addr = windowOf s addr from rfl]
  cases windowOf s addr with
  | rom n off => exact readRom_inert n off d w s
  | ram i off => exact readXram_inert i off d w s
  | outside => rfl

theorem wrOp_inert (addr : Half) (data : Byte) : Inert redraw (wrOp addr data) := by
  intro d w s
  unfold wrOp
  rw [show windowOf (redraw d w s) addr = windowOf s addr from rfl]
  cases windowOf s addr with
  | rom n off => rfl
  | ram i off => exact writeXram_inert i off data d w s
  | outside => rfl

/-! ### CART_LOAD -/

theorem cartAnnounced_inert (id : Half) (h : Header) (n : Nat) : Inert redraw (cartAnnounced id h n) :=
  Inert.comp (g := notifyPalette h) (.ite (fun _ _ _ => .rfl) .keep fun _ _ _ => rfl) <|
    Inert.comp (g := warnRamsize h) (.ite (fun _ _ _ => .rfl) (fun _ _ _ => rfl) .keep) fun _ _ _ => rfl

theorem cartCommitted_inert (id : Half) (h : Header) (n : Nat) : Inert redraw (cartCommitted id h n) :=
  completeUnlessStopped_inert.comp <|
    .reads (v := fun s => preloadCount s.cfg n h.title)
      (g := fun k s => preloadBody k (cartAnnounced id h n s)) (fun _ _ _ => rfl) fun k =>
      (preloadFrom_inert 0 k).comp (cartAnnounced_inert id h n)

theorem cartClassify_inert (id : Half) (h : Header) : Inert redraw (cartClassify id h) := by
  unfold cartClassify
  cases romSize h.romcode with
  | none => exact closeThen_inert .cart (raiseError_inert _)
  | some n =>
    exact .ite (fun _ _ _ => .rfl) (closeThen_inert .cart (raiseError_inert _)) (cartCommitted_inert id h n)

theorem cartHeaderRead_inert (id : Half) (a : ReadAnswer) : Inert redraw fun s => cartHeaderRead id (a, s) := by
  cases a with
  | full b => exact cartClassify_inert id (headerFields b)
  | eof k b => exact closeThen_inert .cart (raiseError_inert _)
  | fail => exact unlessStalled_inert (closeThen_inert .cart (raiseError_inert _))

theorem cartOpened_inert (id : Half) (b : Bool) : Inert redraw fun s => cartOpened id (b, s) := by
  cases b with
  | true => exact (stRead_inert .cart hdrMin).after (cartHeaderRead_inert id)
  | false => exact unlessStalled_inert (raiseError_inert _)

theorem cartLoadOp_inert (id : Half) : Inert redraw (cartLoadOp id) :=
  .ite (fun _ _ _ => .rfl) (raiseError_inert _) ((stOpen_inert .cart id .read).after (cartOpened_inert id))

/-! ### SRAM_SAVE -/

theorem seekWrite_inert (off n : Nat) (bytes : Memory) : Inert redrawAnswer (seekWrite off n bytes) :=
  Inert.after (g := fun r => if r.1 then stWrite .op n bytes r.2 else (false, r.2)) (stSeek_inert .op off) fun _ =>
    .ite (fun _ _ _ => .rfl) (stWrite_inert .op n bytes) (.answer false .keep)

theorem spoilRegion_inert (i : Nat) : Inert redraw (spoilRegion i) := by
  intro d w s
  unfold spoilRegion
  rw [show (redraw d w s).opHandle = s.opHandle from rfl]
  cases s.opHandle <;> rfl

theorem bankWritten_inert (i : Nat) (b : Bool) : Inert redraw fun s => bankWritten i (b, s) := by
  cases b with
  | true => exact fun _ _ _ => rfl
  | false => exact unlessStalled_inert (spoilRegion_inert i)

theorem saveBank_inert (i : Nat) : Inert redraw (saveBank i) :=
  .ite (fun _ _ _ => .rfl)
    (Inert.after (.reads (v := fun s => ramBank s i) (fun _ _ _ => rfl) (seekWrite_inert (ramOffset i) ramPage))
      (bankWritten_inert i))
    .keep

theorem saveBanks_inert (i k : Nat) : Inert redraw (saveBanks i k) := by
  induction k generalizing i with
  | zero => exact .keep
  | succ k ih => exact .ite (fun _ _ _ => .rfl) .keep ((ih (i + 1)).comp (saveBank_inert i))

theorem markAll_inert (quick : Bool) : Inert redraw (markAll quick) := .ite (fun _ _ _ => .rfl) .keep fun _ _ _ => rfl

theorem saveClock_inert : Inert redrawAnswer saveClock :=
  .ite (fun _ _ _ => .rfl) (.answer _ .keep) <| .ite (fun _ _ _ => .rfl)
    (.reads (v := fun s => (s.cart.ramsize, s.cfg.rtcEpoch, s.rtc))
      (g := fun r => seekWrite (ramOffset r.1) rtcRecSize (Memory.ofBytes (rtcRecord r.2.1 r.2.2))) (fun _ _ _ => rfl)
      fun _ => seekWrite_inert _ _ _)
    (.answer _ .keep)

theorem saveResult_inert (ok : Bool) : Inert redraw (saveResult ok) :=
  .ite (fun _ _ _ => .rfl) (raiseError_inert _) fun _ _ _ => rfl

theorem saveEnded_inert (ok : Bool) : Inert redraw fun s => saveEnded (ok, s) :=
  unlessStalled_inert (closeThen_inert .op (saveResult_inert ok))

theorem saveOpened_inert (b : Bool) : Inert redraw fun s => saveOpened (b, s) := by
  cases b with
  | true =>
    exact (saveClock_inert.comp (.reads (v := fun s => s.cart.ramsize) (g := saveBanks 0) (fun _ _ _ => rfl)
      (saveBanks_inert 0))).after saveEnded_inert
  | false => exact unlessStalled_inert (raiseError_inert _)

theorem sramSaveOp_inert (id : Half) (quick : Bool) : Inert redraw (sramSaveOp id quick) :=
  .ite (fun _ _ _ => .rfl) (raiseError_inert _) <|
    ((stOpen_inert .op id (saveMode quick)).comp (markAll_inert quick)).after saveOpened_inert

/-! ### SRAM_LOAD -/

theorem seekRead_inert (off n : Nat) : Inert redrawAnswer (seekRead off n) :=
  Inert.after (g := fun r => if r.1 then stRead .op n r.2 else (.fail, r.2)) (stSeek_inert .op off) fun _ =>
    .ite (fun _ _ _ => .rfl) (stRead_inert .op n) (.answer _ .keep)

theorem bankRead_inert (i : Nat) (a : ReadAnswer) : Inert redraw fun s => bankRead i (a, s) := by
  cases a <;> exact fun _ _ _ => rfl

theorem clockRead_inert (a : ReadAnswer) : Inert redraw fun s => clockRead (a, s) := by
  cases a <;> exact fun _ _ _ => rfl

theorem loadRamBanks_inert (i k : Nat) : Inert redraw (loadRamBanks i k) := by
  induction k generalizing i with
  | zero => exact .keep
  | succ k ih =>
    exact .ite (fun _ _ _ => .rfl) .keep
      ((ih (i + 1)).comp ((seekRead_inert (ramOffset i) ramPage).after (bankRead_inert i)))

theorem loadClock_inert : Inert redraw loadClock :=
  .ite (fun _ _ _ => .rfl) .keep <| .ite (fun _ _ _ => .rfl)
    (Inert.after (.reads (v := fun s => ramOffset s.cart.ramsize) (g := fun off => seekRead off rtcRecSize)
      (fun _ _ _ => rfl) fun off => seekRead_inert off rtcRecSize) clockRead_inert)
    .keep

theorem loadEnded_inert : Inert redraw loadEnded :=
  unlessStalled_inert (closeThen_inert .op (.ite (fun _ _ _ => .rfl) (raiseError_inert _) fun _ _ _ => rfl))

theorem loadOpened_inert (b : Bool) : Inert redraw fun s => loadOpened (b, s) := by
  cases b with
  | true =>
    exact loadEnded_inert.comp (loadClock_inert.comp (.reads (v := fun s => s.cart.ramsize) (g := loadRamBanks 0)
      (fun _ _ _ => rfl) (loadRamBanks_inert 0)))
  | false => exact unlessStalled_inert (raiseError_inert _)

theorem sramLoadOp_inert (id : Half) : Inert redraw (sramLoadOp id) :=
  .ite (fun _ _ _ => .rfl) (raiseError_inert _) <|
    ((stOpen_inert .op id .read).comp (f := fun s => { s with sramDirty := 0, sramSaved := 0 })
      fun _ _ _ => rfl).after loadOpened_inert

/-! ### STATE_SAVE -/

theorem putRegisters_redraw (d : Bool) (w : Word) (s : State) (k : Nat) (es : List RegEntry) (hdr : Memory) :
    putRegisters (redraw d w s) k es hdr = putRegisters s k es hdr := by
  induction es generalizing k hdr with
  | nil => rfl
  | cons e es ih => exact ih _ _

theorem writeUnits_inert (us : List Memory) : Inert redrawAnswer (writeUnits us) := by
  induction us with
  | nil => exact .answer _ .keep
  | cons u us ih =>
    exact Inert.after (g := fun r => if r.1 then writeUnits us r.2 else (false, r.2)) (stWrite_inert .op unitSize u)
      fun b => .ite (fun _ _ _ => .rfl) ih (.answer _ .keep)

theorem saveStateWritten_inert (b : Bool) : Inert redraw fun s => saveStateWritten (b, s) := by
  cases b with
  | true => exact closeThen_inert .op fun _ _ _ => rfl
  | false => exact unlessStalled_inert (closeThen_inert .op (raiseError_inert _))

theorem saveStateOpened_inert (b : Bool) : Inert redraw fun s => saveStateOpened (b, s) := by
  cases b with
  | true =>
    exact Inert.after (g := saveStateWritten) (.reads (v := stateUnits) (fun _ _ _ => rfl) writeUnits_inert)
      saveStateWritten_inert
  | false => exact unlessStalled_inert (raiseError_inert _)

theorem buildHeader_redraw (d : Bool) (w : Word) (s : State) : buildHeader (redraw d w s) = buildHeader s :=
  congrArg (putRegions s) (putRegisters_redraw d w s _ _ _)

theorem stateSaveOp_inert (id : Half) : Inert redraw (stateSaveOp id) :=
  .ite (fun _ _ _ => .rfl) (raiseError_inert _) <|
    ((stOpen_inert .op id .writeNew).comp (.reads (v := buildHeader) (g := fun h s => { s with hdr := h })
      buildHeader_redraw fun _ _ _ _ => rfl)).after saveStateOpened_inert

/-! ### STATE_LOAD -/

theorem readUnits_inert (k : Nat) : Inert redrawAnswer (readUnits k) := by
  induction k with
  | zero => exact .answer _ .keep
  | succ k ih =>
    intro d w s
    unfold readUnits
    rw [stRead_inert]
    rcases stRead .op unitSize s with ⟨a, u⟩
    cases a with
    | full b =>
      show (_, _) = _
      simp only [redrawAnswer, ih d w u]
    | eof j b => rfl
    | fail => rfl

theorem writeReg_inert (id : RegId) (v : Word) : Inert redraw (writeReg id v) := by
  cases id with
  | ioreg k => exact .ite (fun _ _ _ => .rfl) (fun _ _ _ => rfl) .keep
  | _ => exact fun _ _ _ => rfl

theorem walkRegisters_inert (es : List RegEntry) : Inert redraw (walkRegisters es) := by
  induction es with
  | nil => exact .keep
  | cons e es ih =>
    exact ih.comp (.reads (v := fun s => narrow e.width (findRecord s.hdr e.tag)) (fun _ _ _ => rfl)
      (writeReg_inert e.id))

theorem stateRestored_inert : Inert redraw stateRestored :=
  Inert.comp (g := finished)
    (Inert.comp (g := fun v => complete (notifyLoaded { maskRambank v with bootromDisable := true }))
      (fun _ _ _ => rfl) (.ite (f := raiseWarning .version) (fun _ _ _ => .rfl) (fun _ _ _ => rfl) .keep))
    (.reads (v := fun s => s.cfg.regTable) (g := fun es s => walkRegisters es (walkStart s)) (fun _ _ _ => rfl)
      fun es => (walkRegisters_inert es).comp fun _ _ _ => rfl)

theorem spoilBlocks_inert : Inert redraw spoilBlocks := fun _ _ _ => by simp only [spoilBlocks, redraw]

theorem loadStateRead_inert (r : Option (List Memory)) : Inert redraw fun s => loadStateRead (r, s) := by
  have hfails : Inert redraw (closeThen .op (raiseError .storage)) := closeThen_inert .op (raiseError_inert _)
  rcases r with _ | _ | ⟨hdr, us⟩
  · exact spoilBlocks_inert.comp (unlessStalled_inert hfails)
  · exact spoilBlocks_inert.comp hfails
  · exact (closeThen_inert .op stateRestored_inert).comp (f := fun s => storeBlocks us { s with hdr := hdr })
      fun _ _ _ => rfl

theorem loadStateOpened_inert (b : Bool) : Inert redraw fun s => loadStateOpened (b, s) := by
  cases b with
  | true =>
    exact Inert.after (g := loadStateRead) (.reads (v := fun s => unitCount s.cart) (fun _ _ _ => rfl) readUnits_inert)
      loadStateRead_inert
  | false => exact unlessStalled_inert (raiseError_inert _)

theorem stateLoadOp_inert (id : Half) : Inert redraw (stateLoadOp id) :=
  .ite (fun _ _ _ => .rfl) (raiseError_inert _) ((stOpen_inert .op id .read).after loadStateOpened_inert)

/-! ### The frame scheduler -/

theorem requestQuantum_inert (n : Nat) (k : QKind) : Inert redraw (requestQuantum n k) :=
  Inert.comp (g := fun u => account n u) (f := fun s => emit (.run n k) { s with run := some ⟨n, k⟩ })
    (.reads (v := fun s => s.rtcTicks.toNat)
      (g := fun old s => rtcAdvance old n { s with
        frameCycles := s.frameCycles + BitVec.ofNat 32 n, totalCycles := s.totalCycles + BitVec.ofNat 64 n,
        rtcTicks := s.rtcTicks + BitVec.ofNat 64 n }) (fun _ _ _ => rfl) fun old =>
      Inert.comp (g := rtcAdvance old n) (.ite (fun _ _ _ => .rfl) (fun _ _ _ => rfl) .keep) fun _ _ _ => rfl)
    fun _ _ _ => rfl

theorem lineQuantum_inert : Inert redraw lineQuantum :=
  .reads (v := fun s => s.lineCycles.toNat) (fun _ _ _ => rfl) fun n => requestQuantum_inert n .line

/-! ### Operations -/

/-- The same of an outcome's next state. -/
def redrawOutcome (d : Bool) (w : Word) : Host.Outcome State Fault Refusal → Host.Outcome State Fault Refusal
  | .next t => .next (redraw d w t)
  | .fault r => .fault r
  | .refused r => .refused r

theorem Inert.next {f : State → State} (h : Inert redraw f) : Inert redrawOutcome fun s => .next (f s) :=
  fun d w s => congrArg Host.Outcome.next (h d w s)

theorem acceptCommand_inert {op : State → State} (h : Inert redraw op) : Inert redrawOutcome (acceptCommand op) :=
  .ite (fun _ _ _ => .rfl) (fun _ _ _ => rfl) (.next (h.comp (f := fun s => { s with busy := true }) fun _ _ _ => rfl))

theorem acceptBus_inert {op : State → State} (h : Inert redraw op) : Inert redrawOutcome (acceptBus op) :=
  .ite (fun _ _ _ => .rfl) (fun _ _ _ => rfl) (.next (h.comp (f := fun s => { s with rdata := none }) fun _ _ _ => rfl))

theorem exec_inert {i : Instr} (hi : ∀ d, i ≠ .frame d) : Inert redrawOutcome (exec i) := by
  cases i with
  | cartLoad id => exact acceptCommand_inert (cartLoadOp_inert id)
  | cartUnload => exact acceptCommand_inert cartUnloadOp_inert
  | bankLoad n => exact acceptCommand_inert (bankLoadOp_inert n)
  | preload k => exact acceptCommand_inert (preloadOp_inert k)
  | sramSave id quick => exact acceptCommand_inert (sramSaveOp_inert id quick)
  | sramLoad id => exact acceptCommand_inert (sramLoadOp_inert id)
  | stateSave id => exact acceptCommand_inert (stateSaveOp_inert id)
  | stateLoad id => exact acceptCommand_inert (stateLoadOp_inert id)
  | frame d => exact absurd rfl (hi d)
  | rtcGet => exact acceptCommand_inert fun _ _ _ => rfl
  | rtcSet => exact acceptCommand_inert fun _ _ _ => rfl
  | rd addr => exact acceptBus_inert (rdOp_inert addr)
  | wr addr data => exact acceptBus_inert (wrOp_inert addr data)
  | selrom v => exact acceptBus_inert (op := fun u => { u with rombank := v }) fun _ _ _ => rfl
  | selram v => exact acceptBus_inert (op := fun u => { u with rambank := v }) fun _ _ _ => rfl

theorem schedule_inert : Inert redrawOutcome schedule := by
  have hline : Inert redrawOutcome fun s => .next (lineQuantum s) := .next lineQuantum_inert
  have hskip : Inert redrawOutcome fun s => .next (requestQuantum s.cfg.qSkip .skip { s with phase := .p4s }) :=
    .next fun d w s => requestQuantum_inert s.cfg.qSkip .skip d w { s with phase := .p4s }
  have hhook : Inert redrawOutcome fun s => .next (vblankHook s) := fun _ _ _ => rfl
  have hlines : Inert redrawOutcome fun s => .next { s with phase := .p4l } := fun _ _ _ => rfl
  have hdone : Inert redrawOutcome fun s => .next (frameDone s) := fun _ _ _ => rfl
  intro d w s
  unfold schedule
  rw [show (redraw d w s).phase = s.phase from rfl]
  cases s.phase with
  | idle => rfl
  | p1 => rfl
  | p2 => exact Inert.ite (c := fun s => visible s.ly = true) (fun _ _ _ => .rfl) hline hhook d w s
  | p3 => exact Inert.ite (c := fun s => s.lcdOn = true) (fun _ _ _ => .rfl) hlines hskip d w s
  | p4s => exact hdone d w s
  | p4l => exact Inert.ite (c := fun s => inVblank s.ly = true) (fun _ _ _ => .rfl) hline hdone d w s

end Sys2Proof.Machine
end

section
/-! PROOFS. Two runs that differ in the draw flag (R169): every agent's turn keeps two states so related, and so does
every step and every run. -/

namespace Sys2Proof.Machine

variable {s t s' : State}

/-! ### States and outcomes that differ in the draw flag -/

theorem SameButDraw.refl (s : State) : SameButDraw s s := rfl

theorem sameButDraw_redraw (d : Bool) (w : Word) (s : State) : SameButDraw s (redraw d w s) := rfl

/-- `f` answers related next states to related states. -/
def Follows (f : State → Host.Outcome State Fault Refusal) : Prop :=
  ∀ d w s t, f s = .next t → ∃ t', f (redraw d w s) = .next t' ∧ SameButDraw t t'

theorem Inert.follows {f : State → Host.Outcome State Fault Refusal} (hf : Inert redrawOutcome f) : Follows f :=
  fun d w s t h => ⟨redraw d w t, by rw [hf, h]; rfl, sameButDraw_redraw d w t⟩

theorem Follows.ite {c : State → Prop} {dec : ∀ s, Decidable (c s)} {f g : State → Host.Outcome State Fault Refusal}
    (hc : ∀ d w s, c (redraw d w s) ↔ c s) (hf : Follows f) (hg : Follows g) :
    Follows fun s => if c s then f s else g s := by
  intro d w s t h
  show ∃ t', (if c (redraw d w s) then f (redraw d w s) else g (redraw d w s)) = .next t' ∧ _
  by_cases hs : c s
  · rw [if_pos ((hc d w s).2 hs)]
    exact hf d w s t ((if_pos hs).symm.trans h)
  · rw [if_neg (mt (hc d w s).1 hs)]
    exact hg d w s t ((if_neg hs).symm.trans h)

/-- Reset clears both registers. -/
theorem reset_follows {f : State → State} (hf : Inert redraw f) : Follows fun s => .next (resetInput (f s)) := by
  intro d w s t h
  refine ⟨t, ?_, .refl t⟩
  show Host.Outcome.next (resetInput (f (redraw d w s))) = .next t
  rw [hf]
  exact h

/-! ### Operations -/

/-- FRAME writes the draw flag; what else it does is the same for every operand and every flag before it (R160,
R169). -/
theorem frameOp_sameButDraw (draw draw' d : Bool) (w : Word) (s : State) :
    SameButDraw (frameOp draw s) (frameOp draw' (redraw d w s)) := by
  unfold frameOp
  rw [show (redraw d w s).cart = s.cart from rfl]
  split
  · exact sameButDraw_redraw d w _
  · have h := requestQuantum_inert s.cfg.qHead .head draw' w
      { s with renderEnable := draw, frameCycles := 0, phase := .p1 }
    exact h ▸ sameButDraw_redraw draw' w _

theorem exec_follows (i : Instr) : Follows (exec i) := by
  by_cases hi : ∃ draw, i = .frame draw
  · obtain ⟨draw, rfl⟩ := hi
    intro d w s t h
    obtain ⟨hready, rfl⟩ := acceptCommand_next h
    exact ⟨_, acceptCommand_ready (s := redraw d w s) hready (frameOp draw),
      frameOp_sameButDraw draw draw d w { s with busy := true }⟩
  · exact (exec_inert fun draw e => hi ⟨draw, e⟩).follows

theorem present_follows (v : Word) : Follows (present v) := by
  intro d w s t h
  unfold present at h ⊢
  cases hd : decode .command v with
  | ok i =>
    rw [hd] at h
    exact exec_follows i d v { s with cw := v } t h
  | error e =>
    rw [hd] at h
    exact (acceptCommand_inert (raiseError_inert .inval)).follows d v { s with cw := v } t h

theorem presentBus_follows (v : Word) : Follows (presentBus v) := by
  unfold presentBus
  cases decode .bus v with
  | ok i => exact exec_follows i
  | error e => exact (acceptBus_inert (op := raiseFatal .range) fun _ _ _ => rfl).follows

theorem presentReset_follows (v : Word) (k : Nat) : Follows (presentReset v k) := by
  intro d w s t h
  obtain ⟨u, hu, rfl⟩ := presentReset_next h
  obtain ⟨u', hu', hsame⟩ := present_follows v d w _ u hu
  refine ⟨_, ?_, .refl _⟩
  have hu'' : present v { redraw d w s with answers := cutAnswers k (redraw d w s) } = .next u' := hu'
  unfold presentReset
  rw [hu'', hsame]
  rfl

/-! ### The agents -/

theorem haltedTurn_follows : Follows haltedTurn := by
  intro d w s t
  unfold haltedTurn
  rw [show (redraw d w s).host = s.host from rfl]
  cases resetNext s.host with
  | none => exact fun h => nomatch h
  | some rest => exact reset_follows (f := fun s => { s with host := rest }) (fun _ _ _ => rfl) d w s t

theorem stalledTurn_follows : Follows stalledTurn := by
  intro d w s t
  unfold stalledTurn
  rw [show (redraw d w s).host = s.host from rfl]
  cases resetNext s.host with
  | none => exact Inert.follows (f := .next) (fun _ _ _ => rfl) d w s t
  | some rest => exact reset_follows (f := fun s => { s with host := rest }) (fun _ _ _ => rfl) d w s t

theorem hostTurn_follows : Follows hostTurn := by
  intro d w s t
  have hreset := fun rest : List HostAct =>
    reset_follows (f := fun s => { s with host := rest }) (fun _ _ _ => rfl) d w s t
  unfold hostTurn
  rw [show (redraw d w s).host = s.host from rfl]
  rcases s.host with _ | ⟨a, rest⟩
  · exact Inert.follows (f := .next) (fun _ _ _ => rfl) d w s t
  cases a with
  | command v => exact present_follows v d w { s with host := rest } t
  | setXD i v =>
    exact Inert.follows (f := fun s => .next { s with host := rest, xd := s.xd.set i v }) (fun _ _ _ => rfl) d w s t
  | reset => exact hreset rest
  | commandReset v k => exact presentReset_follows v k d w { s with host := rest } t
  | resetAfter k => exact hreset rest

theorem envTaken_inert : Inert redraw envTaken := by
  intro d w s
  cases h : s.env <;> simp [envTaken, redraw, h]

theorem envSetReg_inert (id : RegId) (v : Word) : Inert redrawOutcome (envSetReg id v) := by
  intro d w s
  have hwrite := fun v => Inert.next (writeReg_inert id v) d w s
  unfold envSetReg
  rw [show (redraw d w s).cfg = s.cfg from rfl]
  cases tableWidth s.cfg id with
  | some n => exact hwrite (narrow n v)
  | none =>
    cases id with
    | rambank => exact hwrite v
    | bootromOff => exact hwrite v
    | _ => rfl

theorem pokeRegion_inert (r : Region) (off : Nat) (b : Byte) : Inert redraw (pokeRegion r off b) := by
  cases r <;> exact fun _ _ _ => rfl

theorem controllerWrite_inert (r : ControllerReg) (v : Byte) : Inert redraw (controllerWrite r v) := by
  cases r <;> exact fun _ _ _ => rfl

theorem envAct_follows (a : EnvAct) : Follows (envAct a) := by
  cases a with
  | bus w => exact presentBus_follows w
  | setReg id v => exact (envSetReg_inert id v).follows
  | poke r off b =>
    exact Inert.follows (f := envPoke r off b)
      (.ite (fun _ _ _ => .rfl) (.next (pokeRegion_inert r off b)) fun _ _ _ => rfl)
  | controller r v => exact (Inert.next (controllerWrite_inert r v)).follows
  | reset => exact reset_follows (f := fun s => s) .keep
  | setLy v => exact Inert.follows fun _ _ _ => rfl
  | setLineCycles v => exact Inert.follows fun _ _ _ => rfl
  | setLcdOn b => exact Inert.follows fun _ _ _ => rfl
  | done => exact Inert.follows fun _ _ _ => rfl

theorem envTurn_follows : Follows envTurn := by
  intro d w s t h
  unfold envTurn at h ⊢
  rw [envTaken_inert]
  exact envAct_follows (nextEnv s) d w (envTaken s) t h

theorem schedulerTurn_follows : Follows schedulerTurn := by
  intro d w s t
  have hschedule := fun u => schedule_inert.follows d w u t
  unfold schedulerTurn
  rw [show (redraw d w s).host = s.host from rfl]
  split
  · exact reset_follows (f := fun s => { s with host := _ }) (fun _ _ _ => rfl) d w s t
  · exact hschedule { s with host := _ }
  · exact hschedule s

theorem step_follows : Follows step :=
  .ite (fun _ _ _ => .rfl) haltedTurn_follows <| .ite (fun _ _ _ => .rfl) stalledTurn_follows <|
    .ite (fun _ _ _ => .rfl) hostTurn_follows <| .ite (fun _ _ _ => .rfl) envTurn_follows schedulerTurn_follows

/-- R169 for one step. -/
theorem SameButDraw.step (h : SameButDraw s s') (hstep : step s = .next t) :
    ∃ t', Machine.step s' = .next t' ∧ SameButDraw t t' := by
  rw [show s' = redraw s'.renderEnable s'.cw s from h]
  exact step_follows _ _ s t hstep

/-! ### Runs -/

theorem run_succ_of_next {k : Nat} (h : step s = .next s') : core.run (k + 1) s = core.run k s' := by
  simp only [Host.Core.run, show core.step s = .next s' from h]

theorem run_succ_next {k : Nat} (h : core.run (k + 1) s = .next t) :
    ∃ u : State, step s = .next u ∧ core.run k u = .next t := by
  simp only [Host.Core.run] at h
  split at h
  · exact ⟨_, by assumption, h⟩
  · cases h
  · cases h

/-- R169 for a run. -/
theorem SameButDraw.run {k : Nat} (h : SameButDraw s s') (hrun : core.run k s = .next t) :
    ∃ u, core.run k s' = .next u ∧ SameButDraw t u := by
  induction k generalizing s s' with
  | zero =>
    obtain rfl : s = t := Host.Outcome.next.inj hrun
    exact ⟨s', rfl, h⟩
  | succ k ih =>
    obtain ⟨v, hv, hrest⟩ := run_succ_next hrun
    obtain ⟨v', hv', hsame⟩ := h.step hv
    obtain ⟨u, hu, hend⟩ := ih hsame hrest
    exact ⟨u, (run_succ_of_next hv').trans hu, hend⟩

/-- A FRAME presented to an idle block runs its start (R62, R160). -/
theorem step_frame {rest : List HostAct} {draw : Bool} (hs : s.ready)
    (hhost : s.host = .command (encode (.frame draw)) :: rest) :
    step s = .next (frameOp draw { s with host := rest, cw := encode (.frame draw), busy := true }) :=
  (step_of_command hs hhost).trans <| (present_of_ok (decodeReadsEncodedOperation (.frame draw) rfl)).trans <|
    acceptCommand_ready (s := { s with host := rest, cw := encode (.frame draw) }) hs (frameOp draw)

/-- A FRAME presented with either operand leaves the same state but for the draw flag and its word (R169). -/
theorem startedFrame_sameButDraw (draw draw' : Bool) (w w' : Word) (rest : List HostAct) (s : State) :
    SameButDraw (frameOp draw { s with host := rest, cw := w, busy := true })
      (frameOp draw' { s with host := rest, cw := w', busy := true }) :=
  frameOp_sameButDraw draw draw' s.renderEnable w' { s with host := rest, cw := w, busy := true }

/-- Settles O52: the two commands leave related states, and every step keeps states so related. -/
theorem drawFlagIsInert : Obligations.DrawFlagIsInert := by
  refine ⟨fun s t s' h hstep => h.step hstep, fun s hs k t hready hk hrun => ?_⟩
  obtain ⟨n, rfl⟩ : ∃ n, k = n + 1 := ⟨k - 1, by omega⟩
  have hskip := step_frame (s := { s with host := .command (encode .frameSkip) :: hs }) (draw := false) hready rfl
  have hdraw := step_frame (s := { s with host := .command (encode .frameDraw) :: hs }) (draw := true) hready rfl
  rw [run_succ_of_next hskip] at hrun
  rw [run_succ_of_next hdraw]
  exact (startedFrame_sameButDraw false true _ _ hs s).run hrun

end Sys2Proof.Machine
end

section
/-! PROOFS. The frame scheduler (R160 to R168, R170): FRAME's start, what each phase does when control returns, and a
whole FRAME with the display off. -/

namespace Sys2Proof.Machine

variable {s : State}

/-! ### FRAME's start -/

/-- FRAME's first step on a block with a cartridge (R160, R161, R163, R164). -/
theorem frameOp_of_loaded (draw : Bool) (hl : s.cart.loaded = true) :
    frameOp draw s = { s with
      renderEnable := draw, phase := .p1, run := some ⟨s.cfg.qHead, .head⟩,
      frameCycles := BitVec.ofNat 32 s.cfg.qHead, totalCycles := s.totalCycles + BitVec.ofNat 64 s.cfg.qHead,
      rtcTicks := s.rtcTicks + BitVec.ofNat 64 s.cfg.qHead, rtc := (rtcAdvance s.rtcTicks.toNat s.cfg.qHead s).rtc,
      trace := s.trace ++ [.run s.cfg.qHead .head] } := by
  have hzero : (0 : Word) + BitVec.ofNat 32 s.cfg.qHead = BitVec.ofNat 32 s.cfg.qHead := BitVec.zero_add _
  rw [frameOp, if_neg (by simp [hl]), requestQuantum_eq, hzero,
    rtcAdvance_rtc (s := s) (t := { s with renderEnable := draw, frameCycles := 0, phase := .p1 }) rfl rfl rfl]

/-- Settles O45: FRAME is accepted, and its start is one record update. -/
theorem frameStartsWithTheHeadQuantum : Obligations.FrameStartsWithTheHeadQuantum := by
  intro s draw hs hl
  refine ⟨_, acceptCommand_ready hs (frameOp draw), ?_⟩
  rw [frameOp_of_loaded (s := { s with busy := true }) draw hl,
    rtcAdvance_rtc (s := s) (t := { s with busy := true }) rfl rfl rfl]

/-! ### The scheduler's decisions -/

theorem visible_iff {ly : Byte} : visible ly = true ↔ 1 ≤ ly.toNat ∧ ly.toNat < 144 := by
  simp [visible, visLo, visEnd]

theorem inVblank_iff {ly : Byte} : inVblank ly = true ↔ 144 ≤ ly.toNat := by
  simp [inVblank, visEnd]

theorem schedule_p1 (hp : s.phase = .p1) : schedule s = .next { s with phase := .p2 } := by
  unfold schedule; rw [hp]

theorem schedule_p2_visible (hp : s.phase = .p2) (h1 : 1 ≤ s.ly.toNat) (h2 : s.ly.toNat < 144) :
    schedule s = .next (lineQuantum s) := by
  unfold schedule; rw [hp]
  exact if_pos (visible_iff.2 ⟨h1, h2⟩)

theorem schedule_p2_ended (hp : s.phase = .p2) (h : s.ly.toNat = 0 ∨ 144 ≤ s.ly.toNat) :
    schedule s = .next (vblankHook s) := by
  have hv : ¬ visible s.ly = true := by rw [visible_iff]; omega
  unfold schedule; rw [hp]
  exact if_neg hv

theorem schedule_p3_off (hp : s.phase = .p3) (h : s.lcdOn = false) :
    schedule s = .next (requestQuantum s.cfg.qSkip .skip { s with phase := .p4s }) := by
  unfold schedule; rw [hp]
  exact if_neg (by rw [h]; exact Bool.false_ne_true)

theorem schedule_p3_on (hp : s.phase = .p3) (h : s.lcdOn = true) : schedule s = .next { s with phase := .p4l } := by
  unfold schedule; rw [hp]
  exact if_pos h

theorem schedule_p4s (hp : s.phase = .p4s) : schedule s = .next (frameDone s) := by
  unfold schedule; rw [hp]

theorem schedule_p4l_vblank (hp : s.phase = .p4l) (h : 144 ≤ s.ly.toNat) : schedule s = .next (lineQuantum s) := by
  unfold schedule; rw [hp]
  exact if_pos (inVblank_iff.2 h)

theorem schedule_p4l_ended (hp : s.phase = .p4l) (h : s.ly.toNat < 144) : schedule s = .next (frameDone s) := by
  have hv : ¬ inVblank s.ly = true := by rw [inVblank_iff]; omega
  unfold schedule; rw [hp]
  exact if_neg hv

/-! ### Steps inside a FRAME -/

/-- The scheduler has control (R160): the block is busy, between quanta, with no reset to come. -/
structure Scheduling (s : State) : Prop where
  halted : s.halted = false
  stalled : s.stalled = false
  busy : s.busy = true
  run : s.run = none
  host : ∀ k rest, s.host ≠ .resetAfter k :: rest

theorem Scheduling.step (h : Scheduling s) : step s = schedule s := by
  have hturn : Machine.step s = schedulerTurn s := by
    simp [Machine.step, turn, h.halted, h.stalled, h.busy, h.run]
  rw [hturn, schedulerTurn]
  split
  · exact absurd (by assumption) (h.host _ _)
  · exact absurd (by assumption) (h.host _ _)
  · rfl

/-- Settles O46: the scheduler's step, by the phase and the line counter. -/
theorem schedulerFollowsThePhases : Obligations.SchedulerFollowsThePhases := by
  intro s hh hst hb hr hhost request
  have hline : ∀ p, s.phase = p → lineQuantum s = request s.lineCycles.toNat .line p := by
    rintro p rfl
    exact requestQuantum_eq _ _ s
  have hskip : requestQuantum s.cfg.qSkip .skip { s with phase := .p4s } = request s.cfg.qSkip .skip .p4s := by
    rw [requestQuantum_eq, rtcAdvance_rtc (s := s) (t := { s with phase := .p4s }) rfl rfl rfl]
  rw [Scheduling.step ⟨hh, hst, hb, hr, hhost⟩]
  exact ⟨schedule_p1, fun hp h1 h2 => hline _ hp ▸ schedule_p2_visible hp h1 h2, schedule_p2_ended,
    fun hp h => hskip ▸ schedule_p3_off hp h, schedule_p3_on, schedule_p4s,
    fun hp h => hline _ hp ▸ schedule_p4l_vblank hp h, schedule_p4l_ended⟩

/-- ENV acknowledges the end of the quantum (R163). -/
theorem step_envReturns {es : List EnvAct} (hq : s.inQuantum) (hb : s.busy = true) (henv : s.env = .done :: es) :
    step s = .next { s with env := es, run := none } := by
  have hnext : nextEnv s = .done := by rw [nextEnv, henv]
  have htaken : envTaken s = { s with env := es } := by rw [envTaken, henv]
  rw [step_of_inQuantum hq hb, envTurn, hnext, htaken]
  rfl

/-! ### A FRAME with the display off -/

/-- Phase 3 with the display off requests the SKIP quantum (R167). -/
theorem Scheduling.step_skip (h : Scheduling s) (hp : s.phase = .p3) (hlcd : s.lcdOn = false) :
    ∃ r, Machine.step s = .next { s with
      phase := .p4s, run := some ⟨s.cfg.qSkip, .skip⟩, frameCycles := s.frameCycles + BitVec.ofNat 32 s.cfg.qSkip,
      totalCycles := s.totalCycles + BitVec.ofNat 64 s.cfg.qSkip,
      rtcTicks := s.rtcTicks + BitVec.ofNat 64 s.cfg.qSkip, rtc := r,
      trace := s.trace ++ [.run s.cfg.qSkip .skip] } :=
  ⟨_, (h.step.trans (schedule_p3_off hp hlcd)).trans (congrArg Host.Outcome.next (requestQuantum_eq _ _ _))⟩

/-- From the SKIP quantum to the end, where ENV only returns (R167, R168). -/
theorem run_skipQuantum {es : List EnvAct} (hq : s.inQuantum) (hb : s.busy = true) (hp : s.phase = .p4s)
    (hhost : ∀ k rest, s.host ≠ .resetAfter k :: rest) (henv : s.env = .done :: es) :
    core.run 2 s = .next { s with env := es, run := none, phase := .idle, result := 0, busy := false } := by
  have hsched : Scheduling { s with env := es, run := none } := ⟨hq.1, hq.2.1, hb, rfl, hhost⟩
  rw [run_succ_of_next (step_envReturns hq hb henv), run_succ_of_next (hsched.step.trans (schedule_p4s hp))]
  rfl

/-- The six steps after FRAME's start, where ENV only returns and the display is off (R165 to R168, R170). -/
theorem run_displayOff {es : List EnvAct} (hq : s.inQuantum) (hb : s.busy = true) (hp : s.phase = .p1)
    (hlcd : s.lcdOn = false) (hly : s.ly.toNat = 0 ∨ 144 ≤ s.ly.toNat)
    (hhost : ∀ k rest, s.host ≠ .resetAfter k :: rest) (henv : s.env = .done :: .done :: es) :
    ∃ r, core.run 6 s = .next { s with
      env := es, run := none, result := 0, busy := false, phase := .idle,
      frameCycles := s.frameCycles + BitVec.ofNat 32 s.cfg.qSkip,
      totalCycles := s.totalCycles + BitVec.ofNat 64 s.cfg.qSkip,
      rtcTicks := s.rtcTicks + BitVec.ofNat 64 s.cfg.qSkip, rtc := r,
      trace := s.trace ++ [.vblank] ++ [.run s.cfg.qSkip .skip] } := by
  obtain ⟨hh, hst, -⟩ := id hq
  have hreturned : Scheduling { s with env := .done :: es, run := none } := ⟨hh, hst, hb, rfl, hhost⟩
  have hphase2 : Scheduling { s with env := .done :: es, run := none, phase := .p2 } := ⟨hh, hst, hb, rfl, hhost⟩
  have hphase3 : Scheduling (vblankHook { s with env := .done :: es, run := none, phase := .p2 }) :=
    ⟨hh, hst, hb, rfl, hhost⟩
  obtain ⟨r, hskip⟩ := hphase3.step_skip rfl hlcd
  rw [run_succ_of_next (step_envReturns hq hb henv), run_succ_of_next (hreturned.step.trans (schedule_p1 hp)),
    run_succ_of_next (hphase2.step.trans (schedule_p2_ended rfl hly)), run_succ_of_next hskip]
  exact ⟨r, run_skipQuantum ⟨hh, hst, rfl⟩ hb rfl hhost rfl⟩

/-- Settles O49: FRAME's start, then the six steps to its end. -/
theorem displayOffFrameIsOneFrameOfCycles : Obligations.DisplayOffFrameIsOneFrameOfCycles := by
  intro s draw hs es hready hl hrun hlcd hly hnoreset hhost henv
  have hstart := step_frame hready hhost
  have hu := frameOp_of_loaded (s := { s with host := hs, cw := encode (.frame draw), busy := true }) draw hl
  generalize frameOp draw _ = u at hstart hu
  rw [run_succ_of_next hstart]
  obtain ⟨r, hend⟩ := run_displayOff (s := u) (es := es) (by rw [hu]; exact ⟨hready.2.1, hready.2.2, rfl⟩) (by rw [hu])
    (by rw [hu]) (by rw [hu]; exact hlcd) (by rw [hu]; exact hly) (by rw [hu]; exact hnoreset) (by rw [hu]; exact henv)
  refine ⟨_, hend, ?_⟩
  rw [hu]
  simp only [hready.1, hrun, BitVec.ofNat_add, BitVec.add_assoc, List.append_assoc, List.cons_append, List.nil_append]
  rfl

end Sys2Proof.Machine
end

section
/-! PROOFS. The reset input: the values of R201, and every moment at which it can be asserted (R200, R203, R209; log
entry 9). -/

namespace Sys2Proof.Machine

variable {s t u : State} {hs rest : List HostAct} {w : Word} {i : Instr} {k : Nat}

/-! ### The reset values -/

theorem resetWith_resetValues (c : Config) : ResetValues (State.resetWith c) := by
  constructor <;> intros <;> rfl

/-- Settles O11: the reset values do not depend on the parameters, and the reset input gives the same ones. -/
theorem stateAfterReset : Obligations.StateAfterReset := ⟨resetWith_resetValues, resetInput_resetValues⟩

/-! ### A step that takes the reset input -/

/-- A step that ends in the reset input resets the block, and keeps the files and the parameters it acts on. -/
theorem resets_of_step (hstep : step s = .next (resetInput u)) (hfiles : u.files = s.files) (hcfg : u.cfg = s.cfg) :
    ∃ t, step s = .next t ∧ ResetValues t ∧ t.files = s.files ∧ t.cfg = s.cfg :=
  ⟨_, hstep, resetInput_resetValues u, hfiles, hcfg⟩

/-- Reset is taken from an idle block too (R200). -/
theorem step_of_ready_reset (h : s.ready) (hhost : s.host = .reset :: rest ∨ ∃ k, s.host = .resetAfter k :: rest) :
    step s = .next (resetInput { s with host := rest }) := by
  rw [step_of_ready h, hostTurn]
  rcases hhost with hhost | ⟨k, hhost⟩ <;> rw [hhost]

/-- Reset on an idle block, on a halted one and on a hanging one (R184, R200, R210). -/
theorem step_of_reset (h : s.busy = false ∨ s.halted = true ∨ s.stalled = true)
    (hhost : s.host = .reset :: rest ∨ ∃ k, s.host = .resetAfter k :: rest) :
    step s = .next (resetInput { s with host := rest }) := by
  by_cases hstop : s.halted = true ∨ s.stalled = true
  · exact step_of_resetNext hstop (resetNext_eq_some.mpr hhost)
  · have hready : s.ready := ⟨h.resolve_right hstop, by simpa using hstop⟩
    exact step_of_ready_reset hready hhost

/-- Reset asserted inside a quantum is one of the actions there. -/
theorem step_of_quantumReset (hq : s.inQuantum) (hb : s.busy = true) (henv : nextEnv s = .reset) :
    step s = .next (resetInput (envTaken s)) := by
  rw [step_of_inQuantum hq hb, envTurn, henv]; rfl

/-! ### Between two quanta -/

theorem step_of_betweenQuanta (hh : s.halted = false) (hst : s.stalled = false) (hb : s.busy = true)
    (hr : s.run = none) : step s = schedulerTurn s := by
  simp [step, turn, hh, hst, hb, hr]

/-- A quantum request neither reads nor writes the HOST's list. -/
theorem requestQuantum_withHost (n : Nat) (q : QKind) (hs : List HostAct) (s : State) :
    requestQuantum n q { s with host := hs } = { requestQuantum n q s with host := hs } := by
  rw [requestQuantum_eq, requestQuantum_eq, rtcAdvance_rtc (s := s) (t := { s with host := hs }) rfl rfl rfl]

/-- No decision of the scheduler reads or writes the HOST's list. -/
theorem schedule_withHost (h : schedule s = .next u) :
    schedule { s with host := hs } = .next { u with host := hs } := by
  have hline : lineQuantum { s with host := hs } = { lineQuantum s with host := hs } :=
    requestQuantum_withHost s.lineCycles.toNat .line hs s
  have hskip : requestQuantum s.cfg.qSkip .skip { s with host := hs, phase := .p4s } =
      { requestQuantum s.cfg.qSkip .skip { s with phase := .p4s } with host := hs } :=
    requestQuantum_withHost s.cfg.qSkip .skip hs { s with phase := .p4s }
  unfold schedule at h ⊢
  dsimp only
  split at h
  case h_1 => cases h
  case h_2 => cases h; rfl
  case h_3 =>
    split at h <;> cases h
    next hv => exact (if_pos hv).trans (congrArg Host.Outcome.next hline)
    next hv => exact if_neg hv
  case h_4 =>
    split at h <;> cases h
    next hlcd => exact if_pos hlcd
    next hlcd => exact (if_neg hlcd).trans (congrArg Host.Outcome.next hskip)
  case h_5 => cases h; rfl
  case h_6 =>
    split at h <;> cases h
    next hv => exact (if_pos hv).trans (congrArg Host.Outcome.next hline)
    next hv => exact if_neg hv

/-- Reset still to come after more of the scheduler's decisions does not change the one at hand. -/
theorem schedulerTurn_before_reset (hhost : s.host = .resetAfter (k + 1) :: rest)
    (h : schedulerTurn { s with host := [] } = .next u) :
    schedulerTurn s = .next { u with host := .resetAfter k :: rest } := by
  have hdecision : schedule { s with host := [] } = .next u := h
  rw [schedulerTurn, hhost]
  exact schedule_withHost (s := { s with host := [] }) hdecision

/-! ### While a command is in flight -/

theorem cartUnloadOp_cfg (hst : s.stalled = false) : (cartUnloadOp s).cfg = s.cfg := by
  unfold cartUnloadOp
  split
  · obtain ⟨fc, ⟨-, e⟩ | ⟨-, e⟩⟩ := closeThen_cases (s := { s with slot := [], ftag := [], ramPages := 0, sram := [] })
      .cart cartFileClosed hst
    · rw [e]
    · rw [e]; rfl
  · rfl

theorem frameOp_cfg (draw : Bool) (s : State) : (frameOp draw s).cfg = s.cfg := by
  unfold frameOp
  split
  · rfl
  · rw [requestQuantum_eq]

/-- No command changes the parameters, however it ends (R4). -/
theorem exec_command_cfg (hp : i.port = .command) (hrun : exec i s = .next t) : t.cfg = s.cfg := by
  cases i with
  | cartLoad id => rw [cartLoad_frame hrun]
  | cartUnload =>
    obtain ⟨hready, rfl⟩ := acceptCommand_next hrun
    exact cartUnloadOp_cfg (s := { s with busy := true }) hready.2.2
  | bankLoad n =>
    obtain ⟨hframe, -⟩ := (bankOperationsKeepTheRest s t).1 _ (.inl ⟨n, rfl⟩) hrun
    rw [hframe]
  | preload count =>
    obtain ⟨hframe, -⟩ := (bankOperationsKeepTheRest s t).1 _ (.inr ⟨count, rfl⟩) hrun
    rw [hframe]
  | sramSave id quick => rw [(sramSave_frame hrun).1]
  | sramLoad id => rw [(sramLoad_frame hrun).1]
  | stateSave id => rw [(stateSave_frame hrun).1]
  | stateLoad id => rw [stateLoad_frame hrun]
  | frame draw =>
    obtain ⟨-, rfl⟩ := acceptCommand_next hrun
    exact frameOp_cfg draw { s with busy := true }
  | rtcGet => obtain ⟨-, rfl⟩ := acceptCommand_next hrun; rfl
  | rtcSet => obtain ⟨-, rfl⟩ := acceptCommand_next hrun; rfl
  | _ => cases hp

theorem present_cfg (hrun : present w s = .next u) : u.cfg = s.cfg := by
  rcases present_cases hrun with ⟨i, hdec, hrun⟩ | ⟨-, rfl⟩
  · exact exec_command_cfg (s := { s with cw := w }) (port_of_decode hdec) hrun
  · rfl

/-- An idle block takes every command word, reserved or not (R62, R71). -/
theorem present_of_ready (h : s.ready) (w : Word) : ∃ u, present w s = .next u := by
  cases hdec : decode .command w with
  | ok i =>
    obtain ⟨op, hop⟩ := exec_eq_acceptCommand (port_of_decode hdec)
    exact ⟨_, (present_of_ok hdec).trans ((hop _).trans (acceptCommand_ready (s := { s with cw := w }) h op))⟩
  | error e => exact ⟨_, present_of_error hdec h⟩

/-- A step that presents a command with reset to come ends in the reset input, on what the command had done. -/
theorem step_of_commandReset (h : s.ready) (hhost : s.host = .commandReset w k :: rest)
    (hrun : present w { s with host := rest, answers := cutAnswers k s } = .next u) :
    step s = .next (resetInput { u with answers := s.answers.drop k, freeCount := u.freeCount + k }) := by
  have hcut : present w { s with host := rest, answers := cutAnswers k { s with host := rest } } = .next u := hrun
  rw [step_of_ready h, hostTurn, hhost]
  dsimp only
  rw [presentReset, hcut]

/-- Settles O12: by where reset lands. -/
theorem resetInputResetsTheBlock : Obligations.ResetInputResetsTheBlock := by
  refine fun s => ⟨fun hstop rest hhost => ?_, fun hq hb henv => ?_, fun hh hst hb hr => ⟨fun rest hhost => ?_,
    fun k rest u hhost hstep => ?_⟩, fun hready w k rest hhost => ?_⟩
  · exact resets_of_step (step_of_reset hstop hhost) rfl rfl
  · exact resets_of_step (step_of_quantumReset hq hb henv) (envTaken_files s) (envTaken_cfg s)
  · refine resets_of_step (u := { s with host := rest }) ?_ rfl rfl
    rw [step_of_betweenQuanta hh hst hb hr, schedulerTurn, hhost]
  · rw [step_of_betweenQuanta (s := { s with host := [] }) hh hst hb hr] at hstep
    exact (step_of_betweenQuanta hh hst hb hr).trans (schedulerTurn_before_reset hhost hstep)
  · obtain ⟨u, hrun⟩ := present_of_ready (s := { s with host := rest, answers := cutAnswers k s }) hready w
    have hcfg := present_cfg hrun
    exact ⟨_, u, hrun, step_of_commandReset hready hhost hrun, resetInput_resetValues _, rfl, hcfg⟩

end Sys2Proof.Machine
end
